-- ==== Sys2Proof/Word.lean ====
section
/-!
DEFINITION. The machine's words and their plainest arithmetic: the scalar word, the byte, the 512-byte vector, the
predicate and the accumulator (R23, R24), and the modulo-2^n step of a counter.
-/

namespace Sys2Proof

/-- A scalar register, a program counter or an address: 64 bits (R23, R24). -/
abbrev Word := BitVec 64

/-- A byte of memory. -/
abbrev Byte := BitVec 8

/-- A 32-bit instruction word, FP32 value or 32-bit element. -/
abbrev Word32 := BitVec 32

/-- A 512-byte vector; byte `b` is bits `8b+7 .. 8b` (R24, R47). -/
abbrev Vec := BitVec 4096

/-- A 512-bit predicate, or the byte mask of an sq entry: bit `b` governs byte `b` (R26, R33). -/
abbrev Pred := BitVec 512

/-- An accumulator: 32 rows of 32 FP32 elements; element (i, j) is bits `32(32i+j)+31 .. 32(32i+j)` (R24). -/
abbrev Acc := BitVec 32768

/-- A 64-byte memory unit, or a chain entry or ring packet of 64 bytes. -/
abbrev Line := BitVec 512

/-- The predicate whose every bit is set: what p0 reads as (R24). -/
def Pred.ones : Pred := BitVec.allOnes 512

end Sys2Proof
end

