-- ==== Sys2Proof/Forms.lean ====
section
/-!
DEFINITION. The operand kinds that the fields of an instruction name (R81 to R101): register numbers, predicate
prefixes, vector sources and destinations, element types, rounding control, stream fields, copy operands, matrix
shapes and pairs. Syntax.lean builds Instr from them.
-/

namespace Sys2Proof

/-- A scalar register field: a0-a31 in the A-stream, c0-c31 in the C-stream (R30). -/
abbrev Reg := Fin 32

/-- The predicate prefix of an SRR or SRI instruction (R83): PQ names p0-p15 and PN negates it. -/
structure Pq where
  pn : Bool
  pq : Fin 16
deriving DecidableEq, Repr

/-- Rounding modes (R53, R54): 0b00 RNE, 0b01 RTZ, 0b10 RDN, 0b11 RUP. -/
inductive RMode where
  | rne | rtz | rdn | rup
deriving DecidableEq, Repr

/-- The rounding-control field without its reserved bit 3 (R54). -/
structure Rnd where
  sat  : Bool
  mode : RMode
deriving DecidableEq, Repr

/-- Element types of the vector format (R93). -/
inductive EType where
  | i4 | i8 | i16 | i32 | bf16 | f32 | mx
deriving DecidableEq, Repr

/-- A V field as a source (R92). -/
inductive VSrc where
  | v (n : Fin 48)
  | o (n : Fin 8)
  | y (n : Fin 2)
  | stream
  | lq (n : Fin 4)
deriving DecidableEq, Repr

/-- A V field as a destination (R92): y0 and y1 have no place here (R28). -/
inductive VDst where
  | v (n : Fin 48)
  | o (n : Fin 8)
  | stream
  | sq (n : Fin 2)
deriving DecidableEq, Repr

/-- The fields of word 1 that every vector instruction carries besides vc and type (R90). -/
structure VMods where
  pm   : Fin 64
  z    : Bool
  sf   : Fin 16
  af   : Fin 16
  port : Fin 16
  rnd  : Rnd
deriving DecidableEq, Repr

/-- The fields of a stream descriptor that sset and sget select (R87). -/
inductive StrmField where
  | base | etype | geom | sbase | sstride
  | loop (l : Fin 6)
deriving DecidableEq, Repr

/-- The operands of a CPY word and of its extension word (R86, R87). -/
structure CpyOps where
  gd   : Reg
  ga   : Reg
  gb   : Reg
  b    : Fin 8
  slot : Fin 48
deriving DecidableEq, Repr

/-- The types of an atomic (R88). -/
inductive AmoType where
  | i32 | i64 | n32 | n64 | f32
deriving DecidableEq, Repr

/-- Fusion shapes (R99, R213). -/
inductive Shape where
  | s1x4 | s4x1 | s2x2 | ind
deriving DecidableEq, Repr

/-- Format pairs of the A and B operands (R60, R99). -/
inductive Pair where
  | bf16bf16 | mx8mx8 | bf16mx8 | mx6mx6 | mx8mx4 | mx4mx8 | bf16mx4 | mx4mx4
deriving DecidableEq, Repr

/-- Drain activations (R63, R99). -/
inductive Act where
  | none | relu | clamp
deriving DecidableEq, Repr

/-- Drain output types (R99): OT 0 f32, 1 bf16, 2 i8, 3 i16, 4 i32, 5 i4. -/
inductive DrainType where
  | f32 | bf16 | i8 | i16 | i32 | i4
deriving DecidableEq, Repr

/-- The set flag and await flag of a matrix or row command (R90, R99, R100). -/
structure FMods where
  sf : Fin 16
  af : Fin 16
deriving DecidableEq, Repr

/-- The epilogue and output fields of mdrain (R99). -/
structure DrainMods where
  rs   : Bool
  cs   : Bool
  bias : Bool
  act  : Act
  ot   : DrainType
  q    : Bool
  rnd  : Rnd
deriving DecidableEq, Repr

/-- Row-engine input types (R100): IT 4 bf16 or 5 f32. -/
inductive RowIn where
  | bf16 | f32
deriving DecidableEq, Repr

/-- Row-engine output types (R100): OT 1 i8, 4 bf16 or 5 f32. -/
inductive RowOut where
  | i8 | bf16 | f32
deriving DecidableEq, Repr

/-- The fields of a row command (R100). -/
structure RowOps where
  si  : Fin 16
  so  : Fin 16
  len : Fin 4096
  ck  : Reg
  sm  : Fin 16
  it  : RowIn
  ot  : RowOut
  fm  : FMods
  rnd : Rnd
deriving DecidableEq, Repr

end Sys2Proof
end

