-- ==== Sys2Proof/Syntax.lean ====
section
/-!
DEFINITION. The whole step table of spec/opcode_table.json as one inductive: one constructor for each row. Rows 0 to
268 are the instructions of the two slices, with RESERVED_ESCAPE and UNALLOCATED_MAJOR beside them (R102). The other rows are the
events of the machine's engines and of the outside parties: they have no operands in a word, and what the outside brings
with one stands in State (its field input). Constructors with operands come first, in the table's order, and then those without:
compiled Lean can build a constructor with operands only among its first 244, and Decode.lean says what that asks of the decoder.
-/

namespace Sys2Proof

/-- One step of the machine: an instruction of a slice, or an event of an engine or of an outside party. -/
inductive Instr where
  /-- QPUSH_XQ (R134): A-slice pushes ga as one xq entry, blocking on a full queue or the slip limit. -/
  | qpushXq (ga : Reg)
  /-- QPUSH_YQ (R134): C-slice pushes ga as one yq entry, reserving it at issue. -/
  | qpushYq (ga : Reg)
  /-- QPOP_YQ (R134): A-slice pops one yq entry into gd, blocking while empty. -/
  | qpopYq (gd : Reg)
  /-- QPOP_XQ (R134): C-slice pops one xq entry into gd, stopping precisely on a poison entry. -/
  | qpopXq (gd : Reg)
  /-- ADD (R119): gd := (a + b) mod 2^64. -/
  | add (gd ga gb : Reg) (q : Pq)
  /-- SUB (R119): gd := (a - b) mod 2^64. -/
  | sub (gd ga gb : Reg) (q : Pq)
  /-- MUL (R119): gd := low 64 bits of a times b. -/
  | mul (gd ga gb : Reg) (q : Pq)
  /-- MULH (R119): gd := high 64 bits of the signed 128-bit product. -/
  | mulh (gd ga gb : Reg) (q : Pq)
  /-- MULHN (R119): gd := high 64 bits of the unsigned 128-bit product. -/
  | mulhn (gd ga gb : Reg) (q : Pq)
  /-- DIV (R120): gd := signed quotient truncated towards zero, with the special cases of R49. -/
  | div (gd ga gb : Reg) (q : Pq)
  /-- DIVN (R120): gd := unsigned quotient, all ones for a zero divisor. -/
  | divn (gd ga gb : Reg) (q : Pq)
  /-- REM (R120): gd := signed remainder with the sign of the dividend. -/
  | rem (gd ga gb : Reg) (q : Pq)
  /-- REMN (R120): gd := unsigned remainder, the dividend for a zero divisor. -/
  | remn (gd ga gb : Reg) (q : Pq)
  /-- AND (R119): gd := a AND b. -/
  | and (gd ga gb : Reg) (q : Pq)
  /-- OR (R119): gd := a OR b. -/
  | or (gd ga gb : Reg) (q : Pq)
  /-- XOR (R119): gd := a XOR b. -/
  | xor (gd ga gb : Reg) (q : Pq)
  /-- ANDN (R119): gd := a AND NOT b. -/
  | andn (gd ga gb : Reg) (q : Pq)
  /-- ORN (R119): gd := a OR NOT b. -/
  | orn (gd ga gb : Reg) (q : Pq)
  /-- SHL (R119): gd := a shifted left by b mod 64. -/
  | shl (gd ga gb : Reg) (q : Pq)
  /-- SHR (R119): gd := a shifted right logically by b mod 64. -/
  | shr (gd ga gb : Reg) (q : Pq)
  /-- SRA (R119): gd := a shifted right arithmetically by b mod 64. -/
  | sra (gd ga gb : Reg) (q : Pq)
  /-- ROTL (R119): gd := a rotated left by b mod 64. -/
  | rotl (gd ga gb : Reg) (q : Pq)
  /-- ROTR (R119): gd := a rotated right by b mod 64. -/
  | rotr (gd ga gb : Reg) (q : Pq)
  /-- MIN (R119): gd := signed minimum of a and b. -/
  | min (gd ga gb : Reg) (q : Pq)
  /-- MAX (R119): gd := signed maximum of a and b. -/
  | max (gd ga gb : Reg) (q : Pq)
  /-- MINN (R119): gd := unsigned minimum of a and b. -/
  | minn (gd ga gb : Reg) (q : Pq)
  /-- MAXN (R119): gd := unsigned maximum of a and b. -/
  | maxn (gd ga gb : Reg) (q : Pq)
  /-- SEQ (R119): gd := 1 if a equals b, else 0. -/
  | seq (gd ga gb : Reg) (q : Pq)
  /-- SNE (R119): gd := 1 if a differs from b, else 0. -/
  | sne (gd ga gb : Reg) (q : Pq)
  /-- SLT (R119): gd := 1 if a < b signed, else 0. -/
  | slt (gd ga gb : Reg) (q : Pq)
  /-- SLTN (R119): gd := 1 if a < b unsigned, else 0. -/
  | sltn (gd ga gb : Reg) (q : Pq)
  /-- SLE (R119): gd := 1 if a <= b signed, else 0. -/
  | sle (gd ga gb : Reg) (q : Pq)
  /-- SLEN (R119): gd := 1 if a <= b unsigned, else 0. -/
  | slen (gd ga gb : Reg) (q : Pq)
  /-- SEL (R119): gd := a if the old gd is non-zero, else b. -/
  | sel (gd ga gb : Reg) (q : Pq)
  /-- CLZ (R119): gd := number of leading zero bits of a, 64 for zero. -/
  | clz (gd ga : Reg) (q : Pq)
  /-- CTZ (R119): gd := number of trailing zero bits of a, 64 for zero. -/
  | ctz (gd ga : Reg) (q : Pq)
  /-- POPC (R119): gd := number of one bits of a. -/
  | popc (gd ga : Reg) (q : Pq)
  /-- ADDI (R121): gd := a plus the sign-extended imm10. -/
  | addi (gd ga : Reg) (q : Pq) (imm : BitVec 10)
  /-- MULI (R121): gd := a times the sign-extended imm10, mod 2^64. -/
  | muli (gd ga : Reg) (q : Pq) (imm : BitVec 10)
  /-- ANDI (R121): gd := a AND the sign-extended imm10. -/
  | andi (gd ga : Reg) (q : Pq) (imm : BitVec 10)
  /-- ORI (R121): gd := a OR the sign-extended imm10. -/
  | ori (gd ga : Reg) (q : Pq) (imm : BitVec 10)
  /-- XORI (R121): gd := a XOR the sign-extended imm10. -/
  | xori (gd ga : Reg) (q : Pq) (imm : BitVec 10)
  /-- SLTI (R121): gd := 1 if a < imm10 signed, else 0. -/
  | slti (gd ga : Reg) (q : Pq) (imm : BitVec 10)
  /-- SLTNI (R121): gd := 1 if a < sign-extended imm10 unsigned, else 0. -/
  | sltni (gd ga : Reg) (q : Pq) (imm : BitVec 10)
  /-- SHLI (R121): gd := a shifted left by an immediate 0-63. -/
  | shli (gd ga : Reg) (q : Pq) (imm : BitVec 10)
  /-- SHRI (R121): gd := a shifted right logically by an immediate 0-63. -/
  | shri (gd ga : Reg) (q : Pq) (imm : BitVec 10)
  /-- SRAI (R121): gd := a shifted right arithmetically by an immediate 0-63. -/
  | srai (gd ga : Reg) (q : Pq) (imm : BitVec 10)
  /-- LDI (R121): gd := the sign-extended imm10. -/
  | ldi (gd : Reg) (q : Pq) (imm : BitVec 10)
  /-- LDHI (R121): gd := imm[31:0] in bits [63:32] over the old gd[31:0]. -/
  | ldhi (gd : Reg) (q : Pq) (imm : BitVec 10)
  /-- ADDI_EXT (R121): addi with the immediate taken from a 32-bit extension word. -/
  | addiExt (gd ga : Reg) (q : Pq) (imm : BitVec 32)
  /-- MULI_EXT (R121): muli with the immediate taken from a 32-bit extension word. -/
  | muliExt (gd ga : Reg) (q : Pq) (imm : BitVec 32)
  /-- ANDI_EXT (R121): andi with the immediate taken from a 32-bit extension word. -/
  | andiExt (gd ga : Reg) (q : Pq) (imm : BitVec 32)
  /-- ORI_EXT (R121): ori with the immediate taken from a 32-bit extension word. -/
  | oriExt (gd ga : Reg) (q : Pq) (imm : BitVec 32)
  /-- XORI_EXT (R121): xori with the immediate taken from a 32-bit extension word. -/
  | xoriExt (gd ga : Reg) (q : Pq) (imm : BitVec 32)
  /-- SLTI_EXT (R121): slti with the immediate taken from a 32-bit extension word. -/
  | sltiExt (gd ga : Reg) (q : Pq) (imm : BitVec 32)
  /-- SLTNI_EXT (R121): sltni with the immediate taken from a 32-bit extension word. -/
  | sltniExt (gd ga : Reg) (q : Pq) (imm : BitVec 32)
  /-- SHLI_EXT (R121): shli with the shift count taken from an extension word. -/
  | shliExt (gd ga : Reg) (q : Pq) (imm : BitVec 32)
  /-- SHRI_EXT (R121): shri with the shift count taken from an extension word. -/
  | shriExt (gd ga : Reg) (q : Pq) (imm : BitVec 32)
  /-- SRAI_EXT (R121): srai with the shift count taken from an extension word. -/
  | sraiExt (gd ga : Reg) (q : Pq) (imm : BitVec 32)
  /-- LDI_EXT (R121): ldi with the sign-extended 32-bit extension word as value. -/
  | ldiExt (gd : Reg) (q : Pq) (imm : BitVec 32)
  /-- LDHI_EXT (R121): ldhi with the high half taken from the extension word. -/
  | ldhiExt (gd : Reg) (q : Pq) (imm : BitVec 32)
  /-- BEQ (R123): Branches to address + 4*off12 if a equals b. -/
  | beq (ga gb : Reg) (off : BitVec 12)
  /-- BNE (R123): Branches if a differs from b. -/
  | bne (ga gb : Reg) (off : BitVec 12)
  /-- BLT (R123): Branches if a < b signed. -/
  | blt (ga gb : Reg) (off : BitVec 12)
  /-- BGE (R123): Branches if a >= b signed. -/
  | bge (ga gb : Reg) (off : BitVec 12)
  /-- BLTN (R123): Branches if a < b unsigned. -/
  | bltn (ga gb : Reg) (off : BitVec 12)
  /-- BGEN (R123): Branches if a >= b unsigned. -/
  | bgen (ga gb : Reg) (off : BitVec 12)
  /-- LOOP (R124): Decrements ga and branches while the new count is non-zero. -/
  | loop (ga : Reg) (off : BitVec 12)
  /-- BEQ_EXT (R123): beq with the offset in an extension word. -/
  | beqExt (ga gb : Reg) (off : BitVec 32)
  /-- BNE_EXT (R123): bne with the offset in an extension word. -/
  | bneExt (ga gb : Reg) (off : BitVec 32)
  /-- BLT_EXT (R123): blt with the offset in an extension word. -/
  | bltExt (ga gb : Reg) (off : BitVec 32)
  /-- BGE_EXT (R123): bge with the offset in an extension word. -/
  | bgeExt (ga gb : Reg) (off : BitVec 32)
  /-- BLTN_EXT (R123): bltn with the offset in an extension word. -/
  | bltnExt (ga gb : Reg) (off : BitVec 32)
  /-- BGEN_EXT (R123): bgen with the offset in an extension word. -/
  | bgenExt (ga gb : Reg) (off : BitVec 32)
  /-- LOOP_EXT (R124): loop with the offset in an extension word. -/
  | loopExt (ga : Reg) (off : BitVec 32)
  /-- SSET (R145): Writes the selected field of a stream's shadow copy from ga. -/
  | sset (sn : Fin 16) (f : StrmField) (ga : Reg)
  /-- SGO (R149): Snapshots, checks and arms a stream's shadow copy, waiting for a snapshot place. -/
  | sgo (sn : Fin 16)
  /-- SGET (R145): Reads the selected field of a stream's shadow copy into gd. -/
  | sget (gd : Reg) (sn : Fin 16) (f : StrmField)
  /-- LD_B (R141): Loads a sign-extended byte. -/
  | ldB (gd ga : Reg) (off : BitVec 12)
  /-- LD_H (R141): Loads a sign-extended half-word. -/
  | ldH (gd ga : Reg) (off : BitVec 12)
  /-- LD_W (R141): Loads a sign-extended word. -/
  | ldW (gd ga : Reg) (off : BitVec 12)
  /-- LD_D (R141): Loads a double-word. -/
  | ldD (gd ga : Reg) (off : BitVec 12)
  /-- LD_BN (R141): Loads a zero-extended byte. -/
  | ldBn (gd ga : Reg) (off : BitVec 12)
  /-- LD_HN (R141): Loads a zero-extended half-word. -/
  | ldHn (gd ga : Reg) (off : BitVec 12)
  /-- LD_WN (R141): Loads a zero-extended word. -/
  | ldWn (gd ga : Reg) (off : BitVec 12)
  /-- LD_B_EXT (R141): ld.b with a 32-bit offset extension word. -/
  | ldBExt (gd ga : Reg) (off : BitVec 32)
  /-- LD_H_EXT (R141): ld.h with a 32-bit offset extension word. -/
  | ldHExt (gd ga : Reg) (off : BitVec 32)
  /-- LD_W_EXT (R141): ld.w with a 32-bit offset extension word. -/
  | ldWExt (gd ga : Reg) (off : BitVec 32)
  /-- LD_D_EXT (R141): ld.d with a 32-bit offset extension word. -/
  | ldDExt (gd ga : Reg) (off : BitVec 32)
  /-- LD_BN_EXT (R141): ld.bn with a 32-bit offset extension word. -/
  | ldBnExt (gd ga : Reg) (off : BitVec 32)
  /-- LD_HN_EXT (R141): ld.hn with a 32-bit offset extension word. -/
  | ldHnExt (gd ga : Reg) (off : BitVec 32)
  /-- LD_WN_EXT (R141): ld.wn with a 32-bit offset extension word. -/
  | ldWnExt (gd ga : Reg) (off : BitVec 32)
  /-- ST_B (R141): Stores gb[7:0]. -/
  | stB (gb ga : Reg) (off : BitVec 12)
  /-- ST_H (R141): Stores gb[15:0]. -/
  | stH (gb ga : Reg) (off : BitVec 12)
  /-- ST_W (R141): Stores gb[31:0]. -/
  | stW (gb ga : Reg) (off : BitVec 12)
  /-- ST_D (R141): Stores gb as a double-word. -/
  | stD (gb ga : Reg) (off : BitVec 12)
  /-- ST_B_EXT (R141): st.b with a 32-bit offset extension word. -/
  | stBExt (gb ga : Reg) (off : BitVec 32)
  /-- ST_H_EXT (R141): st.h with a 32-bit offset extension word. -/
  | stHExt (gb ga : Reg) (off : BitVec 32)
  /-- ST_W_EXT (R141): st.w with a 32-bit offset extension word. -/
  | stWExt (gb ga : Reg) (off : BitVec 32)
  /-- ST_D_EXT (R141): st.d with a 32-bit offset extension word. -/
  | stDExt (gb ga : Reg) (off : BitVec 32)
  /-- VLD (R142): Reserves an lqN entry and reads 512 bytes into it, poisoning it on a fault at the check. -/
  | vld (n : Fin 4) (ga : Reg) (off : BitVec 12)
  /-- LDX (R142): Reserves an xq entry and reads 8 bytes into it. -/
  | ldx (ga : Reg) (off : BitVec 12)
  /-- VLD_EXT (R142): vld with a 32-bit offset extension word. -/
  | vldExt (n : Fin 4) (ga : Reg) (off : BitVec 32)
  /-- LDX_EXT (R142): ldx with a 32-bit offset extension word. -/
  | ldxExt (ga : Reg) (off : BitVec 32)
  /-- VST (R144): Pops an sqN entry and writes its mask-active bytes to memory. -/
  | vst (n : Fin 2) (ga : Reg) (off : BitVec 12)
  /-- STX (R144): Pops a yq entry and stores it as a 64-bit value. -/
  | stx (ga : Reg) (off : BitVec 12)
  /-- VST_EXT (R144): vst with a 32-bit offset extension word. -/
  | vstExt (n : Fin 2) (ga : Reg) (off : BitVec 32)
  /-- STX_EXT (R144): stx with a 32-bit offset extension word. -/
  | stxExt (ga : Reg) (off : BitVec 32)
  /-- CPY_IN (R152): Starts a linear memory-to-scratchpad copy in a slot, counting chunks into a byte barrier. -/
  | cpyIn (o : CpyOps)
  /-- CPY_OUT (R152): Starts a linear scratchpad-to-memory copy. -/
  | cpyOut (o : CpyOps)
  /-- CPY_2D_IN (R152): Starts a copy of memory rows into packed scratchpad rows. -/
  | cpy2dIn (o : CpyOps)
  /-- CPY_2D_OUT (R152): Starts a copy of packed scratchpad rows to memory rows. -/
  | cpy2dOut (o : CpyOps)
  /-- CPY_GTH (R152): Starts a gather copy of list pieces packed into the scratchpad. -/
  | cpyGth (o : CpyOps)
  /-- CPY_WB (R153): Starts a linear copy from memory into the weight buffer. -/
  | cpyWb (o : CpyOps)
  /-- CPY_LINK (R154): Records a chain head and barrier in a slot and leaves it LINKED. -/
  | cpyLink (ga : Reg) (b : Fin 8) (slot : Fin 48)
  /-- CPY_KICK (R154): Starts the chain of a LINKED slot. -/
  | cpyKick (slot : Fin 48)
  /-- AMO_ADD (R163): Indivisibly adds gb to the SYNC word and returns the old value. -/
  | amoAdd (gd ga gb : Reg) (t : AmoType)
  /-- AMO_MIN (R163): Indivisibly stores the minimum and returns the old value. -/
  | amoMin (gd ga gb : Reg) (t : AmoType)
  /-- AMO_MAX (R163): Indivisibly stores the maximum and returns the old value. -/
  | amoMax (gd ga gb : Reg) (t : AmoType)
  /-- AMO_OR (R163): Indivisibly ORs gb into the word and returns the old value. -/
  | amoOr (gd ga gb : Reg) (t : AmoType)
  /-- AMO_AND (R163): Indivisibly ANDs gb into the word and returns the old value. -/
  | amoAnd (gd ga gb : Reg) (t : AmoType)
  /-- AMO_XOR (R163): Indivisibly XORs gb into the word and returns the old value. -/
  | amoXor (gd ga gb : Reg) (t : AmoType)
  /-- AMO_SWAP (R163): Indivisibly replaces the word with gb and returns the old value. -/
  | amoSwap (gd ga gb : Reg) (t : AmoType)
  /-- AMO_CAS (R163): Indivisibly replaces the word with gb if it equals gd, returning the old value. -/
  | amoCas (gd ga gb : Reg) (t : AmoType)
  /-- DAMO_ADD (R165): Records a deferred add to a SHRD word, applied at the commit. -/
  | damoAdd (ga gb : Reg) (t : AmoType)
  /-- DAMO_MIN (R165): Records a deferred minimum update. -/
  | damoMin (ga gb : Reg) (t : AmoType)
  /-- DAMO_MAX (R165): Records a deferred maximum update. -/
  | damoMax (ga gb : Reg) (t : AmoType)
  /-- DAMO_OR (R165): Records a deferred OR update. -/
  | damoOr (ga gb : Reg) (t : AmoType)
  /-- BWAIT (R150): Blocks while the byte barrier is positive, then acquires its chunks and invalidates the read cache. -/
  | bwait (b : Fin 8)
  /-- BADD (R150): Adds a[31:0] to a byte barrier. -/
  | badd (b : Fin 8) (ga : Reg)
  /-- TACQ (R157): Blocks until the named version is sealed and resident, then acquires it into a handle. -/
  | tacq (tn : Fin 16) (ga : Reg)
  /-- TALLOC (R158): Creates a zero-filled output version of the given size in a handle. -/
  | talloc (tn : Fin 16) (ga gb : Reg)
  /-- TSEAL (R159): Waits for copies, computes the digest, writes the lineage record and seals the version. -/
  | tseal (tn : Fin 16)
  /-- TREL (R159): Releases the task's claim on a version and empties the handle. -/
  | trel (tn : Fin 16)
  /-- TADDR (R159): Writes the virtual address of the version's first byte to gd. -/
  | taddr (gd : Reg) (tn : Fin 16)
  /-- ACQ (R161): Reads a sync object atomically as an acquire and invalidates the read cache. -/
  | acq (ga : Reg)
  /-- REL (R161): Waits for bound stores to be performed, then increments the sync object as a release. -/
  | rel (ga : Reg)
  /-- BIND (R160): Binds a SHRD region to a sync object for the rest of the task. -/
  | bind (gd ga gb : Reg)
  /-- PFLUSH (R168): Adds a DUR range to the set that the next pbar covers. -/
  | pflush (ga gb : Reg)
  /-- PSEAL (R169): Seals a DUR version durably: extent, lineage record, then seal word, each accepted in turn. -/
  | pseal (tn : Fin 16)
  /-- SPAWN (R170): Releases earlier stores, reads and checks a descriptor, and pushes a child task on the core's deque. -/
  | spawn (ga : Reg)
  /-- XLPF (R172): Asks for translations of a range to be loaded into the TLB, never faulting. -/
  | xlpf (ga gb : Reg)
  /-- VADD (R181): Element-wise add, rounded once for floats or wrapping/saturating for integers. -/
  | vadd (vd : VDst) (va vb : VSrc) (t : EType) (m : VMods)
  /-- VSUB (R181): Element-wise subtract. -/
  | vsub (vd : VDst) (va vb : VSrc) (t : EType) (m : VMods)
  /-- VMUL (R181): Element-wise multiply. -/
  | vmul (vd : VDst) (va vb : VSrc) (t : EType) (m : VMods)
  /-- VMULZ (R182): Element-wise zero-annihilating product. -/
  | vmulz (vd : VDst) (va vb : VSrc) (t : EType) (m : VMods)
  /-- VFMA (R181): Fused a*b+c with one rounding. -/
  | vfma (vd : VDst) (va vb vc : VSrc) (t : EType) (m : VMods)
  /-- VFMS (R181): Fused a*b-c with one rounding. -/
  | vfms (vd : VDst) (va vb vc : VSrc) (t : EType) (m : VMods)
  /-- VFNMA (R181): Fused c-a*b with one rounding. -/
  | vfnma (vd : VDst) (va vb vc : VSrc) (t : EType) (m : VMods)
  /-- VMULH (R183): High half of the signed double-width product. -/
  | vmulh (vd : VDst) (va vb : VSrc) (t : EType) (m : VMods)
  /-- VMULHN (R183): High half of the unsigned double-width product. -/
  | vmulhn (vd : VDst) (va vb : VSrc) (t : EType) (m : VMods)
  /-- VMIN (R184): Element-wise signed or float minimum. -/
  | vmin (vd : VDst) (va vb : VSrc) (t : EType) (m : VMods)
  /-- VMAX (R184): Element-wise signed or float maximum. -/
  | vmax (vd : VDst) (va vb : VSrc) (t : EType) (m : VMods)
  /-- VMINN (R184): Element-wise unsigned minimum. -/
  | vminn (vd : VDst) (va vb : VSrc) (t : EType) (m : VMods)
  /-- VMAXN (R184): Element-wise unsigned maximum. -/
  | vmaxn (vd : VDst) (va vb : VSrc) (t : EType) (m : VMods)
  /-- VABS (R184): Element-wise magnitude. -/
  | vabs (vd : VDst) (va : VSrc) (t : EType) (m : VMods)
  /-- VNEG (R184): Element-wise negation. -/
  | vneg (vd : VDst) (va : VSrc) (t : EType) (m : VMods)
  /-- VAND (R185): Bitwise AND. -/
  | vand (vd : VDst) (va vb : VSrc) (t : EType) (m : VMods)
  /-- VOR (R185): Bitwise OR. -/
  | vor (vd : VDst) (va vb : VSrc) (t : EType) (m : VMods)
  /-- VXOR (R185): Bitwise XOR. -/
  | vxor (vd : VDst) (va vb : VSrc) (t : EType) (m : VMods)
  /-- VANDN (R185): Bitwise a AND NOT b. -/
  | vandn (vd : VDst) (va vb : VSrc) (t : EType) (m : VMods)
  /-- VNOT (R185): Bitwise NOT. -/
  | vnot (vd : VDst) (va : VSrc) (t : EType) (m : VMods)
  /-- VSHL (R185): Element-wise left shift by register counts. -/
  | vshl (vd : VDst) (va vb : VSrc) (t : EType) (m : VMods)
  /-- VSHR (R185): Element-wise logical right shift by register counts. -/
  | vshr (vd : VDst) (va vb : VSrc) (t : EType) (m : VMods)
  /-- VSRA (R185): Element-wise arithmetic right shift by register counts. -/
  | vsra (vd : VDst) (va vb : VSrc) (t : EType) (m : VMods)
  /-- VSHLI (R185): Element-wise left shift by an immediate. -/
  | vshli (vd : VDst) (va : VSrc) (imm : Fin 64) (t : EType) (m : VMods)
  /-- VSHRI (R185): Element-wise logical right shift by an immediate. -/
  | vshri (vd : VDst) (va : VSrc) (imm : Fin 64) (t : EType) (m : VMods)
  /-- VSRAI (R185): Element-wise arithmetic right shift by an immediate. -/
  | vsrai (vd : VDst) (va : VSrc) (imm : Fin 64) (t : EType) (m : VMods)
  /-- VFSHL (R186): Funnel shift left of joined element pairs. -/
  | vfshl (vd : VDst) (va vb vc : VSrc) (t : EType) (m : VMods)
  /-- VFSHR (R186): Funnel shift right of joined element pairs. -/
  | vfshr (vd : VDst) (va vb vc : VSrc) (t : EType) (m : VMods)
  /-- VPOPC (R185): Counts one bits per element. -/
  | vpopc (vd : VDst) (va : VSrc) (t : EType) (m : VMods)
  /-- VCLZ (R185): Counts leading zeros per element. -/
  | vclz (vd : VDst) (va : VSrc) (t : EType) (m : VMods)
  /-- VCTZ (R185): Counts trailing zeros per element. -/
  | vctz (vd : VDst) (va : VSrc) (t : EType) (m : VMods)
  /-- VCEQ (R187): Sets predicate elements where a equals b. -/
  | vceq (pd : Fin 64) (va vb : VSrc) (t : EType) (m : VMods)
  /-- VCNE (R187): Sets predicate elements where a differs from b. -/
  | vcne (pd : Fin 64) (va vb : VSrc) (t : EType) (m : VMods)
  /-- VCLT (R187): Sets predicate elements where a < b. -/
  | vclt (pd : Fin 64) (va vb : VSrc) (t : EType) (m : VMods)
  /-- VCLE (R187): Sets predicate elements where a <= b. -/
  | vcle (pd : Fin 64) (va vb : VSrc) (t : EType) (m : VMods)
  /-- VCLTN (R187): Sets predicate elements where a < b unsigned. -/
  | vcltn (pd : Fin 64) (va vb : VSrc) (t : EType) (m : VMods)
  /-- VCLEN (R187): Sets predicate elements where a <= b unsigned. -/
  | vclen (pd : Fin 64) (va vb : VSrc) (t : EType) (m : VMods)
  /-- VCUN (R187): Sets predicate elements where either operand is NaN. -/
  | vcun (pd : Fin 64) (va vb : VSrc) (t : EType) (m : VMods)
  /-- PAND (R188): Predicate AND. -/
  | pand (pd pa pb : Fin 64) (m : VMods)
  /-- POR (R188): Predicate OR. -/
  | por (pd pa pb : Fin 64) (m : VMods)
  /-- PXOR (R188): Predicate XOR. -/
  | pxor (pd pa pb : Fin 64) (m : VMods)
  /-- PANDN (R188): Predicate AND NOT. -/
  | pandn (pd pa pb : Fin 64) (m : VMods)
  /-- PNOT (R188): Predicate inversion. -/
  | pnot (pd pa : Fin 64) (m : VMods)
  /-- PSET (R188): Writes all ones to a predicate. -/
  | pset (pd : Fin 64) (m : VMods)
  /-- PCLR (R188): Writes all zeros to a predicate. -/
  | pclr (pd : Fin 64) (m : VMods)
  /-- PLT (R189): Sets predicate elements whose index is below c. -/
  | plt (pd : Fin 64) (ca : Reg) (t : EType) (m : VMods)
  /-- PGE (R189): Sets predicate elements whose index is at least c. -/
  | pge (pd : Fin 64) (ca : Reg) (t : EType) (m : VMods)
  /-- VCVT (R191): Converts elements between formats under R56. -/
  | vcvt (vd : VDst) (va : VSrc) (src t : EType) (m : VMods)
  /-- VQNT (R192): Quantizes FP32 elements by exact division with one rounding. -/
  | vqnt (vd : VDst) (va vb : VSrc) (t : EType) (m : VMods)
  /-- VDQNT (R193): Dequantizes integer or MX codes to FP32 with group multipliers. -/
  | vdqnt (vd : VDst) (va vb : VSrc) (t : EType) (m : VMods)
  /-- VPACK4 (R194): Narrows two i8 vectors to one i4 vector. -/
  | vpack4 (vd : VDst) (va vb : VSrc) (t : EType) (m : VMods)
  /-- VUNPK4 (R194): Sign-extends i4 elements into an i8 pair. -/
  | vunpk4 (vd : VDst) (va : VSrc) (t : EType) (m : VMods)
  /-- VWID2 (R195): Widens elements exactly into a pair at twice the width. -/
  | vwid2 (vd : VDst) (va : VSrc) (t : EType) (m : VMods)
  /-- VWID4 (R195): Widens elements exactly into a quad at four times the width. -/
  | vwid4 (vd : VDst) (va : VSrc) (t : EType) (m : VMods)
  /-- VWMUL2 (R195): Writes exact double-width products into a pair. -/
  | vwmul2 (vd : VDst) (va vb : VSrc) (t : EType) (m : VMods)
  /-- VPERM (R196): Permutes elements within windows by index. -/
  | vperm (vd : VDst) (va vb : VSrc) (t : EType) (m : VMods)
  /-- VPERM2 (R196): Permutes elements from two sources by index. -/
  | vperm2 (vd : VDst) (va vb vc : VSrc) (t : EType) (m : VMods)
  /-- VCOMP (R197): Packs active elements to the low end. -/
  | vcomp (vd : VDst) (va : VSrc) (t : EType) (m : VMods)
  /-- VEXPD (R197): Expands low elements into active positions. -/
  | vexpd (vd : VDst) (va : VSrc) (t : EType) (m : VMods)
  /-- VSLUP (R198): Slides elements up by s, filling from vc. -/
  | vslup (vd : VDst) (va : VSrc) (cb : Reg) (vc : VSrc) (t : EType) (m : VMods)
  /-- VSLDN (R198): Slides elements down by s, filling from vc. -/
  | vsldn (vd : VDst) (va : VSrc) (cb : Reg) (vc : VSrc) (t : EType) (m : VMods)
  /-- VBCAST (R199): Broadcasts one element of va to every active element. -/
  | vbcast (vd : VDst) (va : VSrc) (cb : Reg) (t : EType) (m : VMods)
  /-- VSPLAT (R199): Writes a scalar to every active element. -/
  | vsplat (vd : VDst) (ca : Reg) (t : EType) (m : VMods)
  /-- VMOV (R199): Copies 512 bytes under byte-wise predication. -/
  | vmov (vd : VDst) (va : VSrc) (m : VMods)
  /-- VINS (R200): Inserts a scalar into one element. -/
  | vins (vd : VDst) (ca cb : Reg) (t : EType) (m : VMods)
  /-- VEXT (R200): Extracts one element into a c register. -/
  | vext (cd : Reg) (va : VSrc) (cb : Reg) (t : EType) (m : VMods)
  /-- VIDX (R199): Writes c + j to each active element j. -/
  | vidx (vd : VDst) (ca : Reg) (t : EType) (m : VMods)
  /-- VRSUM (R201): Reduces elements by a fixed pairwise sum tree. -/
  | vrsum (vd : VDst) (va : VSrc) (t : EType) (m : VMods)
  /-- VRMAX (R201): Reduces elements to their maximum. -/
  | vrmax (vd : VDst) (va : VSrc) (t : EType) (m : VMods)
  /-- VRMIN (R201): Reduces elements to their minimum. -/
  | vrmin (vd : VDst) (va : VSrc) (t : EType) (m : VMods)
  /-- VGMAX (R202): Writes each group's maximum to its active elements. -/
  | vgmax (vd : VDst) (va : VSrc) (imm : Fin 64) (t : EType) (m : VMods)
  /-- VSCAN (R203): Forms an inclusive prefix sum in ascending order. -/
  | vscan (vd : VDst) (va : VSrc) (t : EType) (m : VMods)
  /-- VRCPE (R204): Reciprocal estimate of R67. -/
  | vrcpe (vd : VDst) (va : VSrc) (t : EType) (m : VMods)
  /-- VRSQE (R204): Reciprocal square root estimate of R68. -/
  | vrsqe (vd : VDst) (va : VSrc) (t : EType) (m : VMods)
  /-- VRCPS (R204): Reciprocal Newton step of R70. -/
  | vrcps (vd : VDst) (va vb : VSrc) (t : EType) (m : VMods)
  /-- VRSQS (R204): Reciprocal square root Newton step of R70. -/
  | vrsqs (vd : VDst) (va vb : VSrc) (t : EType) (m : VMods)
  /-- VEXP2_F (R205): Fast exp2 within its error bound; DET_VIOLATION in determinism mode. -/
  | vexp2F (vd : VDst) (va : VSrc) (t : EType) (m : VMods)
  /-- VLOG2_F (R205): Fast log2 within its error bound. -/
  | vlog2F (vd : VDst) (va : VSrc) (t : EType) (m : VMods)
  /-- VTANH_F (R205): Fast tanh within its error bound. -/
  | vtanhF (vd : VDst) (va : VSrc) (t : EType) (m : VMods)
  /-- VEXP2_X (R206): Reproducible exp2 by the sequence of R73. -/
  | vexp2X (vd : VDst) (va : VSrc) (t : EType) (m : VMods)
  /-- VLOG2_X (R206): Reproducible log2 by the sequence of R74. -/
  | vlog2X (vd : VDst) (va : VSrc) (t : EType) (m : VMods)
  /-- VTANH_X (R206): Reproducible tanh by the sequence of R75. -/
  | vtanhX (vd : VDst) (va : VSrc) (t : EType) (m : VMods)
  /-- VRNG (R207): Writes CG(K, C+j) to 32-bit lane j. -/
  | vrng (vd : VDst) (ca cb : Reg) (m : VMods)
  /-- VRNG_D (R207): Writes the 64-bit form of CG(K, C+j) to 8-byte lane j. -/
  | vrngD (vd : VDst) (ca cb : Reg) (m : VMods)
  /-- VSPILL (R208): Writes 512 bytes from a source to a spill slot. -/
  | vspill (slot : Fin 256) (va : VSrc) (m : VMods)
  /-- VFILL (R208): Writes a spill slot to a vector destination. -/
  | vfill (vd : VDst) (slot : Fin 256) (m : VMods)
  /-- WBSEL (R211): Loads a window register from two c registers and resets its cursor. -/
  | wbsel (w : Fin 4) (ca cb : Reg) (fm : FMods)
  /-- MZERO (R216): Writes +0 to every element of an accumulator. -/
  | mzero (md : Fin 8) (fm : FMods)
  /-- MMA (R214): Accumulates A from a stream times B from a window into a bank over ksteps K-steps. -/
  | mma (md : Fin 8) (sa : Fin 16) (w : Fin 4) (shape : Shape) (pair : Pair) (ksteps : Fin 4096) (fm : FMods)
  /-- MMAZ (R214): As mma, starting each accumulator from +0. -/
  | mmaz (md : Fin 8) (sa : Fin 16) (w : Fin 4) (shape : Shape) (pair : Pair) (ksteps : Fin 4096) (fm : FMods)
  /-- MDRAIN (R218): Scales, biases, activates and narrows an accumulator into an output stream. -/
  | mdrain (md : Fin 8) (sa sx : Fin 16) (dm : DrainMods) (fm : FMods)
  /-- MMOV (R216): Copies one accumulator into another bit for bit. -/
  | mmov (md ms : Fin 8) (fm : FMods)
  /-- MSWAP (R216): Exchanges two accumulators bit for bit. -/
  | mswap (md ms : Fin 8) (fm : FMods)
  /-- MSTAT (R217): Writes NaN, infinity and non-zero counts of an accumulator to a c register. -/
  | mstat (cd : Reg) (md : Fin 8) (fm : FMods)
  /-- RSMAX (R223): Writes the maximum of each input row. -/
  | rsmax (r : RowOps)
  /-- REXPS (R223): Writes exponentials of rows against given maxima, then their sums. -/
  | rexps (r : RowOps)
  /-- RSCAL (R223): Divides each row by its given sum with one rounding. -/
  | rscal (r : RowOps)
  /-- RSOFTMAX (R223): Computes the softmax of each row. -/
  | rsoftmax (r : RowOps)
  /-- RNORM (R223): Normalizes each row by its root mean square plus epsilon. -/
  | rnorm (r : RowOps)
  /-- FSET (R225): At dispatch adds cnt to a flag, faulting if it would exceed 15. -/
  | fset (f cnt : Fin 16)
  /-- FWAIT (R226): Holds the front end until the flag reaches cnt, then subtracts cnt. -/
  | fwait (f cnt : Fin 16)
  /-- DEFINED_ILLEGAL (R102): Major 0x3F raises the illegal-instruction fault with subcause DEFINED and reports bits [25:0]. -/
  | definedIllegal (code : BitVec 26)
  /-- TRAP (R130): Stops the context as a precise trap with cause TRAP and resume address at the next instruction. -/
  | trap (imm : BitVec 12)
  /-- BRK (R130): Stops the context as a precise trap with cause BREAK and resume address at the brk itself. -/
  | brk (imm : BitVec 12)
  /-- SYSRD (R132): Writes the value of the named system register to gd. -/
  | sysrd (gd : Reg) (num : BitVec 12)
  /-- SYSWR (R132): Writes ga to the named system register where the level allows it, with W1C semantics for VFLG. -/
  | syswr (num : BitVec 12) (ga : Reg)
  /-- BFX (R122): gd := zero-extended bit field of a at pos with width wm1+1. -/
  | bfx (gd ga : Reg) (pos wm1 : Fin 64)
  /-- BFXS (R122): gd := sign-extended bit field of a at pos with width wm1+1. -/
  | bfxs (gd ga : Reg) (pos wm1 : Fin 64)
  /-- BFI (R122): Inserts the low width bits of a into gd at pos. -/
  | bfi (gd ga : Reg) (pos wm1 : Fin 64)
  /-- CALL (R125): Writes the return address to gd and jumps by off21 words. -/
  | call (gd : Reg) (off : BitVec 21)
  /-- JMP (R125): Jumps by off21 words without keeping a link. -/
  | jmp (off : BitVec 21)
  /-- CALLR (R125): Writes the return address to gd and continues at the value of ga read before the link. -/
  | callr (gd ga : Reg)
  /-- JR (R125): Continues at the value of ga without a link. -/
  | jr (ga : Reg)
  /-- LDS (R128): Reads an 8-byte lane of a spill slot into a c register. -/
  | lds (g : Reg) (slot : Fin 256) (lane : Fin 64)
  /-- STS (R128): Writes a c register into an 8-byte lane of a spill slot. -/
  | sts (g : Reg) (slot : Fin 256) (lane : Fin 64)
  /-- RESERVED_ESCAPE (R102): A word with major 0x3E raises the illegal-instruction fault with subcause ESCAPE. -/
  | reservedEscape (low : BitVec 26)
  /-- UNALLOCATED_MAJOR (R102): A word whose major opcode is unallocated (0x0F, 0x14-0x1F, 0x28-0x2F, 0x3B-0x3D) raises the illegal-instruction fault with subcause UNALLOC. -/
  | unallocatedMajor (major : Fin 64) (low : BitVec 26) (w1 : BitVec 32)
  /-- NOP (R129): Does nothing and takes one dispatch. -/
  | nop
  /-- ILLEGAL_ZERO_WORD (R102): The all-zero word raises the illegal-instruction fault with subcause ZERO. -/
  | illegalZeroWord
  /-- ERET (R131): At supervisor level, waits for both handler slices' eret, then restores the context from TRAPREC and resumes in scoreboard mode. -/
  | eret
  /-- DONE (R129): Ends the executing slice, in the C-slice once every earlier dispatched instruction has issued; at supervisor level it fails the task. -/
  | done
  /-- FENCE_T (R162): Orders the task's accesses at task scope. -/
  | fenceT
  /-- FENCE_D (R162): Orders the task's accesses at domain scope. -/
  | fenceD
  /-- FENCE_P (R162): Orders the task's accesses at partition scope. -/
  | fenceP
  /-- FENCE_S (R162): Orders the task's accesses at system scope. -/
  | fenceS
  /-- FENCE_DUR (R299): Starts a new persist epoch without blocking the A-slice. -/
  | fenceDur
  /-- DBAR (R166): Hands the phase to the commit and blocks until every live member has reached the same barrier. -/
  | dbar
  /-- PBAR (R167): Blocks until every earlier DUR store, chunk and flushed range of the task is accepted. -/
  | pbar
  /-- YIELD (R171): Waits for copies and gives up the context, the task becoming SUSPENDED. -/
  | yield
  /-- RESULT_LANDING (R43): At t+L an issued C-slice operation's result becomes visible, retiring it, setting its flag, raising VFLG and updating the last-result file. -/
  | resultLanding
  /-- LOAD_DATA_ARRIVAL (R234): The data of a checked vld or ldx arrives and its reserved entry becomes poppable. -/
  | loadDataArrival
  /-- CHUNK_LANDING (R151): A 256-byte chunk of a copy lands, decrements its byte barrier and, at the end, frees the slot or posts the chain counter. -/
  | chunkLanding
  /-- COPY_FAULT (R155): A fault found in flight stops the copy at a chunk and is raised at the next A-slice boundary. -/
  | copyFault
  /-- CHAIN_WAIT_RELEASE (R154): A chain entry whose SYNC counter reaches WAITV starts its copy. -/
  | chainWaitRelease
  /-- DECOUPLE_DEADLOCK (R20): Both slices are stuck on coupling-queue conditions with nothing in flight, and the task fails. -/
  | decoupleDeadlock
  /-- FLAG_DEADLOCK (R21): Front end and engine queues are blocked waiting on flags no issued instruction will set, and the task fails. -/
  | flagDeadlock
  /-- RESIDENCY_TIMEOUT (R22): A tile acquire blocked past RTMO lets the core switch in its shadow context. -/
  | residencyTimeout
  /-- SILENT_ERR (R255): A Marver or residue mismatch aborts the task and re-creates it where possible. -/
  | silentErr
  /-- TASK_RETIREMENT (R17): A task whose slices are done and whose queues and operations are drained retires, commits and releases handles. -/
  | taskRetirement
  /-- HANDLER_ENTRY (R246): After the cut and save-area write, the handler at TRAPVEC is loaded and started at supervisor level. -/
  | handlerEntry
  /-- SWITCH_COMPLETE (R252): 96 cc after a switch request the incoming context issues its first instruction. -/
  | switchComplete
  /-- SPILL_COMPLETE (R253): The spill engine finishes writing a shadowed context, which becomes SUSPENDED and frees its bank. -/
  | spillComplete
  /-- TASK_READY (R329): A WAITING task whose operands are resident and signals applied becomes READY and is placed in a deque. -/
  | taskReady
  /-- TASK_DISPATCH (R331): A free active bank takes the highest-priority READY deque entry and loads it with a save area. -/
  | taskDispatch
  /-- TASK_STEAL (R333): A core with a free bank and no READY entry takes one from another core's deque. -/
  | taskSteal
  /-- PRIORITY_PREEMPTION (R335): A higher-priority READY entry displaces the active context to the shadow bank after QUANT. -/
  | priorityPreemption
  /-- SPAWN_OVERFLOW_RESUME (R170): A spawn suspended on a faulting overflow write resumes once the page is resident. -/
  | spawnOverflowResume
  /-- GANG_RESERVING (R336): The highest-priority QUEUED gang starts reserving banks. -/
  | gangReserving
  /-- GANG_RUNNING (R336): A reserving gang holds a bank for every member and starts running. -/
  | gangRunning
  /-- GANG_RESERVE_TIMEOUT (R336): RTMO elapses in RESERVING and the gang releases its banks and returns to QUEUED. -/
  | gangReserveTimeout
  /-- GANG_FORM_TIMEOUT (R336): A gang FORMING past SCHED_FORM fails its members with DOMAIN_CONFLICT subcause 3. -/
  | gangFormTimeout
  /-- GANG_PREEMPTION (R337): A RUNNING gang is switched out as a whole on every member's core in one cycle. -/
  | gangPreemption
  /-- DBAR_COMMIT (R270): When every live member has arrived, the phase logs are applied in ascending member index and the members released. -/
  | dbarCommit
  /-- FINAL_COMMIT (R166): When the last member ends without a later barrier, the last phases of retired members are applied. -/
  | finalCommit
  /-- VD_KICK (R322): A kick advances a queue's TAIL through the write-catcher and sets KPEND or wakes the queue. -/
  | vdKick
  /-- QUEUE_ENABLE (R321): SCHED_QCTL enable moves a DISABLED queue to IDLE, PENDING or FROZEN. -/
  | queueEnable
  /-- QUEUE_DISABLE (R321): SCHED_QCTL disable moves an IDLE, FETCH_FAULT or FROZEN queue to DISABLED. -/
  | queueDisable
  /-- QUEUE_RESET (R321): SCHED_QCTL reset sets HEAD and PROGRESS to TAIL and clears shadows, sending the queue to IDLE. -/
  | queueReset
  /-- AGEING_STEP (R325): Each STEP cc a PENDING queue's AGE rises by 1. -/
  | ageingStep
  /-- SLOT_GRANT (R325): A free slot maps the PENDING queue with the highest effective priority after checking its QCB. -/
  | slotGrant
  /-- QUEUE_DISPLACEMENT (R325): A higher-priority PENDING queue displaces a mapped queue at a packet boundary. -/
  | queueDisplacement
  /-- IDLE_UNMAP (R321): A mapped queue idle for SCHED_IDLE cc starts unmapping. -/
  | idleUnmap
  /-- UNMAPPING_COMPLETE (R321): Slot state is written back and the queue goes to IDLE or, with KPEND, PENDING. -/
  | unmappingComplete
  /-- PACKET_FETCH (R327): The sequencer fetches a complete packet, applies shadow replacements and journals it. -/
  | packetFetch
  /-- NOP_PACKET (R316): A NOP packet completes at once. -/
  | nopPacket
  /-- LAUNCH (R317): Admits the shadow-register descriptor as a root task with a kept copy. -/
  | launch
  /-- WAITV (R318): Holds later packets until the SYNC word reaches VAL, then acquires at system scope. -/
  | waitv
  /-- SIGNAL (R318): After earlier work completes, writes or adds VAL to a SYNC word as a release and may send a CMPL. -/
  | signal
  /-- COPY_PACKET (R319): Copies LEN bytes between VAs of the VD. -/
  | copyPacket
  /-- TILEPUT (R319): Creates and seals a root tile version from memory. -/
  | tileput
  /-- MAP (R319): Writes a stage-1 entry and invalidates it. -/
  | map
  /-- FENCE_PACKET (R318): Holds later packets until every earlier one is complete, and with scope 4 until their DUR stores are accepted. -/
  | fencePacket
  /-- DORMANT_PACKET (R368): Explicitly requests a collapse of the VD. -/
  | dormantPacket
  /-- REHEAT_PACKET (R370): Completes at once while the VD is ACTIVE. -/
  | reheatPacket
  /-- RETRY (R328): Releases the access held by a stage-2 fault record to translate again. -/
  | retry
  /-- PROGRESS_ADVANCE (R323): A packet completes and PROGRESS moves to the end of the longest complete prefix. -/
  | progressAdvance
  /-- JOURNAL_REPLAY (R327): After a microcode trap, slot switch or patch the sequencer restarts its queues from the journal, skipping guarded effects. -/
  | journalReplay
  /-- XINV_STAGE1_PAGE (R288): Removes cached stage-1 entries of one VD page. -/
  | xinvStage1Page
  /-- XINV_STAGE1_ALL (R288): Removes every cached stage-1 entry of a VD. -/
  | xinvStage1All
  /-- XINV_STAGE2_PAGE (R288): Removes cached stage-2 entries of one IPA page and dependent results. -/
  | xinvStage2Page
  /-- XINV_STAGE2_ALL (R288): Removes every cached stage-2 entry of the partition. -/
  | xinvStage2All
  /-- XINV_COMPLETE (R288): An invalidation finishes and XSTAT.PEND falls. -/
  | xinvComplete
  /-- STG_ENABLE (R293): A write of STG_CTL with EN = 1 starts staging if its fields are valid. -/
  | stgEnable
  /-- STG_DISABLE (R293): A write of STG_CTL with EN = 0 lets copies in flight finish and starts nothing more. -/
  | stgDisable
  /-- STAGING_READ_COMPLETE (R294): A staged tile copy completes, its digest is checked, and it becomes sealed and resident or is refetched from REPL. -/
  | stagingReadComplete
  /-- WRITE_ACCEPTED (R297): A site enters a DUR write into its write-pending buffer, making it durable. -/
  | writeAccepted
  /-- UNIT_PROGRAMMED (R298): A buffered unit is programmed into the media and frees buffer space. -/
  | unitProgrammed
  /-- POWER_LOSS (R307): Loss of supply stops acceptance and starts each site's drain. -/
  | powerLoss
  /-- SITE_DRAIN_COMPLETE (R307): A site finishes programming its buffer and records its clean mark. -/
  | siteDrainComplete
  /-- DURABLE_POOL_SCAN (R309): In reduced service the part scans every durable pool's blocks and rewrites its pool head. -/
  | durablePoolScan
  /-- REGATHER_WALK (R351): A wanted lost version's home unit walks its lineage and enqueues producers. -/
  | regatherWalk
  /-- LEHR_REPLICA_COMPLETE (R346): Lehr finishes an anchor's replica, sets REPLICA and clears APEND. -/
  | lehrReplicaComplete
  /-- LEHR_RETRY (R346): Every 2^20 cc Lehr retries a replica that found no space. -/
  | lehrRetry
  /-- TFREE (R348): Releases the named version of the VD and frees it once unused. -/
  | tfree
  /-- TILE_DIGEST_EXCHANGE (R359): The mirror pair compares a sealed version's digests before it becomes acquirable. -/
  | tileDigestExchange
  /-- COMMIT_DIGEST_EXCHANGE (R360): The mirror pair compares a staged commit's digests and applies it or re-runs. -/
  | commitDigestExchange
  /-- UNCORRECTABLE_ERROR (R434): A 64-byte unit of HBM or durable tier fails, losing versions or failing accesses. -/
  | uncorrectableError
  /-- COMPUTE_DIE_LOSS (R350): Every context on the lost die is aborted as by SILENT_ERR. -/
  | computeDieLoss
  /-- BASE_DIE_LOSS (R350): Every version in the die's stacks or site is lost and its Regather work moves on. -/
  | baseDieLoss
  /-- IMPLICIT_COLLAPSE (R368): A VD quiescent for DIDLE cc starts collapsing. -/
  | implicitCollapse
  /-- COLLAPSE_COMPLETE (R369): Every step of the target depth is done and the VD is DORMANT. -/
  | collapseComplete
  /-- VD_REHEAT (R370): Any write of VD_REHEAT is a reheat trigger. -/
  | vdReheat
  /-- REHEAT_COMPLETE (R371): Reheat steps are undone and the VD becomes ACTIVE, restarting fetching. -/
  | reheatComplete
  /-- VDM_CREATE (R366): Creates a VD from a descriptor, or returns an error result. -/
  | vdmCreate
  /-- VDM_DESTROY (R366): Destroys an idle VD, or clears stale pool descriptors. -/
  | vdmDestroy
  /-- FENCE_COMMAND (R362): The root of trust writes a partition's fence block by a signed command. -/
  | fenceCommand
  /-- REGWR (R380): A host frame writes a VD control page register. -/
  | regwr
  /-- REGRD (R380): A host frame reads a VD control page register and is answered by REGRSP. -/
  | regrd
  /-- REGRSP (R377): A register read response arrives. -/
  | regrsp
  /-- MEMWR (R382): A host frame writes VD memory through its two stages. -/
  | memwr
  /-- MEMRD (R382): A host frame reads VD memory and is answered by MEMRSP. -/
  | memrd
  /-- MEMRSP (R377): A memory read response arrives. -/
  | memrsp
  /-- CMPL (R383): A completion frame for an applied SIGNAL is received. -/
  | cmpl
  /-- PEER (R289): A request from another package: a global access, commit entries, a gang report or a lineage step. -/
  | peer
  /-- ACK (R378): A cumulative acknowledgement frees resend state up to its PSN. -/
  | ack
  /-- NACK (R378): A negative acknowledgement makes the sender resend from the named PSN. -/
  | nack
  /-- HEARTBEAT (R386): A heartbeat frame resets the silence of its path. -/
  | heartbeat
  /-- FENCE_FRAME (R387): A restarted package announces its new incarnation. -/
  | fenceFrame
  /-- RESEND_TIMEOUT (R378): No ACK within 16 us makes the sender resend from its oldest unacknowledged frame. -/
  | resendTimeout
  /-- HEARTBEAT_TIMER (R386): A path idle for 1 us sends a HEARTBEAT. -/
  | heartbeatTimer
  /-- RATE_INCREASE (R379): Each 8 us without a mark raises the sending rate by 1 per cent. -/
  | rateIncrease
  /-- LINK_DOWN (R386): 8 us of silence or loss of block lock takes the port down. -/
  | linkDown
  /-- PATH_FAILED (R386): 64 us of silence with the link up moves the path's flows. -/
  | pathFailed
  /-- PEER_LOST (R387): 512 us of silence on every path to a peer fences its incarnation and loses its homes. -/
  | peerLost
  /-- HOST_LOST (R387): 512 us of silence to a host ends its flows and undelivered CMPLs. -/
  | hostLost
  /-- PATH_LIVE (R386): A recovered link carries traffic again after 1 ms without errors. -/
  | pathLive
  /-- VD_ERR_ACK (R380): Writing 1 to VD_ERR.VALID acknowledges the oldest queue record and frees its save area. -/
  | vdErrAck
  /-- VD_CMPL (R383): Sets completion frames on or off and names the writing host as their receiver. -/
  | vdCmpl
  /-- REGISTER_WRITE (R8): A write to a register with no row of its own sets its RW fields. -/
  | registerWrite
  /-- COLD_START (R390): The part starts in reduced service, trains memory and tests its energy reserve. -/
  | coldStart
  /-- TRAINING_COMPLETE (R390): An HBM stack or durable site finishes training, or fails and is retired. -/
  | trainingComplete
  /-- FULL_SERVICE_ENTRY (R390): With memory trained and the reduced-service VD idle, the part destroys it and enters full service. -/
  | fullServiceEntry
  /-- RETIRED (R398): The root of trust retires a stack or pseudo-channel, making its range unbacked. -/
  | retired
  /-- PATCH_APPLIED (R394): A verified Crucible patch replaces the patch RAM between microinstructions. -/
  | patchApplied
  /-- FIRMWARE_IMAGE (R392): A signed firmware image is verified and installed. -/
  | firmwareImage
  /-- MGMT_FIRMWARE_RESTART (R395): The management controller restarts on a new image, holding records meanwhile. -/
  | mgmtFirmwareRestart
  /-- PORT_ROLE_ASSIGNMENT (R375): The root of trust gives each port its role by a signed object. -/
  | portRoleAssignment
  /-- PEER_TABLE (R384): The root of trust writes the peer table by a signed object. -/
  | peerTable
  /-- RECAL_START (R396): The management controller takes a pseudo-channel out of service for recalibration. -/
  | recalStart
  /-- RECAL (R396): A recalibrated pseudo-channel returns and its held accesses are released. -/
  | recal
  /-- SERDES_LANE_RECAL (R397): A SerDes lane is recalibrated with its port down. -/
  | serdesLaneRecal
  /-- THERMAL (R402): Power or die temperature over its limit lowers the core clock by 75 MHz steps. -/
  | thermal
  /-- THERMAL_RECOVERY (R402): After 1 ms below both limits the clock rises again by a step. -/
  | thermalRecovery
  /-- THERMAL_STOP (R402): 115 C on any die stops every core, drains the durable tier and removes power. -/
  | thermalStop
  /-- HOME_RETURN (R399): The adopting buddy finishes transferring a home to its replacement package and stops serving it. -/
  | homeReturn
  /-- LINK_RECOVERY (R386): A port whose link regains block lock resumes sending heartbeats and starts the 1 ms error-free wait before the path becomes live. -/
  | linkRecovery
  /-- FRAME_TYPE_UNALLOCATED (R377): A received frame with TYPE 12-15 or VER other than 1 is dropped, counted and not acknowledged. -/
  | frameTypeUnallocated
deriving DecidableEq, Repr

end Sys2Proof
end

