-- ==== Sys2Proof/WellFormed.lean ====
section
/-!
DEFINITION. Which terms of Instr the spec's encodings allow: the restrictions of R54 and R80 to R101 (with R121, R122,
R124, R180, R197, R200, R201, R214, R219 and R222) that the types of the operands do not already say. A word whose fields break one
of these is unallocated. Instructions that are events have no encoding and no restriction.
-/

namespace Sys2Proof

/-- PQ = 0 with PN = 1 is unallocated (R83). -/
def Pq.ok (q : Pq) : Bool := q.pq ≠ 0 || !q.pn

/-- The rounding-control values that one row of the table of R180 allows. -/
def Rnd.isZero (r : Rnd) : Bool := !r.sat && r.mode == .rne

/-- MODE any, SAT 0 (R180). -/
def Rnd.noSat (r : Rnd) : Bool := !r.sat

/-- MODE 0b00, SAT 0 or 1 (R180). -/
def Rnd.satOnly (r : Rnd) : Bool := r.mode == .rne

/-- Element width in bits (R47, R93); the MX codes that vdqnt reads are bytes (R193). -/
def EType.width : EType → Nat
  | .i4 => 4 | .i8 => 8 | .i16 => 16 | .i32 => 32 | .bf16 => 16 | .f32 => 32 | .mx => 8

/-- The types of the letter I of R93. -/
def EType.isInt : EType → Bool
  | .i4 => true | .i8 => true | .i16 => true | .i32 => true | .bf16 => false | .f32 => false | .mx => false

/-- The types of the letter F of R93. -/
def EType.isFloat : EType → Bool
  | .bf16 => true | .f32 => true | _ => false

/-- The types I and F together: every type but mx. -/
def EType.isIF (t : EType) : Bool := t != .mx

def VSrc.isO : VSrc → Bool
  | .o _ => true | _ => false

def VDst.isV : VDst → Bool
  | .v _ => true | _ => false

/-- An aligned pair: an even register within v0-v47 (R96). -/
def VDst.pairOk : VDst → Bool
  | .v n => n.val % 2 == 0 | _ => false

/-- An aligned quad: a multiple of 4 within v0-v47 (R96). -/
def VDst.quadOk : VDst → Bool
  | .v n => n.val % 4 == 0 | _ => false

/-- The operand-file and stream rules of R92 over all the V fields of one instruction: at most one operand-file source field,
not a read port and a write port together, and port zero where no field names a stream. -/
def vFieldsOk (vd : Option VDst) (srcs : List VSrc) (m : VMods) : Bool :=
  let rd := srcs.any (· == .stream)
  let wr := vd == some .stream
  (srcs.filter VSrc.isO).length ≤ 1 && !(rd && wr) && (rd || wr || m.port == 0)

/-- A form of integer or float arithmetic whose rounding row is the first or second of R180. -/
def arithRndOk (t : EType) (m : VMods) : Bool :=
  if t.isInt then m.rnd.satOnly else t.isFloat && m.rnd.noSat

/-- An integer or float form with rnd = 0b0000. -/
def plainIF (vd : VDst) (srcs : List VSrc) (t : EType) (m : VMods) : Bool :=
  vFieldsOk (some vd) srcs m && t.isIF && m.rnd.isZero

/-- An integer form with rnd = 0b0000. -/
def plainI (vd : VDst) (srcs : List VSrc) (t : EType) (m : VMods) : Bool :=
  vFieldsOk (some vd) srcs m && t.isInt && m.rnd.isZero

/-- An f32 form with rnd = 0b0000. -/
def plainF32 (vd : VDst) (srcs : List VSrc) (t : EType) (m : VMods) : Bool :=
  vFieldsOk (some vd) srcs m && t == .f32 && m.rnd.isZero

/-- A compare: a destination predicate other than p0 and rnd = 0b0000 (R95, R180). -/
def cmpOk (pd : Fin 64) (srcs : List VSrc) (tyOk : Bool) (m : VMods) : Bool :=
  pd != 0 && vFieldsOk none srcs m && tyOk && m.rnd.isZero

/-- A predicate operation: no V field (R95). -/
def predOk (pd : Fin 64) (m : VMods) : Bool := pd != 0 && m.port == 0 && m.rnd.isZero

/-- log2 of the number of elements of a type in 512 bytes (R47). -/
def EType.log2Count : EType → Nat
  | .i4 => 10 | .i8 => 9 | .mx => 9 | .i16 => 8 | .bf16 => 8 | .i32 => 7 | .f32 => 7

/-- vdqnt (R96, R190): an aligned quad for i4, i8 and mx, an aligned pair for i16, any v register for i32; mx is read through
the stream read port only. -/
def vdqntOk (vd : VDst) (va : VSrc) : EType → Bool
  | .i4 => vd.quadOk
  | .i8 => vd.quadOk
  | .i16 => vd.pairOk
  | .i32 => vd.isV
  | .mx => vd.quadOk && va == .stream
  | .bf16 => false
  | .f32 => false

/-- The atomic types a row of R88 allows: arithmetic forms, ordering forms, and the rest. -/
def AmoType.addOk : AmoType → Bool
  | .i32 => true | .i64 => true | .f32 => true | _ => false

def AmoType.bitOk : AmoType → Bool
  | .i32 => true | .i64 => true | _ => false

/-- K per step (R60). -/
def Pair.kPer : Pair → Nat
  | .bf16bf16 => 4 | .mx8mx8 => 4 | .bf16mx8 => 4 | .mx6mx6 => 8
  | .mx8mx4 => 8 | .mx4mx8 => 8 | .bf16mx4 => 8 | .mx4mx4 => 16

/-- mma and mmaz (R99, R214): md is m0 or m4, ksteps is not 0 and ksteps * K is a multiple of 32; in .ind SA is a multiple
of 4 and W is 0. -/
def mmaOk (md : Fin 8) (sa : Fin 16) (w : Fin 4) (shape : Shape) (pair : Pair) (ksteps : Fin 4096) : Bool :=
  (md == 0 || md == 4) && ksteps != 0 && (ksteps.val * pair.kPer) % 32 == 0 &&
    (shape != .ind || (sa.val % 4 == 0 && w == 0))

/-- Whether an mdrain reads an epilogue stream (R218, R219). -/
def DrainMods.hasEpilogue (d : DrainMods) : Bool := d.rs || d.cs || d.bias || d.act == .clamp || d.q

/-- mdrain (R99, R219). -/
def drainOk (sa sx : Fin 16) (d : DrainMods) : Bool :=
  !d.rnd.sat && (!d.q || d.ot != .f32) && (if d.hasEpilogue then sx != sa else sx == 0)

/-- What every row command asks (R100, R222). -/
def RowOps.base (r : RowOps) : Bool := r.len != 0 && !r.rnd.sat && r.si != r.so

/-- The SM stream is another stream than SI and SO (R222). -/
def RowOps.smOk (r : RowOps) : Bool := r.sm != r.si && r.sm != r.so

/-- Majors that R79 leaves unallocated, the escape 0x3E apart. -/
def unallocMajor (m : Nat) : Bool :=
  m == 0x0F || (0x14 ≤ m && m ≤ 0x1F) || (0x28 ≤ m && m ≤ 0x2F) || (0x3B ≤ m && m ≤ 0x3D)

/-- Whether a major has two words whatever its other bits hold (R78). -/
def twoWordMajor (m : Nat) : Bool := 0x30 ≤ m && m ≤ 0x3D

/-- The spec's encodings allow the instruction with these operands. -/
def Instr.wf : Instr → Bool
  | .nop => true
  | .illegalZeroWord => true
  | .definedIllegal _ => true
  | .trap _ => true
  | .brk _ => true
  | .eret => true
  | .done => true
  | .sysrd _ _ => true
  | .syswr _ _ => true
  | .qpushXq _ => true
  | .qpushYq _ => true
  | .qpopYq _ => true
  | .qpopXq _ => true
  | .add _ _ _ q => q.ok
  | .sub _ _ _ q => q.ok
  | .mul _ _ _ q => q.ok
  | .mulh _ _ _ q => q.ok
  | .mulhn _ _ _ q => q.ok
  | .div _ _ _ q => q.ok
  | .divn _ _ _ q => q.ok
  | .rem _ _ _ q => q.ok
  | .remn _ _ _ q => q.ok
  | .and _ _ _ q => q.ok
  | .or _ _ _ q => q.ok
  | .xor _ _ _ q => q.ok
  | .andn _ _ _ q => q.ok
  | .orn _ _ _ q => q.ok
  | .shl _ _ _ q => q.ok
  | .shr _ _ _ q => q.ok
  | .sra _ _ _ q => q.ok
  | .rotl _ _ _ q => q.ok
  | .rotr _ _ _ q => q.ok
  | .min _ _ _ q => q.ok
  | .max _ _ _ q => q.ok
  | .minn _ _ _ q => q.ok
  | .maxn _ _ _ q => q.ok
  | .seq _ _ _ q => q.ok
  | .sne _ _ _ q => q.ok
  | .slt _ _ _ q => q.ok
  | .sltn _ _ _ q => q.ok
  | .sle _ _ _ q => q.ok
  | .slen _ _ _ q => q.ok
  | .sel _ _ _ q => q.ok
  | .clz _ _ q => q.ok
  | .ctz _ _ q => q.ok
  | .popc _ _ q => q.ok
  | .addi _ _ q _ => q.ok
  | .muli _ _ q _ => q.ok
  | .andi _ _ q _ => q.ok
  | .ori _ _ q _ => q.ok
  | .xori _ _ q _ => q.ok
  | .slti _ _ q _ => q.ok
  | .sltni _ _ q _ => q.ok
  | .shli _ _ q imm => q.ok && imm.toNat ≤ 63
  | .shri _ _ q imm => q.ok && imm.toNat ≤ 63
  | .srai _ _ q imm => q.ok && imm.toNat ≤ 63
  | .ldi _ q _ => q.ok
  | .ldhi _ q _ => q.ok
  | .addiExt _ _ q _ => q.ok
  | .muliExt _ _ q _ => q.ok
  | .andiExt _ _ q _ => q.ok
  | .oriExt _ _ q _ => q.ok
  | .xoriExt _ _ q _ => q.ok
  | .sltiExt _ _ q _ => q.ok
  | .sltniExt _ _ q _ => q.ok
  | .shliExt _ _ q imm => q.ok && imm.toNat ≤ 63
  | .shriExt _ _ q imm => q.ok && imm.toNat ≤ 63
  | .sraiExt _ _ q imm => q.ok && imm.toNat ≤ 63
  | .ldiExt _ q _ => q.ok
  | .ldhiExt _ q _ => q.ok
  | .bfx _ _ pos wm1 => pos.val + wm1.val + 1 ≤ 64
  | .bfxs _ _ pos wm1 => pos.val + wm1.val + 1 ≤ 64
  | .bfi _ _ pos wm1 => pos.val + wm1.val + 1 ≤ 64
  | .beq _ _ _ => true
  | .bne _ _ _ => true
  | .blt _ _ _ => true
  | .bge _ _ _ => true
  | .bltn _ _ _ => true
  | .bgen _ _ _ => true
  | .loop ga _ => ga != 0
  | .beqExt _ _ _ => true
  | .bneExt _ _ _ => true
  | .bltExt _ _ _ => true
  | .bgeExt _ _ _ => true
  | .bltnExt _ _ _ => true
  | .bgenExt _ _ _ => true
  | .loopExt ga _ => ga != 0
  | .call gd _ => gd != 0
  | .jmp _ => true
  | .callr gd _ => gd != 0
  | .jr _ => true
  | .lds _ _ _ => true
  | .sts _ _ _ => true
  | .sset _ _ _ => true
  | .sgo _ => true
  | .sget _ _ _ => true
  | .ldB _ _ _ => true
  | .ldH _ _ _ => true
  | .ldW _ _ _ => true
  | .ldD _ _ _ => true
  | .ldBn _ _ _ => true
  | .ldHn _ _ _ => true
  | .ldWn _ _ _ => true
  | .ldBExt _ _ _ => true
  | .ldHExt _ _ _ => true
  | .ldWExt _ _ _ => true
  | .ldDExt _ _ _ => true
  | .ldBnExt _ _ _ => true
  | .ldHnExt _ _ _ => true
  | .ldWnExt _ _ _ => true
  | .stB _ _ _ => true
  | .stH _ _ _ => true
  | .stW _ _ _ => true
  | .stD _ _ _ => true
  | .stBExt _ _ _ => true
  | .stHExt _ _ _ => true
  | .stWExt _ _ _ => true
  | .stDExt _ _ _ => true
  | .vld _ _ _ => true
  | .ldx _ _ => true
  | .vldExt _ _ _ => true
  | .ldxExt _ _ => true
  | .vst _ _ _ => true
  | .stx _ _ => true
  | .vstExt _ _ _ => true
  | .stxExt _ _ => true
  | .cpyIn _ => true
  | .cpyOut _ => true
  | .cpy2dIn _ => true
  | .cpy2dOut _ => true
  | .cpyGth _ => true
  | .cpyWb _ => true
  | .cpyLink _ _ _ => true
  | .cpyKick _ => true
  | .amoAdd _ _ _ t => t.addOk
  | .amoMin _ _ _ _ => true
  | .amoMax _ _ _ _ => true
  | .amoOr _ _ _ t => t.bitOk
  | .amoAnd _ _ _ t => t.bitOk
  | .amoXor _ _ _ t => t.bitOk
  | .amoSwap _ _ _ t => t.bitOk
  | .amoCas _ _ _ t => t.bitOk
  | .damoAdd _ _ t => t.addOk
  | .damoMin _ _ _ => true
  | .damoMax _ _ _ => true
  | .damoOr _ _ t => t.bitOk
  | .bwait _ => true
  | .badd _ _ => true
  | .tacq _ _ => true
  | .talloc _ _ _ => true
  | .tseal _ => true
  | .trel _ => true
  | .taddr _ _ => true
  | .acq _ => true
  | .rel _ => true
  | .bind _ _ _ => true
  | .fenceT => true
  | .fenceD => true
  | .fenceP => true
  | .fenceS => true
  | .fenceDur => true
  | .dbar => true
  | .pbar => true
  | .pflush _ _ => true
  | .pseal _ => true
  | .spawn _ => true
  | .yield => true
  | .xlpf _ _ => true
  | .vadd vd va vb t m => vFieldsOk (some vd) [va, vb] m && arithRndOk t m
  | .vsub vd va vb t m => vFieldsOk (some vd) [va, vb] m && arithRndOk t m
  | .vmul vd va vb t m => vFieldsOk (some vd) [va, vb] m && arithRndOk t m
  | .vmulz vd va vb t m => vFieldsOk (some vd) [va, vb] m && t.isFloat && m.rnd.noSat
  | .vfma vd va vb vc t m => vFieldsOk (some vd) [va, vb, vc] m && t.isFloat && m.rnd.noSat
  | .vfms vd va vb vc t m => vFieldsOk (some vd) [va, vb, vc] m && t.isFloat && m.rnd.noSat
  | .vfnma vd va vb vc t m => vFieldsOk (some vd) [va, vb, vc] m && t.isFloat && m.rnd.noSat
  | .vmulh vd va vb t m => plainI vd [va, vb] t m
  | .vmulhn vd va vb t m => plainI vd [va, vb] t m
  | .vmin vd va vb t m => plainIF vd [va, vb] t m
  | .vmax vd va vb t m => plainIF vd [va, vb] t m
  | .vminn vd va vb t m => plainI vd [va, vb] t m
  | .vmaxn vd va vb t m => plainI vd [va, vb] t m
  | .vabs vd va t m => plainIF vd [va] t m
  | .vneg vd va t m => plainIF vd [va] t m
  | .vand vd va vb t m => plainI vd [va, vb] t m
  | .vor vd va vb t m => plainI vd [va, vb] t m
  | .vxor vd va vb t m => plainI vd [va, vb] t m
  | .vandn vd va vb t m => plainI vd [va, vb] t m
  | .vnot vd va t m => plainI vd [va] t m
  | .vshl vd va vb t m => plainI vd [va, vb] t m
  | .vshr vd va vb t m => plainI vd [va, vb] t m
  | .vsra vd va vb t m => plainI vd [va, vb] t m
  | .vshli vd va imm t m => plainI vd [va] t m && imm.val < t.width
  | .vshri vd va imm t m => plainI vd [va] t m && imm.val < t.width
  | .vsrai vd va imm t m => plainI vd [va] t m && imm.val < t.width
  | .vfshl vd va vb vc t m => plainI vd [va, vb, vc] t m && t != .i4
  | .vfshr vd va vb vc t m => plainI vd [va, vb, vc] t m && t != .i4
  | .vpopc vd va t m => plainI vd [va] t m
  | .vclz vd va t m => plainI vd [va] t m
  | .vctz vd va t m => plainI vd [va] t m
  | .vceq pd va vb t m => cmpOk pd [va, vb] t.isIF m
  | .vcne pd va vb t m => cmpOk pd [va, vb] t.isIF m
  | .vclt pd va vb t m => cmpOk pd [va, vb] t.isIF m
  | .vcle pd va vb t m => cmpOk pd [va, vb] t.isIF m
  | .vcltn pd va vb t m => cmpOk pd [va, vb] t.isInt m
  | .vclen pd va vb t m => cmpOk pd [va, vb] t.isInt m
  | .vcun pd va vb t m => cmpOk pd [va, vb] t.isFloat m
  | .pand pd _ _ m => predOk pd m
  | .por pd _ _ m => predOk pd m
  | .pxor pd _ _ m => predOk pd m
  | .pandn pd _ _ m => predOk pd m
  | .pnot pd _ m => predOk pd m
  | .pset pd m => predOk pd m
  | .pclr pd m => predOk pd m
  | .plt pd _ t m => predOk pd m && t.isIF
  | .pge pd _ t m => predOk pd m && t.isIF
  | .vcvt vd va src t m => vFieldsOk (some vd) [va] m && t.isIF && src.isIF && t != src
  | .vqnt vd va vb t m => vFieldsOk (some vd) [va, vb] m && m.rnd.noSat && (t == .i4 || t == .i8 || t == .i16 || t == .bf16)
  | .vdqnt vd va vb t m => vFieldsOk (some vd) [va, vb] m && m.rnd.noSat && vdqntOk vd va t
  | .vpack4 vd va vb t m => vFieldsOk (some vd) [va, vb] m && m.rnd.satOnly && t == .i8
  | .vunpk4 vd va t m => vFieldsOk (some vd) [va] m && m.rnd.isZero && t == .i4 && vd.pairOk
  | .vwid2 vd va t m => vFieldsOk (some vd) [va] m && m.rnd.isZero && vd.pairOk && (t == .i4 || t == .i8 || t == .i16 || t == .bf16)
  | .vwid4 vd va t m => vFieldsOk (some vd) [va] m && m.rnd.isZero && vd.quadOk && (t == .i4 || t == .i8)
  | .vwmul2 vd va vb t m => vFieldsOk (some vd) [va, vb] m && m.rnd.isZero && vd.pairOk && (t == .i8 || t == .i16)
  | .vperm vd va vb t m => plainIF vd [va, vb] t m
  | .vperm2 vd va vb vc t m => plainIF vd [va, vb, vc] t m
  | .vcomp vd va t m => plainIF vd [va] t m && !m.z
  | .vexpd vd va t m => plainIF vd [va] t m
  | .vslup vd va _ vc t m => plainIF vd [va, vc] t m
  | .vsldn vd va _ vc t m => plainIF vd [va, vc] t m
  | .vbcast vd va _ t m => plainIF vd [va] t m
  | .vsplat vd _ t m => plainIF vd [] t m
  | .vmov vd va m => vFieldsOk (some vd) [va] m && m.rnd.isZero
  | .vins vd _ _ t m => plainIF vd [] t m && m.pm == 0 && !m.z
  | .vext _ va _ t m => vFieldsOk none [va] m && t.isIF && m.rnd.isZero && m.pm == 0 && !m.z
  | .vidx vd _ t m => plainI vd [] t m
  | .vrsum vd va t m => plainIF vd [va] t m && !m.z
  | .vrmax vd va t m => plainIF vd [va] t m && !m.z
  | .vrmin vd va t m => plainIF vd [va] t m && !m.z
  | .vgmax vd va imm t m => plainIF vd [va] t m && 1 ≤ imm.val && imm.val ≤ 9 && imm.val ≤ t.log2Count
  | .vscan vd va t m => plainIF vd [va] t m
  | .vrcpe vd va t m => plainF32 vd [va] t m
  | .vrsqe vd va t m => plainF32 vd [va] t m
  | .vrcps vd va vb t m => vFieldsOk (some vd) [va, vb] m && t == .f32 && m.rnd.noSat
  | .vrsqs vd va vb t m => vFieldsOk (some vd) [va, vb] m && t == .f32 && m.rnd.noSat
  | .vexp2F vd va t m => plainF32 vd [va] t m
  | .vlog2F vd va t m => plainF32 vd [va] t m
  | .vtanhF vd va t m => plainF32 vd [va] t m
  | .vexp2X vd va t m => plainF32 vd [va] t m
  | .vlog2X vd va t m => plainF32 vd [va] t m
  | .vtanhX vd va t m => plainF32 vd [va] t m
  | .vrng vd _ _ m => vFieldsOk (some vd) [] m && m.rnd.isZero
  | .vrngD vd _ _ m => vFieldsOk (some vd) [] m && m.rnd.isZero
  | .vspill _ va m => vFieldsOk none [va] m && m.rnd.isZero
  | .vfill vd _ m => vFieldsOk (some vd) [] m && m.rnd.isZero
  | .wbsel _ _ _ _ => true
  | .mzero _ _ => true
  | .mma md sa w shape pair ksteps _ => mmaOk md sa w shape pair ksteps
  | .mmaz md sa w shape pair ksteps _ => mmaOk md sa w shape pair ksteps
  | .mdrain _ sa sx dm _ => drainOk sa sx dm
  | .mmov _ _ _ => true
  | .mswap _ _ _ => true
  | .mstat _ _ _ => true
  | .rsmax r => r.base && r.ot == .f32 && r.sm == 0 && r.ck == 0 && r.rnd.isZero
  | .rexps r => r.base && r.smOk && r.ot != .i8
  | .rscal r => r.base && r.smOk && r.ck == 0
  | .rsoftmax r => r.base && r.sm == 0
  | .rnorm r => r.base && r.sm == 0 && r.ot != .i8
  | .fset _ cnt => cnt != 0
  | .fwait _ cnt => cnt != 0
  | .resultLanding => true
  | .loadDataArrival => true
  | .chunkLanding => true
  | .copyFault => true
  | .chainWaitRelease => true
  | .decoupleDeadlock => true
  | .flagDeadlock => true
  | .residencyTimeout => true
  | .silentErr => true
  | .taskRetirement => true
  | .handlerEntry => true
  | .switchComplete => true
  | .spillComplete => true
  | .taskReady => true
  | .taskDispatch => true
  | .taskSteal => true
  | .priorityPreemption => true
  | .spawnOverflowResume => true
  | .gangReserving => true
  | .gangRunning => true
  | .gangReserveTimeout => true
  | .gangFormTimeout => true
  | .gangPreemption => true
  | .dbarCommit => true
  | .finalCommit => true
  | .vdKick => true
  | .queueEnable => true
  | .queueDisable => true
  | .queueReset => true
  | .ageingStep => true
  | .slotGrant => true
  | .queueDisplacement => true
  | .idleUnmap => true
  | .unmappingComplete => true
  | .packetFetch => true
  | .nopPacket => true
  | .launch => true
  | .waitv => true
  | .signal => true
  | .copyPacket => true
  | .tileput => true
  | .map => true
  | .fencePacket => true
  | .dormantPacket => true
  | .reheatPacket => true
  | .retry => true
  | .progressAdvance => true
  | .journalReplay => true
  | .xinvStage1Page => true
  | .xinvStage1All => true
  | .xinvStage2Page => true
  | .xinvStage2All => true
  | .xinvComplete => true
  | .stgEnable => true
  | .stgDisable => true
  | .stagingReadComplete => true
  | .writeAccepted => true
  | .unitProgrammed => true
  | .powerLoss => true
  | .siteDrainComplete => true
  | .durablePoolScan => true
  | .regatherWalk => true
  | .lehrReplicaComplete => true
  | .lehrRetry => true
  | .tfree => true
  | .tileDigestExchange => true
  | .commitDigestExchange => true
  | .uncorrectableError => true
  | .computeDieLoss => true
  | .baseDieLoss => true
  | .implicitCollapse => true
  | .collapseComplete => true
  | .vdReheat => true
  | .reheatComplete => true
  | .vdmCreate => true
  | .vdmDestroy => true
  | .fenceCommand => true
  | .regwr => true
  | .regrd => true
  | .regrsp => true
  | .memwr => true
  | .memrd => true
  | .memrsp => true
  | .cmpl => true
  | .peer => true
  | .ack => true
  | .nack => true
  | .heartbeat => true
  | .fenceFrame => true
  | .resendTimeout => true
  | .heartbeatTimer => true
  | .rateIncrease => true
  | .linkDown => true
  | .pathFailed => true
  | .peerLost => true
  | .hostLost => true
  | .pathLive => true
  | .vdErrAck => true
  | .vdCmpl => true
  | .registerWrite => true
  | .coldStart => true
  | .trainingComplete => true
  | .fullServiceEntry => true
  | .retired => true
  | .patchApplied => true
  | .firmwareImage => true
  | .mgmtFirmwareRestart => true
  | .portRoleAssignment => true
  | .peerTable => true
  | .recalStart => true
  | .recal => true
  | .serdesLaneRecal => true
  | .thermal => true
  | .thermalRecovery => true
  | .thermalStop => true
  | .homeReturn => true
  | .reservedEscape _ => true
  | .unallocatedMajor major _ w1 => unallocMajor major.val && (twoWordMajor major.val || w1 == 0)
  | .linkRecovery => true
  | .frameTypeUnallocated => true

end Sys2Proof
end

