-- ==== Sys2Proof/Decode.lean ====
section
/-!
DEFINITION. The decoder, total on any bytes, and after it the encoder, both from the encoding tables of R78 to R101. Words
are natural numbers below 2^32 and fields are cut from them by division; a word that breaks a rule of R80 to R101 is
rejected by name. The fetch check OUTSIDE, the slice, the level and the declarations (R102, order 1 and 6 to 8) are the step's.
-/

namespace Sys2Proof

/-- Why bytes are no instruction: fewer bytes than the instruction has, or an unallocated encoding (R102, order 5). -/
inductive DecodeError where
  | truncated
  | unallocated
deriving DecidableEq, Repr

/-- Bits [lo+len-1 : lo] of a word. -/
def fld (w lo len : Nat) : Nat := w / 2 ^ lo % 2 ^ len

/-- A five-bit register field. -/
def fReg (w lo : Nat) : Reg := ⟨w / 2 ^ lo % 32, Nat.mod_lt _ (by decide)⟩

/-- A field of 1 bit. -/
def fBit (w lo : Nat) : Bool := w / 2 ^ lo % 2 == 1

def f2 (w lo : Nat) : Fin 4 := ⟨w / 2 ^ lo % 4, Nat.mod_lt _ (by decide)⟩
def f3 (w lo : Nat) : Fin 8 := ⟨w / 2 ^ lo % 8, Nat.mod_lt _ (by decide)⟩
def f4 (w lo : Nat) : Fin 16 := ⟨w / 2 ^ lo % 16, Nat.mod_lt _ (by decide)⟩
def f6 (w lo : Nat) : Fin 64 := ⟨w / 2 ^ lo % 64, Nat.mod_lt _ (by decide)⟩
def f8 (w lo : Nat) : Fin 256 := ⟨w / 2 ^ lo % 256, Nat.mod_lt _ (by decide)⟩
def f12 (w lo : Nat) : Fin 4096 := ⟨w / 2 ^ lo % 4096, Nat.mod_lt _ (by decide)⟩

/-- Bits [lo+n-1 : lo] as an n-bit value. -/
def fBv (w lo n : Nat) : BitVec n := BitVec.ofNat n (w / 2 ^ lo)

/-- What the decoder finds in the words of an instruction. It is Instr itself (Code.toInstr), in a form whose every value
compiled Lean can build: Instr has more constructors with operands than a compiled tag can number, and the sixteen named
here stand past the last tag. Decoding to Code lets the machine run compiled as well as in the kernel (Step.lean). -/
inductive Code where
  | instr (i : Instr)
  | definedIllegal (code : BitVec 26)
  | reservedEscape (low : BitVec 26)
  | unallocatedMajor (major : Fin 64) (low : BitVec 26) (w1 : BitVec 32)
  | trap (imm : BitVec 12)
  | brk (imm : BitVec 12)
  | sysrd (gd : Reg) (num : BitVec 12)
  | syswr (num : BitVec 12) (ga : Reg)
  | bfx (gd ga : Reg) (pos wm1 : Fin 64)
  | bfxs (gd ga : Reg) (pos wm1 : Fin 64)
  | bfi (gd ga : Reg) (pos wm1 : Fin 64)
  | call (gd : Reg) (off : BitVec 21)
  | jmp (off : BitVec 21)
  | callr (gd ga : Reg)
  | jr (ga : Reg)
  | lds (g : Reg) (slot : Fin 256) (lane : Fin 64)
  | sts (g : Reg) (slot : Fin 256) (lane : Fin 64)

/-- The instruction a Code stands for. -/
noncomputable def Code.toInstr : Code → Instr
  | .instr i => i
  | .definedIllegal c => .definedIllegal c
  | .reservedEscape l => .reservedEscape l
  | .unallocatedMajor m l v => .unallocatedMajor m l v
  | .trap i => .trap i
  | .brk i => .brk i
  | .sysrd g n => .sysrd g n
  | .syswr n g => .syswr n g
  | .bfx d a p v => .bfx d a p v
  | .bfxs d a p v => .bfxs d a p v
  | .bfi d a p v => .bfi d a p v
  | .call g f => .call g f
  | .jmp f => .jmp f
  | .callr g a => .callr g a
  | .jr a => .jr a
  | .lds g k l => .lds g k l
  | .sts g k l => .sts g k l

/-- Well-formedness of what the decoder finds: that of the instruction (Code.wf_toInstr). -/
def Code.wf : Code → Bool
  | .instr i => i.wf
  | .unallocatedMajor m _ v => unallocMajor m.val && (twoWordMajor m.val || v == 0)
  | .bfx _ _ p v => p.val + v.val + 1 ≤ 64
  | .bfxs _ _ p v => p.val + v.val + 1 ≤ 64
  | .bfi _ _ p v => p.val + v.val + 1 ≤ 64
  | .call g _ => g != 0
  | .callr g _ => g != 0
  | _ => true

theorem Code.wf_toInstr (c : Code) : c.toInstr.wf = c.wf := by cases c <;> rfl

/-- Keep an instruction only where a condition on zero fields holds (R80). -/
def onlyIf {α : Type} (c : Bool) (i : Option α) : Option α := if c then i else none

/-- An instruction that needs no Code of its own. -/
def instrCode (i : Option Instr) : Option Code := i.map Code.instr

/-- The predicate prefix of an SRR word, bits [4:0] (R81). -/
def srrPq (w : Nat) : Pq := ⟨fBit w 4, f4 w 0⟩

/-- The predicate prefix of an SRI word, bits [15:11] (R81). -/
def sriPq (w : Nat) : Pq := ⟨fBit w 15, f4 w 11⟩

/-- Format SYS, major 0x00 (R81, R85). -/
def decodeSys (w : Nat) : Option Code :=
  match fld w 12 4 with
  | 0 => onlyIf (w == 0) (some (.instr .illegalZeroWord))
  | 1 => onlyIf (fld w 16 10 == 0 && fld w 0 12 == 0) (some (.instr .nop))
  | 2 => onlyIf (fld w 16 10 == 0) (some (.trap (fBv w 0 12)))
  | 3 => onlyIf (fld w 16 10 == 0) (some (.brk (fBv w 0 12)))
  | 4 => onlyIf (fld w 16 10 == 0 && fld w 0 12 == 0) (some (.instr .eret))
  | 5 => onlyIf (fld w 16 10 == 0 && fld w 0 12 == 0) (some (.instr .done))
  | 6 => onlyIf (fld w 16 5 == 0) (some (.sysrd (fReg w 21) (fBv w 0 12)))
  | 7 => onlyIf (fld w 21 5 == 0) (some (.syswr (fBv w 0 12) (fReg w 16)))
  | 8 => onlyIf (fld w 21 5 == 0)
      (match fld w 0 12 with
       | 0 => some (.instr (.qpushXq (fReg w 16)))
       | 1 => some (.instr (.qpushYq (fReg w 16)))
       | _ => none)
  | 9 => onlyIf (fld w 16 5 == 0)
      (match fld w 0 12 with
       | 0 => some (.instr (.qpopXq (fReg w 21)))
       | 1 => some (.instr (.qpopYq (fReg w 21)))
       | _ => none)
  | _ => none

/-- Format SRR, major 0x01 (R81, R84). -/
def decodeSrr (w : Nat) : Option Instr :=
  match fld w 5 6 with
  | 0 => some (.add (fReg w 21) (fReg w 16) (fReg w 11) (srrPq w))
  | 1 => some (.sub (fReg w 21) (fReg w 16) (fReg w 11) (srrPq w))
  | 2 => some (.mul (fReg w 21) (fReg w 16) (fReg w 11) (srrPq w))
  | 3 => some (.mulh (fReg w 21) (fReg w 16) (fReg w 11) (srrPq w))
  | 4 => some (.mulhn (fReg w 21) (fReg w 16) (fReg w 11) (srrPq w))
  | 5 => some (.div (fReg w 21) (fReg w 16) (fReg w 11) (srrPq w))
  | 6 => some (.divn (fReg w 21) (fReg w 16) (fReg w 11) (srrPq w))
  | 7 => some (.rem (fReg w 21) (fReg w 16) (fReg w 11) (srrPq w))
  | 8 => some (.remn (fReg w 21) (fReg w 16) (fReg w 11) (srrPq w))
  | 9 => some (.and (fReg w 21) (fReg w 16) (fReg w 11) (srrPq w))
  | 10 => some (.or (fReg w 21) (fReg w 16) (fReg w 11) (srrPq w))
  | 11 => some (.xor (fReg w 21) (fReg w 16) (fReg w 11) (srrPq w))
  | 12 => some (.andn (fReg w 21) (fReg w 16) (fReg w 11) (srrPq w))
  | 13 => some (.orn (fReg w 21) (fReg w 16) (fReg w 11) (srrPq w))
  | 14 => some (.shl (fReg w 21) (fReg w 16) (fReg w 11) (srrPq w))
  | 15 => some (.shr (fReg w 21) (fReg w 16) (fReg w 11) (srrPq w))
  | 16 => some (.sra (fReg w 21) (fReg w 16) (fReg w 11) (srrPq w))
  | 17 => some (.rotl (fReg w 21) (fReg w 16) (fReg w 11) (srrPq w))
  | 18 => some (.rotr (fReg w 21) (fReg w 16) (fReg w 11) (srrPq w))
  | 19 => some (.min (fReg w 21) (fReg w 16) (fReg w 11) (srrPq w))
  | 20 => some (.max (fReg w 21) (fReg w 16) (fReg w 11) (srrPq w))
  | 21 => some (.minn (fReg w 21) (fReg w 16) (fReg w 11) (srrPq w))
  | 22 => some (.maxn (fReg w 21) (fReg w 16) (fReg w 11) (srrPq w))
  | 23 => some (.seq (fReg w 21) (fReg w 16) (fReg w 11) (srrPq w))
  | 24 => some (.sne (fReg w 21) (fReg w 16) (fReg w 11) (srrPq w))
  | 25 => some (.slt (fReg w 21) (fReg w 16) (fReg w 11) (srrPq w))
  | 26 => some (.sltn (fReg w 21) (fReg w 16) (fReg w 11) (srrPq w))
  | 27 => some (.sle (fReg w 21) (fReg w 16) (fReg w 11) (srrPq w))
  | 28 => some (.slen (fReg w 21) (fReg w 16) (fReg w 11) (srrPq w))
  | 29 => some (.sel (fReg w 21) (fReg w 16) (fReg w 11) (srrPq w))
  | 30 => onlyIf (fld w 11 5 == 0) (some (.clz (fReg w 21) (fReg w 16) (srrPq w)))
  | 31 => onlyIf (fld w 11 5 == 0) (some (.ctz (fReg w 21) (fReg w 16) (srrPq w)))
  | 32 => onlyIf (fld w 11 5 == 0) (some (.popc (fReg w 21) (fReg w 16) (srrPq w)))
  | _ => none

/-- Format SRI, majors 0x02 to 0x0D, without and with the extension word (R81, R82, R84). -/
def decodeSri (maj w w1 : Nat) : Option Instr :=
  if fBit w 10 then
    onlyIf (fld w 0 10 == 0)
      (match maj with
       | 2 => some (.addiExt (fReg w 21) (fReg w 16) (sriPq w) (fBv w1 0 32))
       | 3 => some (.muliExt (fReg w 21) (fReg w 16) (sriPq w) (fBv w1 0 32))
       | 4 => some (.andiExt (fReg w 21) (fReg w 16) (sriPq w) (fBv w1 0 32))
       | 5 => some (.oriExt (fReg w 21) (fReg w 16) (sriPq w) (fBv w1 0 32))
       | 6 => some (.xoriExt (fReg w 21) (fReg w 16) (sriPq w) (fBv w1 0 32))
       | 7 => some (.sltiExt (fReg w 21) (fReg w 16) (sriPq w) (fBv w1 0 32))
       | 8 => some (.sltniExt (fReg w 21) (fReg w 16) (sriPq w) (fBv w1 0 32))
       | 9 => some (.shliExt (fReg w 21) (fReg w 16) (sriPq w) (fBv w1 0 32))
       | 10 => some (.shriExt (fReg w 21) (fReg w 16) (sriPq w) (fBv w1 0 32))
       | 11 => some (.sraiExt (fReg w 21) (fReg w 16) (sriPq w) (fBv w1 0 32))
       | 12 => onlyIf (fld w 16 5 == 0) (some (.ldiExt (fReg w 21) (sriPq w) (fBv w1 0 32)))
       | 13 => onlyIf (fld w 16 5 == 0) (some (.ldhiExt (fReg w 21) (sriPq w) (fBv w1 0 32)))
       | _ => none)
  else
    match maj with
    | 2 => some (.addi (fReg w 21) (fReg w 16) (sriPq w) (fBv w 0 10))
    | 3 => some (.muli (fReg w 21) (fReg w 16) (sriPq w) (fBv w 0 10))
    | 4 => some (.andi (fReg w 21) (fReg w 16) (sriPq w) (fBv w 0 10))
    | 5 => some (.ori (fReg w 21) (fReg w 16) (sriPq w) (fBv w 0 10))
    | 6 => some (.xori (fReg w 21) (fReg w 16) (sriPq w) (fBv w 0 10))
    | 7 => some (.slti (fReg w 21) (fReg w 16) (sriPq w) (fBv w 0 10))
    | 8 => some (.sltni (fReg w 21) (fReg w 16) (sriPq w) (fBv w 0 10))
    | 9 => some (.shli (fReg w 21) (fReg w 16) (sriPq w) (fBv w 0 10))
    | 10 => some (.shri (fReg w 21) (fReg w 16) (sriPq w) (fBv w 0 10))
    | 11 => some (.srai (fReg w 21) (fReg w 16) (sriPq w) (fBv w 0 10))
    | 12 => onlyIf (fld w 16 5 == 0) (some (.ldi (fReg w 21) (sriPq w) (fBv w 0 10)))
    | 13 => onlyIf (fld w 16 5 == 0) (some (.ldhi (fReg w 21) (sriPq w) (fBv w 0 10)))
    | _ => none

/-- Format SBF, major 0x0E (R81, R84). -/
def decodeSbf (w : Nat) : Option Code :=
  onlyIf (fld w 0 2 == 0)
    (match fld w 14 2 with
     | 0 => some (.bfx (fReg w 21) (fReg w 16) (f6 w 8) (f6 w 2))
     | 1 => some (.bfxs (fReg w 21) (fReg w 16) (f6 w 8) (f6 w 2))
     | 2 => some (.bfi (fReg w 21) (fReg w 16) (f6 w 8) (f6 w 2))
     | _ => none)

/-- Format SBR, major 0x10, without and with the extension word (R81, R82, R84). -/
def decodeSbr (w w1 : Nat) : Option Instr :=
  if fBit w 12 then
    onlyIf (fld w 0 12 == 0)
      (match fld w 13 3 with
       | 0 => some (.beqExt (fReg w 21) (fReg w 16) (fBv w1 0 32))
       | 1 => some (.bneExt (fReg w 21) (fReg w 16) (fBv w1 0 32))
       | 2 => some (.bltExt (fReg w 21) (fReg w 16) (fBv w1 0 32))
       | 3 => some (.bgeExt (fReg w 21) (fReg w 16) (fBv w1 0 32))
       | 4 => some (.bltnExt (fReg w 21) (fReg w 16) (fBv w1 0 32))
       | 5 => some (.bgenExt (fReg w 21) (fReg w 16) (fBv w1 0 32))
       | 6 => onlyIf (fld w 16 5 == 0) (some (.loopExt (fReg w 21) (fBv w1 0 32)))
       | _ => none)
  else
    match fld w 13 3 with
    | 0 => some (.beq (fReg w 21) (fReg w 16) (fBv w 0 12))
    | 1 => some (.bne (fReg w 21) (fReg w 16) (fBv w 0 12))
    | 2 => some (.blt (fReg w 21) (fReg w 16) (fBv w 0 12))
    | 3 => some (.bge (fReg w 21) (fReg w 16) (fBv w 0 12))
    | 4 => some (.bltn (fReg w 21) (fReg w 16) (fBv w 0 12))
    | 5 => some (.bgen (fReg w 21) (fReg w 16) (fBv w 0 12))
    | 6 => onlyIf (fld w 16 5 == 0) (some (.loop (fReg w 21) (fBv w 0 12)))
    | _ => none

/-- Format SJL, major 0x11 (R81, R84): gd = 0 is written jmp. -/
def decodeSjl (w : Nat) : Option Code :=
  if fld w 21 5 == 0 then some (.jmp (fBv w 0 21)) else some (.call (fReg w 21) (fBv w 0 21))

/-- Major 0x12 (R83, R84): fn, gb, PQ and PN are zero and gd = 0 is written jr. -/
def decodeCallr (w : Nat) : Option Code :=
  onlyIf (fld w 0 16 == 0)
    (if fld w 21 5 == 0 then some (.jr (fReg w 16)) else some (.callr (fReg w 21) (fReg w 16)))

/-- Format SSP, major 0x13 (R81, R84). -/
def decodeSsp (w : Nat) : Option Code :=
  onlyIf (fld w 0 6 == 0)
    (if fBit w 6 then some (.sts (fReg w 21) (f8 w 13) (f6 w 7)) else some (.lds (fReg w 21) (f8 w 13) (f6 w 7)))

/-- The sel values of STRM (R87). -/
def strmField : Nat → Option StrmField
  | 0 => some .base
  | 1 => some .etype
  | 2 => some .geom
  | 3 => some .sbase
  | 4 => some .sstride
  | 8 => some (.loop 0)
  | 9 => some (.loop 1)
  | 10 => some (.loop 2)
  | 11 => some (.loop 3)
  | 12 => some (.loop 4)
  | 13 => some (.loop 5)
  | _ => none

/-- Format STRM, major 0x20 (R86, R87). -/
def decodeStrm (w : Nat) : Option Instr :=
  onlyIf (fld w 0 4 == 0)
    (match fld w 4 4 with
     | 0 => onlyIf (fld w 21 5 == 0) ((strmField (fld w 8 4)).map fun f => .sset (f4 w 12) f (fReg w 16))
     | 1 => onlyIf (fld w 16 10 == 0 && fld w 8 4 == 0) (some (.sgo (f4 w 12)))
     | 2 => onlyIf (fld w 16 5 == 0) ((strmField (fld w 8 4)).map fun f => .sget (fReg w 21) (f4 w 12) f)
     | _ => none)

/-- Format AMEM, majors 0x21 to 0x24, with the sub-selector w of [15:13] (R86, R87). -/
def decodeAmem (maj w w1 : Nat) : Option Instr :=
  if fBit w 12 then
    onlyIf (fld w 0 12 == 0)
      (match maj, fld w 13 3 with
       | 0x21, 0 => some (.ldBExt (fReg w 21) (fReg w 16) (fBv w1 0 32))
       | 0x21, 1 => some (.ldHExt (fReg w 21) (fReg w 16) (fBv w1 0 32))
       | 0x21, 2 => some (.ldWExt (fReg w 21) (fReg w 16) (fBv w1 0 32))
       | 0x21, 3 => some (.ldDExt (fReg w 21) (fReg w 16) (fBv w1 0 32))
       | 0x21, 4 => some (.ldBnExt (fReg w 21) (fReg w 16) (fBv w1 0 32))
       | 0x21, 5 => some (.ldHnExt (fReg w 21) (fReg w 16) (fBv w1 0 32))
       | 0x21, 6 => some (.ldWnExt (fReg w 21) (fReg w 16) (fBv w1 0 32))
       | 0x22, 0 => some (.stBExt (fReg w 21) (fReg w 16) (fBv w1 0 32))
       | 0x22, 1 => some (.stHExt (fReg w 21) (fReg w 16) (fBv w1 0 32))
       | 0x22, 2 => some (.stWExt (fReg w 21) (fReg w 16) (fBv w1 0 32))
       | 0x22, 3 => some (.stDExt (fReg w 21) (fReg w 16) (fBv w1 0 32))
       | 0x23, 0 => onlyIf (fld w 21 5 == 0) (some (.vldExt 0 (fReg w 16) (fBv w1 0 32)))
       | 0x23, 1 => onlyIf (fld w 21 5 == 0) (some (.vldExt 1 (fReg w 16) (fBv w1 0 32)))
       | 0x23, 2 => onlyIf (fld w 21 5 == 0) (some (.vldExt 2 (fReg w 16) (fBv w1 0 32)))
       | 0x23, 3 => onlyIf (fld w 21 5 == 0) (some (.vldExt 3 (fReg w 16) (fBv w1 0 32)))
       | 0x23, 4 => onlyIf (fld w 21 5 == 0) (some (.ldxExt (fReg w 16) (fBv w1 0 32)))
       | 0x24, 0 => onlyIf (fld w 21 5 == 0) (some (.vstExt 0 (fReg w 16) (fBv w1 0 32)))
       | 0x24, 1 => onlyIf (fld w 21 5 == 0) (some (.vstExt 1 (fReg w 16) (fBv w1 0 32)))
       | 0x24, 2 => onlyIf (fld w 21 5 == 0) (some (.stxExt (fReg w 16) (fBv w1 0 32)))
       | _, _ => none)
  else
    match maj, fld w 13 3 with
    | 0x21, 0 => some (.ldB (fReg w 21) (fReg w 16) (fBv w 0 12))
    | 0x21, 1 => some (.ldH (fReg w 21) (fReg w 16) (fBv w 0 12))
    | 0x21, 2 => some (.ldW (fReg w 21) (fReg w 16) (fBv w 0 12))
    | 0x21, 3 => some (.ldD (fReg w 21) (fReg w 16) (fBv w 0 12))
    | 0x21, 4 => some (.ldBn (fReg w 21) (fReg w 16) (fBv w 0 12))
    | 0x21, 5 => some (.ldHn (fReg w 21) (fReg w 16) (fBv w 0 12))
    | 0x21, 6 => some (.ldWn (fReg w 21) (fReg w 16) (fBv w 0 12))
    | 0x22, 0 => some (.stB (fReg w 21) (fReg w 16) (fBv w 0 12))
    | 0x22, 1 => some (.stH (fReg w 21) (fReg w 16) (fBv w 0 12))
    | 0x22, 2 => some (.stW (fReg w 21) (fReg w 16) (fBv w 0 12))
    | 0x22, 3 => some (.stD (fReg w 21) (fReg w 16) (fBv w 0 12))
    | 0x23, 0 => onlyIf (fld w 21 5 == 0) (some (.vld 0 (fReg w 16) (fBv w 0 12)))
    | 0x23, 1 => onlyIf (fld w 21 5 == 0) (some (.vld 1 (fReg w 16) (fBv w 0 12)))
    | 0x23, 2 => onlyIf (fld w 21 5 == 0) (some (.vld 2 (fReg w 16) (fBv w 0 12)))
    | 0x23, 3 => onlyIf (fld w 21 5 == 0) (some (.vld 3 (fReg w 16) (fBv w 0 12)))
    | 0x23, 4 => onlyIf (fld w 21 5 == 0) (some (.ldx (fReg w 16) (fBv w 0 12)))
    | 0x24, 0 => onlyIf (fld w 21 5 == 0) (some (.vst 0 (fReg w 16) (fBv w 0 12)))
    | 0x24, 1 => onlyIf (fld w 21 5 == 0) (some (.vst 1 (fReg w 16) (fBv w 0 12)))
    | 0x24, 2 => onlyIf (fld w 21 5 == 0) (some (.stx (fReg w 16) (fBv w 0 12)))
    | _, _ => none

/-- Format CPY, major 0x25: the extension word names a slot 0 to 47 (R86, R87); cpy.link uses ga, bN and the slot, and
cpy.kick the slot alone (R152, R154). -/
def decodeCpy (w w1 : Nat) : Option Instr :=
  if h : w1 < 48 then
    onlyIf (fld w 0 5 == 0)
      (let ops : CpyOps := ⟨fReg w 21, fReg w 16, fReg w 11, f3 w 8, ⟨w1, h⟩⟩
       match fld w 5 3 with
       | 0 => some (.cpyIn ops)
       | 1 => some (.cpyOut ops)
       | 2 => some (.cpy2dIn ops)
       | 3 => some (.cpy2dOut ops)
       | 4 => some (.cpyGth ops)
       | 5 => some (.cpyWb ops)
       | 6 => onlyIf (fld w 21 5 == 0 && fld w 11 5 == 0) (some (.cpyLink (fReg w 16) (f3 w 8) ⟨w1, h⟩))
       | _ => onlyIf (fld w 8 18 == 0) (some (.cpyKick ⟨w1, h⟩)))
  else none

/-- The type codes of an atomic (R88). -/
def amoType : Nat → Option AmoType
  | 0 => some .i32
  | 1 => some .i64
  | 2 => some .n32
  | 3 => some .n64
  | 4 => some .f32
  | _ => none

/-- Format AMO, major 0x26 (R86, R88): in a deferred form gd is zero. -/
def decodeAmo (w : Nat) : Option Instr :=
  match amoType (fld w 3 3) with
  | none => none
  | some t =>
    onlyIf (fld w 0 3 == 0)
      (if fBit w 10 then
        onlyIf (fld w 21 5 == 0)
          (match fld w 6 4 with
           | 0 => some (.damoAdd (fReg w 16) (fReg w 11) t)
           | 1 => some (.damoMin (fReg w 16) (fReg w 11) t)
           | 2 => some (.damoMax (fReg w 16) (fReg w 11) t)
           | 3 => some (.damoOr (fReg w 16) (fReg w 11) t)
           | _ => none)
      else
        match fld w 6 4 with
        | 0 => some (.amoAdd (fReg w 21) (fReg w 16) (fReg w 11) t)
        | 1 => some (.amoMin (fReg w 21) (fReg w 16) (fReg w 11) t)
        | 2 => some (.amoMax (fReg w 21) (fReg w 16) (fReg w 11) t)
        | 3 => some (.amoOr (fReg w 21) (fReg w 16) (fReg w 11) t)
        | 4 => some (.amoAnd (fReg w 21) (fReg w 16) (fReg w 11) t)
        | 5 => some (.amoXor (fReg w 21) (fReg w 16) (fReg w 11) t)
        | 6 => some (.amoSwap (fReg w 21) (fReg w 16) (fReg w 11) t)
        | 7 => some (.amoCas (fReg w 21) (fReg w 16) (fReg w 11) t)
        | _ => none)

/-- Format ACTL, major 0x27 (R86, R89): each form's unnamed register fields and h are zero fields. -/
def decodeActl (w : Nat) : Option Instr :=
  let noGd := fld w 21 5 == 0
  let noGa := fld w 16 5 == 0
  let noGb := fld w 11 5 == 0
  let noH := fld w 7 4 == 0
  let bN := fld w 10 1 == 0
  onlyIf (fld w 6 1 == 0)
    (match fld w 0 6 with
     | 0x00 => onlyIf (noGd && noGa && noGb && bN) (some (.bwait (f3 w 7)))
     | 0x01 => onlyIf (noGd && noGb && bN) (some (.badd (f3 w 7) (fReg w 16)))
     | 0x02 => onlyIf (noGd && noGb) (some (.tacq (f4 w 7) (fReg w 16)))
     | 0x03 => onlyIf noGd (some (.talloc (f4 w 7) (fReg w 16) (fReg w 11)))
     | 0x04 => onlyIf (noGd && noGa && noGb) (some (.tseal (f4 w 7)))
     | 0x05 => onlyIf (noGd && noGa && noGb) (some (.trel (f4 w 7)))
     | 0x06 => onlyIf (noGa && noGb) (some (.taddr (fReg w 21) (f4 w 7)))
     | 0x08 => onlyIf (noGd && noGb && noH) (some (.acq (fReg w 16)))
     | 0x09 => onlyIf (noGd && noGb && noH) (some (.rel (fReg w 16)))
     | 0x0A => onlyIf noH (some (.bind (fReg w 21) (fReg w 16) (fReg w 11)))
     | 0x0B => onlyIf (noGd && noGa && noGb)
         (match fld w 7 4 with
          | 0 => some .fenceT
          | 1 => some .fenceD
          | 2 => some .fenceP
          | 3 => some .fenceS
          | 4 => some .fenceDur
          | _ => none)
     | 0x0C => onlyIf (noGd && noGa && noGb && noH) (some .dbar)
     | 0x10 => onlyIf (noGd && noGa && noGb && noH) (some .pbar)
     | 0x11 => onlyIf (noGd && noH) (some (.pflush (fReg w 16) (fReg w 11)))
     | 0x12 => onlyIf (noGd && noGa && noGb) (some (.pseal (f4 w 7)))
     | 0x18 => onlyIf (noGd && noGb && noH) (some (.spawn (fReg w 16)))
     | 0x19 => onlyIf (noGd && noGa && noGb && noH) (some .yield)
     | 0x1A => onlyIf (noGd && noH) (some (.xlpf (fReg w 16) (fReg w 11)))
     | _ => none)

/-- A V field as a source (R92). -/
def vSrc (n : Nat) : Option VSrc :=
  if h : n < 48 then some (.v ⟨n, h⟩)
  else if h : n - 48 < 8 then some (.o ⟨n - 48, h⟩)
  else if h : n - 56 < 2 then some (.y ⟨n - 56, h⟩)
  else if n = 58 then some .stream
  else if h : 60 ≤ n ∧ n - 60 < 4 then some (.lq ⟨n - 60, h.2⟩)
  else none

/-- A V field as a destination (R92). -/
def vDst (n : Nat) : Option VDst :=
  if h : n < 48 then some (.v ⟨n, h⟩)
  else if h : n - 48 < 8 then some (.o ⟨n - 48, h⟩)
  else if n = 59 then some .stream
  else if h : 60 ≤ n ∧ n - 60 < 2 then some (.sq ⟨n - 60, h.2⟩)
  else none

/-- The type codes of the vector format (R93). -/
def eType : Nat → Option EType
  | 0 => some .i4
  | 1 => some .i8
  | 2 => some .i16
  | 3 => some .i32
  | 4 => some .bf16
  | 5 => some .f32
  | 6 => some .mx
  | _ => none

/-- MODE of the rounding field (R54). -/
def rMode : Nat → RMode
  | 0 => .rne
  | 1 => .rtz
  | 2 => .rdn
  | _ => .rup

/-- The rounding field, bits [3:0] of word 1, bit 3 apart (R54). -/
def fRnd (w : Nat) : Rnd := ⟨fBit w 2, rMode (fld w 0 2)⟩

/-- pm, Z, SF, AF, port and rnd of word 1 (R90). -/
def vMods (w : Nat) : VMods := ⟨f6 w 20, fBit w 19, f4 w 12, f4 w 8, f4 w 4, fRnd w⟩

/-- A C field: bits [4:0] with bit 5 zero (R91). -/
def cFld (n : Nat) : Option Reg := if h : n < 32 then some ⟨n, h⟩ else none

/-- The field contents of a vector instruction: vd, va, vb, vc, type as numbers, and the modifiers (R90). -/
structure VecF where
  vd : Nat
  va : Nat
  vb : Nat
  vc : Nat
  ty : Nat
  m  : VMods
deriving DecidableEq, Repr

def vecF (w w1 : Nat) : VecF := ⟨fld w 20 6, fld w 14 6, fld w 8 6, fld w1 26 6, fld w1 16 3, vMods w1⟩

/-- vd, va; vb and vc are zero fields. -/
def vec1 (k : VDst → VSrc → EType → VMods → Instr) (f : VecF) : Option Instr :=
  match vDst f.vd, vSrc f.va, eType f.ty with
  | some d, some a, some t => onlyIf (f.vb == 0 && f.vc == 0) (some (k d a t f.m))
  | _, _, _ => none

/-- vd, va, vb; vc is a zero field. -/
def vec2 (k : VDst → VSrc → VSrc → EType → VMods → Instr) (f : VecF) : Option Instr :=
  match vDst f.vd, vSrc f.va, vSrc f.vb, eType f.ty with
  | some d, some a, some b, some t => onlyIf (f.vc == 0) (some (k d a b t f.m))
  | _, _, _, _ => none

/-- vd, va, vb, vc. -/
def vec3 (k : VDst → VSrc → VSrc → VSrc → EType → VMods → Instr) (f : VecF) : Option Instr :=
  match vDst f.vd, vSrc f.va, vSrc f.vb, vSrc f.vc, eType f.ty with
  | some d, some a, some b, some c, some t => some (k d a b c t f.m)
  | _, _, _, _, _ => none

/-- vd, va and an immediate in vb. -/
def vecI (k : VDst → VSrc → Fin 64 → EType → VMods → Instr) (f : VecF) : Option Instr :=
  match vDst f.vd, vSrc f.va, eType f.ty with
  | some d, some a, some t => onlyIf (f.vc == 0) (some (k d a (f6 f.vb 0) t f.m))
  | _, _, _ => none

/-- A destination predicate and two V sources. -/
def vecP2 (k : Fin 64 → VSrc → VSrc → EType → VMods → Instr) (f : VecF) : Option Instr :=
  match vSrc f.va, vSrc f.vb, eType f.ty with
  | some a, some b, some t => onlyIf (f.vc == 0) (some (k (f6 f.vd 0) a b t f.m))
  | _, _, _ => none

/-- A destination predicate and two predicate sources, type field 0. -/
def predP2 (k : Fin 64 → Fin 64 → Fin 64 → VMods → Instr) (f : VecF) : Option Instr :=
  onlyIf (f.vc == 0 && f.ty == 0) (some (k (f6 f.vd 0) (f6 f.va 0) (f6 f.vb 0) f.m))

/-- A destination predicate alone, type field 0. -/
def predP0 (k : Fin 64 → VMods → Instr) (f : VecF) : Option Instr :=
  onlyIf (f.va == 0 && f.vb == 0 && f.vc == 0 && f.ty == 0) (some (k (f6 f.vd 0) f.m))

/-- A destination predicate and a c register. -/
def predC (k : Fin 64 → Reg → EType → VMods → Instr) (f : VecF) : Option Instr :=
  match cFld f.va, eType f.ty with
  | some c, some t => onlyIf (f.vb == 0 && f.vc == 0) (some (k (f6 f.vd 0) c t f.m))
  | _, _ => none

/-- vd, va, a c register in vb, and vc: the slides. -/
def vecSlide (k : VDst → VSrc → Reg → VSrc → EType → VMods → Instr) (f : VecF) : Option Instr :=
  match vDst f.vd, vSrc f.va, cFld f.vb, vSrc f.vc, eType f.ty with
  | some d, some a, some c, some v, some t => some (k d a c v t f.m)
  | _, _, _, _, _ => none

/-- vd, va and a c register in vb. -/
def vecC2 (k : VDst → VSrc → Reg → EType → VMods → Instr) (f : VecF) : Option Instr :=
  match vDst f.vd, vSrc f.va, cFld f.vb, eType f.ty with
  | some d, some a, some c, some t => onlyIf (f.vc == 0) (some (k d a c t f.m))
  | _, _, _, _ => none

/-- vd and a c register in va. -/
def vecC1 (k : VDst → Reg → EType → VMods → Instr) (f : VecF) : Option Instr :=
  match vDst f.vd, cFld f.va, eType f.ty with
  | some d, some c, some t => onlyIf (f.vb == 0 && f.vc == 0) (some (k d c t f.m))
  | _, _, _ => none

/-- vd and c registers in va and vb: vins. -/
def vecIns (k : VDst → Reg → Reg → EType → VMods → Instr) (f : VecF) : Option Instr :=
  match vDst f.vd, cFld f.va, cFld f.vb, eType f.ty with
  | some d, some c, some b, some t => onlyIf (f.vc == 0) (some (k d c b t f.m))
  | _, _, _, _ => none

/-- A c destination in vd, va, and a c register in vb: vext. -/
def vecExt (k : Reg → VSrc → Reg → EType → VMods → Instr) (f : VecF) : Option Instr :=
  match cFld f.vd, vSrc f.va, cFld f.vb, eType f.ty with
  | some d, some a, some b, some t => onlyIf (f.vc == 0) (some (k d a b t f.m))
  | _, _, _, _ => none

/-- vd, key and counter registers, with the type field fixed: vrng and vrng.d. -/
def vecRng (k : VDst → Reg → Reg → VMods → Instr) (ty : Nat) (f : VecF) : Option Instr :=
  match vDst f.vd, cFld f.va, cFld f.vb with
  | some d, some c, some b => onlyIf (f.vc == 0 && f.ty == ty) (some (k d c b f.m))
  | _, _, _ => none

/-- Spill slot fn[1:0] * 64 + vb (R98). -/
def slotOf (hi lo : Nat) : Fin 256 := ⟨(hi % 4) * 64 + lo % 64, by omega⟩

/-- vspill (R98): vd and vc are zero fields and the type field is 0. -/
def vecSpill (hi : Nat) (f : VecF) : Option Instr :=
  match vSrc f.va with
  | some a => onlyIf (f.vd == 0 && f.vc == 0 && f.ty == 0) (some (.vspill (slotOf hi f.vb) a f.m))
  | none => none

/-- vfill (R98): va and vc are zero fields and the type field is 0. -/
def vecFill (hi : Nat) (f : VecF) : Option Instr :=
  match vDst f.vd with
  | some d => onlyIf (f.va == 0 && f.vc == 0 && f.ty == 0) (some (.vfill d (slotOf hi f.vb) f.m))
  | none => none

/-- Major 0x30: arithmetic (R94). -/
def decodeVec30 (fn : Nat) (f : VecF) : Option Instr :=
  match fn with
  | 0x0 => vec2 .vadd f
  | 0x1 => vec2 .vsub f
  | 0x2 => vec2 .vmul f
  | 0x3 => vec2 .vmulz f
  | 0x4 => vec3 .vfma f
  | 0x5 => vec3 .vfms f
  | 0x6 => vec3 .vfnma f
  | 0x7 => vec2 .vmulh f
  | 0x8 => vec2 .vmulhn f
  | 0x9 => vec2 .vmin f
  | 0xa => vec2 .vmax f
  | 0xb => vec2 .vminn f
  | 0xc => vec2 .vmaxn f
  | 0xd => vec1 .vabs f
  | 0xe => vec1 .vneg f
  | _ => none

/-- Major 0x31: logic, shifts and counts (R94). -/
def decodeVec31 (fn : Nat) (f : VecF) : Option Instr :=
  match fn with
  | 0x0 => vec2 .vand f
  | 0x1 => vec2 .vor f
  | 0x2 => vec2 .vxor f
  | 0x3 => vec2 .vandn f
  | 0x4 => vec1 .vnot f
  | 0x5 => vec2 .vshl f
  | 0x6 => vec2 .vshr f
  | 0x7 => vec2 .vsra f
  | 0x8 => vecI .vshli f
  | 0x9 => vecI .vshri f
  | 0xa => vecI .vsrai f
  | 0xb => vec3 .vfshl f
  | 0xc => vec3 .vfshr f
  | 0xd => vec1 .vpopc f
  | 0xe => vec1 .vclz f
  | 0xf => vec1 .vctz f
  | _ => none

/-- Major 0x32: compares and predicate operations (R95). -/
def decodeVec32 (fn : Nat) (f : VecF) : Option Instr :=
  match fn with
  | 0x0 => vecP2 .vceq f
  | 0x1 => vecP2 .vcne f
  | 0x2 => vecP2 .vclt f
  | 0x3 => vecP2 .vcle f
  | 0x4 => vecP2 .vcltn f
  | 0x5 => vecP2 .vclen f
  | 0x6 => vecP2 .vcun f
  | 0x10 => predP2 .pand f
  | 0x11 => predP2 .por f
  | 0x12 => predP2 .pxor f
  | 0x13 => predP2 .pandn f
  | 0x14 => onlyIf (f.vb == 0 && f.vc == 0 && f.ty == 0) (some (.pnot (f6 f.vd 0) (f6 f.va 0) f.m))
  | 0x15 => predP0 .pset f
  | 0x16 => predP0 .pclr f
  | 0x17 => predC .plt f
  | 0x18 => predC .pge f
  | _ => none

/-- Major 0x33: conversions and widening (R96). -/
def decodeVec33 (fn : Nat) (f : VecF) : Option Instr :=
  match fn with
  | 0x0 => vec1 (fun d a t m => .vcvt d a .i4 t m) f
  | 0x1 => vec1 (fun d a t m => .vcvt d a .i8 t m) f
  | 0x2 => vec1 (fun d a t m => .vcvt d a .i16 t m) f
  | 0x3 => vec1 (fun d a t m => .vcvt d a .i32 t m) f
  | 0x4 => vec1 (fun d a t m => .vcvt d a .bf16 t m) f
  | 0x5 => vec1 (fun d a t m => .vcvt d a .f32 t m) f
  | 0x8 => vec2 .vqnt f
  | 0x9 => vec2 .vdqnt f
  | 0xa => vec2 .vpack4 f
  | 0xb => vec1 .vunpk4 f
  | 0xc => vec1 .vwid2 f
  | 0xd => vec1 .vwid4 f
  | 0xe => vec2 .vwmul2 f
  | _ => none

/-- Major 0x34: permutes and moves (R97). -/
def decodeVec34 (fn : Nat) (f : VecF) : Option Instr :=
  match fn with
  | 0x0 => vec2 .vperm f
  | 0x1 => vec3 .vperm2 f
  | 0x2 => vec1 .vcomp f
  | 0x3 => vec1 .vexpd f
  | 0x4 => vecSlide .vslup f
  | 0x5 => vecSlide .vsldn f
  | 0x6 => vecC2 .vbcast f
  | 0x7 => vecC1 .vsplat f
  | 0x8 => onlyIf (f.ty == 0) (vec1 (fun d a _ m => .vmov d a m) f)
  | 0x9 => vecIns .vins f
  | 0xa => vecExt .vext f
  | 0xb => vecC1 .vidx f
  | _ => none

/-- Major 0x35: reductions and scans (R97). -/
def decodeVec35 (fn : Nat) (f : VecF) : Option Instr :=
  match fn with
  | 0x0 => vec1 .vrsum f
  | 0x1 => vec1 .vrmax f
  | 0x2 => vec1 .vrmin f
  | 0x3 => vecI .vgmax f
  | 0x4 => vec1 .vscan f
  | _ => none

/-- Major 0x36: functions and the generator (R98). -/
def decodeVec36 (fn : Nat) (f : VecF) : Option Instr :=
  match fn with
  | 0x0 => vec1 .vrcpe f
  | 0x1 => vec1 .vrsqe f
  | 0x2 => vec2 .vrcps f
  | 0x3 => vec2 .vrsqs f
  | 0x8 => vec1 .vexp2F f
  | 0x9 => vec1 .vlog2F f
  | 0xa => vec1 .vtanhF f
  | 0xc => vec1 .vexp2X f
  | 0xd => vec1 .vlog2X f
  | 0xe => vec1 .vtanhX f
  | 0x10 => vecRng .vrng 3 f
  | 0x11 => vecRng .vrngD 0 f
  | _ => none

/-- Major 0x37: spill and fill (R98). -/
def decodeVec37 (fn : Nat) (f : VecF) : Option Instr :=
  match fn with
  | 0x0 => vecSpill 0 f
  | 0x1 => vecSpill 1 f
  | 0x2 => vecSpill 2 f
  | 0x3 => vecSpill 3 f
  | 0x4 => vecFill 0 f
  | 0x5 => vecFill 1 f
  | 0x6 => vecFill 2 f
  | 0x7 => vecFill 3 f
  | _ => none

/-- Majors 0x30 to 0x37 (R90); bit 3 of the rounding field is reserved (R54). -/
def decodeVec (maj w w1 : Nat) : Option Instr :=
  let fn := fld w 0 8
  let f := vecF w w1
  onlyIf (fld w1 3 1 == 0)
    (match maj with
     | 0x30 => decodeVec30 fn f
     | 0x31 => decodeVec31 fn f
     | 0x32 => decodeVec32 fn f
     | 0x33 => decodeVec33 fn f
     | 0x34 => decodeVec34 fn f
     | 0x35 => decodeVec35 fn f
     | 0x36 => decodeVec36 fn f
     | 0x37 => decodeVec37 fn f
     | _ => none)

/-- Fusion shape codes (R99). -/
def shapeOf : Nat → Shape
  | 0 => .s1x4
  | 1 => .s4x1
  | 2 => .s2x2
  | _ => .ind

/-- Format pair codes (R99). -/
def pairOf : Nat → Pair
  | 0 => .bf16bf16
  | 1 => .mx8mx8
  | 2 => .bf16mx8
  | 3 => .mx6mx6
  | 4 => .mx8mx4
  | 5 => .mx4mx8
  | 6 => .bf16mx4
  | _ => .mx4mx4

/-- Activation codes (R99). -/
def actOf : Nat → Option Act
  | 0 => some .none
  | 1 => some .relu
  | 2 => some .clamp
  | _ => none

/-- Drain output type codes (R99). -/
def drainTypeOf : Nat → Option DrainType
  | 0 => some .f32
  | 1 => some .bf16
  | 2 => some .i8
  | 3 => some .i16
  | 4 => some .i32
  | 5 => some .i4
  | _ => none

def fMods (w1 : Nat) : FMods := ⟨f4 w1 12, f4 w1 8⟩

/-- Format MAT, major 0x38 (R99): each op's unused fields are zero fields. -/
def decodeMat (w w1 : Nat) : Option Instr :=
  match fld w 23 3 with
  | 0 => onlyIf (fld w 0 23 == 0 && fld w1 16 6 == 0 && fld w1 6 2 == 0 && fld w1 0 4 == 0)
      (some (.wbsel (f2 w1 4) (fReg w1 27) (fReg w1 22) (fMods w1)))
  | 1 => onlyIf (fld w 0 20 == 0 && fld w1 16 16 == 0 && fld w1 0 8 == 0) (some (.mzero (f3 w 20) (fMods w1)))
  | 2 => onlyIf (fld w 17 3 == 0 && fld w1 16 12 == 0 && fld w1 6 2 == 0 && fld w1 0 4 == 0)
      (some (.mma (f3 w 20) (f4 w1 28) (f2 w1 4) (shapeOf (fld w 15 2)) (pairOf (fld w 12 3)) (f12 w 0) (fMods w1)))
  | 3 => onlyIf (fld w 17 3 == 0 && fld w1 16 12 == 0 && fld w1 6 2 == 0 && fld w1 0 4 == 0)
      (some (.mmaz (f3 w 20) (f4 w1 28) (f2 w1 4) (shapeOf (fld w 15 2)) (pairOf (fld w 12 3)) (f12 w 0) (fMods w1)))
  | 4 => onlyIf (fld w 0 20 == 0 && fld w1 4 3 == 0 && fld w1 3 1 == 0)
      (match actOf (fld w1 19 2), drainTypeOf (fld w1 16 3) with
       | some a, some ot =>
         some (.mdrain (f3 w 20) (f4 w1 28) (f4 w1 24) ⟨fBit w1 23, fBit w1 22, fBit w1 21, a, ot, fBit w1 7, fRnd w1⟩ (fMods w1))
       | _, _ => none)
  | 5 => onlyIf (fld w 0 17 == 0 && fld w1 16 16 == 0 && fld w1 0 8 == 0) (some (.mmov (f3 w 20) (f3 w 17) (fMods w1)))
  | 6 => onlyIf (fld w 0 17 == 0 && fld w1 16 16 == 0 && fld w1 0 8 == 0) (some (.mswap (f3 w 20) (f3 w 17) (fMods w1)))
  | _ => onlyIf (fld w 0 20 == 0 && fld w1 16 11 == 0 && fld w1 0 8 == 0)
      (some (.mstat (fReg w1 27) (f3 w 20) (fMods w1)))

/-- Row input types (R100). -/
def rowIn : Nat → Option RowIn
  | 4 => some .bf16
  | 5 => some .f32
  | _ => none

/-- Row output types (R100). -/
def rowOut : Nat → Option RowOut
  | 1 => some .i8
  | 4 => some .bf16
  | 5 => some .f32
  | _ => none

/-- Format ROW, major 0x39 (R100). -/
def decodeRow (w w1 : Nat) : Option Instr :=
  match rowIn (fld w1 19 3), rowOut (fld w1 16 3) with
  | some it, some ot =>
    onlyIf (fld w 20 3 == 0 && fld w1 22 1 == 0 && fld w1 4 4 == 0 && fld w1 3 1 == 0)
      (let r : RowOps := ⟨f4 w 16, f4 w 12, f12 w 0, fReg w1 27, f4 w1 23, it, ot, fMods w1, fRnd w1⟩
       match fld w 23 3 with
       | 0 => some (.rsmax r)
       | 1 => some (.rexps r)
       | 2 => some (.rscal r)
       | 3 => some (.rsoftmax r)
       | 4 => some (.rnorm r)
       | _ => none)
  | _, _ => none

/-- Format FLG, major 0x3A (R101). -/
def decodeFlg (w w1 : Nat) : Option Instr :=
  onlyIf (fld w 0 16 == 0 && w1 == 0)
    (match fld w 20 2 with
     | 0 => some (.fset (f4 w 22) (f4 w 16))
     | 1 => some (.fwait (f4 w 22) (f4 w 16))
     | _ => none)

/-- Whether the instruction that begins with word w has a second word (R78, R82, R87). -/
def hasWord1 (w : Nat) : Bool :=
  let maj := fld w 26 6
  twoWordMajor maj || maj == 0x25 || (2 ≤ maj && maj ≤ 0xD && fBit w 10) || (maj == 0x10 && fBit w 12) ||
    (0x21 ≤ maj && maj ≤ 0x24 && fBit w 12)

/-- The fields of an instruction's words, by major (R79), before the checks of WellFormed. -/
def parse (w w1 : Nat) : Option Code :=
  let maj := fld w 26 6
  if maj == 0 then decodeSys w
  else if maj == 1 then instrCode (decodeSrr w)
  else if maj ≤ 0xD then instrCode (decodeSri maj w w1)
  else if maj == 0xE then decodeSbf w
  else if maj == 0x10 then instrCode (decodeSbr w w1)
  else if maj == 0x11 then decodeSjl w
  else if maj == 0x12 then decodeCallr w
  else if maj == 0x13 then decodeSsp w
  else if maj == 0x20 then instrCode (decodeStrm w)
  else if 0x21 ≤ maj && maj ≤ 0x24 then instrCode (decodeAmem maj w w1)
  else if maj == 0x25 then instrCode (decodeCpy w w1)
  else if maj == 0x26 then instrCode (decodeAmo w)
  else if maj == 0x27 then instrCode (decodeActl w)
  else if 0x30 ≤ maj && maj ≤ 0x37 then instrCode (decodeVec maj w w1)
  else if maj == 0x38 then instrCode (decodeMat w w1)
  else if maj == 0x39 then instrCode (decodeRow w w1)
  else if maj == 0x3A then instrCode (decodeFlg w w1)
  else if maj == 0x3E then some (.reservedEscape (fBv w 0 26))
  else if maj == 0x3F then some (.definedIllegal (fBv w 0 26))
  else some (.unallocatedMajor (f6 w 26) (fBv w 0 26) (fBv w1 0 32))

/-- Decode an instruction from its first word and, where it has one, its second word (else 0): every rule of R78 to R101
and R54 that fails makes the encoding unallocated (R102, order 5). -/
def decodeCode (w w1 : Nat) : Except DecodeError Code :=
  match parse w w1 with
  | some c => if c.wf then .ok c else .error .unallocated
  | none => .error .unallocated

/-- The instruction of one or two words. -/
noncomputable def decodeWords (w w1 : Nat) : Except DecodeError Instr := (decodeCode w w1).map Code.toInstr

/-- A little-endian 32-bit word at the head of a list of bytes, and the bytes after it (R6). -/
def takeWord : List Byte → Option (Nat × List Byte)
  | b0 :: b1 :: b2 :: b3 :: rest =>
    some (b0.toNat + 2 ^ 8 * b1.toNat + 2 ^ 16 * b2.toNat + 2 ^ 24 * b3.toNat, rest)
  | _ => none

/-- Decode the instruction at the head of a list of bytes, answering it with its length in bytes. -/
noncomputable def decode (bs : List Byte) : Except DecodeError (Instr × Nat) :=
  match takeWord bs with
  | none => .error .truncated
  | some (w, rest) =>
    if hasWord1 w then
      match takeWord rest with
      | none => .error .truncated
      | some (w1, _) => (decodeWords w w1).map fun i => (i, 8)
    else (decodeWords w 0).map fun i => (i, 4)

/-- The four bytes of a word, little-endian (R6). -/
def wordBytes (w : Nat) : List Byte :=
  [BitVec.ofNat 8 w, BitVec.ofNat 8 (w / 2 ^ 8), BitVec.ofNat 8 (w / 2 ^ 16), BitVec.ofNat 8 (w / 2 ^ 24)]

/-- What the decoder reads from an opcode-table word: nbits bits laid out as two little-endian words, zero above. -/
noncomputable def decodeTableWord (nbits w : Nat) : Option Instr :=
  let v := w % 2 ^ nbits
  match decode (wordBytes v ++ wordBytes (v / 2 ^ 32)) with
  | .ok (i, _) => some i
  | .error _ => none

/-! The encoder, from the same tables. -/

def bitN (b : Bool) : Nat := if b then 1 else 0

def Pq.code (q : Pq) : Nat := bitN q.pn * 2 ^ 4 + q.pq.val

def VSrc.code : VSrc → Nat
  | .v n => n.val
  | .o n => 48 + n.val
  | .y n => 56 + n.val
  | .stream => 58
  | .lq n => 60 + n.val

def VDst.code : VDst → Nat
  | .v n => n.val
  | .o n => 48 + n.val
  | .stream => 59
  | .sq n => 60 + n.val

def EType.code : EType → Nat
  | .i4 => 0 | .i8 => 1 | .i16 => 2 | .i32 => 3 | .bf16 => 4 | .f32 => 5 | .mx => 6

def RMode.code : RMode → Nat
  | .rne => 0 | .rtz => 1 | .rdn => 2 | .rup => 3

def Rnd.code (r : Rnd) : Nat := bitN r.sat * 2 ^ 2 + r.mode.code

def StrmField.code : StrmField → Nat
  | .base => 0 | .etype => 1 | .geom => 2 | .sbase => 3 | .sstride => 4
  | .loop l => 8 + l.val

def AmoType.code : AmoType → Nat
  | .i32 => 0 | .i64 => 1 | .n32 => 2 | .n64 => 3 | .f32 => 4

def Shape.code : Shape → Nat
  | .s1x4 => 0 | .s4x1 => 1 | .s2x2 => 2 | .ind => 3

def Pair.code : Pair → Nat
  | .bf16bf16 => 0 | .mx8mx8 => 1 | .bf16mx8 => 2 | .mx6mx6 => 3 | .mx8mx4 => 4 | .mx4mx8 => 5 | .bf16mx4 => 6 | .mx4mx4 => 7

def Act.code : Act → Nat
  | .none => 0 | .relu => 1 | .clamp => 2

def DrainType.code : DrainType → Nat
  | .f32 => 0 | .bf16 => 1 | .i8 => 2 | .i16 => 3 | .i32 => 4 | .i4 => 5

def RowIn.code : RowIn → Nat
  | .bf16 => 4 | .f32 => 5

def RowOut.code : RowOut → Nat
  | .i8 => 1 | .bf16 => 4 | .f32 => 5

def encSys (op gd ga imm : Nat) : Nat := gd * 2 ^ 21 + ga * 2 ^ 16 + op * 2 ^ 12 + imm

def encSrr (fn gd ga gb : Nat) (q : Pq) : Nat := 1 * 2 ^ 26 + gd * 2 ^ 21 + ga * 2 ^ 16 + gb * 2 ^ 11 + fn * 2 ^ 5 + q.code

def encSri (maj gd ga : Nat) (q : Pq) (imm : Nat) : Nat := maj * 2 ^ 26 + gd * 2 ^ 21 + ga * 2 ^ 16 + q.code * 2 ^ 11 + imm

/-- An SRI word with X = 1; the immediate is the extension word. -/
def encSriX (maj gd ga : Nat) (q : Pq) : Nat := maj * 2 ^ 26 + gd * 2 ^ 21 + ga * 2 ^ 16 + q.code * 2 ^ 11 + 2 ^ 10

def encSbf (op gd ga pos wm1 : Nat) : Nat := 0xE * 2 ^ 26 + gd * 2 ^ 21 + ga * 2 ^ 16 + op * 2 ^ 14 + pos * 2 ^ 8 + wm1 * 2 ^ 2

def encSbr (cond ga gb x off : Nat) : Nat := 0x10 * 2 ^ 26 + ga * 2 ^ 21 + gb * 2 ^ 16 + cond * 2 ^ 13 + x * 2 ^ 12 + off

def encSsp (st g slot lane : Nat) : Nat := 0x13 * 2 ^ 26 + g * 2 ^ 21 + slot * 2 ^ 13 + lane * 2 ^ 7 + st * 2 ^ 6

def encStrm (op gd ga sn sel : Nat) : Nat := 0x20 * 2 ^ 26 + gd * 2 ^ 21 + ga * 2 ^ 16 + sn * 2 ^ 12 + sel * 2 ^ 8 + op * 2 ^ 4

def encAmem (maj sel gd ga x off : Nat) : Nat := maj * 2 ^ 26 + gd * 2 ^ 21 + ga * 2 ^ 16 + sel * 2 ^ 13 + x * 2 ^ 12 + off

def encCpy (kind gd ga gb b : Nat) : Nat := 0x25 * 2 ^ 26 + gd * 2 ^ 21 + ga * 2 ^ 16 + gb * 2 ^ 11 + b * 2 ^ 8 + kind * 2 ^ 5

def encAmo (op d gd ga gb : Nat) (t : AmoType) : Nat :=
  0x26 * 2 ^ 26 + gd * 2 ^ 21 + ga * 2 ^ 16 + gb * 2 ^ 11 + d * 2 ^ 10 + op * 2 ^ 6 + t.code * 2 ^ 3

def encActl (fn gd ga gb h : Nat) : Nat := 0x27 * 2 ^ 26 + gd * 2 ^ 21 + ga * 2 ^ 16 + gb * 2 ^ 11 + h * 2 ^ 7 + fn

def encVec0 (maj fn vd va vb : Nat) : Nat := maj * 2 ^ 26 + vd * 2 ^ 20 + va * 2 ^ 14 + vb * 2 ^ 8 + fn

def encVec1 (vc ty : Nat) (m : VMods) : Nat :=
  vc * 2 ^ 26 + m.pm.val * 2 ^ 20 + bitN m.z * 2 ^ 19 + ty * 2 ^ 16 + m.sf.val * 2 ^ 12 + m.af.val * 2 ^ 8 + m.port.val * 2 ^ 4 + m.rnd.code

def FMods.code (f : FMods) : Nat := f.sf.val * 2 ^ 12 + f.af.val * 2 ^ 8

def encMat0 (op md ms shape pair ks : Nat) : Nat :=
  0x38 * 2 ^ 26 + op * 2 ^ 23 + md * 2 ^ 20 + ms * 2 ^ 17 + shape * 2 ^ 15 + pair * 2 ^ 12 + ks

def encDrain1 (sa sx : Nat) (d : DrainMods) (f : FMods) : Nat :=
  sa * 2 ^ 28 + sx * 2 ^ 24 + bitN d.rs * 2 ^ 23 + bitN d.cs * 2 ^ 22 + bitN d.bias * 2 ^ 21 + d.act.code * 2 ^ 19 +
    d.ot.code * 2 ^ 16 + f.code + bitN d.q * 2 ^ 7 + d.rnd.code

def encRow0 (op : Nat) (r : RowOps) : Nat := 0x39 * 2 ^ 26 + op * 2 ^ 23 + r.si.val * 2 ^ 16 + r.so.val * 2 ^ 12 + r.len.val

def encRow1 (r : RowOps) : Nat :=
  r.ck.val * 2 ^ 27 + r.sm.val * 2 ^ 23 + r.it.code * 2 ^ 19 + r.ot.code * 2 ^ 16 + r.fm.code + r.rnd.code

def encFlg (op f cnt : Nat) : Nat := 0x3A * 2 ^ 26 + f * 2 ^ 22 + op * 2 ^ 20 + cnt * 2 ^ 16

/-- The encoding words of an instruction: one or two, or none for an event, which has no encoding. -/
def encode : Instr → List Nat
  | .nop => [encSys 1 0 0 0]
  | .illegalZeroWord => [0]
  | .definedIllegal code => [0x3F * 2 ^ 26 + code.toNat]
  | .trap imm => [encSys 2 0 0 imm.toNat]
  | .brk imm => [encSys 3 0 0 imm.toNat]
  | .eret => [encSys 4 0 0 0]
  | .done => [encSys 5 0 0 0]
  | .sysrd gd num => [encSys 6 gd.val 0 num.toNat]
  | .syswr num ga => [encSys 7 0 ga.val num.toNat]
  | .qpushXq ga => [encSys 8 0 ga.val 0]
  | .qpushYq ga => [encSys 8 0 ga.val 1]
  | .qpopYq gd => [encSys 9 gd.val 0 1]
  | .qpopXq gd => [encSys 9 gd.val 0 0]
  | .add gd ga gb q => [encSrr 0 gd.val ga.val gb.val q]
  | .sub gd ga gb q => [encSrr 1 gd.val ga.val gb.val q]
  | .mul gd ga gb q => [encSrr 2 gd.val ga.val gb.val q]
  | .mulh gd ga gb q => [encSrr 3 gd.val ga.val gb.val q]
  | .mulhn gd ga gb q => [encSrr 4 gd.val ga.val gb.val q]
  | .div gd ga gb q => [encSrr 5 gd.val ga.val gb.val q]
  | .divn gd ga gb q => [encSrr 6 gd.val ga.val gb.val q]
  | .rem gd ga gb q => [encSrr 7 gd.val ga.val gb.val q]
  | .remn gd ga gb q => [encSrr 8 gd.val ga.val gb.val q]
  | .and gd ga gb q => [encSrr 9 gd.val ga.val gb.val q]
  | .or gd ga gb q => [encSrr 10 gd.val ga.val gb.val q]
  | .xor gd ga gb q => [encSrr 11 gd.val ga.val gb.val q]
  | .andn gd ga gb q => [encSrr 12 gd.val ga.val gb.val q]
  | .orn gd ga gb q => [encSrr 13 gd.val ga.val gb.val q]
  | .shl gd ga gb q => [encSrr 14 gd.val ga.val gb.val q]
  | .shr gd ga gb q => [encSrr 15 gd.val ga.val gb.val q]
  | .sra gd ga gb q => [encSrr 16 gd.val ga.val gb.val q]
  | .rotl gd ga gb q => [encSrr 17 gd.val ga.val gb.val q]
  | .rotr gd ga gb q => [encSrr 18 gd.val ga.val gb.val q]
  | .min gd ga gb q => [encSrr 19 gd.val ga.val gb.val q]
  | .max gd ga gb q => [encSrr 20 gd.val ga.val gb.val q]
  | .minn gd ga gb q => [encSrr 21 gd.val ga.val gb.val q]
  | .maxn gd ga gb q => [encSrr 22 gd.val ga.val gb.val q]
  | .seq gd ga gb q => [encSrr 23 gd.val ga.val gb.val q]
  | .sne gd ga gb q => [encSrr 24 gd.val ga.val gb.val q]
  | .slt gd ga gb q => [encSrr 25 gd.val ga.val gb.val q]
  | .sltn gd ga gb q => [encSrr 26 gd.val ga.val gb.val q]
  | .sle gd ga gb q => [encSrr 27 gd.val ga.val gb.val q]
  | .slen gd ga gb q => [encSrr 28 gd.val ga.val gb.val q]
  | .sel gd ga gb q => [encSrr 29 gd.val ga.val gb.val q]
  | .clz gd ga q => [encSrr 30 gd.val ga.val 0 q]
  | .ctz gd ga q => [encSrr 31 gd.val ga.val 0 q]
  | .popc gd ga q => [encSrr 32 gd.val ga.val 0 q]
  | .addi gd ga q imm => [encSri 2 gd.val ga.val q imm.toNat]
  | .muli gd ga q imm => [encSri 3 gd.val ga.val q imm.toNat]
  | .andi gd ga q imm => [encSri 4 gd.val ga.val q imm.toNat]
  | .ori gd ga q imm => [encSri 5 gd.val ga.val q imm.toNat]
  | .xori gd ga q imm => [encSri 6 gd.val ga.val q imm.toNat]
  | .slti gd ga q imm => [encSri 7 gd.val ga.val q imm.toNat]
  | .sltni gd ga q imm => [encSri 8 gd.val ga.val q imm.toNat]
  | .shli gd ga q imm => [encSri 9 gd.val ga.val q imm.toNat]
  | .shri gd ga q imm => [encSri 10 gd.val ga.val q imm.toNat]
  | .srai gd ga q imm => [encSri 11 gd.val ga.val q imm.toNat]
  | .ldi gd q imm => [encSri 12 gd.val 0 q imm.toNat]
  | .ldhi gd q imm => [encSri 13 gd.val 0 q imm.toNat]
  | .addiExt gd ga q imm => [encSriX 2 gd.val ga.val q, imm.toNat]
  | .muliExt gd ga q imm => [encSriX 3 gd.val ga.val q, imm.toNat]
  | .andiExt gd ga q imm => [encSriX 4 gd.val ga.val q, imm.toNat]
  | .oriExt gd ga q imm => [encSriX 5 gd.val ga.val q, imm.toNat]
  | .xoriExt gd ga q imm => [encSriX 6 gd.val ga.val q, imm.toNat]
  | .sltiExt gd ga q imm => [encSriX 7 gd.val ga.val q, imm.toNat]
  | .sltniExt gd ga q imm => [encSriX 8 gd.val ga.val q, imm.toNat]
  | .shliExt gd ga q imm => [encSriX 9 gd.val ga.val q, imm.toNat]
  | .shriExt gd ga q imm => [encSriX 10 gd.val ga.val q, imm.toNat]
  | .sraiExt gd ga q imm => [encSriX 11 gd.val ga.val q, imm.toNat]
  | .ldiExt gd q imm => [encSriX 12 gd.val 0 q, imm.toNat]
  | .ldhiExt gd q imm => [encSriX 13 gd.val 0 q, imm.toNat]
  | .bfx gd ga pos wm1 => [encSbf 0 gd.val ga.val pos.val wm1.val]
  | .bfxs gd ga pos wm1 => [encSbf 1 gd.val ga.val pos.val wm1.val]
  | .bfi gd ga pos wm1 => [encSbf 2 gd.val ga.val pos.val wm1.val]
  | .beq ga gb off => [encSbr 0 ga.val gb.val 0 off.toNat]
  | .bne ga gb off => [encSbr 1 ga.val gb.val 0 off.toNat]
  | .blt ga gb off => [encSbr 2 ga.val gb.val 0 off.toNat]
  | .bge ga gb off => [encSbr 3 ga.val gb.val 0 off.toNat]
  | .bltn ga gb off => [encSbr 4 ga.val gb.val 0 off.toNat]
  | .bgen ga gb off => [encSbr 5 ga.val gb.val 0 off.toNat]
  | .loop ga off => [encSbr 6 ga.val 0 0 off.toNat]
  | .beqExt ga gb off => [encSbr 0 ga.val gb.val 1 0, off.toNat]
  | .bneExt ga gb off => [encSbr 1 ga.val gb.val 1 0, off.toNat]
  | .bltExt ga gb off => [encSbr 2 ga.val gb.val 1 0, off.toNat]
  | .bgeExt ga gb off => [encSbr 3 ga.val gb.val 1 0, off.toNat]
  | .bltnExt ga gb off => [encSbr 4 ga.val gb.val 1 0, off.toNat]
  | .bgenExt ga gb off => [encSbr 5 ga.val gb.val 1 0, off.toNat]
  | .loopExt ga off => [encSbr 6 ga.val 0 1 0, off.toNat]
  | .call gd off => [0x11 * 2 ^ 26 + gd.val * 2 ^ 21 + off.toNat]
  | .jmp off => [0x11 * 2 ^ 26 + off.toNat]
  | .callr gd ga => [0x12 * 2 ^ 26 + gd.val * 2 ^ 21 + ga.val * 2 ^ 16]
  | .jr ga => [0x12 * 2 ^ 26 + ga.val * 2 ^ 16]
  | .lds g slot lane => [encSsp 0 g.val slot.val lane.val]
  | .sts g slot lane => [encSsp 1 g.val slot.val lane.val]
  | .sset sn f ga => [encStrm 0 0 ga.val sn.val f.code]
  | .sgo sn => [encStrm 1 0 0 sn.val 0]
  | .sget gd sn f => [encStrm 2 gd.val 0 sn.val f.code]
  | .ldB gd ga off => [encAmem 0x21 0 gd.val ga.val 0 off.toNat]
  | .ldH gd ga off => [encAmem 0x21 1 gd.val ga.val 0 off.toNat]
  | .ldW gd ga off => [encAmem 0x21 2 gd.val ga.val 0 off.toNat]
  | .ldD gd ga off => [encAmem 0x21 3 gd.val ga.val 0 off.toNat]
  | .ldBn gd ga off => [encAmem 0x21 4 gd.val ga.val 0 off.toNat]
  | .ldHn gd ga off => [encAmem 0x21 5 gd.val ga.val 0 off.toNat]
  | .ldWn gd ga off => [encAmem 0x21 6 gd.val ga.val 0 off.toNat]
  | .ldBExt gd ga off => [encAmem 0x21 0 gd.val ga.val 1 0, off.toNat]
  | .ldHExt gd ga off => [encAmem 0x21 1 gd.val ga.val 1 0, off.toNat]
  | .ldWExt gd ga off => [encAmem 0x21 2 gd.val ga.val 1 0, off.toNat]
  | .ldDExt gd ga off => [encAmem 0x21 3 gd.val ga.val 1 0, off.toNat]
  | .ldBnExt gd ga off => [encAmem 0x21 4 gd.val ga.val 1 0, off.toNat]
  | .ldHnExt gd ga off => [encAmem 0x21 5 gd.val ga.val 1 0, off.toNat]
  | .ldWnExt gd ga off => [encAmem 0x21 6 gd.val ga.val 1 0, off.toNat]
  | .stB gb ga off => [encAmem 0x22 0 gb.val ga.val 0 off.toNat]
  | .stH gb ga off => [encAmem 0x22 1 gb.val ga.val 0 off.toNat]
  | .stW gb ga off => [encAmem 0x22 2 gb.val ga.val 0 off.toNat]
  | .stD gb ga off => [encAmem 0x22 3 gb.val ga.val 0 off.toNat]
  | .stBExt gb ga off => [encAmem 0x22 0 gb.val ga.val 1 0, off.toNat]
  | .stHExt gb ga off => [encAmem 0x22 1 gb.val ga.val 1 0, off.toNat]
  | .stWExt gb ga off => [encAmem 0x22 2 gb.val ga.val 1 0, off.toNat]
  | .stDExt gb ga off => [encAmem 0x22 3 gb.val ga.val 1 0, off.toNat]
  | .vld n ga off => [encAmem 0x23 n.val 0 ga.val 0 off.toNat]
  | .ldx ga off => [encAmem 0x23 4 0 ga.val 0 off.toNat]
  | .vldExt n ga off => [encAmem 0x23 n.val 0 ga.val 1 0, off.toNat]
  | .ldxExt ga off => [encAmem 0x23 4 0 ga.val 1 0, off.toNat]
  | .vst n ga off => [encAmem 0x24 n.val 0 ga.val 0 off.toNat]
  | .stx ga off => [encAmem 0x24 2 0 ga.val 0 off.toNat]
  | .vstExt n ga off => [encAmem 0x24 n.val 0 ga.val 1 0, off.toNat]
  | .stxExt ga off => [encAmem 0x24 2 0 ga.val 1 0, off.toNat]
  | .cpyIn o => [encCpy 0 o.gd.val o.ga.val o.gb.val o.b.val, o.slot.val]
  | .cpyOut o => [encCpy 1 o.gd.val o.ga.val o.gb.val o.b.val, o.slot.val]
  | .cpy2dIn o => [encCpy 2 o.gd.val o.ga.val o.gb.val o.b.val, o.slot.val]
  | .cpy2dOut o => [encCpy 3 o.gd.val o.ga.val o.gb.val o.b.val, o.slot.val]
  | .cpyGth o => [encCpy 4 o.gd.val o.ga.val o.gb.val o.b.val, o.slot.val]
  | .cpyWb o => [encCpy 5 o.gd.val o.ga.val o.gb.val o.b.val, o.slot.val]
  | .cpyLink ga b slot => [encCpy 6 0 ga.val 0 b.val, slot.val]
  | .cpyKick slot => [encCpy 7 0 0 0 0, slot.val]
  | .amoAdd gd ga gb t => [encAmo 0 0 gd.val ga.val gb.val t]
  | .amoMin gd ga gb t => [encAmo 1 0 gd.val ga.val gb.val t]
  | .amoMax gd ga gb t => [encAmo 2 0 gd.val ga.val gb.val t]
  | .amoOr gd ga gb t => [encAmo 3 0 gd.val ga.val gb.val t]
  | .amoAnd gd ga gb t => [encAmo 4 0 gd.val ga.val gb.val t]
  | .amoXor gd ga gb t => [encAmo 5 0 gd.val ga.val gb.val t]
  | .amoSwap gd ga gb t => [encAmo 6 0 gd.val ga.val gb.val t]
  | .amoCas gd ga gb t => [encAmo 7 0 gd.val ga.val gb.val t]
  | .damoAdd ga gb t => [encAmo 0 1 0 ga.val gb.val t]
  | .damoMin ga gb t => [encAmo 1 1 0 ga.val gb.val t]
  | .damoMax ga gb t => [encAmo 2 1 0 ga.val gb.val t]
  | .damoOr ga gb t => [encAmo 3 1 0 ga.val gb.val t]
  | .bwait b => [encActl 0x00 0 0 0 b.val]
  | .badd b ga => [encActl 0x01 0 ga.val 0 b.val]
  | .tacq tn ga => [encActl 0x02 0 ga.val 0 tn.val]
  | .talloc tn ga gb => [encActl 0x03 0 ga.val gb.val tn.val]
  | .tseal tn => [encActl 0x4 0 0 0 tn.val]
  | .trel tn => [encActl 0x5 0 0 0 tn.val]
  | .taddr gd tn => [encActl 0x06 gd.val 0 0 tn.val]
  | .acq ga => [encActl 0x8 0 ga.val 0 0]
  | .rel ga => [encActl 0x9 0 ga.val 0 0]
  | .bind gd ga gb => [encActl 0x0A gd.val ga.val gb.val 0]
  | .fenceT => [encActl 0x0B 0 0 0 0]
  | .fenceD => [encActl 0x0B 0 0 0 1]
  | .fenceP => [encActl 0x0B 0 0 0 2]
  | .fenceS => [encActl 0x0B 0 0 0 3]
  | .fenceDur => [encActl 0x0B 0 0 0 4]
  | .dbar => [encActl 0xc 0 0 0 0]
  | .pbar => [encActl 0x10 0 0 0 0]
  | .pflush ga gb => [encActl 0x11 0 ga.val gb.val 0]
  | .pseal tn => [encActl 0x12 0 0 0 tn.val]
  | .spawn ga => [encActl 0x18 0 ga.val 0 0]
  | .yield => [encActl 0x19 0 0 0 0]
  | .xlpf ga gb => [encActl 0x1a 0 ga.val gb.val 0]
  | .vadd vd va vb t m => [encVec0 0x30 0x0 vd.code va.code vb.code, encVec1 0 t.code m]
  | .vsub vd va vb t m => [encVec0 0x30 0x1 vd.code va.code vb.code, encVec1 0 t.code m]
  | .vmul vd va vb t m => [encVec0 0x30 0x2 vd.code va.code vb.code, encVec1 0 t.code m]
  | .vmulz vd va vb t m => [encVec0 0x30 0x3 vd.code va.code vb.code, encVec1 0 t.code m]
  | .vfma vd va vb vc t m => [encVec0 0x30 0x4 vd.code va.code vb.code, encVec1 vc.code t.code m]
  | .vfms vd va vb vc t m => [encVec0 0x30 0x5 vd.code va.code vb.code, encVec1 vc.code t.code m]
  | .vfnma vd va vb vc t m => [encVec0 0x30 0x6 vd.code va.code vb.code, encVec1 vc.code t.code m]
  | .vmulh vd va vb t m => [encVec0 0x30 0x7 vd.code va.code vb.code, encVec1 0 t.code m]
  | .vmulhn vd va vb t m => [encVec0 0x30 0x8 vd.code va.code vb.code, encVec1 0 t.code m]
  | .vmin vd va vb t m => [encVec0 0x30 0x9 vd.code va.code vb.code, encVec1 0 t.code m]
  | .vmax vd va vb t m => [encVec0 0x30 0xa vd.code va.code vb.code, encVec1 0 t.code m]
  | .vminn vd va vb t m => [encVec0 0x30 0xb vd.code va.code vb.code, encVec1 0 t.code m]
  | .vmaxn vd va vb t m => [encVec0 0x30 0xc vd.code va.code vb.code, encVec1 0 t.code m]
  | .vabs vd va t m => [encVec0 0x30 0xd vd.code va.code 0, encVec1 0 t.code m]
  | .vneg vd va t m => [encVec0 0x30 0xe vd.code va.code 0, encVec1 0 t.code m]
  | .vand vd va vb t m => [encVec0 0x31 0x0 vd.code va.code vb.code, encVec1 0 t.code m]
  | .vor vd va vb t m => [encVec0 0x31 0x1 vd.code va.code vb.code, encVec1 0 t.code m]
  | .vxor vd va vb t m => [encVec0 0x31 0x2 vd.code va.code vb.code, encVec1 0 t.code m]
  | .vandn vd va vb t m => [encVec0 0x31 0x3 vd.code va.code vb.code, encVec1 0 t.code m]
  | .vnot vd va t m => [encVec0 0x31 0x4 vd.code va.code 0, encVec1 0 t.code m]
  | .vshl vd va vb t m => [encVec0 0x31 0x5 vd.code va.code vb.code, encVec1 0 t.code m]
  | .vshr vd va vb t m => [encVec0 0x31 0x6 vd.code va.code vb.code, encVec1 0 t.code m]
  | .vsra vd va vb t m => [encVec0 0x31 0x7 vd.code va.code vb.code, encVec1 0 t.code m]
  | .vshli vd va imm t m => [encVec0 0x31 0x8 vd.code va.code imm.val, encVec1 0 t.code m]
  | .vshri vd va imm t m => [encVec0 0x31 0x9 vd.code va.code imm.val, encVec1 0 t.code m]
  | .vsrai vd va imm t m => [encVec0 0x31 0xa vd.code va.code imm.val, encVec1 0 t.code m]
  | .vfshl vd va vb vc t m => [encVec0 0x31 0xb vd.code va.code vb.code, encVec1 vc.code t.code m]
  | .vfshr vd va vb vc t m => [encVec0 0x31 0xc vd.code va.code vb.code, encVec1 vc.code t.code m]
  | .vpopc vd va t m => [encVec0 0x31 0xd vd.code va.code 0, encVec1 0 t.code m]
  | .vclz vd va t m => [encVec0 0x31 0xe vd.code va.code 0, encVec1 0 t.code m]
  | .vctz vd va t m => [encVec0 0x31 0xf vd.code va.code 0, encVec1 0 t.code m]
  | .vceq pd va vb t m => [encVec0 0x32 0x0 pd.val va.code vb.code, encVec1 0 t.code m]
  | .vcne pd va vb t m => [encVec0 0x32 0x1 pd.val va.code vb.code, encVec1 0 t.code m]
  | .vclt pd va vb t m => [encVec0 0x32 0x2 pd.val va.code vb.code, encVec1 0 t.code m]
  | .vcle pd va vb t m => [encVec0 0x32 0x3 pd.val va.code vb.code, encVec1 0 t.code m]
  | .vcltn pd va vb t m => [encVec0 0x32 0x4 pd.val va.code vb.code, encVec1 0 t.code m]
  | .vclen pd va vb t m => [encVec0 0x32 0x5 pd.val va.code vb.code, encVec1 0 t.code m]
  | .vcun pd va vb t m => [encVec0 0x32 0x6 pd.val va.code vb.code, encVec1 0 t.code m]
  | .pand pd pa pb m => [encVec0 0x32 0x10 pd.val pa.val pb.val, encVec1 0 0 m]
  | .por pd pa pb m => [encVec0 0x32 0x11 pd.val pa.val pb.val, encVec1 0 0 m]
  | .pxor pd pa pb m => [encVec0 0x32 0x12 pd.val pa.val pb.val, encVec1 0 0 m]
  | .pandn pd pa pb m => [encVec0 0x32 0x13 pd.val pa.val pb.val, encVec1 0 0 m]
  | .pnot pd pa m => [encVec0 0x32 0x14 pd.val pa.val 0, encVec1 0 0 m]
  | .pset pd m => [encVec0 0x32 0x15 pd.val 0 0, encVec1 0 0 m]
  | .pclr pd m => [encVec0 0x32 0x16 pd.val 0 0, encVec1 0 0 m]
  | .plt pd ca t m => [encVec0 0x32 0x17 pd.val ca.val 0, encVec1 0 t.code m]
  | .pge pd ca t m => [encVec0 0x32 0x18 pd.val ca.val 0, encVec1 0 t.code m]
  | .vcvt vd va src t m => [encVec0 0x33 src.code vd.code va.code 0, encVec1 0 t.code m]
  | .vqnt vd va vb t m => [encVec0 0x33 0x8 vd.code va.code vb.code, encVec1 0 t.code m]
  | .vdqnt vd va vb t m => [encVec0 0x33 0x9 vd.code va.code vb.code, encVec1 0 t.code m]
  | .vpack4 vd va vb t m => [encVec0 0x33 0xa vd.code va.code vb.code, encVec1 0 t.code m]
  | .vunpk4 vd va t m => [encVec0 0x33 0xb vd.code va.code 0, encVec1 0 t.code m]
  | .vwid2 vd va t m => [encVec0 0x33 0xc vd.code va.code 0, encVec1 0 t.code m]
  | .vwid4 vd va t m => [encVec0 0x33 0xd vd.code va.code 0, encVec1 0 t.code m]
  | .vwmul2 vd va vb t m => [encVec0 0x33 0xe vd.code va.code vb.code, encVec1 0 t.code m]
  | .vperm vd va vb t m => [encVec0 0x34 0x0 vd.code va.code vb.code, encVec1 0 t.code m]
  | .vperm2 vd va vb vc t m => [encVec0 0x34 0x1 vd.code va.code vb.code, encVec1 vc.code t.code m]
  | .vcomp vd va t m => [encVec0 0x34 0x2 vd.code va.code 0, encVec1 0 t.code m]
  | .vexpd vd va t m => [encVec0 0x34 0x3 vd.code va.code 0, encVec1 0 t.code m]
  | .vslup vd va cb vc t m => [encVec0 0x34 0x4 vd.code va.code cb.val, encVec1 vc.code t.code m]
  | .vsldn vd va cb vc t m => [encVec0 0x34 0x5 vd.code va.code cb.val, encVec1 vc.code t.code m]
  | .vbcast vd va cb t m => [encVec0 0x34 0x6 vd.code va.code cb.val, encVec1 0 t.code m]
  | .vsplat vd ca t m => [encVec0 0x34 0x7 vd.code ca.val 0, encVec1 0 t.code m]
  | .vmov vd va m => [encVec0 0x34 0x8 vd.code va.code 0, encVec1 0 0 m]
  | .vins vd ca cb t m => [encVec0 0x34 0x9 vd.code ca.val cb.val, encVec1 0 t.code m]
  | .vext cd va cb t m => [encVec0 0x34 0xa cd.val va.code cb.val, encVec1 0 t.code m]
  | .vidx vd ca t m => [encVec0 0x34 0xb vd.code ca.val 0, encVec1 0 t.code m]
  | .vrsum vd va t m => [encVec0 0x35 0x0 vd.code va.code 0, encVec1 0 t.code m]
  | .vrmax vd va t m => [encVec0 0x35 0x1 vd.code va.code 0, encVec1 0 t.code m]
  | .vrmin vd va t m => [encVec0 0x35 0x2 vd.code va.code 0, encVec1 0 t.code m]
  | .vgmax vd va imm t m => [encVec0 0x35 0x3 vd.code va.code imm.val, encVec1 0 t.code m]
  | .vscan vd va t m => [encVec0 0x35 0x4 vd.code va.code 0, encVec1 0 t.code m]
  | .vrcpe vd va t m => [encVec0 0x36 0x0 vd.code va.code 0, encVec1 0 t.code m]
  | .vrsqe vd va t m => [encVec0 0x36 0x1 vd.code va.code 0, encVec1 0 t.code m]
  | .vrcps vd va vb t m => [encVec0 0x36 0x2 vd.code va.code vb.code, encVec1 0 t.code m]
  | .vrsqs vd va vb t m => [encVec0 0x36 0x3 vd.code va.code vb.code, encVec1 0 t.code m]
  | .vexp2F vd va t m => [encVec0 0x36 0x8 vd.code va.code 0, encVec1 0 t.code m]
  | .vlog2F vd va t m => [encVec0 0x36 0x9 vd.code va.code 0, encVec1 0 t.code m]
  | .vtanhF vd va t m => [encVec0 0x36 0xa vd.code va.code 0, encVec1 0 t.code m]
  | .vexp2X vd va t m => [encVec0 0x36 0xc vd.code va.code 0, encVec1 0 t.code m]
  | .vlog2X vd va t m => [encVec0 0x36 0xd vd.code va.code 0, encVec1 0 t.code m]
  | .vtanhX vd va t m => [encVec0 0x36 0xe vd.code va.code 0, encVec1 0 t.code m]
  | .vrng vd ca cb m => [encVec0 0x36 0x10 vd.code ca.val cb.val, encVec1 0 3 m]
  | .vrngD vd ca cb m => [encVec0 0x36 0x11 vd.code ca.val cb.val, encVec1 0 0 m]
  | .vspill slot va m => [encVec0 0x37 (slot.val / 64) 0 va.code (slot.val % 64), encVec1 0 0 m]
  | .vfill vd slot m => [encVec0 0x37 (4 + slot.val / 64) vd.code 0 (slot.val % 64), encVec1 0 0 m]
  | .wbsel w ca cb fm => [encMat0 0 0 0 0 0 0, ca.val * 2 ^ 27 + cb.val * 2 ^ 22 + fm.code + w.val * 2 ^ 4]
  | .mzero md fm => [encMat0 1 md.val 0 0 0 0, fm.code]
  | .mma md sa w shape pair ksteps fm => [encMat0 2 md.val 0 shape.code pair.code ksteps.val, sa.val * 2 ^ 28 + fm.code + w.val * 2 ^ 4]
  | .mmaz md sa w shape pair ksteps fm => [encMat0 3 md.val 0 shape.code pair.code ksteps.val, sa.val * 2 ^ 28 + fm.code + w.val * 2 ^ 4]
  | .mdrain md sa sx dm fm => [encMat0 4 md.val 0 0 0 0, encDrain1 sa.val sx.val dm fm]
  | .mmov md ms fm => [encMat0 5 md.val ms.val 0 0 0, fm.code]
  | .mswap md ms fm => [encMat0 6 md.val ms.val 0 0 0, fm.code]
  | .mstat cd md fm => [encMat0 7 md.val 0 0 0 0, cd.val * 2 ^ 27 + fm.code]
  | .rsmax r => [encRow0 0 r, encRow1 r]
  | .rexps r => [encRow0 1 r, encRow1 r]
  | .rscal r => [encRow0 2 r, encRow1 r]
  | .rsoftmax r => [encRow0 3 r, encRow1 r]
  | .rnorm r => [encRow0 4 r, encRow1 r]
  | .fset f cnt => [encFlg 0 f.val cnt.val, 0]
  | .fwait f cnt => [encFlg 1 f.val cnt.val, 0]
  | .resultLanding => []
  | .loadDataArrival => []
  | .chunkLanding => []
  | .copyFault => []
  | .chainWaitRelease => []
  | .decoupleDeadlock => []
  | .flagDeadlock => []
  | .residencyTimeout => []
  | .silentErr => []
  | .taskRetirement => []
  | .handlerEntry => []
  | .switchComplete => []
  | .spillComplete => []
  | .taskReady => []
  | .taskDispatch => []
  | .taskSteal => []
  | .priorityPreemption => []
  | .spawnOverflowResume => []
  | .gangReserving => []
  | .gangRunning => []
  | .gangReserveTimeout => []
  | .gangFormTimeout => []
  | .gangPreemption => []
  | .dbarCommit => []
  | .finalCommit => []
  | .vdKick => []
  | .queueEnable => []
  | .queueDisable => []
  | .queueReset => []
  | .ageingStep => []
  | .slotGrant => []
  | .queueDisplacement => []
  | .idleUnmap => []
  | .unmappingComplete => []
  | .packetFetch => []
  | .nopPacket => []
  | .launch => []
  | .waitv => []
  | .signal => []
  | .copyPacket => []
  | .tileput => []
  | .map => []
  | .fencePacket => []
  | .dormantPacket => []
  | .reheatPacket => []
  | .retry => []
  | .progressAdvance => []
  | .journalReplay => []
  | .xinvStage1Page => []
  | .xinvStage1All => []
  | .xinvStage2Page => []
  | .xinvStage2All => []
  | .xinvComplete => []
  | .stgEnable => []
  | .stgDisable => []
  | .stagingReadComplete => []
  | .writeAccepted => []
  | .unitProgrammed => []
  | .powerLoss => []
  | .siteDrainComplete => []
  | .durablePoolScan => []
  | .regatherWalk => []
  | .lehrReplicaComplete => []
  | .lehrRetry => []
  | .tfree => []
  | .tileDigestExchange => []
  | .commitDigestExchange => []
  | .uncorrectableError => []
  | .computeDieLoss => []
  | .baseDieLoss => []
  | .implicitCollapse => []
  | .collapseComplete => []
  | .vdReheat => []
  | .reheatComplete => []
  | .vdmCreate => []
  | .vdmDestroy => []
  | .fenceCommand => []
  | .regwr => []
  | .regrd => []
  | .regrsp => []
  | .memwr => []
  | .memrd => []
  | .memrsp => []
  | .cmpl => []
  | .peer => []
  | .ack => []
  | .nack => []
  | .heartbeat => []
  | .fenceFrame => []
  | .resendTimeout => []
  | .heartbeatTimer => []
  | .rateIncrease => []
  | .linkDown => []
  | .pathFailed => []
  | .peerLost => []
  | .hostLost => []
  | .pathLive => []
  | .vdErrAck => []
  | .vdCmpl => []
  | .registerWrite => []
  | .coldStart => []
  | .trainingComplete => []
  | .fullServiceEntry => []
  | .retired => []
  | .patchApplied => []
  | .firmwareImage => []
  | .mgmtFirmwareRestart => []
  | .portRoleAssignment => []
  | .peerTable => []
  | .recalStart => []
  | .recal => []
  | .serdesLaneRecal => []
  | .thermal => []
  | .thermalRecovery => []
  | .thermalStop => []
  | .homeReturn => []
  | .reservedEscape low => [0x3E * 2 ^ 26 + low.toNat]
  | .unallocatedMajor major low w1 => if twoWordMajor major.val then [major.val * 2 ^ 26 + low.toNat, w1.toNat] else [major.val * 2 ^ 26 + low.toNat]
  | .linkRecovery => []
  | .frameTypeUnallocated => []

/-- The bytes of an instruction: its words, each little-endian, the first at the lowest address (R6, R78). -/
def encodeBytes (i : Instr) : List Byte := (encode i).flatMap wordBytes

/-- Whether the row is an encoding; the rows that are events of the machine's engines and of the outside have none. -/
def Instr.hasEncoding (i : Instr) : Bool := encode i != []

end Sys2Proof
end

