-- ==== Sys2Proof/Config.lean ====
section
/-!
DEFINITION. What the spec leaves to the part: free values (log 2), which nothing in Lean can evaluate, and the places of the DEV
register blocks, which the spec calls "as laid down per block" (R279).
-/

namespace Sys2Proof

/-- The blocks of DEV registers (R288, R293, R324, R366, R380). -/
inductive DevBlock where
  | none
  | xlate (part : Nat)        -- translation control page (R288)
  | sched (part : Nat)        -- scheduling block of a partition (R324)
  | mgmt (part : Nat)         -- management page of a partition (R366)
  | vdCtl (vd : Nat)          -- control block of a VD (R293, R324, R348, R373, R381)
  | fence (part : Nat)        -- fence block of a partition (R362)
deriving DecidableEq, Repr, Inhabited

/-- The register block at a 4 KiB page of the DEV range, given as PA div 4,096 (R279; log 4). -/
opaque Config.devBlock : Nat → DevBlock

/-- A free 64-bit value: a read of CYCLE (R36), the growth of LODCNT at a loss-of-decoupling branch (R35), the
address of a commit log (log 62). -/
opaque Config.freeWord : Nat → Word

/-- A free value of an accumulator after WB_OVERRUN (R215). -/
opaque Config.freeAcc : Nat → Fin 8 → Acc

/-- What a `.f` function gives for FP32 bits, before the bounds of R72 are put to it: 0 exp2, 1 log2, 2 tanh. -/
opaque Config.fastFn : Nat → Word32 → Word32

/-- Where the part tries first to place a tile version of a VD's pool (R158), and where in a pseudo-channel a VD's lineage area begins, in
256-byte steps (R343, R344). -/
opaque Config.tilePlace : Nat → Nat
opaque Config.lineageArea : Nat → Nat

/-- The clock of the management port at a record of an incarnation (R400): whether it is synchronized, seconds and nanoseconds. -/
opaque Config.mgmtTime : Nat → Nat → Bool × BitVec 48 × Fin 1000000000

/-- A byte of the durable range of reduced service after a loss of power without a reserve, by incarnation and address (R389). -/
opaque Config.lostByte : Nat → Nat → Byte

/-- A free choice of the part among what a rule allows it. -/
opaque Config.choice : Nat → Nat

end Sys2Proof
end

