-- ==== Sys2Proof/Machine/State.lean ====
section
/-!
DEFINITION. The machine's state as plain data: one context that moves, the other contexts, physical memory, and the package's
units (partitions, virtual devices, queues, tasks, cores, gangs, tiles, lineage, durable sites, fabric, management). Every
field's docstring names the rule of spec/ that gives it; a field marked MODEL is the model's own (log 1).
-/

namespace Sys2Proof.Machine

/-- The two slices of a context (R19). -/
inductive Slice where
  | a | c
deriving DecidableEq, Repr

/-- The four engine queues of the C-slice (R24, R79). -/
inductive Engine where
  | sqe | vqe | mqe | rqe
deriving DecidableEq, Repr

/-- Why a step of the model stops the machine itself. Only one case: a DEV access at an address at which the spec lays no
register down. Raised by the loads and stores of DEV pages (Machine/Dev.lean). Safe: the part would answer something. -/
inductive Fault where
  | devWindow
deriving DecidableEq, Repr

/-- Why an instruction has no meaning. notModelled is raised by Dispatch.lean only. Safe: the part would go on. -/
inductive Refusal where
  | notModelled (mnemonic : String)
deriving DecidableEq, Repr

/-- The causes of R239. -/
inductive Cause where
  | illegal | wrongSlice | privilege | declaration | trap | brk | address | misaligned | pageFault | access | atomicType
  | detViolation | tileAccess | handleState | tileLimit | tileSize | tileNospace | tileLost | psealType | streamInvalid
  | matrixInvalid | wbOverrun | overlap | flagOverflow | copyInvalid | copyFault | bindLimit | domainNone | descInvalid
  | overflowFull | decoupleDeadlock | flagDeadlock | queueResidue | outputUnsealed | domainConflict | memUncorrectable
  | silentErr | handlerFault
deriving DecidableEq, Repr

/-- The conditions of R19 that block the A-slice. -/
inductive BlockA where
  | pushFull (q : Fin 5)      -- lq0-lq3 and xq
  | slipLimit
  | popSq (q : Fin 2)
  | popYq
  | checkerRecord
  | snapshotPlace
  | barrier
  | ownCopies
  | tileAcquire (name : Word)
  | tileLostAccess (name : Word)   -- zero: a version of another home
  | stage2 (rseq : Nat)
  | remote                    -- a global access awaits its home's answer (R289)
  | relBound
  | pbar
  | dbar
  | tallocSeal
  | psealStep
  | sealCopies                -- a seal whose record's second copy is not yet written at the buddy package (R343)
  | spawnOverflow
  | yieldWait
deriving DecidableEq, Repr

/-- The conditions of R19 that hold the C-slice. -/
inductive BlockC where
  | popLq (q : Fin 4)
  | popXq
  | pushSq (q : Fin 2)
  | pushYq
  | poison                    -- R242: the source would pop a poison entry
  | wait                      -- the fetch of the next instruction is held by a stage-2 fault (R285)
deriving DecidableEq, Repr

/-- One loop level of a stream descriptor (R23, R146). -/
structure LoopLevel where
  count  : BitVec 16
  stride : BitVec 24
deriving DecidableEq, Repr

/-- A stream descriptor (R23, R146). -/
structure Desc where
  base    : BitVec 23
  etype   : BitVec 4
  bpr     : BitVec 8
  mxw     : BitVec 2
  blen    : BitVec 10
  sbase   : BitVec 23
  sstride : BitVec 24
  loops   : Vector LoopLevel 6
deriving DecidableEq, Repr

/-- The all-zero descriptor (R25, R149). -/
def Desc.zero : Desc := ⟨0, 0, 0, 0, 0, 0, 0, Vector.replicate 6 ⟨0, 0⟩⟩

/-- An armed snapshot with the A-to-C push count at its sgo: an entry pushed with a greater number makes it eligible (R149). -/
structure Snapshot where
  desc  : Desc
  after : Nat
deriving DecidableEq, Repr

/-- One stream: shadow copy, live descriptor with its position, armed snapshots oldest first (R23, R149). -/
structure Stream where
  shadow    : Desc
  live      : Desc
  installed : Bool            -- some snapshot has been installed
  walking   : Bool            -- a vector walk is in progress
  pos       : Nat             -- bytes of it transferred
  armed     : List Snapshot
deriving DecidableEq, Repr

def Stream.zero : Stream := ⟨Desc.zero, Desc.zero, false, false, 0, []⟩

/-- An entry of lq0-lq3 or xq (R31, R34, R143): queue 0-3 is lq, 4 is xq, whose value is the low 64 bits. -/
structure AEntry where
  queue  : Fin 5
  data   : Vec
  tag    : Nat                -- number of this push among all A-to-C pushes (R149)
  poison : Bool
  ready  : Bool               -- its data has arrived (R234)
deriving DecidableEq, Repr

/-- An entry of sq0 or sq1 with its byte mask, poppable from C-cycle readyAt (R31, R34). -/
structure SEntry where
  data    : Vec
  mask    : Pred
  readyAt : Nat
  push    : Nat               -- number of this push among all C-to-A pushes (R228)
deriving DecidableEq, Repr

/-- An entry of yq (R31, R34). -/
structure YEntry where
  val     : Word
  readyAt : Nat
  push    : Nat
deriving DecidableEq, Repr

/-- A binding of R160. -/
structure Binding where
  base : Nat
  len  : Nat
  obj  : Nat
deriving DecidableEq, Repr

/-- Copy-slot states (R236). -/
inductive SlotState where
  | free | linked | active | faulted
deriving DecidableEq, Repr

/-- One copy slot (R23, R151 to R155). gd, ga, gb are the operand values of the copy in progress: its own or its chain entry's. -/
structure Slot where
  state   : SlotState
  kind    : Fin 8
  gd      : Word
  ga      : Word
  gb      : Word
  b       : Fin 8
  resume  : Nat               -- offset of the next chunk in the byte sequence
  chain   : Bool              -- a kicked chain
  entry   : Word              -- current chain entry, or the head of a LINKED chain
  loaded  : Bool              -- the current chain entry has been read
  next    : Word              -- NEXT of the current entry
  waitA   : Word
  waitV   : Word
  postA   : Word
  waited  : Bool              -- its wait is over
  landed  : BitVec 32         -- CSEQ (R238)
  glist   : Nat               -- gather: entries wholly moved
  goff    : Nat               -- gather: bytes of the current piece moved
  gsrc    : Nat               -- gather: source of the current piece, once its entry has been read
  glen    : Nat               -- gather: its length
  order   : Nat               -- A-slice issue number of the copy
  epoch   : Nat               -- persist epoch of its issue (R299)
  phase   : Nat               -- commit-log phase of its issue (R270)
  binds   : List Binding      -- the task's bindings at its issue (R267)
  cause   : Option Cause      -- fault found in flight, not yet raised (R155)
  faddr   : Word
  fwrite  : Bool              -- the faulting access writes memory
  asked   : List Nat          -- addresses whose homes are asked for the current chunk (R289)
  lost    : Word              -- the lost version that the current chunk waits for (R139, R351); 0: none
  gskip   : Nat               -- gather: bytes that landed before a resume, whose list entries the engine reads again (R418)
deriving DecidableEq, Repr

def Slot.free : Slot :=
  ⟨.free, 0, 0, 0, 0, 0, 0, false, 0, false, 0, 0, 0, 0, false, 0, 0, 0, 0, 0, 0, 0, 0, [], none, 0, false, [], 0, 0⟩

/-- Tile handle states (R156). -/
inductive HState where
  | empty | acquired | allocated | sealed
deriving DecidableEq, Repr

/-- A tile handle (R23), with the extent of its version (R137). -/
structure Handle where
  state  : HState
  name   : Word
  va     : Nat
  size   : Nat
  shadow : Bool               -- a rebuild's private shadow version (R352)
  step   : Nat                -- MODEL: steps of its pseal that have been written (R169)
deriving DecidableEq, Repr

def Handle.free : Handle := ⟨.empty, 0, 0, 0, false, 0⟩

/-- Operations of an atomic (R88, R163). -/
inductive AmoOp where
  | add | min | max | or | and | xor | swap | cas
deriving DecidableEq, Repr

/-- One entry of a commit log (R270): the address and the bytes of a store, or a deferred update. order is the A-slice issue number. -/
inductive LogEntry where
  | store (order chunk pa : Nat) (cells : List Host.Cell)
  | update (order : Nat) (pa : Nat) (op : AmoOp) (ty : AmoType) (operand : Word)
deriving DecidableEq, Repr

/-- A store to a bound byte, held for its object (R267): the virtual object address and the bytes. -/
structure HeldStore where
  order : Nat
  obj   : Nat
  cells : List Host.Cell
deriving DecidableEq, Repr

/-- A weight-buffer window register and its cursor (R210, R211). -/
structure Window where
  reg    : BitVec 128
  cursor : Nat
deriving DecidableEq, Repr

/-- A dispatched C-slice instruction that has not issued: its address, words and place in program order (R24, R43). -/
structure Cmd where
  pc  : Word
  w0  : Nat
  w1  : Nat
  seq : Nat
deriving DecidableEq, Repr

/-- The paths of the matrix and the row engine that a long command holds (R220, R221, R224). -/
inductive LongUnit where
  | array | drain | row
deriving DecidableEq, Repr

/-- A long command in its unit, with the progress at which a pre-emption takes it: K-steps of a product, rows of a drain, 64-element
chunks of all passes of a row command, one in each C-cycle (R214, R221, R224). -/
structure LongCmd where
  unit  : LongUnit
  seq   : Nat
  steps : Nat
  done  : Nat
deriving DecidableEq, Repr

/-- What becomes visible when an operation lands (R43, R237). -/
inductive Effect where
  | cReg (r : Reg) (v : Word)
  | vReg (n : Fin 48) (v : Vec)
  | oReg (n : Fin 8) (v : Vec)
  | pred (n : Fin 64) (v : Pred)
  | slot (n : Fin 256) (data : Vec) (mask : Pred)
  | spad (cells : List Host.Cell)
  | acc (n : Fin 8) (v : Acc)
  | last (v : Vec)            -- a vector result shifted into the last-result file (R28)
deriving DecidableEq, Repr

/-- A pending operation (R237): what it makes visible, at which C-cycle, its set flag and the VFLG bits it raises. -/
structure Pending where
  due   : Nat
  seq   : Nat
  effs  : List Effect
  sf    : Fin 16              -- 0: none
  vflg  : BitVec 5
deriving DecidableEq, Repr

/-- The counts a kernel header declares (R111). -/
structure Decl where
  nareg  : Nat
  ncreg  : Nat
  nvreg  : Nat
  npred  : Nat
  nspill : Nat
  nbb    : Nat
  nflag  : Nat
  nstrm  : Nat
  slipl  : Nat
  spad   : Nat
deriving DecidableEq, Repr

/-- Where the code object of a context lies (R110, R111). -/
structure CodeObj where
  base : Nat
  aoff : Nat
  alen : Nat
  coff : Nat
  clen : Nat
deriving DecidableEq, Repr

/-- Extents of the overlap checker's two spaces (R227). -/
inductive Space where
  | spad | wb
deriving DecidableEq, Repr

structure Extent where
  space : Space
  lo    : Nat
  hi    : Nat                 -- inclusive
  write : Bool
deriving DecidableEq, Repr

/-- A copy record of the overlap checker (R229). -/
structure CopyRec where
  slot   : Fin 48
  pc     : Word
  exts   : List Extent
  order  : Nat
  bar    : Fin 8
  waited : Bool               -- a bwait completed with every chunk landed
  tag    : Nat                -- A-to-C pushes made when that bwait completed
deriving DecidableEq, Repr

/-- A C-side access that the checker holds: its interval of C-cycles, its extents, and its instruction (R227, R228). -/
structure CAccess where
  seq   : Nat
  pc    : Word
  lo    : Nat
  hi    : Nat
  ext   : Extent
  merged : Bool
deriving DecidableEq, Repr

/-- An epoch: the C-to-A push that closed it, none for the current one, the pushes made when it began, and the accesses that joined
it (R229). -/
structure Epoch where
  push  : Option Nat
  after : Nat
  accs  : List CAccess
deriving DecidableEq, Repr

/-- What stopped a slice (R235, R238). -/
structure Stop where
  cause    : Option Cause     -- none: stopped because the other slice did, or for a switch
  subcause : BitVec 8
  info     : Word
  faddr    : Word
  fetch    : Bool
  write    : Bool
  pc       : Word             -- address of the faulting instruction
  xtnt     : List Nat         -- OVERLAP: the two extents (R238)
deriving DecidableEq, Repr

/-- What a fault record carries besides the counts (R238). -/
structure Record where
  fetch     : Bool
  write     : Bool
  preempt   : Bool
  sup       : Bool
  imprecise : Bool
  subcause  : BitVec 8
  causeC    : BitVec 8
  causeA    : BitVec 8
  faddr     : Word
  info      : Word
  fpc       : Word
  xtnt      : List Nat
deriving DecidableEq, Repr

/-- The A-slice registers of a context (R23). -/
structure ASide where
  regs   : Vector Word 32     -- a0-a31
  pc     : Word               -- APC
  fromYq : Vector Bool 32     -- last written by a pop of yq (R35)
  stopped : Bool              -- executed `done`
  eret   : Bool               -- executed `eret` (R131)
  block  : Option BlockA
  stop   : Option Stop
  order  : Nat                -- instructions executed: the A-slice program order
deriving DecidableEq, Repr

/-- The C-slice registers of a context (R24). -/
structure CSide where
  regs   : Vector Word 32     -- c0-c31
  pc     : Word               -- CPC
  v      : Vector Vec 48
  o      : Vector Vec 8
  y      : Vector Vec 2
  p      : Vector Pred 64
  k      : Vector Vec 256
  m      : Vector Acc 8
  w      : Vector Window 4
  f      : Vector (Fin 16) 16
  vflg   : BitVec 5
  cc     : Nat                -- C-cycle count (R42)
  queues : Vector (List Cmd) 4
  disp   : Vector (BitVec 32) 4   -- dispatch counts (ESEQ, R238)
  issued : Vector (BitVec 32) 4   -- issue counts
  pend   : List Pending
  seq    : Nat                -- next place in program order
  cur    : Cmd                -- the instruction that is issuing, or was the last to try
  hold   : Bool               -- a control instruction is dispatched and has not issued (R118)
  dispd  : Bool               -- an instruction was dispatched at this C-cycle (R249)
  issd   : Vector Bool 4      -- the engine issued at this C-cycle
  tried  : Vector Bool 4      -- the head of the engine's queue waits at this C-cycle (MODEL)
  long   : List LongCmd       -- long commands that hold the array, the drain path or the row engine (R220, R221)
  accLand   : Vector Nat 8    -- landing C-cycle of the last write of each accumulator (R220)
  accMove   : Vector Nat 8    -- landing C-cycle of the last mzero, mmov or mswap that writes each
  accDrain  : Vector Nat 8    -- issue + 32 of the last drain of each accumulator
  pops   : List (Nat × Nat)   -- program-order place and push number of each A-to-C pop that issued (R149)
  stopped : Bool              -- `done` has issued
  eret   : Bool
  block  : Option BlockC
  stop   : Option Stop
deriving DecidableEq, Repr

/-- The coupling queues (R31). seq: push and pop numbers of lq0-lq3, sq0, sq1, xq, yq (R238). -/
structure Couple where
  toC    : List AEntry        -- lq0-lq3 and xq entries in push order
  sq     : Vector (List SEntry) 2
  yq     : List YEntry
  push   : Vector (BitVec 32) 8
  pop    : Vector (BitVec 32) 8
  nPushA : Nat                -- A-to-C pushes made
  nPushC : Nat                -- C-to-A pushes made
  nPopC  : Nat                -- highest C-to-A push number popped by the A-slice, plus 1
deriving DecidableEq, Repr

/-- A home's answer to a global access, or the mark that its home, in `cause`, has been asked (status 255): whose it is (a copy slot, or 48 for the A-slice), STATUS, the home's cause code and the bytes
read (R289). -/
structure Answer where
  tag    : Nat
  status : Nat
  cause  : Nat
  data   : List Byte
deriving DecidableEq, Repr

/-- What a context holds for memory: streams, barriers, handles, copies, its log and its scratchpad (R23, R250). -/
structure MemSide where
  streams  : Vector Stream 16
  bars     : Vector (BitVec 32) 8
  handles  : Vector Handle 16
  slots    : Vector Slot 48
  acquired : List Word        -- distinct versions in order of first acquire (R157)
  named    : List Word        -- names that a talloc of the task has taken (R158)
  bindings : List Binding
  taint    : Bool
  log      : List LogEntry    -- current phase of the commit log (R270)
  held     : List HeldStore
  past     : List HeldStore   -- MODEL: bound stores performed while the log held older bytes (R138)
  phase    : Nat              -- dbars executed
  epoch    : Nat              -- persist epoch (R299)
  spad     : List Host.Cell   -- scratchpad, by offset relative to the task
  wb       : List Host.Cell   -- weight buffer
  copyRecs : List CopyRec     -- overlap checker (R229)
  epochs   : List Epoch
  running  : List CAccess     -- C-side accesses whose interval is still running
  xlpf     : Nat              -- translation prefetches in flight (R172)
  spawnHeld : Bool            -- a spawn suspended on its overflow write (R170)
  answers  : List Answer      -- answers of homes to global accesses in progress (R289)
  asks     : Nat              -- bound stores sent to other homes by a rel, of which each is answered
deriving DecidableEq, Repr

/-- Phases of a context's life in its bank. -/
inductive CtxPhase where
  | running
  | cut                       -- a stop is pending: the cut is not complete
  | stopped                   -- the cut is complete and its record written; the handler is not entered yet
  | handled                   -- its handler runs
  | switching                 -- the 96 cc of R252
  | shadowed
  | saved                     -- in its save area (SUSPENDED)
  | ended
deriving DecidableEq, Repr

/-- One context (R23, R24), with what the core holds for it. -/
structure Context where
  uid    : Nat                -- MODEL: the task's number
  vd     : Nat
  part   : Nat
  core   : Nat
  bank   : Bool               -- MODE.BANK
  sup    : Bool               -- MODE.SUP
  sb     : Bool               -- MODE.SB
  sbTill : Nat                -- C-cycle by which every operation of before the cut has landed (R254)
  det    : Bool               -- MODE.DET and MODE.OVC
  dom    : Word               -- DOM (R40)
  tdesc  : Word
  trapRec : Word              -- TRAPREC
  vec    : Word               -- TRAPVEC as it stood at the cut (R246)
  lodcnt : Word
  cycle  : Nat                -- core cycles for which the context has been resident (CYCLE, R36)
  decl   : Decl
  code   : CodeObj
  save   : Option Nat         -- VA of the save area (R334)
  onCore : Bool               -- saved, with its weight buffer and scratchpad bytes still on its core (R251)
  phase  : CtxPhase
  rebuild : Bool              -- a rebuild task (R352)
  skipSpawn : Nat             -- spawns of a replacement that create no child (R256)
  spawned : Nat               -- spawns executed
  record : Record             -- the record at TRAPREC
  a      : ASide
  c      : CSide
  q      : Couple
  m      : MemSide
deriving DecidableEq, Repr

/-! The package. -/

/-- A fence block (R362). -/
structure Fence where
  cores  : BitVec 192
  pch    : BitVec 768
  dur    : Vector (Nat × Nat) 4   -- BASE and LIMIT in GiB of each site
  egress : BitVec 14
  ports  : BitVec 20
  slots  : Nat
  seqr   : Fin 8
  s2root : Nat
deriving DecidableEq, Repr

def Fence.none : Fence := ⟨0, 0, Vector.replicate 4 (0, 0), 0, 0, 0, 0, 0⟩

/-- Who holds an access that met a stage-2 fault (R285). -/
inductive Holder where
  | none
  | aSlice (uid : Nat)
  | cSlice (uid : Nat)
  | copySlot (uid : Nat) (slot : Nat)
  | staging (vd : Nat)
  | host (flow : Nat)
  | ring (vd q : Nat)         -- a Crucible ring fetch (R326)
  | spill (core : Nat)        -- a refill or steal read of a core's spilled entries (R332)
  | loader (uid : Nat)        -- the code loader, for a task (R112)
deriving DecidableEq, Repr

/-- A stage-2 record (R285). -/
structure S2Rec where
  rseq   : Nat
  va     : Word
  ipa    : Nat
  reason : Nat
  src    : Nat
  walk   : Bool
  fetch  : Bool
  write  : Bool
  vd     : Nat
  core   : Nat
  inRing : Bool               -- written to the ring, or waiting for a place (R328)
  holder : Holder
deriving DecidableEq, Repr

/-- A partition: its fences, scheduling block, stage-2 records and management page (R11, R288, R324, R328, R366). -/
structure Partition where
  num    : Nat
  fence  : Fence
  viol   : Nat                -- FENCE_VIOL (R364)
  step   : Nat                -- SCHED_AGE.STEP
  rtmo   : Nat
  idle   : Nat
  quant  : Nat
  form   : Nat
  s2base : Nat                -- SCHED_S2R.BASE
  s2ln   : Nat
  rseq   : Nat                -- next RSEQ
  recs   : List S2Rec
  xinv   : List (Nat × Bool × Bool × Nat)   -- XINV writes not complete: page, stage 2, ALL, VD (R288)
  vdmOps : List (Bool × Nat)  -- VDM writes not complete: creation or not, and the value (R366)
  vdmResult : Nat
  waiting : List Nat          -- READY tasks outside every deque (R332)
  vdmDesc : Option (List Byte) := none  -- the descriptor that the creation in progress has read (R365)
deriving DecidableEq, Repr

/-- Dormancy states (R367). -/
inductive DormState where
  | active | collapsing | dormant | reheating
deriving DecidableEq, Repr

/-- A queue record waiting at VD_ERR (R380). -/
structure ErrRec where
  qidx  : Nat
  rlost : Bool
  save  : Option Nat          -- save-area slot freed by the acknowledgement (R334)
deriving DecidableEq, Repr

/-- A staged tile of the window (R294). -/
structure Staged where
  layer : Nat
  index : Nat
  name  : Word
  src   : Nat
  repl  : Word
  size  : Nat
  resident : Bool
  useRepl  : Bool             -- refetched from REPL (R296)
  asked    : Bool             -- its replica at another home has been asked for (R289)
  flight   : Bool             -- its copy is in flight, held by a stage-2 fault (R285, R293)
  out      : Bool             -- its layer has left the window; the copy is freed once nothing needs it (R294)
deriving DecidableEq, Repr

/-- A virtual device: its descriptor (R365), control block and control page. -/
structure Vd where
  num    : Nat
  part   : Nat
  nq     : Nat
  buddy  : Nat
  atgt   : Bool
  mirror : Bool
  rdepth : Nat
  det    : Bool
  rclass : Nat
  s1root : Nat
  qcbs   : Nat
  dtpool : Nat
  dtlen  : Nat
  drn    : Nat
  dr0    : Nat
  shelf  : Nat
  shlen  : Nat
  peers  : List Nat
  apool  : Nat
  aplen  : Nat
  mpri   : Bool
  mpeer  : Nat
  trapvec : Word              -- TRAPVEC (R36)
  vsave  : Nat                -- VSAVE_BASE
  nslot  : Nat
  slotpg : Nat
  used   : List Nat           -- save-area slots in use
  sot    : List Nat           -- sync-object table, entry 1 first (R267)
  noLog  : Bool               -- the runtime has left no page for a further commit-log entry (R273)
  stgTbl : Word
  nlayer : Nat
  wrap   : Bool
  stgEn  : Bool
  win    : Nat
  cur    : Nat
  rstall : Word
  staged : List Staged
  released : List (Nat × Nat) -- layer and task: retirements that have completed a layer
  retd   : List (Nat × List Word)   -- tasks that have retired, with their operands, oldest first (R294)
  rgcnt  : BitVec 32
  lostv  : Nat
  names  : List Word          -- names of versions that have been released; trimmed ones are free again (R348)
  didle  : Nat
  dorm   : DormState
  depth  : Nat
  target : Nat                -- depth of the collapse in progress
  reheats : BitVec 32
  shelved : List (Nat × Nat)  -- shelved pages of the dormancy region, each with the PA of its copy (R369)
  hosts  : Vector Nat 4       -- VD_HOST: V in bit 63, the MAC below (R381)
  nbad   : Nat
  errs   : List ErrRec        -- oldest first
  serves : List Nat           -- homes whose buddy this package is, as they have told it (R343, R350)
  replicas : List (Nat × Nat × Word)   -- stretches of the anchor pool that replicas take: address, length, version (R346)
  mdiv   : Bool
  msolo  : Bool
  cmplEn : Bool
  htag   : Nat
  cmplTo : Nat                -- the host, as a party, that last wrote VD_CMPL with EN = 1
  admitted : Nat              -- tasks admitted (R344)
  stopFetch : Bool            -- fetching stopped by a collapse (R368)
deriving DecidableEq, Repr

/-- Queue states (R321). -/
inductive QState where
  | disabled | idle | pending | mapping | mapped | unmapping | fetchFault | frozen
deriving DecidableEq, Repr

/-- A journal entry (R327): the packet, its place in the ring, its state, and the guard of its effect. -/
structure JEntry where
  pseq  : Nat
  ptype : Nat
  image : Vector (BitVec 32) 32
  args  : List (BitVec 32)
  start : Nat
  stop  : Nat
  begun : Bool                -- STARTED
  complete : Bool             -- DONE
  guard : Bool                -- its effect is recorded
  moved : Nat                 -- COPY: bytes written
  task  : Nat                 -- LAUNCH: the task created
  asked : Bool                -- COPY: a request is at a home (R289)
  answers : List Answer       -- COPY: homes' answers for the current chunk
  place : Nat := 0            -- WAITV, SIGNAL: the PA of ADDR, translated once when the packet starts (R318)
deriving DecidableEq, Repr

/-- A user queue with its QCB (R313), journal and slot. -/
structure Queue where
  vd     : Nat
  qidx   : Nat
  qcb    : Nat                -- VA of the QCB
  base   : Nat
  supq   : Bool
  lsize  : Nat
  prio   : Nat
  state  : QState
  head   : Nat
  tail   : Nat
  progress : Nat
  age    : Nat
  kpend  : Bool
  pseq   : Nat
  dseq   : Nat
  reca   : Nat
  shadow : Vector (BitVec 32) 32
  journal : List JEntry
  since  : Nat                -- order in which it became PENDING or was mapped (R325)
  held   : Bool               -- has held its slot for QUANT
  back   : Bool               -- UNMAPPING goes to PENDING (R321)
  served : Nat := 0           -- when its sequencer last gave it a turn to start a packet (R320)
  tended : Nat := 0           -- when a packet of it was last started or taken further
  fetched : Nat := 0          -- when its sequencer last gave it a turn to fetch a packet (R320)
deriving DecidableEq, Repr

/-- Task states (R16). -/
inductive TState where
  | waiting | ready | running | shadowed | suspended | retired | failed | aborted
deriving DecidableEq, Repr

/-- An admitted task (R14, R16, R344). -/
structure Task where
  uid    : Nat
  vd     : Nat
  part   : Nat
  desc   : Vector Word 16     -- the kept descriptor
  params : List Word
  kcopy  : Nat                -- PA of the primary kept copy: TDESC
  state  : TState
  prio   : Nat
  qidx   : Nat                -- tree: root queue and LAUNCH
  pseq   : Nat
  parent : Option Nat
  rgth   : Bool
  rebuild : Bool
  replaces : Option Nat
  core   : Option Nat         -- core on which it was last resident
  avoid  : Option Nat         -- core that R256 excludes
  age    : Nat                -- ageing steps while READY (R331)
  save   : Option Nat         -- save-area slot
  saved  : Bool               -- its context is in its save area
  signals : List Nat          -- PSEQs of the SIGNALs it must follow (R318)
  skipSpawn : Nat
  spawned : Nat
  sealed : List Word          -- versions it has sealed
  alloced : List Word
  cause  : Option Cause
  subcause : Nat
  freed  : List Word          -- operands released by TFREE after its admission
  acks   : Nat                -- homes that have not yet acknowledged its commit (R355)
  rerun  : Bool               -- mirrored: created again after a mismatch of its commit (R361)
  away   : List Word          -- operands of other homes that are sealed and resident there (R329)
  gone   : List Word          -- operands of other homes that are lost for good (R353)
  told   : Nat := 0           -- mirrored: the order in which its retirement commit was staged; 0 before that (R360)
  agreed : Bool := false      -- mirrored: the digests of that commit were equal
deriving DecidableEq, Repr

/-- A core: its deque and the tasks in its banks (R331, R332). -/
structure Core where
  num    : Nat
  deque  : List Nat           -- on-chip entries, head (oldest) first
  spill  : List (Nat × Nat)   -- spill sequence: overflow-area VA and task, oldest first
  active : Option Nat
  shadow : Option Nat
  quantum : Bool              -- the active context has been resident for QUANT
  switchTo : Option (Option Nat) -- a switch in progress, and the context coming in
  again  : Bool               -- a second request, taken during that switch (R252)
  due    : Option Nat         -- the entry for which the core has pre-empted its active context (R335)
  leaving : Option Nat        -- a switched-out context whose bank waits for the spill beside an occupied shadow bank (R253, R337)
deriving DecidableEq, Repr

/-- A member of a gang (R336) with the phases of its commit log that are not yet applied (R270). -/
structure Member where
  idx    : Nat
  uid    : Nat
  dbars  : Nat
  atBar  : Bool
  ended  : Bool
  dead   : Bool               -- FAILED or ABORTED
  log    : List LogEntry      -- handed-over phase
  bank   : Option (Nat × Bool)
deriving DecidableEq, Repr

inductive GState where
  | forming | waiting | queued | reserving | running | suspended | ended
deriving DecidableEq, Repr

/-- A member of a level-3 gang on another package, as that package has reported it (R337; log 9). -/
structure RMember where
  idx    : Nat
  pkg    : Nat
  prio   : Nat
  dbars  : Nat
  ended  : Bool
  dead   : Bool               -- failed with its package (R387)
deriving DecidableEq, Repr

/-- A gang record (R336). -/
structure Gang where
  vd     : Nat
  level  : Nat
  did    : Nat
  size   : Nat
  part   : Nat
  state  : GState
  members : List Member
  age    : Nat
  phase  : Nat                -- barriers committed
  quantum : Bool
  others : List RMember       -- level 3: members on other packages
  reported : List Nat         -- level 3: packages whose reservation is complete (R337)
  turn   : Nat                -- the member index whose log the commit in progress applies next (R270, R355)
  acks   : Nat                -- writes of that commit that other homes have not acknowledged
  restart : List Context      -- mirrored: the checkpoints of the last matching commit (R360)
  chk    : List Nat           -- the save-area slots that hold them
  rerun  : Bool               -- mirrored: the phase runs again after a mismatch (R361)
  final  : Bool               -- ENDED, and its final commit has been performed (R166)
  told   : Nat := 0           -- mirrored: the staged commit whose digest the partner has been told (R360)
  readied : List Nat := []    -- level 3: packages all of whose members are ready (R336, R337)
deriving DecidableEq, Repr

/-- A tile version that holds memory (R158, R302). -/
structure Tile where
  name   : Word
  vd     : Nat
  va     : Nat
  size   : Nat
  sealed : Bool
  resident : Bool
  owner  : Nat                -- the producing task while ALLOCATED
  shadow : Bool               -- a rebuild's private shadow (R352)
  check  : Bool               -- a restored durable version whose digest is checked at first acquire (R309)
  matched : Bool              -- mirrored: its digests have been found equal (R359)
  claims : Nat                -- handles that hold it
  stale  : Bool               -- FREED memory that is still held, beside the version that has been allocated again (R348)
deriving DecidableEq, Repr

/-- A lineage record (R342). -/
structure LinRec where
  name   : Word
  kcopy  : Nat
  digest : Word
  root   : Bool
  taint  : Bool
  anchor : Bool
  apend  : Bool
  durs   : Bool
  lost   : Bool
  rbld   : Bool
  freed  : Bool
  depth  : Nat
  ord    : Nat
  size   : Nat
  replica : Word
  need   : Nat
  tqidx  : Nat
  tpseq  : Nat
  acq    : List Word
  place  : Nat := 0           -- PA of the primary copy, and of the secondary one where it lies on this package (R343)
  place2 : Nat := 0
  unacked : Nat := 0          -- writes of the secondary copy that the buddy package has not acknowledged (R343)
  prio   : Nat := 0           -- priority of its rebuild (R351)
  prim   : Bool := true       -- the primary copy survives
  second : Bool := true
  weight : Bool := false      -- a weight tile, which the staging engine alone brings back (R295, R296)
  again  : Bool := false      -- mirrored: rebuilt after its digests differed (R359)
  gone   : Bool := false      -- permanently lost (R351, R353)
  tfree  : Bool := false      -- a TFREE that waits for the end of the rebuild (R354)
  lstep  : Nat := 0           -- Lehr: 1 the replica's bytes are written, 2 the copy of the record beside them, 3 no space was found (R346)
  lplace : Word := 0          -- where that replica lies
deriving DecidableEq, Repr

/-- A kept copy in a lineage area of this package (R344): the PAs of its two copies, the second zero where it lies at the buddy package;
another package's kept copy, by its key there, stands here as the buddy's secondary one or beside a version's record. -/
structure Kept where
  vd   : Nat
  src  : Nat                  -- 0: of this package
  pa   : Nat
  pa2  : Nat
  second : Bool               -- held for another package until it says otherwise
deriving DecidableEq, Repr

/-- A task of another package that a version of this home concerns: an operand of it, or one that its `tacq` waits for; and whether it may
acquire the version although that is FREED (R329, R348, R353). -/
structure Rest where
  name : Word
  pkg  : Nat
  uid  : Nat
  operand : Bool
  ok   : Bool
deriving DecidableEq, Repr

/-- What the two packages of a pair tell each other: a creation's MPRI (R358, R366), the digest of a sealed version (R359), and those of the
staged commits of a domain, with its phase, and of a task, by its descriptor (R360). -/
inductive PairWhat where
  | create (mpri : Bool)
  | tile (name digest : Word) (answer : Bool)
  | domain (level did key : Nat) (digest : Word)
  | task (desc : List Word) (digest : Word)
deriving DecidableEq, Repr

/-- Such a message that has not been used yet; by its sender's number, and this package's own while it waits for the other's. -/
structure PairMsg where
  vd   : Nat
  pkg  : Nat
  what : PairWhat
deriving DecidableEq, Repr

/-- A DUR store performed and not yet accepted (R297, R299): one 64-byte unit's bytes. -/
structure DurStore where
  uid   : Nat                 -- storing task; 0 for the part's own writes
  epoch : Nat
  cells : List Host.Cell
deriving DecidableEq, Repr

/-- A durable store of a task of this package at another home that has not said yet that it is accepted; told that it may be, once nothing
of the task's earlier persist epochs is outstanding (R299). -/
structure DurAway where
  uid   : Nat
  vd    : Nat
  home  : Nat
  epoch : Nat
  told  : Bool
deriving DecidableEq, Repr

/-- A durable site (R297, R303, R307). -/
structure Site where
  buffer : List Nat           -- units in the write-pending buffer
  clean  : Bool               -- clean mark
  accepting : Bool
  trained : Bool
  retired : Bool
  descs  : List (Nat × Nat × Nat × Nat)   -- pool descriptors: VD, PA, VOFF, NPG
deriving DecidableEq, Repr

/-- Port roles (R375). -/
inductive Role where
  | host | peer | off
deriving DecidableEq, Repr

structure Port where
  role   : Role
  up     : Bool
  drops  : Nat
deriving DecidableEq, Repr

/-- The 32-byte Borrun header and its payload, with the arrival facts a receiver tests (R376). -/
structure Frame where
  ver    : Nat
  ftype  : Nat
  spkg   : Nat
  dpkg   : Nat
  vd     : Nat
  status : Nat
  rsvd   : Bool               -- a reserved field is non-zero
  psn    : Nat
  inc    : Nat
  flow   : Nat
  ce     : Bool
  addr   : Nat
  payload : List Byte
  port   : Nat
  mac    : Nat                -- source MAC; of a copy for a partner, the host's (R385)
  noBuf  : Bool               -- the receiver cannot take it (R378)
  eth    : Bool               -- directly after the Ethernet header; otherwise IPv6/UDP (R376)
  dmac   : Nat := 0           -- where a frame of this package goes: the MAC, and the IPv6 address of a peer (R384)
  ip6    : Nat := 0
deriving DecidableEq, Repr

/-- What carries bytes to a port (R376): UDP, with the destination port and whether there is a checksum, or an EtherType. -/
inductive Carrier where
  | udp (port : Nat) (sum : Bool)
  | ether (kind : Nat)
deriving DecidableEq, Repr

/-- Bytes that arrive at a port: how they are carried, the source MAC, the ECN CE mark, and whether the receiver cannot take them. -/
structure Wire where
  carrier : Carrier
  port   : Nat
  mac    : Nat
  ce     : Bool
  noBuf  : Bool
  bytes  : List Byte
deriving DecidableEq, Repr

/-- A host's frame, or a partner's copy of one, that has been taken and is not performed yet: a stage-2 fault or a reheat holds it, another home
has been asked, or the partner has not acknowledged its copy, whose PSN stands here (R285, R289, R370, R382, R385). -/
structure HostWait where
  frame : Frame
  copy  : Option Nat
  who   : Option Nat          -- MODEL: the number under which another home has been asked (R289)
deriving DecidableEq, Repr

/-- A flow: as receiver the next PSN expected, as sender the frames not acknowledged (R378). -/
structure Flow where
  sender : Nat                -- package number, or 2,048 + host MAC
  inc    : Nat
  flow   : Nat
  expect : Nat
  sent   : List Frame         -- unacknowledged, oldest first
  nextPsn : Nat
  path   : Option Nat         -- port in use
  eth    : Bool               -- the encapsulation of the last frame received
  part   : List Byte          -- as receiver: bytes of a request that further frames continue (log 9)
  mark   : Bool               -- as receiver: a CE mark that the next ACK carries (R379)
deriving DecidableEq, Repr

structure Peer where
  num    : Nat
  mac    : Nat
  ip6    : Nat
  ports  : BitVec 20
  incmin : Nat
  inc    : Nat                -- incarnation last seen
  lost   : Bool
  adopted : List Nat          -- VDs for which this package serves its home (R350)
deriving DecidableEq, Repr

/-- A path: a local port to a peer or host (R384, R386). -/
structure Path where
  party  : Nat
  port   : Nat
  live   : Bool
  proving : Bool              -- its link recovered; the 1 ms without errors is running
  rate   : Nat                -- sending rate in eighths of a per cent of the port rate (R379)
  cut    : Bool               -- the rate was lowered in the current 8 us
deriving DecidableEq, Repr

/-- A management record (R400). Its time stamp is a free value of the incarnation and of SEQ. -/
structure MgmtRec where
  code : Nat
  ucls : Nat
  unit : Nat
  args : List Nat
  seq  : BitVec 32
  inc  : Nat                  -- MODEL: the incarnation in which it was written
deriving DecidableEq, Repr

/-- A thermal stop (R402): the die, its temperature in 0.1 degrees, and the sites that still drain. -/
structure ThermalStop where
  die  : Nat
  temp : Nat
  left : List Nat
deriving DecidableEq, Repr

/-- A home that is being handed back, VD by VD (R399): what has been sent of it. -/
structure Handing where
  pkg   : Nat
  vd    : Nat
  recs  : List LinRec
  tiles : List Word
deriving DecidableEq, Repr

/-- An object the root of trust verifies (R392). -/
inductive Signed where
  | fence (part : Nat) (f : Fence)
  | ports (roles : List Role)
  | peers (entries : List (Nat × List Byte))    -- by package number, the 32 bytes of each entry (R384)
  | patch (image : List Byte)
  | firmware (image : Nat)
deriving DecidableEq, Repr

/-- What stands at the machine's inputs for the event that runs: the payload of an outside party's act, or the choice among
the things an engine may do next, which the spec leaves to the part (R7). -/
inductive Input where
  | none
  | pick (n : Nat)                              -- a slot, core, tile index ...
  | task (uid : Nat)
  | part (p : Nat)
  | vd (v : Nat)
  | queue (vd q : Nat)
  | packet (vd q pseq : Nat)
  | word (vd : Nat) (v : Word)                  -- VD_KICK, TFREE, VD_ERR, VD_CMPL, VD_REHEAT
  | reg (part vd off : Nat) (v : Word)          -- REGISTER_WRITE
  | tile (name : Word)
  | digest (name : Word) (other : Word)
  | commit (vd level did uid : Nat) (other : Word)
  | unit (pa : Nat)
  | site (n : Nat) (failed : List Nat) (complete : Bool)
  | frame (f : Frame)
  | wire (w : Wire)
  | signed (o : Signed) (key version : Nat) (valid : Bool)  -- the key of the fused table that the signature names
  | measure (mJ : Nat) (ident : Option (Nat × Nat))   -- hold-up; a package number and an incarnation from the root of trust (R399)
  | train (isSite : Bool) (n : Nat) (ok : Bool)
  | thermal (die temp watts : Nat)                -- temperature in 0.1 degrees, power of the package
  | chan (stack ch count : Nat)
  | party (n : Nat) (port : Nat)
  | rseq (part n : Nat)
  | page (part vd page : Nat)
  | pa (part : Nat) (pa : Nat)
  | gang (vd level did : Nat)
deriving DecidableEq, Repr

/-- One turn of the machine (MODEL): which agent acts next. -/
inductive Turn where
  | slice (x : Slice)
  | event (i : Instr) (inp : Input)
  | focus (uid : Nat)
deriving DecidableEq, Repr

/-- Bring-up phases (R390). -/
inductive BootPhase where
  | reset | reduced | full
deriving DecidableEq, Repr

/-- The package's own registers and units. -/
structure Pkg where
  num     : Nat               -- package number (R278)
  inc     : Nat               -- incarnation (R387)
  phase   : BootPhase
  powered : Bool
  nores   : Bool              -- BOOT_STAT.NORES
  sret    : BitVec 4
  hret    : BitVec 12
  htrain  : BitVec 12         -- stacks trained
  pchOut  : List (Nat × Nat)  -- pseudo-channels retired (R398)
  recal   : List (Nat × Nat)  -- pseudo-channels out of service (R396)
  scanned : Bool              -- the scan of R309 has run since the power loss
  lostPower : Bool            -- the last stop was a loss of power
  clocks  : Vector Nat 8      -- core clock of each compute die in MHz (R402)
  diesOut : BitVec 8          -- compute dies lost (R350)
  basesOut : BitVec 4         -- base dies lost
  patch   : Vector (List (Nat × BitVec 32)) 8   -- patch RAM of each sequencer (R394)
  versions : List (Nat × Nat) -- keys of the fused key table, each with the last version installed for it (R392)
  fwHeld  : Bool              -- the management controller restarts (R395)
  fwImage : Nat
  fwNew   : Option Nat
  mgmt    : List MgmtRec      -- log, newest first (R400)
  mgmtSeq : BitVec 32
  mgmtOut : List (List Byte)  -- records sent, newest first (R400)
  mgmtHeld : Nat              -- of the log, the newest records that have not been sent (R395)
  stop    : Option ThermalStop -- a thermal stop whose record waits for the drain (R402)
  hot     : BitVec 8          -- after a thermal stop: dies that have not been reported below 85 degrees (R402)
deriving DecidableEq, Repr

/-- Bytes of another home that a unit of this package reads for itself (R112, R289, R317): who asks, and the answer once it has come. -/
structure FarRead where
  who    : Nat
  va     : Nat
  answer : Option Answer
deriving DecidableEq, Repr

/-- The whole machine. -/
structure State where
  ctx     : Context           -- the context that moves
  slice   : Slice             -- MODEL: the slice whose instruction runs
  live    : Bool              -- MODEL: ctx is a context in an active bank
  parked  : List Context      -- the other contexts, and saved ones
  mem     : List Host.Cell    -- physical memory as performed, by PA
  media   : List Host.Cell    -- durable tier as accepted, by PA (R297, R307)
  durPend : List DurStore     -- DUR stores not yet accepted, in coherence order
  durAway : List DurAway      -- those of this package's tasks at other homes (R299)
  durHeld : List (Nat × Nat)  -- those of other packages' tasks that wait for that package's word, by task and persist epoch (R299)
  errs    : List Nat          -- 64-byte units in error (R434)
  pkg     : Pkg
  parts   : List Partition
  vds     : List Vd
  queues  : List Queue
  tasks   : List Task
  cores   : List Core
  gangs   : List Gang
  tiles   : List Tile
  recs    : List LinRec
  kept    : List LinRec       -- secondary copies of the records of other homes (R343)
  keeps   : List Kept         -- kept copies in the lineage areas (R344)
  rests   : List Rest         -- tasks of other packages that rest on versions of this home (R348)
  pairs   : List PairMsg      -- what the packages of pairs have said of mirrored VDs (R358 to R360)
  sites   : Vector Site 4
  ports   : Vector Port 20
  flows   : List Flow
  peers   : List Peer
  paths   : List Path
  hosts   : List Nat          -- hosts with flows
  asked   : List Frame        -- requests of other packages that wait at this home (R285, R289)
  hostQ   : List HostWait     -- hosts' frames that wait to be performed, oldest first (R285, R378, R385)
  hands   : List Handing      -- homes that are being handed back (R399)
  far     : List FarRead      -- reads of other homes by the loader and by the Crucible (R289)
  out     : List Frame        -- frames sent, newest first (R377)
  nextUid : Nat               -- MODEL
  stamp   : Nat               -- MODEL: order stamp
  input   : Input             -- what stands at the inputs
  agenda  : List Turn         -- MODEL: the turns to come
  fresh   : Nat               -- MODEL: counter of free values (log 2)
deriving DecidableEq, Repr

/-! Reset (R8, R25, R390). -/

def Window.zero : Window := ⟨0, 0⟩

def ASide.reset : ASide := ⟨Vector.replicate 32 0, 0, Vector.replicate 32 false, false, false, none, none, 0⟩

/-- R25: vectors, slots and accumulators zero, p0 all ones and p1-p63 zero, flags and VFLG zero. -/
def CSide.reset : CSide where
  regs := Vector.replicate 32 0
  pc := 0
  v := Vector.replicate 48 0
  o := Vector.replicate 8 0
  y := Vector.replicate 2 0
  p := Vector.replicate 64 0
  k := Vector.replicate 256 0
  m := Vector.replicate 8 0
  w := Vector.replicate 4 Window.zero
  f := Vector.replicate 16 0
  vflg := 0
  cc := 0
  queues := Vector.replicate 4 []
  disp := Vector.replicate 4 0
  issued := Vector.replicate 4 0
  pend := []
  seq := 0
  cur := ⟨0, 0, 0, 0⟩
  hold := false
  dispd := false
  issd := Vector.replicate 4 false
  tried := Vector.replicate 4 false
  long := []
  accLand := Vector.replicate 8 0
  accMove := Vector.replicate 8 0
  accDrain := Vector.replicate 8 0
  pops := []
  stopped := false
  eret := false
  block := none
  stop := none

def Couple.reset : Couple :=
  ⟨[], Vector.replicate 2 [], [], Vector.replicate 8 0, Vector.replicate 8 0, 0, 0, 0⟩

def MemSide.reset : MemSide where
  streams := Vector.replicate 16 Stream.zero
  bars := Vector.replicate 8 0
  handles := Vector.replicate 16 Handle.free
  slots := Vector.replicate 48 Slot.free
  acquired := []
  named := []
  bindings := []
  taint := false
  log := []
  held := []
  past := []
  phase := 0
  epoch := 0
  spad := []
  wb := []
  copyRecs := []
  epochs := []
  running := []
  xlpf := 0
  spawnHeld := false
  answers := []
  asks := 0

def Decl.none : Decl := ⟨1, 1, 0, 1, 0, 0, 0, 0, 1, 0⟩

def Record.none : Record := ⟨false, false, false, false, false, 0, 0, 0, 0, 0, 0, []⟩

def Context.reset : Context where
  uid := 0
  vd := 0
  part := 0
  core := 0
  bank := false
  sup := false
  sb := false
  sbTill := 0
  det := false
  dom := 0
  tdesc := 0
  trapRec := 0
  vec := 0
  lodcnt := 0
  cycle := 0
  decl := Decl.none
  code := ⟨0, 0, 0, 0, 0⟩
  save := none
  onCore := false
  phase := .ended
  rebuild := false
  skipSpawn := 0
  spawned := 0
  record := Record.none
  a := ASide.reset
  c := CSide.reset
  q := Couple.reset
  m := MemSide.reset

def Pkg.reset : Pkg where
  num := 0
  inc := 0
  phase := .reset
  powered := true
  nores := false
  sret := 0
  hret := 0
  htrain := 0
  pchOut := []
  recal := []
  scanned := false
  lostPower := false
  clocks := Vector.replicate 8 600
  diesOut := 0
  basesOut := 0
  patch := Vector.replicate 8 []
  versions := []
  fwHeld := false
  fwImage := 0
  fwNew := none
  mgmt := []
  mgmtSeq := 0
  mgmtOut := []
  mgmtHeld := 0
  stop := none
  hot := 0

def Site.reset : Site := ⟨[], true, true, false, false, []⟩

def Port.reset : Port := ⟨.off, false, 0⟩

/-- A partition with the reset values of its scheduling block (R324) and no fences. -/
def Partition.new (n : Nat) : Partition := ⟨n, Fence.none, 0, 65536, 120000, 12000, 12000, 0, 0, 0, 0, [], [], [], 0, [], none⟩

/-- A VD with the values that its registers have when it is created (R293, R324, R366, R380), and an empty descriptor. -/
def Vd.new (n part : Nat) : Vd where
  num := n
  part := part
  nq := 0
  buddy := 0
  atgt := false
  mirror := false
  rdepth := 1
  det := false
  rclass := 0
  s1root := 0
  qcbs := 0
  dtpool := 0
  dtlen := 0
  drn := 0
  dr0 := 0
  shelf := 0
  shlen := 0
  peers := []
  apool := 0
  aplen := 0
  mpri := false
  mpeer := 0
  trapvec := 0
  vsave := 0
  nslot := 0
  slotpg := 0
  used := []
  sot := []
  noLog := false
  stgTbl := 0
  nlayer := 0
  wrap := false
  stgEn := false
  win := 0
  cur := 0
  rstall := 0
  staged := []
  released := []
  retd := []
  rgcnt := 0
  lostv := 0
  names := []
  didle := 0
  dorm := .active
  depth := 0
  target := 0
  reheats := 0
  shelved := []
  hosts := Vector.replicate 4 0
  nbad := 0
  errs := []
  serves := []
  replicas := []
  mdiv := false
  msolo := false
  cmplEn := false
  htag := 0
  cmplTo := 0
  admitted := 0
  stopFetch := false

/-- A core with empty banks and an empty deque. -/
def Core.empty (n : Nat) : Core := ⟨n, [], [], none, none, false, none, false, none, none⟩

/-- The part right after reset: phase 0, no partition, VD, queue, task or tile; every register that the spec gives no reset
value for is zero (log 3). -/
def State.reset : State where
  ctx := Context.reset
  slice := .a
  live := false
  parked := []
  mem := []
  media := []
  durPend := []
  durAway := []
  durHeld := []
  errs := []
  pkg := Pkg.reset
  parts := []
  vds := []
  queues := []
  tasks := []
  cores := (List.range 192).map Core.empty
  gangs := []
  tiles := []
  recs := []
  kept := []
  keeps := []
  rests := []
  pairs := []
  sites := Vector.replicate 4 Site.reset
  ports := Vector.replicate 20 Port.reset
  flows := []
  peers := []
  paths := []
  hosts := []
  asked := []
  hostQ := []
  hands := []
  far := []
  out := []
  nextUid := 1
  stamp := 0
  input := .none
  agenda := []
  fresh := 0

end Sys2Proof.Machine
end

