-- ==== Sys2Proof/Machine/Mem.lean ====
section
/-!
DEFINITION. Byte memories in canonical form (physical memory by PA, the scratchpad and the weight buffer by offset), little-endian
words over them (R6), and the packing of lanes in words.
-/

namespace Sys2Proof.Machine

/-- Cells with strictly rising addresses, none holding zero: an address not listed reads as zero (log 5). -/
abbrev Memory := List Host.Cell

/-- The canonical form, above a bound. -/
def memWfFrom : Nat → Memory → Bool
  | _, [] => true
  | lo, (a, v) :: m => decide (lo ≤ a) && v != 0 && memWfFrom (a + 1) m

/-- The canonical form. -/
def Memory.wf (m : Memory) : Bool := memWfFrom 0 m

/-- The byte at an address. -/
def memGet : Memory → Nat → Byte
  | [], _ => 0
  | (b, v) :: m, a => if b < a then memGet m a else if b = a then v else 0

/-- A memory with one byte written. -/
def memSet : Memory → Nat → Byte → Memory
  | [], a, v => if v = 0 then [] else [(a, v)]
  | (b, w) :: m, a, v =>
    if b < a then (b, w) :: memSet m a v
    else if b = a then (if v = 0 then m else (a, v) :: m)
    else if v = 0 then (b, w) :: m else (a, v) :: (b, w) :: m

/-- Drops the cells below an address: reads of a range start from here. -/
def memFrom : Memory → Nat → Memory
  | [], _ => []
  | (b, v) :: m, a => if b < a then memFrom m a else (b, v) :: m

/-- The cells below an address. -/
def memBelow : Memory → Nat → Memory
  | [], _ => []
  | (b, v) :: m, a => if b < a then (b, v) :: memBelow m a else []

/-- The first `n` bytes from address `a` of a memory that lists nothing below `a`. -/
def memTake : Nat → Memory → Nat → List Byte
  | 0, _, _ => []
  | n + 1, [], a => 0 :: memTake n [] (a + 1)
  | n + 1, (b, v) :: m, a => if b = a then v :: memTake n m (a + 1) else 0 :: memTake n ((b, v) :: m) (a + 1)

/-- The `n` bytes from address `a`. -/
def memGetN (m : Memory) (a n : Nat) : List Byte := memTake n (memFrom m a) a

/-- Cells of bytes laid from an address. -/
def cellsAt (a : Nat) (bs : List Byte) : List Host.Cell := bs.mapIdx fun i b => (a + i, b)

/-- The cells of a run of bytes that are listed. -/
def runCells : Nat → List Byte → Memory
  | _, [] => []
  | a, b :: bs => if b = 0 then runCells (a + 1) bs else (a, b) :: runCells (a + 1) bs

/-- Writes bytes at ascending addresses. -/
def memSetN (m : Memory) (a : Nat) (bs : List Byte) : Memory := memBelow m a ++ runCells a bs ++ memFrom m (a + bs.length)

/-- Writes a list of cells. -/
def memSetCells (m : Memory) (cs : List Host.Cell) : Memory := cs.foldl (fun m c => memSet m c.1 c.2) m

/-- Little-endian value of bytes (R6). -/
def leNat : List Byte → Nat
  | [] => 0
  | b :: bs => b.toNat + 256 * leNat bs

/-- The low `n` bytes of a value, least significant first (R6). -/
def leBytes : Nat → Nat → List Byte
  | 0, _ => []
  | n + 1, v => BitVec.ofNat 8 v :: leBytes n (v / 256)

/-- The `n`-byte word at an address. -/
def memWord (m : Memory) (a n : Nat) : Nat := leNat (memGetN m a n)

/-- Bits [hi:lo] of a value. -/
def bits (v hi lo : Nat) : Nat := (v >>> lo) % 2 ^ (hi + 1 - lo)

/-- Sign extension of the low `n` bits to an integer. -/
def sext (n v : Nat) : Int :=
  let w := v % 2 ^ n
  if w < 2 ^ (n - 1) then w else (w : Int) - 2 ^ n

/-- An integer modulo 2^n. -/
def wrap (n : Nat) (v : Int) : Nat := (v % 2 ^ n).toNat

/-- The lanes of a packed value, lane 0 in the low bits (R47). -/
def lanesOf (w n v : Nat) : List Nat := (List.range n).map fun i => (v >>> (w * i)) % 2 ^ w

/-- Packs lanes, lane 0 in the low bits (R47). -/
def packLanes (w : Nat) : List Nat → Nat
  | [] => 0
  | x :: xs => x % 2 ^ w + 2 ^ w * packLanes w xs

/-- The bytes of a vector. -/
def vecBytes (v : Vec) : List Byte := leBytes 512 v.toNat

/-- The vector that 512 bytes make. -/
def vecOf (bs : List Byte) : Vec := BitVec.ofNat 4096 (leNat bs)

/-- Reads an element of a list, or a default. -/
def nth {α : Type} (d : α) : List α → Nat → α
  | [], _ => d
  | x :: _, 0 => x
  | _ :: xs, n + 1 => nth d xs n

/-- Maps the entries of a list that meet a condition. -/
def mapIf {α : Type} (p : α → Bool) (f : α → α) (l : List α) : List α := l.map fun x => if p x then f x else x

def b2n (b : Bool) : Nat := if b then 1 else 0

end Sys2Proof.Machine
end

