-- ==== Sys2Proof/Machine/Regs.lean ====
section
/-!
DEFINITION. The one place where each register of a context is read and written, the lookups of the package's units, the
coupling queues' counts (R31, R32), the pending operations of the C-slice (R43, R237) and the declared items (R25, R111).
-/

namespace Sys2Proof.Machine

abbrev Out := Host.Outcome State Fault Refusal

/-! Updates of one part of the state. -/

def State.modCtx (s : State) (f : Context → Context) : State := { s with ctx := f s.ctx }
def State.modA (s : State) (f : ASide → ASide) : State := { s with ctx := { s.ctx with a := f s.ctx.a } }
def State.modC (s : State) (f : CSide → CSide) : State := { s with ctx := { s.ctx with c := f s.ctx.c } }
def State.modQ (s : State) (f : Couple → Couple) : State := { s with ctx := { s.ctx with q := f s.ctx.q } }
def State.modM (s : State) (f : MemSide → MemSide) : State := { s with ctx := { s.ctx with m := f s.ctx.m } }
def State.modPkg (s : State) (f : Pkg → Pkg) : State := { s with pkg := f s.pkg }
def State.modPart (s : State) (n : Nat) (f : Partition → Partition) : State :=
  { s with parts := mapIf (fun p => p.num == n) f s.parts }
def State.modVd (s : State) (n : Nat) (f : Vd → Vd) : State := { s with vds := mapIf (fun v => v.num == n) f s.vds }
def State.modQueue (s : State) (vd q : Nat) (f : Queue → Queue) : State :=
  { s with queues := mapIf (fun x => x.vd == vd && x.qidx == q) f s.queues }
def State.modTask (s : State) (uid : Nat) (f : Task → Task) : State := { s with tasks := mapIf (fun t => t.uid == uid) f s.tasks }
def State.modCore (s : State) (n : Nat) (f : Core → Core) : State := { s with cores := mapIf (fun c => c.num == n) f s.cores }
def State.modTile (s : State) (vd : Nat) (name : Word) (f : Tile → Tile) : State :=
  { s with tiles := mapIf (fun t => t.vd == vd && t.name == name && !t.shadow && !t.stale) f s.tiles }
/-- Changes the version, of whatever name, that stands at an address. -/
def State.modExtent (s : State) (vd va : Nat) (f : Tile → Tile) : State :=
  { s with tiles := mapIf (fun t => t.vd == vd && t.va == va && !t.shadow) f s.tiles }
def State.modRec (s : State) (name : Word) (f : LinRec → LinRec) : State :=
  { s with recs := mapIf (fun r => r.name == name) f s.recs }

/-- The context of a task itself, not that of its handler, whether it is the one that moves or another. -/
def State.context? (s : State) (uid : Nat) : Option Context :=
  if s.ctx.uid == uid && s.live && !s.ctx.sup then some s.ctx else s.parked.find? fun c => c.uid == uid && !c.sup

/-- Changes the context of a task, wherever it stands. -/
def State.modUid (s : State) (uid : Nat) (f : Context → Context) : State :=
  if s.ctx.uid == uid && s.live && !s.ctx.sup then s.modCtx f
  else { s with parked := mapIf (fun c => c.uid == uid && !c.sup) f s.parked }

def State.part? (s : State) (n : Nat) : Option Partition := s.parts.find? fun p => p.num == n
def State.vd? (s : State) (n : Nat) : Option Vd := s.vds.find? fun v => v.num == n
def State.queue? (s : State) (vd q : Nat) : Option Queue := s.queues.find? fun x => x.vd == vd && x.qidx == q
def State.task? (s : State) (uid : Nat) : Option Task := s.tasks.find? fun t => t.uid == uid
def State.core? (s : State) (n : Nat) : Option Core := s.cores.find? fun c => c.num == n
def State.tile? (s : State) (vd : Nat) (name : Word) : Option Tile := s.tiles.find? fun t => t.vd == vd && t.name == name && !t.shadow && !t.stale
/-- The memory of a FREED version that is still held, after the version has been allocated again (R348). -/
def State.stale? (s : State) (vd : Nat) (name : Word) : Option Tile := s.tiles.find? fun t => t.vd == vd && t.name == name && t.stale
def State.rec? (s : State) (name : Word) : Option LinRec := s.recs.find? fun r => r.name == name

/-- A fresh free value: the counter is read and advanced (log 2). -/
def State.tick (s : State) : State := { s with fresh := s.fresh + 1 }

/-! Scalar registers (R23, R24, R30, R115). -/

/-- A scalar register of the slice whose instruction runs; register 0 reads zero. -/
def gRead (s : State) (r : Reg) : Word :=
  if r = 0 then 0 else match s.slice with
    | .a => s.ctx.a.regs[r]
    | .c => s.ctx.c.regs[r]

/-- An a register written: a0 discards it. yq says that the value was popped from yq (R35). -/
def aWriteFrom (yq : Bool) (s : State) (r : Reg) (v : Word) : State :=
  if r = 0 then s else s.modA fun a => { a with regs := a.regs.set r v, fromYq := a.fromYq.set r yq }

def aWrite (s : State) (r : Reg) (v : Word) : State := aWriteFrom false s r v

/-- A c register written, as its operation lands: c0 discards it. -/
def cWrite (c : CSide) (r : Reg) (v : Word) : CSide := if r = 0 then c else { c with regs := c.regs.set r v }

/-- A predicate: p0 reads as all ones (R24). -/
def pRead (s : State) (n : Fin 64) : Pred := if n = 0 then Pred.ones else s.ctx.c.p[n]

/-- A predicate written, as its operation lands: p0 ignores it (R24). -/
def pWrite (c : CSide) (n : Fin 64) (v : Pred) : CSide := if n = 0 then c else { c with p := c.p.set n v }

/-- The 8-byte lane of a spill slot (R24). -/
def kLane (v : Vec) (lane : Fin 64) : Word := (v >>> (64 * lane.val)).truncate 64

/-! The instruction that runs: its address, its end and its place in program order. -/

/-- The address of the instruction that runs (R78). -/
def instrPc (s : State) : Word :=
  match s.slice with
  | .a => s.ctx.a.pc
  | .c => s.ctx.c.cur.pc

/-- The major opcode of a first word (R78). -/
def major (w0 : Nat) : Nat := w0 / 2 ^ 26 % 64

/-- The engine queue of a first word; none for the front end, for the other slice's groups (R79) and for the all-zero word, which is
refused before it is dispatched (R102). -/
def engineOf (w0 : Nat) : Option Engine :=
  let m := major w0
  if w0 = 0 then none else if m < 0x20 then some .sqe else if 0x30 ≤ m && m < 0x38 then some .vqe
  else if m = 0x38 then some .mqe else if m = 0x39 then some .rqe else none

def engineIdx : Engine → Fin 4
  | .sqe => 0
  | .vqe => 1
  | .mqe => 2
  | .rqe => 3

/-- A branch, jump, call or `loop` by its first word (R118). -/
def isControl (w0 : Nat) : Bool := 0x10 ≤ major w0 && major w0 ≤ 0x12

/-- The end of an instruction of `n` bytes that has taken effect. The A-slice goes on at the next instruction; in the C-slice
the front end has gone on already, but for a control instruction, whose issue chooses the path (R118). -/
def finish (s : State) (n : Nat) : State :=
  match s.slice with
  | .a => s.modA fun a => { a with pc := a.pc + BitVec.ofNat 64 n, block := none, order := a.order + 1 }
  | .c => if isControl s.ctx.c.cur.w0
      then s.modC fun c => { c with pc := c.cur.pc + BitVec.ofNat 64 n, block := none, hold := false, dispd := true }
      else s.modC fun c => { c with block := none }

/-- As finish, going on at a target (R123 to R126). -/
def jumpTo (s : State) (target : Word) : State :=
  match s.slice with
  | .a => s.modA fun a => { a with pc := target, block := none, order := a.order + 1 }
  | .c => s.modC fun c => { c with pc := target, block := none, hold := false, dispd := true }

/-- The A-slice blocks: the instruction has not taken effect and runs again (R19, R235). -/
def blockA (s : State) (b : BlockA) : State := s.modA fun a => { a with block := some b }

/-- The command that is issuing goes back to the head of its engine queue; one that the front end runs itself is not dispatched. -/
def requeue (s : State) : State :=
  let cmd := s.ctx.c.cur
  match engineOf cmd.w0 with
  | some e => s.modC fun c => { c with
      queues := c.queues.set (engineIdx e) (cmd :: c.queues[engineIdx e])
      issued := c.issued.set (engineIdx e) (c.issued[engineIdx e] - 1)
      issd := c.issd.set (engineIdx e) false }
  | none => s.modC fun c => { c with pc := cmd.pc }

/-- The C-slice's instruction does not issue: it stays where it was, and the C-slice is frozen (R19, R42). -/
def blockC (s : State) (b : BlockC) : State := (requeue s).modC fun c => { c with block := some b }

/-- The C-slice's instruction waits while C-cycles pass: for a flag, a busy engine, a stream's eligibility, or earlier instructions. -/
def waitC (s : State) : State :=
  (requeue s).modC fun c => match engineOf c.cur.w0 with
    | some e => { c with tried := c.tried.set (engineIdx e) true }
    | none => c

/-! Pending operations (R43, R44, R237). -/

/-- The pending operations stand in the order in which they land: by C-cycle, then in program order. -/
def insPending (p : Pending) : List Pending → List Pending
  | [] => [p]
  | q :: l => if q.due < p.due || (q.due == p.due && q.seq ≤ p.seq) then q :: insPending p l else p :: q :: l

/-- An effect on the operand file becomes visible one C-cycle earlier than the rest (R27). -/
def Effect.early : Effect → Bool
  | .oReg _ _ => true
  | _ => false

/-- An instruction that issues with latency `lat` leaves its results pending, with its set flag (R43). -/
def pend (s : State) (lat : Nat) (effs : List Effect) (sf : Fin 16 := 0) (vflg : BitVec 5 := 0) : State :=
  let c := s.ctx.c
  let early := effs.filter Effect.early
  let late := effs.filter fun e => !e.early
  let l := insPending ⟨c.cc + lat, c.cur.seq, late, sf, vflg⟩ c.pend
  let l := if early.isEmpty then l else insPending ⟨c.cc + lat - 1, c.cur.seq, early, 0, 0⟩ l
  s.modC fun c => { c with pend := l }

/-- The bytes that a byte mask selects, as a mask of a vector's bits (R26, R33). -/
def byteMask (m : Pred) : Vec := BitVec.ofNat 4096 (packLanes 8 ((lanesOf 1 512 m.toNat).map fun b => 255 * b))

/-- Bytes of `new` where the mask selects them, of `old` elsewhere. -/
def mergeBytes (m : Pred) (new old : Vec) : Vec :=
  let x := byteMask m
  (new &&& x) ||| (old &&& ~~~x)

/-- What one effect makes visible. -/
def applyEffect (x : Context) : Effect → Context
  | .cReg r v => { x with c := cWrite x.c r v }
  | .vReg n v => { x with c := { x.c with v := x.c.v.set n v } }
  | .oReg n v => { x with c := { x.c with o := x.c.o.set n v } }
  | .pred n v => { x with c := pWrite x.c n v }
  | .slot n d m => { x with c := { x.c with k := x.c.k.set n (mergeBytes m d x.c.k[n]) } }
  | .spad cells => { x with m := { x.m with spad := memSetCells x.m.spad cells } }
  | .acc n v => { x with c := { x.c with m := x.c.m.set n v } }
  | .last v => { x with c := { x.c with y := #v[v, x.c.y[0]] } }

/-- A flag grows by one when an operation that names it as its set flag retires (R29). -/
def bumpFlag (c : CSide) (f : Fin 16) : CSide := if f = 0 then c else { c with f := c.f.set f (c.f[f] + 1) }

/-- An operation lands: its effects become visible, its flag grows, its VFLG bits rise (R29, R41, R43). -/
def land (x : Context) (p : Pending) : Context :=
  let x := p.effs.foldl applyEffect x
  let c := bumpFlag x.c p.sf
  { x with c := { c with vflg := c.vflg ||| p.vflg } }

/-- Increments of a flag still due from issued instructions that name it (R21); none names f0, whose number stands for no set flag (R90). -/
def dueFlag (c : CSide) (f : Fin 16) : Nat := if f = 0 then 0 else (c.pend.filter fun p => p.sf == f).length

/-- An accumulator as the matrix commands before this one in program order leave it: the last result still to land, else what it holds
(R220). -/
def accSeen (c : CSide) (n : Fin 8) : Acc :=
  (c.pend.foldl (fun b p => p.effs.foldl (fun b e => match e with
    | .acc k v => if k = n then some v else b
    | _ => b) b) none).getD c.m[n]

/-- A unit that no long command holds (R220, R224). -/
def unitFree (c : CSide) (u : LongUnit) : Bool := c.long.all fun l => l.unit != u

/-- A long command takes its unit. -/
def holdUnit (c : CSide) (u : LongUnit) (steps : Nat) : CSide := { c with long := c.long ++ [⟨u, c.cur.seq, steps, 0⟩] }

/-- The long commands after a C-cycle: each is one step further, and has left its unit after its last (R221). -/
def stepLong (l : List LongCmd) : List LongCmd :=
  (l.map fun x => { x with done := x.done + 1 }).filter fun x => x.done < x.steps

/-! The coupling queues (R31 to R34). Numbers 0 to 7: lq0 to lq3, sq0, sq1, xq, yq (R238). -/

/-- Where an A-to-C queue stands among the eight. -/
def seqIdx (q : Fin 5) : Fin 8 := if q = 4 then 6 else q.castLE (by decide)

/-- Entries of an A-to-C queue (R31). -/
def toCOf (q : Fin 5) (c : Couple) : List AEntry := c.toC.filter fun e => e.queue == q

/-- The slip: entries in lq0 to lq3 and xq (R32). -/
def slip (c : Couple) : Nat := c.toC.length

/-- Depth of an A-to-C queue (R31). -/
def depthToC (q : Fin 5) : Nat := if q = 4 then 32 else 16

/-- The condition that holds back a push to an A-to-C queue: full, or the slip at its limit (R19, R32). -/
def pushBlock (s : State) (q : Fin 5) : Option BlockA :=
  if (toCOf q s.ctx.q).length ≥ depthToC q then some (.pushFull q)
  else if slip s.ctx.q ≥ s.ctx.decl.slipl then some .slipLimit
  else none

/-- What one slice does at a coupling queue lets the other try again, unless a stage-2 fault or another home holds it (R285, R289). -/
def wakenC (c : CSide) : CSide := { c with block := if c.block == some .wait then some .wait else none }
def wakeC (s : State) : State := s.modC wakenC
def wakenA : Option BlockA → Option BlockA
  | some (.stage2 n) => some (.stage2 n)
  | some .remote => some .remote
  | _ => none
def wakeA (s : State) : State := s.modA fun a => { a with block := wakenA a.block }

/-- A push by the A-slice, with its number among all its pushes (R31, R149). -/
def pushToC (s : State) (q : Fin 5) (data : Vec) (poison ready : Bool) : State :=
  (wakeC s).modQ fun c => { c with
    toC := c.toC ++ [⟨q, data, c.nPushA + 1, poison, ready⟩]
    push := c.push.set (seqIdx q) (c.push[seqIdx q] + 1)
    nPushA := c.nPushA + 1 }

/-- Removes the first entry of a queue. -/
def dropFirst (q : Fin 5) : List AEntry → List AEntry
  | [] => []
  | e :: l => if e.queue == q then l else e :: dropFirst q l

/-- The oldest entry of an A-to-C queue. -/
def headToC (q : Fin 5) (c : Couple) : Option AEntry := c.toC.find? fun e => e.queue == q

/-- A pop by the C-slice, remembered with its place in program order (R149). -/
def popToC (s : State) (q : Fin 5) : State :=
  match headToC q s.ctx.q with
  | none => s
  | some e =>
    ((wakeA s).modQ fun c => { c with toC := dropFirst q c.toC, pop := c.pop.set (seqIdx q) (c.pop[seqIdx q] + 1) }).modC
      fun c => { c with pops := (c.cur.seq, e.tag) :: c.pops }

/-- The condition that holds back a pop of an A-to-C queue: empty, or its entry's data not yet arrived (R34, R142), or a poison
entry (R242). -/
def popBlockC (s : State) (q : Fin 5) : Option BlockC :=
  match headToC q s.ctx.q with
  | none => some (if h : q.val < 4 then .popLq ⟨q.val, h⟩ else .popXq)
  | some e => if e.poison then some .poison
    else if e.ready then none else some (if h : q.val < 4 then .popLq ⟨q.val, h⟩ else .popXq)

/-- A reserved push of sq0 or sq1, poppable from C-cycle cc + lat (R34). -/
def pushSq (s : State) (q : Fin 2) (data : Vec) (mask : Pred) (lat : Nat) : State :=
  let at_ := s.ctx.c.cc + lat
  (wakeA s).modQ fun c => { c with
    sq := c.sq.set q (c.sq[q] ++ [⟨data, mask, at_, c.nPushC + 1⟩])
    push := c.push.set (q.val + 4) (c.push[q.val + 4] + 1)
    nPushC := c.nPushC + 1 }

/-- A push of yq, poppable from the C-cycle of its issue (R34). -/
def pushYq (s : State) (v : Word) : State :=
  let at_ := s.ctx.c.cc
  (wakeA s).modQ fun c => { c with
    yq := c.yq ++ [⟨v, at_, c.nPushC + 1⟩]
    push := c.push.set 7 (c.push[7] + 1)
    nPushC := c.nPushC + 1 }

/-- The entry that a pop of sq by the A-slice would take. -/
def headSq (s : State) (q : Fin 2) : Option SEntry :=
  match s.ctx.q.sq[q] with
  | e :: _ => if e.readyAt ≤ s.ctx.c.cc then some e else none
  | [] => none

def headYq (s : State) : Option YEntry :=
  match s.ctx.q.yq with
  | e :: _ => if e.readyAt ≤ s.ctx.c.cc then some e else none
  | [] => none

/-- A pop of sq by the A-slice, with the number that closes epochs (R229). -/
def popSq (s : State) (q : Fin 2) : State :=
  match s.ctx.q.sq[q] with
  | [] => s
  | e :: l => (wakeC s).modQ fun c => { c with
      sq := c.sq.set q l
      pop := c.pop.set (q.val + 4) (c.pop[q.val + 4] + 1)
      nPopC := max c.nPopC e.push }

def popYq (s : State) : State :=
  match s.ctx.q.yq with
  | [] => s
  | e :: l => (wakeC s).modQ fun c => { c with yq := l, pop := c.pop.set 7 (c.pop[7] + 1), nPopC := max c.nPopC e.push }

/-! Declared items (R25, R102 order 8, R111). -/

/-- An item that an instruction names and a kernel header declares. -/
inductive Item where
  | g (r : Reg)
  | v (n : Fin 48)
  | p (n : Fin 64)
  | k (n : Fin 256)
  | strm (n : Fin 16)
  | bar (n : Fin 8)
  | flag (n : Fin 16)
deriving DecidableEq, Repr

def Decl.has (d : Decl) (x : Slice) : Item → Bool
  | .g r => match x with
    | .a => r.val < d.nareg
    | .c => r.val < d.ncreg
  | .v n => n.val < d.nvreg
  | .p n => n.val < d.npred
  | .k n => n.val < d.nspill
  | .strm n => n.val < d.nstrm
  | .bar n => n.val < d.nbb
  | .flag n => n.val < d.nflag

/-! Faults. -/

/-- What a fault reports besides its place (R238, R240). -/
structure Flt where
  cause : Cause
  sub   : BitVec 8 := 0
  info  : Word := 0
  faddr : Word := 0
  fetch : Bool := false
  write : Bool := false
  xtnt  : List Nat := []
deriving DecidableEq, Repr

/-- The code of a cause (R239). -/
def causeCode : Cause → Nat
  | .illegal => 0x01 | .wrongSlice => 0x02 | .privilege => 0x03 | .declaration => 0x04 | .trap => 0x05 | .brk => 0x06
  | .address => 0x08 | .misaligned => 0x09 | .pageFault => 0x0A | .access => 0x0B | .atomicType => 0x0C
  | .detViolation => 0x0D | .tileAccess => 0x10 | .handleState => 0x11 | .tileLimit => 0x12 | .tileSize => 0x13
  | .tileNospace => 0x14 | .tileLost => 0x15 | .psealType => 0x16 | .streamInvalid => 0x18 | .matrixInvalid => 0x19
  | .wbOverrun => 0x1A | .overlap => 0x1B | .flagOverflow => 0x1C | .copyInvalid => 0x20 | .copyFault => 0x21
  | .bindLimit => 0x22 | .domainNone => 0x23 | .descInvalid => 0x24 | .overflowFull => 0x25 | .decoupleDeadlock => 0x28
  | .flagDeadlock => 0x29 | .queueResidue => 0x2A | .outputUnsealed => 0x2B | .domainConflict => 0x2C
  | .memUncorrectable => 0x2D | .silentErr => 0x30 | .handlerFault => 0x31

/-- Class F: the task fails (R239). DECLARATION and DESC_INVALID are of class H here: their other forms have no slice. -/
def classF : Cause → Bool
  | .tileLost | .wbOverrun | .decoupleDeadlock | .flagDeadlock | .queueResidue | .outputUnsealed | .domainConflict
  | .memUncorrectable | .handlerFault => true
  | _ => false

end Sys2Proof.Machine
end

