-- ==== Sys2Proof/Machine/Xlate.lean ====
section
/-!
DEFINITION. Address translation (R278 to R287): the layouts of addresses, the two walks, the rights and types of R283, the fences of
R364, and the check that an access passes before anything is read or written (R136, R137, R234, R435).
-/

namespace Sys2Proof.Machine

/-- Memory types (R281). -/
inductive MemType where
  | priv | tile | shrd | sync | dur | dev
deriving DecidableEq, Repr

def memType : Nat → Option MemType
  | 0 => some .priv
  | 1 => some .tile
  | 2 => some .shrd
  | 3 => some .sync
  | 4 => some .dur
  | 5 => some .dev
  | _ => none

/-- What an access does (R137). -/
inductive AKind where
  | load | store | amo | damo | fetch
  | devLoad | devStore        -- scalar accesses of 4 or 8 bytes, which DEV pages take
deriving DecidableEq, Repr

def AKind.writes : AKind → Bool
  | .store | .amo | .damo | .devStore => true
  | _ => false

def AKind.loads : AKind → Bool
  | .load | .devLoad => true
  | _ => false

def AKind.stores : AKind → Bool
  | .store | .devStore => true
  | _ => false

/-- Targets of a physical address (R279). -/
inductive Target where
  | hbm (stack ch : Nat)
  | dur (site gib : Nat)
  | dev
  | unbacked
deriving DecidableEq, Repr

def target (pa : Nat) : Target :=
  if pa < 0xC000000000 then .hbm (bits pa 39 36) (bits pa 35 30)
  else if 0x40000000000 ≤ pa && pa < 0x80000000000 then .dur (bits pa 41 40) (bits pa 39 30)
  else if 0xF000000000000 ≤ pa && pa < 0x10000000000000 then .dev
  else .unbacked

/-- The system area of a site, the first 1 MiB of it (R307), which no access reaches (R364). -/
def inSystemArea (pa : Nat) : Bool :=
  match target pa with
  | .dur _ _ => pa % 2 ^ 40 < 2 ^ 20
  | _ => false

/-- The partition to which a block of DEV registers belongs (R364). -/
def devOwner (s : State) : DevBlock → Option Nat
  | .none => none
  | .xlate p | .sched p | .mgmt p | .fence p => some p
  | .vdCtl v => (s.vd? v).map (·.part)

/-- Within the fences of a partition (R364). A fence block is readable by every supervisor (R362). -/
def inFences (s : State) (p : Partition) (pa : Nat) : Bool :=
  match target pa with
  | .hbm st ch => s.pkg.phase == .full && p.fence.pch.getLsbD (64 * st + ch)
  | .dur site gib =>
    let r := p.fence.dur[site % 4]'(Nat.mod_lt _ (by decide))
    r.1 ≤ gib && gib < r.2 && !inSystemArea pa
  | .dev => match Config.devBlock (pa / 4096) with
    | .none | .fence _ => true
    | b => devOwner s b == some p.num
  | .unbacked => false

/-- A pseudo-channel out of service for recalibration (R396). -/
def inRecal (s : State) (pa : Nat) : Bool :=
  match target pa with
  | .hbm st ch => s.pkg.recal.any fun r => r == (st, ch)
  | _ => false

/-- A range that a retirement has left unbacked (R279, R398): a stack, a pseudo-channel, a site. -/
def retiredPa (s : State) (pa : Nat) : Bool :=
  match target pa with
  | .hbm st ch => s.pkg.hret.getLsbD st || s.pkg.pchOut.any fun r => r == (st, ch)
  | .dur site _ => s.pkg.sret.getLsbD site
  | _ => false

/-- A range whose memory is no longer there: retired, or of a base die that is lost (R350). -/
def gonePa (s : State) (pa : Nat) : Bool :=
  retiredPa s pa || match target pa with
    | .hbm st _ => s.pkg.basesOut.getLsbD (st / 3)
    | .dur site _ => s.pkg.basesOut.getLsbD site
    | _ => false

/-- A 64-byte unit in error (R434), or in such a range. -/
def badUnit (s : State) (pa : Nat) : Bool := s.errs.contains (pa / 64) || gonePa s pa

/-- A stage-2 fault: reason, intermediate address, on a table read of stage 1 (R285). -/
structure S2Flt where
  reason : Nat
  ipa    : Nat
  walk   : Bool
deriving DecidableEq, Repr

/-- The page a walk ends in: its first output address, its size, and the entry (R281, R282). -/
structure Page where
  out   : Nat
  size  : Nat
  entry : Nat
deriving DecidableEq, Repr

/-- Size and level of a size code (R282). -/
def pageSize : Nat → Option (Nat × Nat)
  | 0 => some (2 ^ 12, 0) | 1 => some (2 ^ 14, 0) | 2 => some (2 ^ 16, 0) | 3 => some (2 ^ 18, 0)
  | 4 => some (2 ^ 21, 1) | 5 => some (2 ^ 23, 1) | 6 => some (2 ^ 25, 1) | 7 => some (2 ^ 29, 1)
  | 8 => some (2 ^ 30, 2) | 9 => some (2 ^ 34, 2)
  | _ => none

/-- The address of the entry that an input address indexes at a level (R280). -/
def entryAddr (table level addr : Nat) : Nat := table + 8 * ((addr >>> (12 + 9 * level)) % 512)

/-- A valid entry read at a level: the next table, the page, or a format error (R281, R282, R284). -/
def readEntry (stage1 : Bool) (level addr e : Nat) : Option (Nat ⊕ Page) :=
  let oa := bits e 51 12 * 4096
  if bits e 63 61 ≠ 0 || (stage1 && bits e 51 48 ≠ 0) then none
  else if bits e 1 1 = 1 then
    if level = 0 || bits e 60 52 ≠ 0 || bits e 11 2 ≠ 0 then none else some (.inl oa)
  else match pageSize (bits e 5 2) with
    | none => none
    | some (size, lv) =>
      let okMt := if stage1 then (memType (bits e 8 6)).isSome && (bits e 8 6 = 2 || bits e 59 52 = 0)
        else bits e 8 6 = 0 && bits e 59 52 = 0 && bits e 11 11 = 0
      if lv ≠ level || !okMt || oa % size ≠ 0 then none
      else some (.inr ⟨oa + addr % size, size, e⟩)

/-- Why stage 2 refuses a table entry at a physical address: 4 outside the fences or unbacked, 5 held for a recalibration (R279, R364, R396). -/
def tableFlt (s : State) (p : Partition) (pa : Nat) : Option Nat :=
  if !inFences s p pa || retiredPa s pa then some 4 else if inRecal s pa then some 5 else none

/-- A walk of stage 2 from a table at a level (R280). Reason 1: invalid; 2: format; 4 and 5 as above; with the address of the entry. -/
def walk2 (s : State) (p : Partition) (ipa : Nat) : Nat → Nat → Except (Nat × Nat) Page
  | level, table =>
    let pa := entryAddr table level ipa
    match tableFlt s p pa with
    | some r => .error (r, pa)
    | none =>
      let e := memWord s.mem pa 8
      if e % 2 = 0 then .error (1, pa)
      else match readEntry false level ipa e with
        | none => .error (2, pa)
        | some (.inr g) => .ok g
        | some (.inl t) => match level with
          | 0 => .error (2, pa)
          | l + 1 => walk2 s p ipa l t

/-- Stage 2 whole: walk, rights, fences, recalibration (R283, R285). -/
def stage2 (s : State) (p : Partition) (ipa : Nat) (write fetch : Bool) : Except Nat Nat :=
  match walk2 s p ipa 3 p.fence.s2root with
  | .error r => .error r.1
  | .ok g =>
    if (write && bits g.entry 9 9 = 0) || (fetch && bits g.entry 10 10 = 0) then .error 3
    else if !inFences s p g.out then .error 4
    else if inRecal s g.out then .error 5
    else .ok g.out

/-- Why a walk of stage 1 ends without a page. -/
inductive WalkFlt where
  | miss                      -- V = 0 or a format error (R284)
  | s2 (f : S2Flt)
deriving DecidableEq, Repr

/-- A walk of stage 1: its table entries are read at IPAs (R280). A table in a retired range is unbacked (R279); a page there is what R398 makes of
an access to it (log 45). -/
def walk1 (s : State) (p : Partition) (va : Nat) : Nat → Nat → Except WalkFlt Page
  | level, table =>
    let ipa := entryAddr table level va
    match stage2 s p ipa false false with
    | .error r => .error (.s2 ⟨r, ipa, true⟩)
    | .ok pa =>
      if retiredPa s pa then .error (.s2 ⟨4, ipa, true⟩) else
      let e := memWord s.mem pa 8
      if e % 2 = 0 then .error .miss
      else match readEntry true level va e with
        | none => .error .miss
        | some (.inr g) => .ok g
        | some (.inl t) => match level with
          | 0 => .error .miss
          | l + 1 => walk1 s p va l t

/-- A byte's place: its local address, what both stages give, the stage-1 entry (R281, R283), and the object to which its page binds it (R267). -/
structure Place where
  va    : Nat
  pa    : Nat
  mt    : MemType
  entry : Nat
  obj   : Option Nat
deriving DecidableEq, Repr

/-- SOIX, and the pin bit that a handler's page has (R281). -/
def Place.soix (p : Place) : Nat := bits p.entry 59 52
def Place.pin (p : Place) : Bool := bits p.entry 60 60 == 1

/-- Why an access does not pass its check. -/
inductive XFlt where
  | flt (c : Cause) (va : Nat)
  | s2 (f : S2Flt) (va : Nat)
  | remote (home : Nat)       -- the address lies in a peer's memory (R289)
deriving DecidableEq, Repr

/-- A home whose addresses and versions this package serves for a VD (R350). -/
def adoptedFor (s : State) (vd home : Nat) : Bool := s.peers.any fun p => p.num == home && p.adopted.contains vd

/-- The home of an address of a VD, none for this package (R278) and for a home that it has adopted (R350). -/
def homeOf (s : State) (vd va : Nat) : Option Nat :=
  if bits va 55 55 = 1 && bits va 54 44 ≠ s.pkg.num && !adoptedFor s vd (bits va 54 44) then some (bits va 54 44) else none

/-- The local address of an address of this package (R278). -/
def localVa (va : Nat) : Nat := if bits va 55 55 = 1 then bits va 43 0 else bits va 54 0

/-- An address of this package in its local form: two forms of one address are one address (R278). -/
def canonVa (s : State) (vd va : Nat) : Nat := if (homeOf s vd va).isNone then localVa va else va

/-- A stretch of a tile pool made durable (R302): a VD with DTPOOL = 0 has none. -/
def inDtPool (v : Vd) (va : Nat) : Bool := v.dtpool ≠ 0 && v.dtpool ≤ va && va < v.dtpool + v.dtlen

/-- The object to which a page attribute binds SHRD memory: the entry of the VD's table that SOIX names (R267, R281). -/
def pageObject (s : State) (v : Vd) (mt : MemType) (entry : Nat) : Option Nat :=
  let i := bits entry 59 52
  if mt == .shrd && i ≠ 0 then some (canonVa s v.num (nth 0 v.sot (i - 1))) else none

/-- The target that a type asks for (R283). In the durable tile pool a TILE page must map the durable tier: that one in HBM is refused is a
reading of R283 with R302 and R303 (log 55). -/
def targetOk (v : Vd) (va : Nat) (mt : MemType) (pa : Nat) : Bool :=
  match target pa with
  | .hbm _ _ => mt != .dur && mt != .dev && !(mt == .tile && inDtPool v va)
  | .dur _ _ => mt == .dur || (mt == .tile && inDtPool v va)
  | .dev => mt == .dev
  | .unbacked => false

/-- What a type accepts (R137): none when it does, else the cause. The extents of TILE pages are checked apart. -/
def typeFlt (k : AKind) (sup : Bool) : MemType → Option Cause
  | .priv => match k with
    | .amo | .damo => some .atomicType
    | _ => none
  | .tile => match k with
    | .amo | .damo => some .atomicType
    | _ => none
  | .shrd => match k with
    | .amo => some .atomicType
    | _ => none
  | .sync => match k with
    | .damo => some .atomicType
    | _ => none
  | .dur => match k with
    | .amo | .damo => some .atomicType
    | _ => none
  | .dev => match k with
    | .amo | .damo => some .atomicType
    | .devLoad | .devStore => if sup then none else some .access
    | _ => some .access

/-- Where stage 1 takes a byte's address: the output address at stage 2, the type, and the entry. -/
structure Found where
  va    : Nat                 -- as the access gives it
  lva   : Nat                 -- its local form
  part  : Partition
  dev   : Vd
  ipa   : Nat
  mt    : MemType
  entry : Nat

/-- Whether a global address names no package of the VD's peer set (R278, R289). -/
def homeBad (s : State) (vd va : Nat) : Bool :=
  match homeOf s vd va with
  | some h => h = 2047 || !((s.vd? vd).elim [] Vd.peers).contains h
  | none => false

/-- Order 4 of R435: the translation at stage 1. -/
def findPage (s : State) (vd : Nat) (va : Nat) : Except XFlt Found :=
  match s.vd? vd with
  | none => .error (.flt .pageFault va)
  | some v => match s.part? v.part with
    | none => .error (.flt .pageFault va)
    | some p =>
      match homeOf s vd va with
      | some h => if h = 2047 || !v.peers.contains h then .error (.flt .address va) else .error (.remote h)
      | none => match walk1 s p (localVa va) 4 v.s1root with
        | .error .miss => .error (.flt .pageFault va)
        | .error (.s2 f) => .error (.s2 f va)
        | .ok g => match memType (bits g.entry 8 6) with
          | none => .error (.flt .pageFault va)
          | some mt => .ok ⟨va, localVa va, p, v, g.out, mt, g.entry⟩

/-- The first half of order 5: what the type accepts, and its match with the physical target (R137, R283). Stage 2 holds an access here. -/
def placePage (s : State) (k : AKind) (sup : Bool) (f : Found) : Except XFlt Place :=
  match typeFlt k sup f.mt with
  | some c => .error (.flt c f.va)
  | none => match stage2 s f.part f.ipa k.writes (k == .fetch) with
    | .error r => .error (.s2 ⟨r, f.ipa, false⟩ f.va)
    | .ok pa => if targetOk f.dev f.lva f.mt pa then .ok ⟨f.lva, pa, f.mt, f.entry, pageObject s f.dev f.mt f.entry⟩ else .error (.flt .access f.va)

/-- The second half of order 5: the rights W, X and S (R283). -/
def rightsBad (s : State) (k : AKind) (sup : Bool) (f : Found) : Bool :=
  (k.writes && (bits f.entry 9 9 = 0 || (f.mt == .dur && s.pkg.nores && !(f.part.num == 0 && s.pkg.phase == .reduced)))) ||
    (k == .fetch && bits f.entry 10 10 = 0) || (!sup && bits f.entry 11 11 = 1)

/-- Translates one byte's address for an access, with every check of orders 4 and 5 but the extents of tiles. -/
def translate (s : State) (vd : Nat) (va : Nat) (k : AKind) (sup : Bool) : Except XFlt Place :=
  match findPage s vd va with
  | .error e => .error e
  | .ok f => match placePage s k sup f with
    | .error e => .error e
    | .ok p => if rightsBad s k sup f then .error (.flt .access va) else .ok p

/-- The package as it stands once every channel is back from its recalibration. -/
def noRecal (s : State) : State := { s with pkg := { s.pkg with recal := [] } }

/-- A translation by the hardware for itself: no rights, no type (the part's own reads and writes of a VD's memory). Such an access to a channel
in recalibration is held as any other (R396), and stands here as the first of those that go on when the channel returns (log 63). -/
def hwTranslate (s0 : State) (vd : Nat) (va : Nat) : Option Nat :=
  let s := noRecal s0
  match s.vd? vd with
  | none => none
  | some v => match s.part? v.part with
    | none => none
    | some p => match walk1 s p (localVa va) 4 v.s1root with
      | .error _ => none
      | .ok g => (stage2 s p g.out false false).toOption

/-- Cuts `[va, va + len)` at 4 KiB borders: start and length of each piece. -/
def pagePieces : Nat → Nat → Nat → List (Nat × Nat)
  | 0, _, _ => []
  | fuel + 1, va, len =>
    if len = 0 then [] else
    let n := min len (4096 - va % 4096)
    (va, n) :: pagePieces fuel (va + n) (len - n)

/-- The pieces of a range: as many as its pages. -/
def pieces (va len : Nat) : List (Nat × Nat) := pagePieces (len / 4096 + 2) va len

/-- A translation for the hardware's own access, to memory that is there (R279, R350, R398). -/
def hwPlace (s : State) (vd va : Nat) : Option Nat := (hwTranslate s vd va).filter fun pa => !gonePa s pa

/-- The bytes of a VD's memory, as the hardware reads them for itself; zero where nothing is mapped, or the memory is gone. -/
def hwRead (s : State) (vd va len : Nat) : List Byte :=
  (pieces va len).flatMap fun p => match hwPlace s vd p.1 with
    | some pa => memGetN s.mem pa p.2
    | none => List.replicate p.2 0

def hwWord (s : State) (vd va n : Nat) : Nat := leNat (hwRead s vd va n)

/-- The bytes of a VD's memory written by the hardware for itself, at PAs. -/
def hwCells (s : State) (vd va : Nat) (bs : List Byte) : List Host.Cell :=
  (pieces va bs.length).flatMap fun p => match hwPlace s vd p.1 with
    | some pa => cellsAt pa ((bs.drop (p.1 - va)).take p.2)
    | none => []

end Sys2Proof.Machine
end

