-- ==== Sys2Proof/Machine/Net.lean ====
section
/-!
DEFINITION. Sending Borrun frames (R376 to R378, R384) and the requests of one package to another (R289, R337, R343, R346, R355). The
inside of a PEER payload is the model's own (log 9): a list of 64-bit words, the first of them the kind of the request.
-/

namespace Sys2Proof.Machine

/-- Parties: a package by its number, a host by 2,048 plus its MAC. -/
def hostParty (mac : Nat) : Nat := 2048 + mac

/-! Ports and paths (R364, R375, R384, R386). -/

def portOf (s : State) (n : Nat) : Option Port := s.ports[n]?

/-- What a port's role carries: a host port frames to hosts, a peer port frames to packages (R375). -/
def roleFits (r : Role) (party : Nat) : Bool :=
  match r with
  | .host => 2048 ≤ party
  | .peer => party < 2047
  | .off => false

/-- A port that a VD's partition may use (R364). -/
def portAllowed (s : State) (v : Vd) (port : Nat) : Bool := (s.part? v.part).any fun p => p.fence.ports.getLsbD port

/-- The ports over which a flow to a party may go: those of live paths that send in that role, and for a flow of a VD, which has its number, those
that its partition's fences name (R364, R375, R384, R386). -/
def usable (s : State) (party flow : Nat) : List Nat :=
  (s.paths.filter fun p => p.party == party && p.live && ((portOf s p.port).any fun q => q.up && roleFits q.role party) &&
    (s.vd? flow).all fun v => portAllowed s v p.port).map Path.port

def sameFlow (party inc flow : Nat) (f : Flow) : Bool := f.sender == party && f.inc == inc && f.flow == flow

def Flow.new (party inc flow : Nat) (eth : Bool) : Flow := ⟨party, inc, flow, 0, [], 0, none, eth, [], false⟩

/-- The flow by which this package sends to a party. -/
def outFlow (s : State) (party flow : Nat) : Flow := (s.flows.find? (sameFlow party s.pkg.inc flow)).getD (Flow.new party s.pkg.inc flow false)

def putFlow (s : State) (f : Flow) : State :=
  { s with flows := f :: s.flows.filter fun g => !sameFlow f.sender f.inc f.flow g }

/-- The port of a flow: it keeps to one path, chosen by hashing FLOW over the live paths; when that fails, it moves to the next live one (R384). -/
def pathOf (s : State) (w : Flow) : Option Nat :=
  let l := usable s w.sender w.flow
  match w.path with
  | some p => if l.contains p then some p else (l.find? fun q => p < q) <|> l.head?
  | none => l[w.flow % l.length]?

/-! Frames (R376). -/

/-- The package number by which a header names a party: 2,047 for a host (R376). -/
def dpkgOf (party : Nat) : Nat := if party < 2047 then party else 2047

/-- A frame of this package, before its PSN, to the addresses of the peer table or to a host's MAC (R384). -/
def mkFrame (s : State) (party ftype vd status addr : Nat) (payload : List Byte) : Frame :=
  let e := s.peers.find? fun p => p.num == party
  ⟨1, ftype, s.pkg.num, dpkgOf party, vd, status, false, 0, s.pkg.inc, vd, false, addr, payload, 0, 0, false, false,
    e.elim (party - 2048) Peer.mac, e.elim 0 Peer.ip6⟩

/-- The bytes of a frame: the four words of its header, and the payload (R376). -/
def frameBytes (f : Frame) : List Byte :=
  leBytes 8 (f.ver % 16 * 2 ^ 60 + f.ftype % 16 * 2 ^ 56 + f.spkg % 2048 * 2 ^ 45 + f.dpkg % 2048 * 2 ^ 34 + f.vd % 512 * 2 ^ 25 +
    f.status % 256 * 2 ^ 17 + f.payload.length % 16384) ++
  leBytes 8 f.psn ++ leBytes 8 (f.inc % 2 ^ 32 * 2 ^ 32 + f.flow % 65536 * 2 ^ 16 + b2n f.ce * 2 ^ 15) ++ leBytes 8 f.addr ++ f.payload

/-- The UDP port and the EtherType of Borrun Transport (R376). -/
def borrunUdp : Nat := 19860
def borrunEther : Nat := 0x88B5

/-- Whether bytes are carried as a Borrun frame, and then whether directly behind the Ethernet header. -/
def Carrier.borrun : Carrier → Option Bool
  | .udp port sum => if port = borrunUdp && sum then some false else none
  | .ether kind => if kind = borrunEther then some true else none

/-- The frame that bytes at a port hold (R376). Bytes behind the payload are the Ethernet frame's padding; bytes that are not carried as a Borrun
frame, or end before the payload does, hold none (log 42). The CE bit of an ACK is the header's, the mark of any other frame the carrier's. -/
def readFrame (w : Wire) : Option Frame :=
  match w.carrier.borrun with
  | none => none
  | some eth =>
    let word := fun i => leNat ((w.bytes.drop (8 * i)).take 8)
    let w0 := word 0
    let w2 := word 2
    let n := bits w0 13 0
    if w.bytes.length < 32 + n then none
    else
      let ty := bits w0 59 56
      some ⟨bits w0 63 60, ty, bits w0 55 45, bits w0 44 34, bits w0 33 25, bits w0 24 17, bits w0 16 14 ≠ 0 || bits w2 14 0 ≠ 0,
        word 1, bits w2 63 32, bits w2 31 16, if ty = 8 then bits w2 15 15 = 1 else w.ce, word 3, (w.bytes.drop 32).take n, w.port, w.mac, w.noBuf,
        eth, 0, 0⟩

/-- The frame at the inputs. -/
def arrived (s : State) : Option Frame :=
  match s.input with
  | .frame f => some f
  | .wire w => readFrame w
  | _ => none

/-- Puts a frame at the end of its flow: it is kept until it is acknowledged (R378), and goes out if a path is live (R386). -/
def pushFrame (s : State) (party : Nat) (f : Frame) : State :=
  let w := outFlow s party f.flow
  let q := pathOf s w
  let f := { f with psn := w.nextPsn, eth := w.eth, port := q.getD 0 }
  let t := putFlow s { w with sent := w.sent ++ [f], nextPsn := w.nextPsn + 1, path := q <|> w.path }
  if q.isSome then { t with out := f :: t.out } else t

/-- Sends a frame in the flow of its VD. -/
def sendFrame (s : State) (party ftype vd status addr : Nat) (payload : List Byte) : State :=
  pushFrame s party (mkFrame s party ftype vd status addr payload)

/-- ACK, NACK and HEARTBEAT carry no PSN of their own (R378). -/
def sendBare (s : State) (party ftype vd addr port flow : Nat) (ce eth : Bool) (payload : List Byte) : State :=
  { s with out := { mkFrame s party ftype vd 0 addr payload with port := port, flow := flow, ce := ce, eth := eth } :: s.out }

/-! Requests between packages. -/

def wordsBytes (l : List Nat) : List Byte := l.flatMap (leBytes 8)

/-- Kinds of PEER payloads. -/
inductive PeerKind where
  | load | store | amo | answer | commit | gang | rebuild | replica | ask | pair | accept
deriving DecidableEq, Repr

def peerCode : PeerKind → Nat
  | .load => 0 | .store => 1 | .amo => 2 | .answer => 3 | .commit => 4 | .gang => 5 | .rebuild => 6 | .replica => 7 | .ask => 8 | .pair => 12
  | .accept => 14

/-- The words of a message of a pair (R358 to R360; log 9). -/
def pairWords : PairWhat → List Nat
  | .create m => [0, b2n m]
  | .tile n d a => [1, n.toNat, d.toNat, b2n a]
  | .domain l did key d => [2, l, did, key, d.toNat]
  | .task desc d => [3, d.toNat] ++ desc.map (·.toNat)

/-- Pieces of what one frame can carry (R376), each behind a word that says whether another follows. -/
def framePieces : Nat → List Byte → List (List Byte)
  | 0, _ => []
  | fuel + 1, bs =>
    if bs.length ≤ 8184 then [leBytes 8 0 ++ bs] else (leBytes 8 1 ++ bs.take 8184) :: framePieces fuel (bs.drop 8184)

def peerLost (s : State) (home : Nat) : Bool := s.peers.any fun p => p.num == home && p.lost

/-- A request: its kind, who asks, and its words and bytes, in one frame or in several one after another. A lost package is sent none (R387). -/
def sendPeer (s : State) (home vd : Nat) (k : PeerKind) (addr : Nat) (ws : List Nat) (bs : List Byte) (status : Nat := 0) : State :=
  if peerLost s home then s else
  let all := wordsBytes (peerCode k :: ws) ++ bs
  (framePieces (all.length / 8184 + 1) all).foldl (fun s p => sendFrame s home 7 vd status addr p) s

/-- A message to the partner of a mirrored VD. -/
def sendPair (s : State) (partner vd : Nat) (w : PairWhat) : State := sendPeer s partner vd .pair 0 (pairWords w) []

/-- The tag of the A-slice among those that ask: slots are 0 to 47. -/
def tagA : Nat := 48

/-- Tags of answers to writes that a `rel`, and that a commit of a task or of a gang, sent to other homes. -/
def tagRel : Nat := 49
def tagTask : Nat := 50
def tagGang : Nat := 51

/-- The rights with which an access asks: supervisor level, and that a rebuild task makes it (R352). -/
def askRights (sup rebuild : Bool) : Nat := b2n sup + 4 * b2n rebuild

/-- A `pflush` of the bytes (R168). -/
def rightFlush : Nat := 8

/-- A request that only asks what a page is. -/
def rightProbe : Nat := 16

/-- An access of a kind that DEV pages take (R137). -/
def rightDev : Nat := 32

/-- A request that is checked as a store and answers its places alone: the sender writes them later (R155). -/
def rightStore : Nat := 64

/-- A fetch; and the loader's reads of a section, and of the header or the table, whose type must accept a load (R112). -/
def rightFetch : Nat := 128
def rightCode : Nat := 2 ^ 16
def rightTable : Nat := 2 ^ 17

def mtCode : MemType → Nat
  | .priv => 0 | .tile => 1 | .shrd => 2 | .sync => 3 | .dur => 4 | .dev => 5

/-- A request that takes pages of one type alone. -/
def rightOnly (mt : MemType) : Nat := 256 * (mtCode mt + 1)

/-- An access of a host, checked as its home checks a host's (R289, R382). -/
def rightHost : Nat := 2 ^ 18

/-- The persist epoch in which a request stores, and whether its home must hold the store back from acceptance (R299). -/
structure DurWhen where
  epoch : Nat
  hold  : Bool

/-- No task's: the part's own. -/
def DurWhen.none : DurWhen := ⟨0, false⟩

/-- A global load of ranges by a task, one access (R289): its pieces by pages, each with whether the extent of a handle covers it (R137). -/
def askLoad (s : State) (home vd uid tag : Nat) (rs : List (Nat × Nat)) (rights : Nat) (ext : Nat → Nat → Bool := fun _ _ => false)
    (w : DurWhen := DurWhen.none) : State :=
  let ps := rs.flatMap fun r => pieces r.1 r.2
  sendPeer s home vd .load (nth (0, 0) rs 0).1
    ([uid, tag, rights, w.epoch, b2n w.hold, ps.length] ++ ps.flatMap fun r => [r.1, r.2, b2n (ext r.1 r.2)]) []

/-- Bytes with their mask. -/
def maskedBytes (bs : List (Byte × Bool)) : List Byte := bs.map (·.1) ++ bs.map fun x => if x.2 then 1 else 0

/-- A global store of bytes under a mask; `ext` says for each stretch of a page that it writes whether the extent of a handle covers it. -/
def askStore (s : State) (home vd uid tag va : Nat) (rights : Nat) (bs : List (Byte × Bool)) (ext : List Bool := [])
    (w : DurWhen := DurWhen.none) : State :=
  sendPeer s home vd .store va ([uid, tag, bs.length, rights, w.epoch, b2n w.hold, ext.length] ++ ext.map b2n) (maskedBytes bs)

def amoCode : AmoOp → Nat
  | .add => 0 | .min => 1 | .max => 2 | .or => 3 | .and => 4 | .xor => 5 | .swap => 6 | .cas => 7

def amoTypeCode : AmoType → Nat
  | .i32 => 0 | .i64 => 1 | .n32 => 2 | .n64 => 3 | .f32 => 4

/-- A global atomic; a deferred one is only checked at its home. -/
def askAmo (s : State) (home vd uid tag va : Nat) (rights : Nat) (deferred : Bool) (op : AmoOp) (ty : AmoType) (operand old : Word) : State :=
  sendPeer s home vd .amo va [uid, tag, rights, b2n deferred, amoCode op, amoTypeCode ty, operand.toNat, old.toNat] []

/-- Where a logged byte of another package's memory stands in a log: its home and its physical address there, above every physical
address of this package. -/
def globalKey (home pa : Nat) : Nat := 2 ^ 56 * (home + 1) + pa
def isGlobalKey (k : Nat) : Bool := 2 ^ 56 ≤ k
def keyHome (k : Nat) : Nat := k / 2 ^ 56 - 1
def keyPa (k : Nat) : Nat := k % 2 ^ 56

/-- An entry of a commit as a frame carries it (R270). -/
def entryWire : LogEntry → List Byte
  | .store _ _ _ cells => wordsBytes [0, cells.length] ++ cells.flatMap fun c => leBytes 8 (keyPa c.1) ++ [c.2]
  | .update _ pa op ty b => wordsBytes [1, keyPa pa, amoCode op, amoTypeCode ty, b.toNat]

/-- What another home has to apply, whole and in order: the entries of a commit there, bound stores, a chunk (R155, R267, R270, R355). -/
def sendCommit (s : State) (home vd uid tag : Nat) (l : List LogEntry) (w : DurWhen := DurWhen.none) : State :=
  sendPeer s home vd .commit 0 [uid, tag, w.epoch, b2n w.hold, l.length] (l.flatMap entryWire)

/-! Names (R341). -/

def tileHome (n : Word) : Nat := bits n.toNat 63 53
def tileVd (n : Word) : Nat := bits n.toNat 52 44
def tileDur (n : Word) : Bool := n.getLsbD 43

/-- The other package that holds a version; none for this package, in a mirrored VD (R358), and for
a home that it has adopted (R350). -/
def awayHome (s : State) (name : Word) : Option Nat :=
  if tileHome name = s.pkg.num || (s.vd? (tileVd name)).any (·.mirror) || adoptedFor s (tileVd name) (tileHome name) then none else some (tileHome name)

/-- Requests about a tile version to its home. -/
inductive AskOp where
  | acquire | alloc | seal | release | depth | needUp | needDown | put | free | abort | lose | rest | unrest
deriving DecidableEq, Repr

def askOpCode : AskOp → Nat
  | .acquire => 0 | .alloc => 1 | .seal => 2 | .release => 3 | .depth => 4 | .needUp => 5 | .needDown => 6 | .put => 7
  | .free => 8 | .abort => 9 | .lose => 10 | .rest => 11 | .unrest => 12

def askTile (s : State) (home vd uid tag : Nat) (op : AskOp) (name : Word) (ws : List Nat) (bs : List Byte := []) : State :=
  sendPeer s home vd .ask 0 ([uid, tag, askOpCode op, name.toNat] ++ ws) bs

/-- The tag of the answer about the depth of the k-th acquired version, and about an operand of a task that waits. -/
def tagDepth (k : Nat) : Nat := 52 + k
def tagOperand : Nat := 63

/-- The tag of a second access of one instruction, and of the notice that durable stores have been accepted (R299). -/
def tagB : Nat := 60
def tagDur : Nat := 61

/-- The tag of the check of a store before it is made. -/
def tagCheck : Nat := 62

/-- Reports about gangs that span packages (R337; log 9). -/
inductive GangOp where
  | admitted | reserved | released | arrived | ended | turn | preempted | ready | unformed
deriving DecidableEq, Repr

def gangOpCode : GangOp → Nat
  | .admitted => 0 | .reserved => 1 | .released => 2 | .arrived => 3 | .ended => 4 | .turn => 5 | .preempted => 6 | .ready => 7
  | .unformed => 8

/-- A report to every package of the VD's peer set. -/
def sendGang (s : State) (vd level did : Nat) (op : GangOp) (a b : Nat) : State :=
  ((s.vd? vd).elim [] Vd.peers).foldl (fun s p => sendPeer s p vd .gang 0 [level, did, gangOpCode op, a, b] []) s

/-- The tag of the answer about a word of a slice's code: no copy slot has it. -/
def codeTag (x : Slice) (va : Nat) : Nat := (if x == .a then 62 else 63) + 64 * (va + 1)
def isCodeTag (x : Slice) (tag : Nat) : Bool := 64 ≤ tag && tag % 64 == if x == .a then 62 else 63

/-- Who asks for an access of the context that moves: a task, or above that its handler. -/
def handlerUid : Nat := 2 ^ 41
def asker (s : State) : Nat := s.ctx.uid + if s.ctx.sup then handlerUid else 0

/-- Who asks for a COPY packet: above every task's number. -/
def ringUid (q : Nat) : Nat := 2 ^ 40 + q

/-- A unit of this package that reads another home's memory for itself, above every other asker. -/
def unitUid (who : Nat) : Nat := 2 ^ 43 + who

/-- One page of what a home's answer says: where its bytes lie there, their number, its type, and the object to which the page binds them
(0: none). -/
structure RPage where
  pa  : Nat
  n   : Nat
  mt  : MemType
  obj : Nat

/-- What a home's answer says: the pages of the access, and the bytes read. -/
structure Reply where
  pages : List RPage
  data  : List Byte

/-- The bytes of an answer. -/
def replyBytes (r : Reply) : List Byte :=
  leBytes 2 r.pages.length ++ r.pages.flatMap (fun p => leBytes 8 p.pa ++ leBytes 8 p.n ++ leBytes 1 (mtCode p.mt) ++ leBytes 8 p.obj) ++ r.data

/-- An answer read again. -/
def reply (a : Answer) : Reply :=
  let n := leNat (a.data.take 2)
  { pages := (List.range n).map fun i =>
      let b := a.data.drop (2 + 25 * i)
      ⟨leNat (b.take 8), leNat ((b.drop 8).take 8), (memType (leNat ((b.drop 16).take 1))).getD .priv, leNat ((b.drop 17).take 8)⟩
    data := a.data.drop (2 + 25 * n) }

/-- An object of a home as every package names it: its global address, where it has one (R267, R278). -/
def globalObj (num o : Nat) : Nat :=
  if o = 0 || bits o 55 55 = 1 then o else if o < 2 ^ 44 then 2 ^ 55 + num * 2 ^ 44 + o else 2 ^ 56 + o

/-- The places of an answer, from an address on, as keys of another home's memory. -/
def replyPlaces (home : Nat) : Nat → List RPage → List (Place × Nat)
  | _, [] => []
  | va, p :: l => (⟨va, globalKey home p.pa, p.mt, 0, if p.obj = 0 then none else some p.obj⟩, p.n) :: replyPlaces home (va + p.n) l

/-- The status of a request that has been sent and not yet answered. -/
def askedMark : Nat := 255

/-- The answer with a tag, once it has come; takeAnswer also takes it from the context that moves. -/
def answerOf (s : State) (tag : Nat) : Option Answer := s.ctx.m.answers.find? fun r => r.tag == tag && r.status != askedMark

def takeAnswer (s : State) (tag : Nat) : Option Answer × State :=
  match answerOf s tag with
  | none => (none, s)
  | some r => (some r, s.modM fun m => { m with answers := m.answers.filter fun r => r.tag != tag })

/-- Sends a request to a home once: until its answer has come it is marked as asked there. -/
def askOnce (s : State) (home tag : Nat) (ask : State → State) : State :=
  if s.ctx.m.answers.any fun r => r.tag == tag then s
  else (ask s).modM fun m => { m with answers := ⟨tag, askedMark, home, []⟩ :: m.answers }

/-- What a context has asked of a home that is lost has no answer: its accesses are tried again, and find that out (R289). -/
def wakeRemote (home : Nat) (x : Context) : Context :=
  let lost := fun (r : Answer) => r.status == askedMark && r.cause == home
  { x with
    a := { x.a with block := if x.a.block == some .remote then none else x.a.block }
    c := { x.c with block := if x.c.block == some .wait && x.m.answers.any (fun r => lost r && isCodeTag .c r.tag) then none else x.c.block }
    m := { x.m with answers := x.m.answers.filter fun r => !lost r } }

/-- Who reads or writes another home's memory for a host. -/
def hostReader (n : Nat) : Nat := 2 ^ 42 + n

/-- A unit's read of another home: sent once; its answer, once it has come. -/
def farAnswer (s : State) (who va : Nat) : Option Answer := (s.far.find? fun r => r.who == who && r.va == va).bind FarRead.answer

def askFar (s : State) (home vd who va len rights : Nat) (store : Option (List Byte) := none) : State :=
  if s.far.any fun r => r.who == who && r.va == va then s
  else
    let t := match store with
      | none => askLoad s home vd (unitUid who) va [(va, len)] rights
      | some bs => askStore s home vd (unitUid who) va va rights (bs.map fun b => (b, true))
    { t with far := ⟨who, va, none⟩ :: t.far }

/-- A unit has no more use for what it has read. -/
def dropFar (s : State) (who : Nat) : State := { s with far := s.far.filter fun r => r.who != who }

/-- The cause of a code (R239). -/
def causeOf (n : Nat) : Cause :=
  ([.illegal, .wrongSlice, .privilege, .declaration, .trap, .brk, .address, .misaligned, .pageFault, .access, .atomicType,
    .detViolation, .tileAccess, .handleState, .tileLimit, .tileSize, .tileNospace, .tileLost, .psealType, .streamInvalid,
    .matrixInvalid, .wbOverrun, .overlap, .flagOverflow, .copyInvalid, .copyFault, .bindLimit, .domainNone, .descInvalid,
    .overflowFull, .decoupleDeadlock, .flagDeadlock, .queueResidue, .outputUnsealed, .domainConflict, .memUncorrectable,
    .silentErr, .handlerFault].find? fun c => causeCode c == n).getD .address

end Sys2Proof.Machine
end

