-- ==== Sys2Proof/Machine/Layout.lean ====
section
/-!
DEFINITION. The layout of a save area (R250): where each section lies and which ones a handler's stores may not touch (R247); a handler's
own store against them.
-/

namespace Sys2Proof.Machine

/-- The sections of a save area in their order (R250). -/
inductive Sect where
  | record | handler | aregs | status | slots | streams | toC | toA | cregs | vectors | preds | spill | matrix | flags
  | engines | pending | checker | wbuf | spad
deriving DecidableEq, Repr

def sections : List Sect :=
  [.record, .handler, .aregs, .status, .slots, .streams, .toC, .toA, .cregs, .vectors, .preds, .spill, .matrix, .flags,
    .engines, .pending, .checker, .wbuf, .spad]

def sectSize (d : Decl) (det : Bool) : Sect → Nat
  | .record => 512
  | .handler => 512
  | .aregs => 8 * d.nareg
  | .status => 1024
  | .slots => 48 * 64
  | .streams => d.nstrm * (d.slipl + 3) * 128
  | .toC => d.slipl * 520
  | .toA => 32 * 576 + 32 * 8
  | .cregs => 8 * d.ncreg + 64
  | .vectors => 512 * (d.nvreg + 10)
  | .preds => 64 * d.npred
  | .spill => 512 * d.nspill
  | .matrix => 32768 + 128
  | .flags => 64
  | .engines => 64 * 32
  | .pending => 64 * 544
  | .checker => if det then 16384 else 0
  | .wbuf => 1048576
  | .spad => d.spad

/-- Sections that a handler may change (R250). -/
def sectOpen : Sect → Bool
  | .aregs | .cregs | .vectors | .preds | .spill => true
  | _ => false

/-- Rounded up to the next multiple of 512 (R250). -/
def up512 (n : Nat) : Nat := (n + 511) / 512 * 512

/-- Each section's offset from the base. -/
def layoutFrom (d : Decl) (det : Bool) : List Sect → Nat → List (Sect × Nat)
  | [], _ => []
  | x :: xs, o => (x, o) :: layoutFrom d det xs (o + up512 (sectSize d det x))

def sectOff (d : Decl) (det : Bool) (x : Sect) : Nat :=
  ((layoutFrom d det sections 0).find? fun p => p.1 == x).elim 0 (·.2)

/-- Bytes of a whole save area (R250, R334). -/
def saveSize (d : Decl) (det : Bool) : Nat := (sections.map fun x => up512 (sectSize d det x)).foldl (· + ·) 0

/-- Whether a range touches a protected section of the save area at a base: all of the record but APC and CPC, and every section not
marked changeable (R247, R248, R250). DESIGN CHOICE (log 52): the handler area, whose Changeable column is a dash, is not protected. -/
def protectedAt (d : Decl) (det : Bool) (base va len : Nat) : Bool :=
  let hits := fun lo n => va < lo + n && lo < va + len
  hits base 8 || hits (base + 0x18) 0x1E8 ||
  (layoutFrom d det sections 0).any fun p => p.1 != .record && p.1 != .handler && !sectOpen p.1 && hits (base + p.2) (sectSize d det p.1)

/-- A store of a handler that meets a protected section of the save area whose task it handles (R246, R247). -/
def protectedHit (s : State) (va len : Nat) : Bool :=
  s.ctx.sup && (s.context? s.ctx.uid).any fun x => x.phase == .handled &&
    x.save.any fun base => protectedAt x.decl x.det (canonVa s x.vd base) (canonVa s x.vd va) len

end Sys2Proof.Machine
end

