-- ==== Sys2Proof/Machine/Vmem.lean ====
section
/-!
DEFINITION. Performing stores in physical memory (R264, R297, R434), a task's own view of it (R138, R272), and the check of an access
with the bytes it then reads or writes (R135 to R139, R234, R284, R285).
-/

namespace Sys2Proof.Machine

/-- Cells grouped by 64-byte unit (R260). -/
def unitGroups : List Host.Cell → List (List Host.Cell)
  | [] => []
  | c :: cs => match unitGroups cs with
    | (d :: g) :: gs => if c.1 / 64 = d.1 / 64 then (c :: d :: g) :: gs else [c] :: (d :: g) :: gs
    | gs => [c] :: gs

def isDur (pa : Nat) : Bool :=
  match target pa with
  | .dur _ _ => true
  | _ => false

/-- Stores performed: memory changes, a unit written whole leaves its error (R434), and a store to the durable tier awaits its
acceptance in its persist epoch (R297, R299). -/
def performAt (s : State) (uid epoch : Nat) (cells : List Host.Cell) : State :=
  let gs := unitGroups cells
  let clear := if s.errs.isEmpty then [] else
    (gs.filter fun g => ((g.map (·.1)).eraseDups).length == 64).map fun g => (nth (0, 0) g 0).1 / 64
  let durs := (gs.filter fun g => isDur (nth (0, 0) g 0).1).map fun g => (⟨uid, epoch, g⟩ : DurStore)
  { s with
    mem := memSetCells s.mem cells
    errs := if clear.isEmpty then s.errs else s.errs.filter fun u => !clear.contains u
    durPend := if durs.isEmpty then s.durPend else s.durPend ++ durs }

/-- Stores of the context that moves. -/
def perform (s : State) (cells : List Host.Cell) : State := performAt s s.ctx.uid s.ctx.m.epoch cells

/-- A run of bytes performed at once. -/
def performRun (s : State) (uid epoch pa : Nat) (bs : List Byte) : State :=
  if isDur pa || !s.errs.isEmpty then performAt s uid epoch (cellsAt pa bs) else { s with mem := memSetN s.mem pa bs }

/-- Writes of the part itself into a VD's memory, by VA. -/
def hwWrite (s : State) (vd va : Nat) (bs : List Byte) : State :=
  (pieces va bs.length).foldl (fun s p => match hwTranslate s vd p.1 with
    | some pa => performRun s 0 0 pa ((bs.drop (p.1 - va)).take p.2)
    | none => s) s

def hwWriteWord (s : State) (vd va n v : Nat) : State := hwWrite s vd va (leBytes n v)

/-- A log stands in A-slice program order, a copy's chunks at the place of its issue (R270). -/
def insLog (order chunk : Nat) (e : LogEntry) : List LogEntry → List LogEntry
  | [] => [e]
  | f :: l =>
    let before := match f with
      | .store o c _ _ => o < order || (o == order && c ≤ chunk)
      | .update o .. => o ≤ order
    if before then f :: insLog order chunk e l else e :: f :: l

/-- The newest store of the task to a byte, by A-slice order (R138, R267, R272): its byte while it is logged or held. A bound store performed
since then decides too, and leaves the byte to memory. -/
def ownByte (m : MemSide) (pa : Nat) : Option Byte :=
  let logged := m.log.filterMap fun
    | .store o _ _ cells => some (o, cells, true)
    | .update .. => none
  let all := logged ++ m.held.map (fun h => (h.order, h.cells, true)) ++ m.past.map fun h => (h.order, h.cells, false)
  let best := all.foldl (fun (b : Nat × Option Byte) x =>
    if x.1 < b.1 then b else match x.2.1.find? fun c => c.1 == pa with
      | some c => (x.1, if x.2.2 then some c.2 else none)
      | none => b) (0, none)
  best.2

/-- A copy whose chunks may yet write memory. -/
def writesLater (m : MemSide) : Bool :=
  m.slots.toList.any fun c => (c.state == .active || c.state == .faulted) && (c.chain || c.kind.val == 1 || c.kind.val == 3)

/-- Bound bytes stored at a place of the A-slice order are performed. What the task holds for them from before is performed with them, and its
older log entries no longer decide its own loads (R138, R264, R267). -/
def pastStore (m : MemSide) (order : Nat) (cells : List Host.Cell) : MemSide :=
  let older := fun (h : HeldStore) =>
    if h.order < order then { h with cells := h.cells.filter fun c => !cells.any fun d => d.1 == c.1 } else h
  { m with
    held := (m.held.map older).filter fun h => !h.cells.isEmpty
    past := if m.log.isEmpty && !writesLater m then m.past else m.past ++ [⟨order, 0, cells⟩] }

/-- What is held from before stores of a log to the same bytes: the commit of the log leaves nothing of it (R263, R264, R272). -/
def unholdLogged (m : MemSide) : List HeldStore :=
  let newer := fun (h : HeldStore) (pa : Nat) => m.log.any fun
    | .store o _ _ cells => o > h.order && cells.any fun c => c.1 == pa
    | .update .. => false
  (m.held.map fun h => { h with cells := h.cells.filter fun c => !newer h c.1 }).filter fun h => !h.cells.isEmpty

/-- A task's log with its held stores in their places of the A-slice order. -/
def logWithHeld (m : MemSide) : List LogEntry :=
  m.held.foldl (fun l h => insLog h.order 0 (.store h.order 0 (nth (0, 0) h.cells 0).1 h.cells) l) m.log


/-- The bytes that a task's load of a physical range returns. -/
def viewN (s : State) (pa n : Nat) : List Byte :=
  let base := memGetN s.mem pa n
  if s.ctx.m.log.isEmpty && s.ctx.m.held.isEmpty then base
  else base.mapIdx fun i b => (ownByte s.ctx.m (pa + i)).getD b

/-- The object to which a SHRD byte is bound, as a virtual address: the task's own `bind` first, then the page (R267). -/
def boundTo (s : State) (p : Place) (va : Nat) : Option Nat :=
  let a := canonVa s s.ctx.vd va
  ((s.ctx.m.bindings.find? fun b => b.base ≤ a && a < b.base + b.len).map Binding.obj).or (p.obj.map (canonVa s s.ctx.vd))

/-- The tag of the answer that says whether a word of another home is a SYNC word. -/
def objectTag (o : Nat) : Nat := 61 + 64 * (o + 1)

/-- The entry of the VD's table that a SHRD page names. -/
def pageEntry (s : State) (vd : Nat) (mt : MemType) (entry : Nat) : Option Nat :=
  if mt != .shrd || bits entry 59 52 = 0 then none else some ((s.vd? vd).elim 0 fun v => nth 0 v.sot (bits entry 59 52 - 1))

/-- An index of the page attribute whose entry is zero or names a word that is not SYNC makes every access raise ACCESS (R267). Of a word of
another home that home has said so; while this package serves an access for a third one, such a word is taken for SYNC (log 54). -/
def soixBad (s : State) (vd : Nat) (p : Place) : Bool :=
  (pageEntry s vd p.mt p.entry).any fun o => o = 0 || match translate s vd o .load true with
    | .ok q => q.mt != .sync
    | .error (.remote _) => (answerOf s (objectTag o)).any fun r => r.status ≠ 0
    | .error _ => true

/-! The extents of tile versions (R137). -/

/-- A handle whose extent covers a range, in one of the states that the access needs. -/
def extentOk (m : MemSide) (write : Bool) (va len : Nat) : Bool :=
  m.handles.toList.any fun h =>
    (if write then h.state == .allocated else h.state != .empty) && h.va ≤ va && va + len ≤ h.va + h.size

/-- The check of an access (R234), with what it found. -/
inductive Check where
  | ok (ps : List (Place × Nat))
  | flt (c : Cause) (va : Nat)
  | held (f : S2Flt) (va : Nat)       -- a stage-2 fault: the access is held (R285)
  | remote (home : Nat)               -- the home performs it (R289)
  | lostTile (va : Nat)               -- an uncorrectable error in TILE memory (R139)
  | memErr (va : Nat)                 -- one in any other memory (R139)
deriving DecidableEq, Repr

def xCheck : XFlt → Check
  | .flt c a => .flt c a
  | .s2 f a => .held f a
  | .remote h => .remote h

/-- Order 4 of R435 for every page of an access. -/
def findPages (s : State) (vd : Nat) : List (Nat × Nat) → Except Check (List (Found × Nat))
  | [] => .ok []
  | p :: ps => match findPage s vd p.1 with
    | .error e => .error (xCheck e)
    | .ok f => match findPages s vd ps with
      | .error e => .error e
      | .ok fs => .ok ((f, p.2) :: fs)

/-- Types of pages that must all be one, each page's target and stage 2 with it (R160, R161, R168). -/
def typesAre (s : State) (sup : Bool) (want : MemType) : List (Found × Nat) → Except Check (List (Place × Nat))
  | [] => .ok []
  | f :: fs =>
    if f.1.mt != want then .error (.flt .access f.1.va)
    else match placePage s .load sup f.1 with
      | .error e => .error (xCheck e)
      | .ok p => (typesAre s sup want fs).map fun ps => (p, f.2) :: ps

/-- Pages that must all have one type, whose bytes are not read: their places, or why not, in the order of R435: every translation, then
types, then rights. -/
def typedAt (s : State) (vd : Nat) (sup : Bool) (want : MemType) (rs : List (Nat × Nat)) : Except Check (List (Place × Nat)) :=
  match findPages s vd rs with
  | .error e => .error e
  | .ok fs => match typesAre s sup want fs with
    | .error e => .error e
    | .ok ps => match fs.find? fun f => rightsBad s .load sup f.1 with
      | some f => .error (.flt .access f.1.va)
      | none => .ok ps

/-- Who makes an access: a VD, a level, and the extents of tile versions that it may reach. -/
structure Accessor where
  vd  : Nat
  sup : Bool
  ext : Nat → Nat → Bool

/-- The type of one page: what it accepts, and the extents of tile versions (R137). -/
def checkType (s : State) (w : Accessor) (k : AKind) (f : Found) (len : Nat) : Except Check Place :=
  match placePage s k w.sup f with
  | .error e => .error (xCheck e)
  | .ok p =>
    if p.mt == .tile && !(w.ext f.va len || w.ext f.lva len) then .error (.flt .tileAccess f.va)
    else if soixBad s w.vd p then .error (.flt .access f.va)
    else .ok p

def checkTypes (s : State) (w : Accessor) (k : AKind) : List (Found × Nat) → Except Check (List (Place × Nat))
  | [] => .ok []
  | f :: fs => match checkType s w k f.1 f.2 with
    | .error e => .error e
    | .ok p => match checkTypes s w k fs with
      | .error e => .error e
      | .ok ps => .ok ((p, f.2) :: ps)

/-- Orders 4 and 5 of R435: translation of every page, then types, then rights. -/
def checkPieces (s : State) (w : Accessor) (k : AKind) (rs : List (Nat × Nat)) : Except Check (List (Place × Nat)) :=
  match findPages s w.vd rs with
  | .error e => .error e
  | .ok fs => match checkTypes s w k fs with
    | .error e => .error e
    | .ok ps => match fs.find? fun f => rightsBad s k w.sup f.1 with
      | some f => .error (.flt .access f.1.va)
      | none => .ok ps

/-- The context that moves, by its handles. -/
def accessor (s : State) (k : AKind) : Accessor := ⟨s.ctx.vd, s.ctx.sup, extentOk s.ctx.m k.stores⟩

/-- Whether a read of a place meets an uncorrectable error (R434). -/
def placeBad (s : State) (p : Place × Nat) : Bool :=
  badUnit s p.1.pa || badUnit s (p.1.pa + p.2 - 1) ||
    (List.range ((p.2 + 63) / 64)).any fun i => badUnit s (min (p.1.pa + 64 * i) (p.1.pa + p.2 - 1))

/-- What keeps an access from a place: memory that is no longer there, and for one that reads an uncorrectable error (R139, R398, R434). -/
def accessBad (s : State) (k : AKind) (p : Place × Nat) : Bool :=
  gonePa s p.1.pa || (!(k == .store || k == .devStore || k == .damo) && placeBad s p)

/-- A word of another home to which a page of an access binds it, of which that home has not yet said what it is: the home and the word. An
access that is refused, or held, whatever that word is asks for none. -/
def objectToAsk (s : State) (c : Check) (ranges : List (Nat × Nat)) : Option (Nat × Nat) :=
  match c, findPages s s.ctx.vd ranges with
  | .flt .., _ | .held .., _ | .remote _, _ | _, .error _ => none
  | _, .ok fs => fs.findSome? fun f => (pageEntry s s.ctx.vd f.1.mt f.1.entry).bind fun o =>
      if o = 0 || (answerOf s (objectTag o)).isSome then none
      else ((homeOf s s.ctx.vd o).filter fun _ => !homeBad s s.ctx.vd o).map fun h => (h, o)

/-- Its home is asked, once for each task. -/
def askObject (s : State) (home o : Nat) : State :=
  askOnce s home (objectTag o) fun s =>
    askLoad s home s.ctx.vd (asker s) (objectTag o) [(o, 8)] (askRights true false + rightProbe + rightOnly .sync)

/-- No page is left for a further entry of a commit log of the VD (R273). -/
def logStuck (s : State) : Bool := (s.vd? s.ctx.vd).any Vd.noLog

/-- The check of an access to the ranges of an address, in the order of R435: form, alignment, translation, type, rights. An access that
reads meets the errors of the units it touches. A handler's store to a protected section of its task's save area is refused, and its fault
is the HANDLER_FAULT of R247. -/
def checkAccess (s : State) (k : AKind) (addr : Word) (align : Nat) (ranges : List (Nat × Nat)) : Check :=
  let va := addr.toNat
  if va ≥ 2 ^ 56 || ranges.any (fun r => r.1 + r.2 > 2 ^ 56) || homeBad s s.ctx.vd va then .flt .address va
  else if va % align ≠ 0 then .flt .misaligned va
  else match checkPieces s (accessor s k) k ranges with
    | .error e => e
    | .ok ps =>
      if k.writes && ranges.any fun r => protectedHit s r.1 r.2 then .flt .access va
      else match ps.find? (accessBad s k) with
        | none => .ok ps
        | some p => if p.1.mt == .tile then .lostTile p.1.va else .memErr p.1.va

/-- The bytes read at the places of an access. -/
def readPlaces (s : State) (ps : List (Place × Nat)) : List Byte := ps.flatMap fun p => viewN s p.1.pa p.2

/-- A read of SHRD or SYNC memory taints the task (R138, R277). -/
def taintBy (s : State) (ps : List (Place × Nat)) : State :=
  if ps.any fun p => p.1.mt == .shrd || p.1.mt == .sync then s.modM fun m => { m with taint := true } else s

/-- Bytes of the task stand in memory from a place of its order on: a chunk of an older copy no longer changes them (R263, edge 1). -/
def stampCells (m : MemSide) (order : Nat) (cells : List Host.Cell) : MemSide :=
  if writesLater m then { m with past := m.past ++ [⟨order, 0, cells⟩] } else m

/-- The bytes of a chunk that no newer store of the task has written. -/
def notStamped (m : MemSide) (order : Nat) (cells : List Host.Cell) : List Host.Cell :=
  cells.filter fun c => !m.past.any fun h => h.order > order && h.cells.any fun d => d.1 == c.1

/-- A store of unbound SHRD bytes stands in the task's log as one entry (R270). `order` is the A-slice order of the instruction, `chunk` the
chunk of a copy, `pa` the place of its first byte. -/
def logStore (s : State) (order chunk pa : Nat) (cells : List Host.Cell) : State :=
  if cells.isEmpty then s else s.modM fun m => { m with log := insLog order chunk (.store order chunk pa cells) m.log }

/-- A place whose stores are logged: unbound SHRD memory. -/
def logged (s : State) (p : Place) : Bool := p.mt == .shrd && (boundTo s p p.va).isNone

/-- Stores bytes that a task writes in one place: at once, to the commit log, or held for a sync object (R137, R267, R270); a SYNC store of a
rebuild task has no effect (R352). -/
def storeCells (s : State) (order chunk : Nat) (p : Place) (cells : List Host.Cell) : State :=
  if cells.isEmpty then s else
  match p.mt with
  | .shrd =>
    match boundTo s p p.va with
    | some o => s.modM fun m => { m with held := m.held ++ [⟨order, o, cells⟩] }
    | none => logStore s order chunk p.pa cells
  | .sync => if s.ctx.rebuild then s else (perform s cells).modM fun m => stampCells m order cells
  | _ => (perform s cells).modM fun m => stampCells m order cells

/-- The bytes of an access that the mask selects, by 64-byte unit: a bound region may end inside a place, and a binding is made of whole
units (R160). -/
def unitsOf : List (Place × Nat) → List (Byte × Bool) → List (Place × List Host.Cell)
  | [], _ => []
  | (p, n) :: ps, bs =>
    let here := (bs.take n).mapIdx fun i b => (p.pa + i, b)
    let groups := unitGroups ((here.filter fun x => x.2.2).map fun x => (x.1, x.2.1))
    (groups.map fun g =>
      let pa0 := (nth (0, 0) g 0).1
      ({ p with va := p.va + (pa0 - p.pa), pa := pa0 }, g)) ++ unitsOf ps (bs.drop n)

/-- Stores bytes at the places of an access, those that the mask selects, as `put` stores the cells of one 64-byte unit. -/
def putPlaces (put : State → Place → List Host.Cell → State) (s : State) (ps : List (Place × Nat)) (bs : List (Byte × Bool)) : State :=
  (unitsOf ps bs).foldl (fun s u => put s u.1 u.2) s

/-- A store that would have to be logged and cannot (R273): it has a byte of unbound SHRD memory, and the VD has no page for its log. -/
def logFlt (s : State) (ps : List (Place × Nat)) (bs : List (Byte × Bool)) : Bool :=
  logStuck s && (unitsOf ps bs).any fun u => logged s u.1

/-- Where the first byte of an access lies, the first of whose bytes to be written stands `skip` bytes behind it at the first place. -/
def firstPa (ps : List (Place × Nat)) (skip : Nat) : Nat :=
  (ps.head?).elim 0 fun p => if skip ≤ p.1.pa % 4096 then p.1.pa - skip else p.1.pa

/-- Stores the units of an access as `put` does, those that are logged in one entry. -/
def storeUnits (put : State → Place → List Host.Cell → State) (s : State) (order chunk pa : Nat) (us : List (Place × List Host.Cell)) : State :=
  logStore ((us.filter fun u => !logged s u.1).foldl (fun s u => put s u.1 u.2) s) order chunk pa
    ((us.filter fun u => logged s u.1).flatMap (·.2))

/-- Stores the bytes of an access of the task, those that the mask selects. -/
def storePlaces (s : State) (order chunk : Nat) (ps : List (Place × Nat)) (bs : List (Byte × Bool)) (skip : Nat := 0) : State :=
  storeUnits (fun s => storeCells s order chunk) s order chunk (firstPa ps skip) (unitsOf ps bs)

end Sys2Proof.Machine
end

