-- ==== Sys2Proof/Machine/Tiles.lean ====
section
/-!
DEFINITION. Tile versions and their lineage records: digests (R77), where versions are placed (R158, R302, R438), the
records of R342 with NEED and trimming (R347), seals (R345, R353), losses (R350) and management records (R400).
-/

namespace Sys2Proof.Machine

/-- The 64 bytes of a management record (R400). -/
def mgmtBytes (r : MgmtRec) : List Byte :=
  let t := Config.mgmtTime r.inc r.seq.toNat
  let w := [b2n t.1 * 2 ^ 63 + t.2.1.toNat, r.seq.toNat * 2 ^ 32 + t.2.2.val, r.code % 2 ^ 16 * 2 ^ 48 + r.ucls % 256 * 2 ^ 32 + r.unit % 2 ^ 32]
  (w ++ r.args.take 5 ++ List.replicate (5 - r.args.length) 0).flatMap (leBytes 8)

/-- A management record written to the log, 1,048,576 records deep, and sent; while the controller restarts it is held (R395, R400). -/
def logMgmt (s : State) (code ucls unit : Nat) (args : List Nat) : State :=
  s.modPkg fun p =>
    let r : MgmtRec := ⟨code, ucls, unit, args, p.mgmtSeq, p.inc⟩
    { p with
      mgmt := (r :: p.mgmt).take 1048576, mgmtSeq := p.mgmtSeq + 1
      mgmtOut := if p.fwHeld then p.mgmtOut else mgmtBytes r :: p.mgmtOut
      mgmtHeld := if p.fwHeld then p.mgmtHeld + 1 else 0 }

/-- The Regather unit that holds a version's primary record (R343). -/
def tileUnit (n : Word) : Nat := (bits n.toNat 17 16) ^^^ (bits n.toNat 1 0) ^^^ (bits n.toNat 45 44)

/-- Sizes a version may have (R158). -/
def tileSizeOk (b : Nat) : Bool := 512 ≤ b && b ≤ 4194304 && b % 512 == 0

/-! The digest (R77). -/

/-- One byte into the CRC-64 register, most significant bit first. -/
def crcByte (crc : BitVec 64) (b : Byte) : BitVec 64 :=
  (List.range 8).foldl (fun c _ => if c.msb then (c <<< 1) ^^^ 0x42F0E1EBA9EA3693 else c <<< 1) (crc ^^^ (b.zeroExtend 64 <<< 56))

def digest (bs : List Byte) : Word := bs.foldl crcByte 0

/-- The digest over the extent of a version, read through the VD's translation. -/
def tileDigest (s : State) (vd va size : Nat) : Word := digest (hwRead s vd va size)

/-! Placement (R158, R302, R438). -/

/-- Whether the part may place a version at an address: pages of type TILE, writable in both stages, in HBM within the fences
(R158), and no other version there. -/
def placeOk (s : State) (vd va size : Nat) : Bool :=
  va % 512 == 0 && va + size ≤ 2 ^ 55 &&
  (pieces va size).all (fun p => match translate s vd p.1 .store true with
    | .ok q => q.mt == .tile && !gonePa s q.pa && (match target q.pa with
      | .hbm _ _ => true
      | _ => false)
    | .error _ => false) &&
  s.tiles.all fun t => t.vd != vd || va + size ≤ t.va || t.va + t.size ≤ va

/-- A durable tile's header as the hardware reads it: NAME, DIGEST, SIZE, STATE (R304). -/
structure DHead where
  name   : Word
  digest : Word
  size   : Nat
  state  : Nat
deriving DecidableEq, Repr

def readHead (s : State) (vd va : Nat) : DHead :=
  ⟨BitVec.ofNat 64 (hwWord s vd (va + 0x80) 8), BitVec.ofNat 64 (hwWord s vd (va + 0x88) 8), hwWord s vd (va + 0x90) 4,
    hwWord s vd (va + 0x98) 1 % 4⟩

/-- The part's own writes that must be accepted one after another carry this mark, with a rising epoch (R305, R438). -/
def partUid : Nat := 2 ^ 64

/-- A write of the part, accepted after every such write before it. -/
def ordWrite (s : State) (vd va : Nat) (bs : List Byte) : State :=
  let s := performAt s partUid s.stamp (hwCells s vd va bs)
  { s with stamp := s.stamp + 1 }

/-- The seal entry of a header, written whole (R304). SIZE keeps the low 32 bits of a free block's size (log 55). -/
def writeSeal (s : State) (vd va : Nat) (h : DHead) : State :=
  ordWrite s vd (va + 0x80) (leBytes 8 h.name.toNat ++ leBytes 8 h.digest.toNat ++ leBytes 4 h.size ++ List.replicate 4 0 ++
    leBytes 8 h.state ++ List.replicate 32 0)

/-- DUR writes of the part that have not been accepted, in a range of a VD's memory. -/
def rangePending (s : State) (vd va len : Nat) : Bool :=
  (pieces va len).any fun p => match hwTranslate s vd p.1 with
    | none => false
    | some pa => s.durPend.any fun d => d.cells.any fun c => pa ≤ c.1 && c.1 < pa + p.2

/-- A header whose seal entry cannot be read (R310). -/
def headBad (s : State) (vd va : Nat) : Bool := (hwTranslate s vd (va + 0x80)).any (badUnit s)

/-- The chain of blocks of a durable pool from an offset: address and header of each (R438). It ends at a header that R309 would stop at,
for its bytes or because its unit is in error: no block beyond it is found (log 55). -/
def blocksFrom (s : State) (vd stop : Nat) : Nat → Nat → List (Nat × DHead)
  | 0, _ => []
  | fuel + 1, va =>
    if va + 512 > stop || headBad s vd va then [] else
    let h := readHead s vd va
    if h.state = 3 || h.size = 0 || h.size % 512 ≠ 0 then []
    else (va, h) :: blocksFrom s vd stop fuel (va + 512 + h.size)

/-- Whether a version still has its memory in a block: a block that a TFREE has marked free is no free space before that ends (R348). -/
def blockHeld (s : State) (vd va : Nat) : Bool := s.tiles.any fun t => t.vd == vd && t.va == va + 512 && tileDur t.name

/-- The blocks of a VD's pool; one that a version still holds counts as its allocation. -/
def blocks (s : State) (v : Vd) : List (Nat × DHead) :=
  (blocksFrom s v.num (v.dtpool + v.dtlen) (v.dtlen / 1024 + 1) (v.dtpool + 4096)).map fun b =>
    if blockHeld s v.num b.1 then (b.1, { b.2 with state := 2 }) else b

def blockFits (size : Nat) (b : Nat × DHead) : Bool := b.2.state == 0 && (b.2.size == size || b.2.size ≥ size + 1024)

/-- The chain with every run of adjacent free blocks as one, and whether the block has grown. -/
def mergedBlocks : List (Nat × DHead) → List ((Nat × DHead) × Bool)
  | [] => []
  | (va, h) :: bs => match mergedBlocks bs with
    | ((wa, g), m) :: rest =>
      if h.state = 0 && g.state = 0 then ((va, { h with size := h.size + 512 + g.size }), true) :: rest
      else ((va, h), false) :: ((wa, g), m) :: rest
    | [] => [((va, h), false)]

/-- Merges every run of adjacent free blocks into its first, one rewrite for each run (R438). -/
def mergeFree (s : State) (vd : Nat) (bs : List (Nat × DHead)) : State × List (Nat × DHead) :=
  let l := mergedBlocks bs
  ((l.filter (·.2)).foldl (fun s b => writeSeal s vd b.1.1 b.1.2) s, l.map (·.1))

/-- The first free block that fits, after merging if none does at first (R438). -/
def findBlock (s : State) (v : Vd) (size : Nat) : State × Option (Nat × DHead) :=
  let bs := blocks s v
  match bs.find? (blockFits size) with
  | some b => (s, some b)
  | none =>
    let (s, bs) := mergeFree s v.num bs
    (s, bs.find? (blockFits size))

/-- Allocates a durable extent: splits the block, then writes the allocation's seal entry (R305, R438). -/
def allocDurable (s : State) (v : Vd) (name : Word) (size : Nat) : State × Option Nat :=
  match findBlock s v size with
  | (s, none) => (s, none)
  | (s, some (va, h)) =>
    let s := if h.size > size then writeSeal s v.num (va + 512 + size) ⟨0, 0, h.size - size - 512, 0⟩ else s
    (writeSeal s v.num va ⟨name, 0, size, 1⟩, some (va + 512))

/-- The stretches that stage 1 maps with type TILE: leaves of a table at a level, for the addresses from one on. -/
def tileLeaves (s : State) (p : Partition) : Nat → Nat → Nat → List (Nat × Nat)
  | level, table, va0 => (List.range 512).flatMap fun i =>
    let va := va0 + i * 2 ^ (12 + 9 * level)
    match stage2 s p (table + 8 * i) false false with
    | .error _ => []
    | .ok pa =>
      let e := memWord s.mem pa 8
      if e % 2 = 0 then [] else match readEntry true level va e with
      | none => []
      | some (.inr g) => if memType (bits g.entry 8 6) == some .tile then [(va, 2 ^ (12 + 9 * level))] else []
      | some (.inl t) => match level with
        | 0 => []
        | l + 1 => tileLeaves s p l t va

/-- Addresses from which a version can lie with nothing free below it: a page of type TILE begins there, or a version ends. -/
def tileStarts (s : State) (v : Vd) : List Nat :=
  (s.part? v.part).elim [] (fun p => (tileLeaves s p 4 v.s1root 0).flatMap fun l => (List.range (l.2 / 4096)).map fun i => l.1 + 4096 * i) ++
    (s.tiles.filter fun t => t.vd == v.num).map fun t => t.va + t.size

/-- A place for a version in the VD's pool on this package (R158): durable by the chain of blocks; else where the part puts it (log 6), which
is any place that passes, and none only where none does. -/
def placeTile (s : State) (v : Vd) (name : Word) (size : Nat) : State × Option Nat :=
  if s.pkg.phase != .full then (s, none)
  else if tileDur name then
    if v.dtpool = 0 || s.pkg.nores then (s, none) else allocDurable s v name size
  else (s.tick, (Config.tilePlace s.fresh :: tileStarts s v).find? fun va => placeOk s v.num va size)

/-- Zero bytes over an extent, in a task's persist epoch (R158, R305). -/
def zeroFill (s : State) (uid epoch vd va size : Nat) : State :=
  (pieces va size).foldl (fun s p => match hwTranslate s vd p.1 with
    | some pa => performRun s uid epoch pa (List.replicate p.2 0)
    | none => s) s

/-! Records (R342, R347). -/

def LinRec.isOpen (r : LinRec) : Bool := !r.freed || r.need != 0
def LinRec.complete (r : LinRec) : Bool := r.anchor && !r.apend

/-- The record of a version, as long as it is open. -/
def openRec (s : State) (name : Word) : Option LinRec :=
  match s.rec? name with
  | some r => if r.isOpen then some r else none
  | none => none

/-- The 128 bytes of a lineage record (R342). -/
def lrecBytes (r : LinRec) : List Byte :=
  leBytes 8 r.name.toNat ++ leBytes 8 r.kcopy ++ leBytes 8 r.digest.toNat ++
    leBytes 8 (b2n r.root * 2 ^ 63 + b2n r.taint * 2 ^ 62 + b2n r.anchor * 2 ^ 61 + b2n r.apend * 2 ^ 60 + b2n r.durs * 2 ^ 59 +
      b2n r.lost * 2 ^ 58 + b2n r.rbld * 2 ^ 57 + b2n r.freed * 2 ^ 56 + r.acq.length * 2 ^ 52 + r.depth * 2 ^ 47 + r.ord * 2 ^ 45 + r.size) ++
    leBytes 8 r.replica.toNat ++ leBytes 8 (r.need % 2 ^ 32) ++ leBytes 8 r.tqidx ++ leBytes 8 r.tpseq ++
    ((r.acq ++ List.replicate (8 - r.acq.length) (0 : Word)).take 8).flatMap fun n => leBytes 8 n.toNat

/-- The buddy package that holds the secondary copies of a VD's records, if the VD spans packages and the buddy is there (R343). -/
def secondaryAt (s : State) (vd : Nat) : Option Nat :=
  (s.vd? vd).bind fun v =>
    if v.mirror || v.buddy = s.pkg.num || !v.peers.any (· != s.pkg.num) || peerLost s v.buddy then none else some v.buddy

/-! The lineage areas (R343, R344): in HBM of a Regather unit's base die, in pseudo-channels of the partition; where in such a channel a VD's
area begins is free (log 6), and it is cut into 256-byte places. -/

/-- The pseudo-channels of a partition on a base die, by their first address. -/
def dieChans (s : State) (p : Partition) (bd : Nat) : List Nat :=
  ((List.range 192).filter fun i =>
    let c := 64 * (3 * bd) + i
    p.fence.pch.getLsbD c && !gonePa s (c * 2 ^ 30)).map fun i => (64 * (3 * bd) + i) * 2 ^ 30

/-- The channels that serve a unit: those of its base die, or, where the partition has none there or the die is lost, of the next (R350). -/
def unitChans (s : State) (p : Partition) (g : Nat) : List Nat :=
  (([0, 1, 2, 3].map fun k => dieChans s p ((g + k) % 4)).find? fun l => !l.isEmpty).getD []

def lineUsed (s : State) : List Nat :=
  (s.recs.flatMap fun r => [r.place, r.place2]) ++ s.kept.map (·.place) ++ s.keeps.flatMap fun k => [k.pa, k.pa2]

/-- A free place of a VD's lineage area at a unit; zero where the partition has no memory. -/
def linePlace (s : State) (vd g : Nat) : Nat :=
  match (s.vd? vd).bind fun v => s.part? v.part with
  | none => 0
  | some p => match unitChans s p g with
    | [] => 0
    | l =>
      let used := lineUsed s
      let base := nth 0 l (Config.choice (4 * vd + g) % l.length)
      let spot := fun k => base + (Config.lineageArea (4 * vd + g) + k) % 2 ^ 22 * 256
      (((List.range (used.length + 1)).map spot).find? fun a => !used.contains a).getD 0

/-- Bytes written at a place of a lineage area, if there is one. -/
def lineWrite (s : State) (pa : Nat) (bs : List Byte) : State := if pa = 0 then s else performAt s 0 0 (cellsAt pa bs)

/-- A kept copy at a unit, both copies of it (R344): its primary's address. -/
def addKept (s : State) (vd g : Nat) (bs : List Byte) : State × Nat :=
  let a := linePlace s vd g
  let s := { lineWrite s a bs with keeps := ⟨vd, 0, a, 0, false⟩ :: s.keeps }
  match secondaryAt s vd with
  | some b => (sendPeer s b vd .replica 0 [9, a, g] bs, a)
  | none =>
    let a2 := linePlace s vd ((g + 1) % 4)
    ({ lineWrite s a2 bs with keeps := mapIf (fun k => k.pa == a) (fun k => { k with pa2 := a2 }) s.keeps }, a)

/-- The unit on whose base die a place of a lineage area lies. -/
def unitAt (pa : Nat) : Nat := pa / 2 ^ 30 / 192 % 4

/-- A kept copy of another package, which stands here once (R343, R344): its address. -/
def addFarKept (s : State) (vd g src : Nat) (second : Bool) (bs : List Byte) : State × Nat :=
  match s.keeps.find? fun k => k.src == src && k.vd == vd with
  | some k => ({ s with keeps := mapIf (fun k => k.src == src && k.vd == vd) (fun k => { k with second := k.second || second }) s.keeps }, k.pa)
  | none =>
    let a := linePlace s vd g
    ({ lineWrite s a bs with keeps := ⟨vd, src, a, 0, second⟩ :: s.keeps }, a)

/-- Whether a kept copy cannot be read at a place. -/
def keptBad (s : State) (pa : Nat) : Bool := (List.range 4).any fun i => badUnit s (pa + 64 * i)

/-- The bytes of a kept copy, from its secondary copy where the primary's memory is gone (R343). -/
def keptRead (s : State) (pa : Nat) : List Byte :=
  match s.keeps.find? fun k => k.pa == pa with
  | some k => memGetN s.mem (if k.pa2 ≠ 0 && keptBad s pa then k.pa2 else pa) 256
  | none => memGetN s.mem pa 256

/-- Whether a kept copy is still of use: a record names it, or a task that has not ended (R344). -/
def keptNeeded (s : State) (k : Kept) : Bool :=
  k.second || (s.recs.any fun r => r.kcopy == k.pa) || (s.kept.any fun r => r.kcopy == k.pa) ||
    s.tasks.any fun t => t.kcopy == k.pa && t.state != .retired && t.state != .failed && t.state != .aborted

/-- Kept copies that nothing names any more are freed (R347), at the buddy package too. -/
def freeKept (s : State) : State :=
  let gone := s.keeps.filter fun k => !keptNeeded s k
  let s := { s with keeps := s.keeps.filter (keptNeeded s) }
  (gone.filter fun k => k.src == 0).foldl (fun s k => match secondaryAt s k.vd with
    | some b => sendPeer s b k.vd .replica 0 [12, k.pa] []
    | none => s) s

/-! Both copies of a record (R343). -/

/-- Both copies of a record are written as it now stands, the primary first; the buddy package acknowledges its own. -/
def shareRec (s : State) (name : Word) : State :=
  match s.rec? name with
  | none => s
  | some r =>
    let s := lineWrite s r.place (lrecBytes r)
    match secondaryAt s (tileVd name) with
    | some b => (sendPeer s b (tileVd name) .replica 0 [2, name.toNat] (lrecBytes r ++ keptRead s r.kcopy)).modRec name
        fun r => { r with unacked := r.unacked + 1 }
    | none => lineWrite s r.place2 (lrecBytes r)

/-- Changes a record, both copies of it. -/
def modShared (s : State) (name : Word) (f : LinRec → LinRec) : State := shareRec (s.modRec name f) name

/-- The places of a record's copies, where it has none yet. -/
def placeRec (s : State) (name : Word) : State :=
  let vd := tileVd name
  let g := tileUnit name
  let s := s.modRec name fun r => { r with place := if r.place = 0 then linePlace s vd g else r.place }
  if (secondaryAt s vd).isSome then s
  else s.modRec name fun r => { r with place2 := if r.place2 = 0 then linePlace s vd ((g + 1) % 4) else r.place2 }

/-- A new record, both copies of it. -/
def addRec (s : State) (r : LinRec) : State :=
  shareRec (placeRec { s with recs := r :: s.recs.filter fun x => x.name != r.name } r.name) r.name

/-- Both copies of a record are discarded, with the space of its replica. -/
def discardRec (s : State) (name : Word) : State :=
  let s := { s with recs := s.recs.filter fun x => x.name != name }
  let s := s.modVd (tileVd name) fun v => { v with replicas := v.replicas.filter fun x => x.2.2 != name }
  match secondaryAt s (tileVd name) with
  | some b => sendPeer s b (tileVd name) .replica 0 [7, name.toNat] []
  | none => s

/-- Changes NEED of each open record named, at its home (R347). -/
def needUp (s : State) (names : List Word) : State :=
  names.foldl (fun s n => match awayHome s n with
    | some h => askTile s h (tileVd n) 0 0 .needUp n []
    | none => modShared s n fun r => { r with need := r.need + 1 }) s
def needDown (s : State) (names : List Word) : State :=
  names.foldl (fun s n => match awayHome s n with
    | some h => askTile s h (tileVd n) 0 0 .needDown n []
    | none => modShared s n fun r => { r with need := r.need - 1 }) s

/-- A version whose memory nothing holds any more: FREED or without a record, in no handle, and no operand of an admitted task that
was admitted before its release (R348). -/
def releasable (s : State) (t : Tile) : Bool :=
  t.sealed && t.claims == 0 && !t.shadow && (t.stale || ((t.resident || (s.rec? t.name).isSome) && match s.rec? t.name with
    | some r => r.freed && !r.rbld
    | none => true)) &&
  !(s.rests.any fun r => r.name == t.name && r.ok) &&
  s.tasks.all fun k => k.vd != t.vd || k.state == .retired || k.state == .failed || k.state == .aborted || !k.freed.contains t.name

/-- The seal entry of a durable version that is freed (R305); it is written once. -/
def freeSeal (s : State) (t : Tile) : State :=
  let h := readHead s t.vd (t.va - 512)
  if tileDur t.name && h.state ≠ 0 then writeSeal s t.vd (t.va - 512) { h with state := 0 } else s

/-- Takes a version's memory back; a durable one's seal entry says so first (R305). -/
def releaseTile (s : State) (t : Tile) : State :=
  let s := freeSeal s t
  let s := if t.sealed && !t.shadow && !t.stale then s.modVd t.vd fun v =>
      { v with names := if v.names.contains t.name then v.names else t.name :: v.names } else s
  { s with tiles := s.tiles.filter fun u => !(u.vd == t.vd && u.name == t.name && u.va == t.va) }

def releaseAll (s : State) : State := (s.tiles.filter (releasable s)).foldl releaseTile s

/-- Trims the records that are no longer open, downward through what they listed (R347); one that is being rebuilt, when the rebuild ends
(R354). -/
def trimFuel : Nat → State → State
  | 0, s => s
  | fuel + 1, s =>
    match s.recs.find? fun r => !r.isOpen && !r.rbld with
    | none => s
    | some r =>
      let s := discardRec s r.name
      let s := if r.complete then s else needDown s r.acq
      trimFuel fuel s

def trim (s : State) : State := freeKept (releaseAll (trimFuel (s.recs.length + 1) s))

/-- Sealed, resident and not lost; in a mirrored VD also agreed by both packages (R329, R359). -/
def tileReady (s : State) (vd : Nat) (name : Word) : Bool :=
  match s.tile? vd name with
  | none => false
  | some t => t.sealed && t.resident && t.matched && match s.rec? name with
    | some r => !r.lost
    | none => true

/-- What a task of another package is told of a version that it rests on (R329): 0 ready, 1 not, 2 never again. -/
def restStatus (s : State) (vd : Nat) (r : Rest) : Nat :=
  match s.rec? r.name with
  | some x => if x.gone then 2 else if (tileReady s vd r.name && (!x.freed || r.ok)) || (r.ok && (s.stale? vd r.name).isSome) then 0 else 1
  | none => match s.tile? vd r.name with
    | some t => if !t.sealed then 1 else if t.resident && r.ok then 0 else 2
    | none => if (s.vd? vd).any fun v => v.names.contains r.name then 2 else 1

def tellRest (s : State) (vd : Nat) (r : Rest) : State :=
  sendPeer s r.pkg vd .answer 0 [r.uid, tagOperand, restStatus s vd r, causeCode .tileLost] (leBytes 8 r.name.toNat)

/-- Every task of another package that counts a version as an operand is told how it stands. -/
def tellRests (s : State) (vd : Nat) (name : Word) : State :=
  (s.rests.filter fun r => r.name == name && r.operand).foldl (fun s r => tellRest s vd r) s

/-- The memory that a task admitted before the TFREE of a version may still use, once the version has been allocated again (R348). -/
def keptAccess (s : State) (k : Task) (name : Word) : Option Tile := if k.freed.contains name then s.stale? k.vd name else none

/-- The same for one task: a version FREED before its admission counts as lost for it (R348). -/
def operandReady (s : State) (k : Task) (name : Word) : Bool :=
  (keptAccess s k name).isSome || tileReady s k.vd name && match s.rec? name with
    | some r => !r.freed || k.freed.contains name || r.rbld
    | none => k.freed.contains name

/-- A version's bytes are destroyed: LOST in its record, and it is not acquired until rebuilt. Without an open record this has no effect (R350). -/
def loseTile (s : State) (vd : Nat) (name : Word) : State :=
  match openRec s name with
  | some _ => tellRests ((modShared s name fun r => { r with lost := true }).modTile vd name fun t => { t with resident := false }) vd name
  | none => s

/-- A sealed extent that cannot be read: its version is lost (R139, R350); of FREED memory beside a version allocated again, that memory alone.
None where there is no open record, so that nothing brings the bytes back. -/
def extentLost (s : State) (t : Tile) : Option State :=
  if (openRec s t.name).isNone then none
  else if t.stale then some (s.modExtent t.vd t.va fun t => { t with resident := false })
  else some (loseTile s t.vd t.name)

/-- Operands of a task's descriptor (R14). -/
def descWord (d : Vector Word 16) (k : Nat) : Nat := (d.toList.getD k 0).toNat
def descNin (d : Vector Word 16) : Nat := bits (descWord d 0) 63 60
def descPrio (d : Vector Word 16) : Nat := bits (descWord d 0) 59 56
def descCode (d : Vector Word 16) : Nat := bits (descWord d 0) 55 0
def descNout (d : Vector Word 16) : Nat := bits (descWord d 1) 63 61
def descNparam (d : Vector Word 16) : Nat := bits (descWord d 1) 60 56
def descParam (d : Vector Word 16) : Nat := bits (descWord d 1) 55 0
def descOvpg (d : Vector Word 16) : Nat := bits (descWord d 2) 63 56
def descOvfl (d : Vector Word 16) : Nat := bits (descWord d 2) 55 0
def descDval (d : Vector Word 16) : Bool := bits (descWord d 3) 50 50 = 1
def descDlvl (d : Vector Word 16) : Nat := bits (descWord d 3) 49 48
def descDid (d : Vector Word 16) : Nat := bits (descWord d 3) 47 32
def descDsize (d : Vector Word 16) : Nat := bits (descWord d 3) 31 16
def descDidx (d : Vector Word 16) : Nat := bits (descWord d 3) 15 0
def operands (d : Vector Word 16) : List Word := (d.toList.drop 4).take (min (descNin d) 8)
def outputs (d : Vector Word 16) : List Word := (d.toList.drop 12).take (min (descNout d) 4)

/-- The depths that a seal takes from its acquired list: none for a version without an open record (R345). -/
def acqDepths (s : State) (acq : List Word) : List (Option Nat) := acq.map fun a => (openRec s a).map LinRec.depth

def depthOf (ds : List (Option Nat)) : Nat := 1 + ds.foldl (fun d a => max d (a.getD 0)) 0

/-- Whether a version is an anchor (R345). -/
def anchorOf (root taint member durs : Bool) (rdepth : Nat) (ds : List (Option Nat)) : Bool :=
  root || taint || member || durs || depthOf ds > rdepth || ds.any Option.isNone

/-- What a seal puts into a lineage record (R342, R345). A weight tile takes its replica from the layer table (R346). -/
structure Sealing where
  root   : Bool := false
  weight : Bool := false
  taint  : Bool := false
  member : Bool := false
  durs   : Bool := false
  kcopy  : Nat := 0
  ord    : Nat := 0
  tqidx  : Nat := 0
  tpseq  : Nat := 0
  acq    : List Word := []
  depths : List (Option Nat) := []
  replica : Word := 0

def sealedRec (v : Vd) (name : Word) (size : Nat) (dg : Word) (w : Sealing) : LinRec :=
  let anchor := anchorOf w.root w.taint w.member w.durs v.rdepth w.depths
  { name := name, kcopy := w.kcopy, digest := dg, root := w.root, taint := w.taint || w.member, anchor := anchor
    apend := anchor && !w.weight, durs := w.durs, lost := false, rbld := false, freed := false
    depth := if anchor then 0 else depthOf w.depths, ord := w.ord, size := size, replica := w.replica, need := 0, tqidx := w.tqidx
    tpseq := w.tpseq, acq := w.acq, weight := w.weight }

/-- Writes the lineage record of a seal, with its NEED counts (R342, R345 to R347). -/
def writeRec (s : State) (v : Vd) (t : Tile) (dg : Word) (w : Sealing) : State :=
  let r := sealedRec v t.name t.size dg w
  let s := addRec s r
  if r.complete then s else needUp s w.acq

/-- A mirrored VD whose partner runs (R358, R385). -/
def Vd.pairs (v : Vd) : Bool := v.mirror && !v.msolo

/-- The partner of a mirrored VD is told the digest of a sealed version (R359). -/
def tellDigest (s : State) (v : Vd) (name : Word) (answer : Bool := false) : State := match s.rec? name with
  | some r => if v.pairs then sendPair s v.mpeer v.num (.tile name r.digest answer) else s
  | none => s

/-- Marks a version sealed and resident. In a mirrored VD it waits for its digests to be compared (R359). -/
def setSealed (s : State) (v : Vd) (name : Word) : State :=
  tellDigest (tellRests (s.modTile v.num name fun t => { t with sealed := true, resident := true, matched := !v.pairs }) v.num name) v name

/-- The writes of a record that its buddy package has yet to acknowledge hold back the seal (R343). -/
def copiesWait (s : State) (name : Word) : Bool := (s.rec? name).any fun r => r.unacked ≠ 0

/-- A name that no longer can become resident: a version permanently lost, one whose record has gone with its bytes, or one that has been
released and trimmed (R348, R353). -/
def tileGone (s : State) (vd : Nat) (name : Word) : Bool :=
  match s.rec? name with
  | some r => r.gone
  | none => match s.tile? vd name with
    | some t => t.sealed && !t.resident
    | none => (s.vd? vd).any fun v => v.names.contains name

/-- A version permanently lost (R351, R353). Its record stands until it is trimmed; one without a copy goes at once (R350). -/
def loseForever (s : State) (vd : Nat) (name : Word) : State :=
  let s := if tileGone s vd name then s else s.modVd vd fun v => { v with lostv := min (v.lostv + 1) 65535 }
  let s := match s.rec? name with
    | none => s
    | some r =>
      if r.prim || r.second then
        modShared s name fun r => { r with lost := true, rbld := false, gone := true, freed := r.freed || r.tfree, tfree := false }
      else discardRec (if r.complete then s else needDown s r.acq) name
  tellRests { s with
    tiles := mapIf (fun t => t.vd == vd && t.name == name && !t.shadow && !t.stale) (fun t => { t with resident := false, sealed := true }) s.tiles } vd name

/-- A version that this task cannot acquire any more: lost for good, or released before the task rested on it (R157, R348, R353). -/
def neverReady (s : State) (k : Task) (name : Word) : Bool :=
  tileGone s k.vd name || ((s.rec? name).isNone && !k.freed.contains name && (s.tile? k.vd name).any Tile.sealed)

end Sys2Proof.Machine
end

