-- ==== Sys2Proof/Machine/S2Ring.lean ====
section
/-!
DEFINITION. The ring of stage-2 records (R285, R328): the bytes of a record, its place, and its end.
-/

namespace Sys2Proof.Machine

def tf (b : Bool) (n : Nat) : Nat := if b then n else 0

/-- The 64 bytes of a stage-2 record (R285). -/
def s2Bytes (r : S2Rec) : List Byte :=
  leBytes 8 r.va.toNat ++ leBytes 8 (r.ipa % 2 ^ 48) ++
    leBytes 8 (r.reason * 2 ^ 16 + r.src * 2 ^ 13 + tf r.walk (2 ^ 12) + tf r.fetch (2 ^ 11) + tf r.write (2 ^ 10) + r.vd) ++
    leBytes 8 r.core ++ List.replicate 32 0

/-- Records that stand in the ring. -/
def ringCount (p : Partition) : Nat := (p.recs.filter S2Rec.inRing).length

/-- Whether a record has a place in the ring: fewer than 2^LN stand there, and none of them where this one goes (R328).
DESIGN CHOICE (log 72): the place of a record is RSEQ modulo 2^LN. -/
def ringFree (p : Partition) (r : S2Rec) : Bool :=
  ringCount p < 2 ^ p.s2ln && p.recs.all fun x => !x.inRing || x.rseq % 2 ^ p.s2ln != r.rseq % 2 ^ p.s2ln

/-- Writes the oldest records that wait into free places of the ring (R328). One of a packet's own access is freed as soon as it is written
(R285). DESIGN CHOICE (log 72): the ring is where SCHED_S2R says as it stands, at its reset value too, and LN is used without a test. -/
def fillRing (s : State) (part : Nat) : Nat → State
  | 0 => s
  | fuel + 1 => match s.part? part with
    | none => s
    | some p => match p.recs.find? fun r => !r.inRing with
      | none => s
      | some r =>
        if !ringFree p r then s else
        let s := performAt s 0 0 (cellsAt (p.s2base + 64 * (r.rseq % 2 ^ p.s2ln)) (s2Bytes { r with inRing := true }))
        let s := s.modPart part fun p => { p with
          recs := if r.src = 5 then p.recs.filter fun x => x.rseq != r.rseq
            else mapIf (fun x => x.rseq == r.rseq) (fun x => { x with inRing := true }) p.recs }
        fillRing s part fuel

/-- Frees a record: the next one that waits takes its place (R328). -/
def freeRec (s : State) (part rseq : Nat) : State :=
  let s := s.modPart part fun p => { p with recs := p.recs.filter fun r => r.rseq != rseq }
  fillRing s part ((s.part? part).elim 0 fun p => p.recs.length)

/-- Whether a record holds an access of a kind to one of some ranges: it tries again only after the RETRY (R285, R290). -/
def heldIn (s : State) (vd src : Nat) (rs : List (Nat × Nat)) : Bool :=
  s.parts.any fun p => p.recs.any fun r => r.vd == vd && r.src == src && rs.any fun x => x.1 ≤ r.va.toNat && r.va.toNat < x.1 + x.2

end Sys2Proof.Machine
end

