-- ==== Sys2Proof/Machine/Tasks.lean ====
section
/-!
DEFINITION. Tasks and what contains them: user queues with their control blocks and records (R313, R338, R339), admission and kept copies
(R344), gangs (R336), placement in deques (R330 to R332), and the failure and the abort of a task (R255 to R257, R437).
-/

namespace Sys2Proof.Machine

/-! User queues (R313, R321). -/

def queueCode : QState → Nat
  | .disabled => 0 | .idle => 1 | .pending => 2 | .mapping => 3 | .mapped => 4 | .unmapping => 5 | .fetchFault => 6 | .frozen => 7

def queueState : Nat → QState
  | 1 => .idle | 2 => .pending | 3 => .mapping | 4 => .mapped | 5 => .unmapping | 6 => .fetchFault | 7 => .frozen
  | _ => .disabled

/-- The 256 bytes of a queue control block (R313). -/
def qcbBytes (q : Queue) : List Byte :=
  let w1 := (if q.supq then 2 ^ 37 else 0) + q.lsize * 2 ^ 32 + q.prio * 2 ^ 28 + queueCode q.state * 2 ^ 24 + q.vd * 2 ^ 12 + q.qidx
  leBytes 8 q.base ++ leBytes 8 w1 ++ leBytes 8 q.head ++ leBytes 8 q.tail ++ leBytes 8 q.progress ++
    leBytes 8 (q.age * 2 ^ 32 + if q.kpend then 1 else 0) ++ leBytes 8 q.pseq ++ leBytes 8 q.dseq ++ leBytes 8 q.reca ++
    List.replicate 56 0 ++ q.shadow.toList.flatMap fun w => leBytes 4 w.toNat

/-- The bits of a control block that no field has, as they stand in memory: the Crucible leaves them to be checked (R313). -/
def qcbRest (old new : List Byte) : List Byte :=
  let word := fun (bs : List Byte) (o : Nat) => leNat ((bs.drop o).take 8)
  let keep := fun (o mask : Nat) => leBytes 8 (word new o ||| (word old o &&& mask))
  new.take 8 ++ keep 8 (2 ^ 64 - 2 ^ 38 + 7 * 2 ^ 21) ++ (new.drop 16).take 24 ++ keep 0x28 (2 ^ 32 - 2) ++ (new.drop 0x30).take 24 ++
    (old.drop 0x48).take 56 ++ new.drop 0x80

/-- Changes a queue and its control block in memory. -/
def setQueue (s : State) (vd q : Nat) (f : Queue → Queue) : State :=
  let s := s.modQueue vd q f
  match s.queue? vd q with
  | some x => hwWrite s vd x.qcb (qcbRest (hwRead s vd x.qcb 256) (qcbBytes x))
  | none => s

/-- The journal entry of a packet (R327). -/
def jentry? (x : Queue) (pseq : Nat) : Option JEntry := x.journal.find? fun e => e.pseq == pseq

/-- What a record at RECA says (R339). -/
structure QRec where
  qcause : Nat
  tcause : Nat := 0
  pseq   : Nat
  poff   : Nat
  faddr  : Nat := 0
  trec   : Nat := 0
  stage2 : Bool := false
  path   : List Nat := []
  save   : Option Nat := none
deriving DecidableEq, Repr

/-- The bytes of that record, its path cut to the root and the 31 tasks nearest the failed one (R339). -/
def qrecBytes (vd q : Nat) (r : QRec) : List Byte :=
  let n := r.path.length
  let path := if n ≤ 32 then r.path else r.path.take 1 ++ r.path.drop (n - 31)
  let w5 := (if r.stage2 then 256 else 0) + (if n > 32 then 128 else 0) + path.length
  leBytes 8 (r.qcause * 2 ^ 48 + r.tcause * 2 ^ 40 + vd * 2 ^ 12 + q) ++ leBytes 8 r.pseq ++ leBytes 8 r.poff ++
    leBytes 8 r.faddr ++ leBytes 8 r.trec ++ leBytes 8 w5 ++ List.replicate 16 0 ++ path.flatMap fun t => leBytes 8 t

/-- Whether a write to a queue's record area faults in neither stage (R339). -/
def recaOk (s : State) (x : Queue) : Bool := match translate s x.vd x.reca .store true with
  | .ok p => p.mt != .tile
  | .error _ => false

/-- Writes a queue's record: at RECA, or to the management log if that faults (R339); VD_ERR tells the owner (R380). -/
def writeQRec (s : State) (x : Queue) (r : QRec) : State :=
  let ok := recaOk s x
  let s := if ok then hwWrite s x.vd x.reca (qrecBytes x.vd x.qidx r)
    else logMgmt s 8 7 x.vd [r.qcause * 2 ^ 48 + r.tcause * 2 ^ 40 + x.vd * 2 ^ 12 + x.qidx, r.pseq, r.poff, r.faddr, r.trec]
  s.modVd x.vd fun v => { v with errs := v.errs ++ [⟨x.qidx, !ok, r.save⟩] }

/-- The record of a ring fetch that was held is freed when its queue leaves FETCH_FAULT (R326). -/
def endFetchFault (s : State) (x : Queue) : State :=
  match (s.vd? x.vd).bind fun v => s.part? v.part with
  | none => s
  | some p => match p.recs.find? fun r => r.holder == .ring x.vd x.qidx with
    | some r => freeRec s p.num r.rseq
    | none => s

/-- A queue in one of the states 1 to 6 freezes with its record (R321, R338). A queue in another state does not change. -/
def freezeQueue (s : State) (vd q : Nat) (r : QRec) : State :=
  match s.queue? vd q with
  | none => s
  | some x =>
    if x.state == .disabled || x.state == .frozen then s
    else setQueue (writeQRec (endFetchFault s x) x r) vd q fun x => { x with state := .frozen }

/-! Deques (R330 to R332). -/

/-- The cores of a partition that are there, in ascending number (R350, R362). -/
def partCores (s : State) (p : Partition) : List Core :=
  s.cores.filter fun c => p.fence.cores.getLsbD c.num && !s.pkg.diesOut.getLsbD (c.num / 24)

def isReady (s : State) (uid : Nat) : Bool := match s.task? uid with
  | some k => k.state == .ready
  | none => false

/-- READY entries of a deque. -/
def readyCount (s : State) (c : Core) : Nat := (c.deque.filter (isReady s)).length

/-- Bytes of a task's operand versions near a base die, each counted once (R329, R330). -/
def homeBytes (s : State) (k : Task) (bd : Nat) : Nat :=
  (operands k.desc).eraseDups.foldl (fun n name => match s.tile? k.vd name with
    | none => n
    | some t => match hwTranslate s k.vd t.va with
      | none => n
      | some pa => match target pa with
        | .hbm st _ => if st / 3 = bd then n + t.size else n
        | .dur site _ => if site = bd then n + t.size else n
        | _ => n) 0

/-- The base die with the largest sum, the lowest on a tie; none when no operand is local (R330). -/
def homeDie (s : State) (k : Task) : Option Nat :=
  let best := (List.range 4).foldl (fun (b : Nat × Nat) d => let n := homeBytes s k d; if n > b.2 then (d, n) else b) (0, 0)
  if best.2 = 0 then none else some best.1

/-- Cores in the order in which R330 takes them: fewest READY entries, then the lowest number. -/
def insCore (s : State) (c : Core) : List Core → List Core
  | [] => [c]
  | d :: l => if readyCount s d ≤ readyCount s c then d :: insCore s c l else c :: d :: l

def coreOrder (s : State) (k : Task) : List Core :=
  match s.part? k.part with
  | none => []
  | some p =>
    let all : List Core := (partCores s p).filter fun (c : Core) => some c.num != k.avoid
    let all : List Core := if all.isEmpty then partCores s p else all
    let near : List Core := match homeDie s k with
      | some d => all.filter fun c => c.num / 24 / 2 == d
      | none => []
    let far : List Core := all.filter fun c => !near.any fun d => d.num == c.num
    near.foldl (fun l c => insCore s c l) [] ++ far.foldl (fun l c => insCore s c l) []

/-- Pushes a task at the tail of a deque chosen under R330 and R332, or keeps it outside every deque. -/
def placeTask (s : State) (uid : Nat) : State :=
  match s.task? uid with
  | none => s
  | some k =>
    match (coreOrder s k).find? fun (c : Core) => c.deque.length < 64 with
    | some c => s.modCore c.num fun c => { c with deque := c.deque ++ [uid] }
    | none => s.modPart k.part fun p => { p with waiting := p.waiting ++ [uid] }

/-- Pushes a task that becomes READY again at the deque of its last core, else as R330 places it. -/
def placeBack (s : State) (uid : Nat) : State :=
  match s.task? uid with
  | none => s
  | some k => match k.core.bind (s.core? ·) with
    | some c => if c.deque.length < 64 && !s.pkg.diesOut.getLsbD (c.num / 24) then s.modCore c.num fun c => { c with deque := c.deque ++ [uid] } else placeTask s uid
    | none => placeTask s uid

/-- A task in one of the states in which it can still run. -/
def Task.alive (k : Task) : Bool :=
  k.state == .waiting || k.state == .ready || k.state == .running || k.state == .shadowed || k.state == .suspended

/-! Overflow areas (R332). The place of an entry follows the two positions of the area's head; both are the model's own layout. -/

def areaCap (pages : Nat) : Nat := (4096 * pages - 64) / 16

/-- OCNT and the two positions: the oldest entry and the place after the youngest. -/
def areaHead (s : State) (vd va : Nat) : Nat × Nat × Nat := (hwWord s vd va 4, hwWord s vd (va + 8) 8, hwWord s vd (va + 16) 8)

def setAreaHead (s : State) (vd va n lo hi : Nat) : State :=
  hwWrite s vd va (leBytes 8 n ++ leBytes 8 lo ++ leBytes 8 hi)

def areaEntry (va cap pos : Nat) : Nat := va + 64 + 16 * (pos % cap)

/-- Pages of the overflow area of a task. -/
def areaOf (k : Task) : Nat × Nat := (descOvfl k.desc, descOvpg k.desc)

/-- The task whose area lies at an address, for its capacity. -/
def areaPages (s : State) (vd va : Nat) : Nat :=
  ((s.tasks.find? fun k => k.vd == vd && descOvfl k.desc == va && descOvpg k.desc != 0).elim 1 fun k => descOvpg k.desc)

/-- How moving the oldest on-chip entry of a core to an area ends. -/
inductive Spill where
  | done (s : State)
  | full
  | fault (e : XFlt)

def spillHead (s : State) (n : Nat) (k : Task) : Spill :=
  match s.core? n with
  | none => .full
  | some c => match c.deque with
    | [] => .done s
    | old :: rest =>
      let (va, pg) := areaOf k
      if pg = 0 || c.spill.length ≥ 4096 then .full else
      let (cnt, lo, hi) := areaHead s k.vd va
      let cap := areaCap pg
      let ea := areaEntry va cap hi
      match translate s k.vd va .store true, translate s k.vd ea .store true with
      | .ok _, .ok _ =>
        if cnt ≥ cap then .full else
        let t := s.task? old
        let s := hwWrite s k.vd ea (leBytes 8 (t.elim 0 (·.kcopy)) ++ leBytes 8 (t.elim 0 fun t => t.qidx + 2 ^ 12 * (t.pseq % 2 ^ 52)))
        let s := setAreaHead s k.vd va (cnt + 1) lo (hi + 1)
        .done (s.modCore n fun c => { c with deque := rest, spill := c.spill ++ [(va, old)] })
      | .error e, _ => .fault e
      | _, .error e => .fault e

/-- The queue and the LAUNCH that a tree name in an entry gives. -/
def treeQueue (w : Nat) : Nat := w % 2 ^ 12
def treePseq (w : Nat) : Nat := w / 2 ^ 12

/-- The record of OVERFLOW_LOST: the LAUNCH of the tree that the entry names (R332, R339). -/
def lostEntry (s : State) (vd w : Nat) : QRec :=
  { qcause := 9, pseq := treePseq w, poff := ((s.queue? vd (treeQueue w)).bind fun x => jentry? x (treePseq w)).elim 0 (·.start) }

/-- The task that an entry of an area names, as the entry then stands, and the name of its tree. -/
def entryTask (s : State) (vd ea uid : Nat) : Option Nat × Nat :=
  let kcopy := hwWord s vd ea 8
  let q := hwWord s vd (ea + 8) 8
  match s.task? uid with
  | some k => if k.kcopy = kcopy then (some uid, q) else ((s.tasks.find? fun k => k.vd == vd && k.kcopy == kcopy && k.alive).map Task.uid, q)
  | none => ((s.tasks.find? fun k => k.vd == vd && k.kcopy == kcopy && k.alive).map Task.uid, q)

/-- Takes the youngest or the oldest spilled entry of a core out of its area: the task, if the entry names one. -/
def unspill (s : State) (n : Nat) (youngest : Bool) : State × Option Nat :=
  match s.core? n with
  | none => (s, none)
  | some c => match if youngest then c.spill.getLast? else c.spill.head? with
    | none => (s, none)
    | some (va, uid) =>
      let vd := (s.task? uid).elim 0 (·.vd)
      let (cnt, lo, hi) := areaHead s vd va
      let ea := areaEntry va (areaCap (areaPages s vd va)) (if youngest then hi - 1 else lo)
      match translate s vd va .load true, translate s vd ea .load true with
      | .ok _, .ok _ =>
        let s := s.modCore n fun c => { c with spill := if youngest then c.spill.dropLast else c.spill.drop 1 }
        let found := entryTask s vd ea uid
        let s := setAreaHead s vd va (cnt - 1) (if youngest then lo else lo + 1) (if youngest then hi - 1 else hi)
        match found.1 with
        | some u => (s, if (s.task? u).any Task.alive then some u else none)
        | none => (freezeQueue s vd (treeQueue found.2) (lostEntry s vd found.2), none)
      | _, _ => (s, none)

/-- While the on-chip deque holds fewer than 32 entries, the youngest spilled entry returns to its head. -/
def refill : Nat → State → Nat → State
  | 0, s, _ => s
  | fuel + 1, s, n => match s.core? n with
    | none => s
    | some c =>
      if c.deque.length ≥ 32 || c.spill.isEmpty then s else
      match unspill s n true with
      | (t, some uid) => refill fuel (t.modCore n fun c => { c with deque := uid :: c.deque }) n
      | (t, none) => if ((t.core? n).elim 0 fun d => d.spill.length) = c.spill.length then t else refill fuel t n

/-- Tasks that wait outside every deque are pushed as soon as an on-chip entry frees (R332). -/
def drain : Nat → State → Nat → State
  | 0, s, _ => s
  | fuel + 1, s, part => match s.part? part with
    | none => s
    | some p => match p.waiting with
      | [] => s
      | uid :: rest =>
        if (partCores s p).all fun c => c.deque.length ≥ 64 then s
        else drain fuel (placeTask (s.modPart part fun p => { p with waiting := rest }) uid) part

/-- What follows the removal of a deque entry. -/
def settleDeques (s : State) (n part : Nat) : State :=
  let s := refill (((s.core? n).elim 0 fun c => c.spill.length) + 1) s n
  drain (((s.part? part).elim 0 fun p => p.waiting.length) + 1) s part

/-- Where the entry of a task lies in an area: where it is found, else its place among the core's own entries of the area. -/
def areaPlace (s : State) (c : Core) (vd va kcopy : Nat) (e : Nat × Nat) : Nat :=
  let (_, lo, hi) := areaHead s vd va
  let cap := areaCap (areaPages s vd va)
  ((List.range (min (hi - lo) cap)).find? fun i => hwWord s vd (areaEntry va cap (lo + i)) 8 == kcopy).getD
    ((c.spill.filter fun x => x.1 == va).idxOf e)

/-- What a read of a spilled entry meets: a fault on a page of its area, or what it says as it then stands: its task, if it names one, and the
tree it names. -/
def spillTry (s : State) (c : Core) (e : Nat × Nat) : Except XFlt (Option Nat × Nat) :=
  let k := s.task? e.2
  let vd := k.elim 0 (·.vd)
  match translate s vd e.1 .load true with
  | .error f => .error f
  | .ok _ =>
    let (_, lo, _) := areaHead s vd e.1
    let ea := areaEntry e.1 (areaCap (areaPages s vd e.1)) (lo + areaPlace s c vd e.1 (k.elim 0 (·.kcopy)) e)
    match translate s vd ea .load true with
    | .error f => .error f
    | .ok _ => .ok (entryTask s vd ea e.2)

/-- A spilled entry as it stands; none where a page of the area faults. -/
def spillRead (s : State) (c : Core) (e : Nat × Nat) : Option (Option Nat × Nat) := (spillTry s c e).toOption

/-- Takes a spilled entry of a core out of its area: the younger ones move up. -/
def areaDrop (s : State) (n : Nat) (e : Nat × Nat) : State :=
  match s.core? n with
  | none => s
  | some c =>
    let k := s.task? e.2
    let vd := k.elim 0 (·.vd)
    let (cnt, lo, hi) := areaHead s vd e.1
    let cap := areaCap (areaPages s vd e.1)
    let i := areaPlace s c vd e.1 (k.elim 0 (·.kcopy)) e
    let s := (List.range (hi - lo - i - 1)).foldl (fun s j =>
      hwWrite s vd (areaEntry e.1 cap (lo + i + j)) (hwRead s vd (areaEntry e.1 cap (lo + i + j + 1)) 16)) s
    (setAreaHead s vd e.1 (cnt - 1) lo (hi - 1)).modCore n fun c => { c with spill := c.spill.erase e }

/-- An entry leaves the deque of a core. -/
def takeEntry (s : State) (n : Nat) (k : Task) : State :=
  match (s.core? n).bind fun c => c.spill.find? fun e => e.2 == k.uid with
  | some e => areaDrop s n e
  | none => s.modCore n fun c => { c with deque := c.deque.filter (· != k.uid) }

/-- A spilled entry about to be taken is read first: one that names another task stands for that task, and one that names no admitted task is
discarded, and the queue at the root of its tree freezes (R332). None where the entry can be taken as it is. -/
def rereadEntry (s : State) (n : Nat) (k : Task) : Option State :=
  match s.core? n with
  | none => none
  | some c => match c.spill.find? fun e => e.2 == k.uid with
    | none => none
    | some e => match spillRead s c e with
      | none => some s
      | some (some u, _) =>
        if u = k.uid then none
        else some (s.modCore n fun c => { c with spill := mapIf (fun x => x == e) (fun x => (x.1, u)) c.spill })
      | some (none, q) => some (freezeQueue (areaDrop s n e) k.vd (treeQueue q) (lostEntry s k.vd q))

/-- Takes a task out of every on-chip deque; an entry in an overflow area is discarded when it is read (R332). -/
def unplace (s : State) (uid : Nat) : State :=
  { s with
    cores := s.cores.map fun (c : Core) => { c with deque := c.deque.filter (· != uid) }
    parts := s.parts.map fun p => { p with waiting := p.waiting.filter (· != uid) } }

/-- The entries of a task that has ended leave its deques, and what waits for a place comes in (R332). -/
def unqueue (s : State) (uid : Nat) : State :=
  let at_ := (s.cores.filter fun c => c.deque.contains uid).map (·.num)
  let part := (s.task? uid).elim 0 (·.part)
  at_.foldl (fun s n => settleDeques s n part) (unplace s uid)

/-! Failure (R257, R338, R437). -/

/-- TDESC of the tasks from the root of the tree to one task (R339). -/
def pathTo (s : State) : Nat → Nat → List Nat
  | 0, _ => []
  | fuel + 1, uid => match s.task? uid with
    | none => []
    | some k => (match k.parent with
      | some p => pathTo s fuel p
      | none => []) ++ [k.kcopy]

/-- Address of a task's save area: its slot of the VD's pool (R334). -/
def saveVa (s : State) (k : Task) : Nat :=
  match k.save, s.vd? k.vd with
  | some n, some v => v.vsave + n * v.slotpg * 4096
  | _, _ => 0

/-- The context of a task leaves its bank for good. -/
def dropContext (s : State) (uid : Nat) : State :=
  let s := { s with
    live := s.live && s.ctx.uid != uid
    parked := s.parked.filter fun c => c.uid != uid
    cores := s.cores.map fun c => { c with
      active := if c.active == some uid then none else c.active
      shadow := if c.shadow == some uid then none else c.shadow
      leaving := if c.leaving == some uid then none else c.leaving } }
  s

/-- Versions of other homes that a task rests on: its operands, and one that its `tacq` waits for. -/
def farNames (s : State) (k : Task) : List (Nat × Word) :=
  let wait := ((s.context? k.uid).bind fun x => match x.a.block with
    | some (.tileAcquire n) => some n
    | _ => none).toList
  ((operands k.desc ++ wait).eraseDups).filterMap fun n => (awayHome s n).map fun h => (h, n)

/-- Their homes are told that the task rests on its operands there, with its priority (R329, R351), or that it no longer does. -/
def restOn (s : State) (k : Task) (name : Word) (home : Nat) : State := askTile s home k.vd k.uid tagOperand .rest name [k.prio]

def restAll (s : State) (k : Task) : State := (farNames s k).foldl (fun s p => restOn s k p.2 p.1) s

def unrestAll (s : State) (uid : Nat) : State :=
  match s.task? uid with
  | none => s
  | some k => (farNames s k).foldl (fun s p => askTile s p.1 k.vd uid 0 .unrest p.2 []) s

/-- The handles of a task let go of their versions; those it had allocated and not sealed are freed (R16, R17, R156). -/
def dropHandles (s : State) (uid : Nat) : State :=
  let s := unrestAll s uid
  match s.context? uid with
  | none => s
  | some x =>
    let s := x.m.handles.toList.foldl (fun s h => match h.state, awayHome s h.name with
      | .empty, _ => s
      | _, some home => askTile s home x.vd uid 0 .release h.name [h.va % 2 ^ 44]
      | .allocated, none => s
      | _, none => if h.shadow then s else s.modExtent x.vd h.va fun t => { t with claims := t.claims - 1 }) s
    let mine := s.tiles.filter fun t => t.vd == x.vd && t.owner == uid && (!t.sealed || t.shadow)
    releaseAll (mine.foldl releaseTile s)

/-- A report of a member of a level-3 gang to the packages of its VD's peer set (R337); a mirrored gang stays on its package (R360). -/
def reportGang (s : State) (g : Gang) (op : GangOp) (a b : Nat) : State :=
  if g.level = 3 && !(s.vd? g.vd).any (·.mirror) then sendGang s g.vd g.level g.did op a b else s

/-- A member of a gang has ended; a failed or aborted one loses its phase (R273, R336). -/
def memberEnd (s : State) (uid : Nat) (dead : Bool) (log : List LogEntry) : State :=
  let mine : Gang → Bool := fun g => !g.final && g.members.any fun m => m.uid == uid
  let s : State := { s with gangs := mapIf mine (fun (g : Gang) =>
    let ms := mapIf (fun m => m.uid == uid)
      (fun m => { m with ended := true, dead := dead, log := if dead then [] else log, atBar := false, bank := none }) g.members
    { g with members := ms, state := if ms.all (·.ended) && g.others.all (·.ended) && g.state != .forming then .ended else g.state }) s.gangs }
  (s.gangs.filter mine).foldl (fun s g => match g.members.find? fun m => m.uid == uid with
    | some m => reportGang s g .ended m.idx m.dbars
    | none => s) s

/-- A task fails (R257): its effects stand, its context leaves its bank, and the queue at the root of its tree freezes with the
path to it. A task without a save area leaves its cause in the queue's record alone (R437). -/
def taskFail (s : State) (uid : Nat) (c : Cause) (sub : Nat := 0) : State :=
  match s.task? uid with
  | none => s
  | some k =>
    if k.state == .retired || k.state == .failed || k.state == .aborted then s else
    let trec := saveVa s k
    let r : QRec :=
      { qcause := 5, tcause := causeCode c, pseq := k.pseq
        poff := ((s.queue? k.vd k.qidx).bind fun x => jentry? x k.pseq).elim 0 (·.start)
        faddr := if c == .domainConflict && trec = 0 then sub else 0, trec := trec
        path := pathTo s (s.tasks.length + 1) uid, save := k.save }
    let s := dropHandles s uid
    let s := s.modTask uid fun k => { k with state := .failed, cause := some c, subcause := sub }
    let s := unqueue (dropContext (memberEnd s uid true []) uid) uid
    trim (freezeQueue s k.vd k.qidx r)

/-! Admission (R14, R15, R329, R336, R344). -/

/-- Largest size of a domain of a level in a partition (R13). -/
def levelMax (s : State) (part : Nat) : Nat → Nat
  | 0 => 2
  | 1 => 48
  | 2 => 2 * ((s.part? part).elim 0 fun p => (partCores s p).length)
  | _ => 65535

/-- Whether a list of names has one twice. -/
def hasDup : List Word → Bool
  | [] => false
  | x :: l => l.contains x || hasDup l

/-- A descriptor that R15 rejects. -/
def descInvalid (s : State) (vd part : Nat) (d : Vector Word 16) : Bool :=
  descNin d > 8 || descNout d > 4 || descNparam d > 16 ||
  descCode d % 256 != 0 || descParam d % 8 != 0 || descOvfl d % 4096 != 0 ||
  bits (descWord d 3) 63 53 != 0 ||
  (descDval d && (descDsize d == 0 || descDidx d ≥ descDsize d || descDsize d > levelMax s part (descDlvl d))) ||
  hasDup (outputs d) || (outputs d).any fun n => tileVd n != vd

/-- The bytes of a kept copy: the descriptor, then the parameters (R344). -/
def keptBytes (d : Vector Word 16) (params : List Word) : List Byte :=
  d.toList.flatMap (fun w => leBytes 8 w.toNat) ++
    ((params ++ List.replicate (16 - params.length) (0 : Word)).take 16).flatMap fun w => leBytes 8 w.toNat

/-- What admission puts in a descriptor's copy: SPWN and RGTH (R14). -/
def markDesc (d : Vector Word 16) (spwn rgth : Bool) : Vector Word 16 :=
  d.set 3 ((d[3] &&& ~~~ (3 <<< 51 : Word)) ||| (if spwn then 1 <<< 52 else 0) ||| (if rgth then 1 <<< 51 else 0))

/-- The gang of a member joins it, is created for it, or refuses it with a subcause (R13, R336). DESIGN CHOICE (log 68): a member that both
gives another size and repeats an index has SUBCAUSE 1. -/
def joinGang (s : State) (k : Task) : Except Nat State :=
  let lv := descDlvl k.desc
  let did := descDid k.desc
  let m : Member := ⟨descDidx k.desc, k.uid, 0, false, false, false, [], none⟩
  let same := fun g : Gang => g.vd == k.vd && g.level == lv && g.did == did && g.state != .ended
  match s.gangs.find? same with
  | none =>
    let st := if descDsize k.desc = 1 then .waiting else .forming
    .ok { s with gangs := s.gangs ++ [⟨k.vd, lv, did, descDsize k.desc, k.part, st, [m], 0, 0, false, [], [], 0, 0, [], [], false, false, 0, []⟩] }
  | some g =>
    if g.size ≠ descDsize k.desc then .error 1
    else if g.members.any (fun x => x.idx == m.idx) || g.others.any (fun x => x.idx == m.idx) then .error 2
    else
      let ms := g.members ++ [m]
      let st := if g.state == .forming && ms.length + g.others.length = g.size then .waiting else g.state
      .ok { s with gangs := mapIf same (fun g => { g with members := ms, state := st }) s.gangs }

/-- The unit that keeps a task's copy: that of its first output, or, without one, by the count of tasks that the VD has admitted (R344). -/
def keptUnit (s : State) (vd : Nat) (d : Vector Word 16) : Nat :=
  match outputs d with
  | o :: _ => tileUnit o
  | [] => ((s.vd? vd).elim 0 (·.admitted)) % 4

/-- Admits a task with its kept copy (R344). A member that its gang refuses fails at once (R336). A rebuild task or a replacement
uses the kept copy of the task it stands for. -/
def admitTask (s : State) (k : Task) : State :=
  let uid := s.nextUid
  let own := !k.rebuild && k.replaces.isNone
  let (s, kcopy) := if own then addKept s k.vd (keptUnit s k.vd k.desc) (keptBytes k.desc k.params) else (s, k.kcopy)
  let k := { k with
    uid := uid
    kcopy := kcopy
    freed := (operands k.desc).filter fun n => match s.rec? n with
      | some r => !r.freed
      | none => true }
  let s := restAll { s with nextUid := uid + 1, tasks := s.tasks ++ [k] } k
  let s := s.modVd k.vd fun v => { v with admitted := v.admitted + 1 }
  if descDval k.desc then
    match joinGang s k with
    | .ok s => (s.gangs.filter fun g => g.members.any fun m => m.uid == uid).foldl (fun s g =>
        reportGang s g .admitted (descDidx k.desc) (descDsize k.desc * 16 + k.prio)) s
    | .error sub => taskFail s uid .domainConflict sub
  else s

/-- A new task of a descriptor, before its admission gives it a number. -/
def newTask (vd part : Nat) (d : Vector Word 16) (params : List Word) (qidx pseq : Nat) (parent : Option Nat) : Task :=
  { uid := 0, vd := vd, part := part, desc := d, params := params, kcopy := 0, state := .waiting, prio := descPrio d
    qidx := qidx, pseq := pseq, parent := parent, rgth := false, rebuild := false, replaces := none, core := none
    avoid := none, age := 0, save := none, saved := false, signals := [], skipSpawn := 0, spawned := 0, sealed := []
    alloced := [], cause := none, subcause := 0, freed := [], acks := 0, rerun := false, away := [], gone := [] }

/-! The task that stands in for an aborted one (R256). -/

/-- The task that stands in for an aborted one: the kept copy again, RGTH set, the children it had not to be created again. -/
def reCreate (s : State) (k : Task) : State :=
  let d := markDesc k.desc (bits (descWord k.desc 3) 52 52 = 1) true
  admitTask s { k with
    desc := d, state := .waiting, rgth := true, replaces := some k.uid, core := none, avoid := k.core, age := 0
    save := none, saved := false, skipSpawn := max k.skipSpawn k.spawned, spawned := 0, sealed := [], alloced := []
    cause := none, subcause := 0, acks := 0, away := [], gone := [], told := 0, agreed := false }

end Sys2Proof.Machine
end

