-- ==== Sys2Proof/Machine/Save.lean ====
section
/-!
DEFINITION. The fault record (R238) and the save area of a context (R250, R251, R418, R436): what the hardware writes there, and what a
resume reads back; and the abort of a task (R255). Sections whose layout is the part's own are kept in the context and not written (log 7).
-/

namespace Sys2Proof.Machine

/-- Distinct operations pending (R237): an operand-file result and the rest of its instruction count once. -/
def npend (c : CSide) : Nat :=
  (c.pend.foldl (fun l p => if l.contains p.seq then l else p.seq :: l) ([] : List Nat)).length

/-- The 512 bytes of a fault record (R238). -/
def recordBytes (x : Context) (r : Record) : List Byte :=
  let w0 := b2n r.fetch * 2 ^ 28 + b2n r.write * 2 ^ 27 + b2n r.preempt * 2 ^ 26 + b2n r.sup * 2 ^ 25 + b2n r.imprecise * 2 ^ 24 +
    r.subcause.toNat * 2 ^ 16 + r.causeC.toNat * 2 ^ 8 + r.causeA.toNat
  let w := leBytes 8
  w w0 ++ w x.a.pc.toNat ++ w x.c.pc.toNat ++ w r.fpc.toNat ++ w r.faddr.toNat ++ w r.info.toNat ++
    w (npend x.c * 2 ^ 32 + x.c.cc % 2 ^ 32) ++ w x.tdesc.toNat ++
    ((List.range 8).flatMap fun i => w ((x.q.pop.toList.getD i 0).toNat * 2 ^ 32 + (x.q.push.toList.getD i 0).toNat)) ++
    ((List.range 4).flatMap fun i => w ((x.c.issued.toList.getD i 0).toNat * 2 ^ 32 + (x.c.disp.toList.getD i 0).toNat)) ++
    (x.m.slots.toList.flatMap fun s => leBytes 4 s.landed.toNat) ++
    ((List.range 4).flatMap fun i => leBytes 4 (nth 0 r.xtnt i)) ++ List.replicate 144 0

def hstateCode : HState → Nat
  | .empty => 0 | .acquired => 1 | .allocated => 2 | .sealed => 3

/-- The commit log's address: the part's own choice, zero while the log is empty (R419; log 62). -/
def logPlace (x : Context) : List Byte := leBytes 8 (if x.m.log.isEmpty then 0 else (Config.freeWord x.uid).toNat)

/-- The task-status section (R436); where the bindings stand is the part's own. -/
def statusBytes (x : Context) : List Byte :=
  (x.m.bars.toList.flatMap fun b => leBytes 4 b.toNat) ++
    (x.m.handles.toList.flatMap fun h => leBytes 8 h.name.toNat ++ leBytes 8 (hstateCode h.state)) ++
    ((x.m.acquired ++ List.replicate (8 - x.m.acquired.length) (0 : Word)).take 8).flatMap (fun n => leBytes 8 n.toNat) ++
    List.replicate 256 0 ++ leBytes 8 (b2n x.m.taint) ++ logPlace x ++ List.replicate 400 0

def slotCode : SlotState → Nat
  | .free => 0 | .active => 1 | .linked => 2 | .faulted => 3

/-- One copy-slot record of 64 bytes (R418). -/
def slotBytes (c : Slot) : List Byte :=
  if c.state == .free then List.replicate 64 0 else
  leBytes 8 c.gd.toNat ++ leBytes 8 c.ga.toNat ++ leBytes 8 c.gb.toNat ++
    leBytes 8 (c.resume * 2 ^ 32 + c.kind.val * 2 ^ 5 + c.b.val * 4 + slotCode c.state) ++
    leBytes 8 (if c.chain then c.entry.toNat else 0) ++ List.replicate 24 0

def slotState (n : Nat) : SlotState :=
  match n % 4 with
  | 0 => .free | 1 => .active | 2 => .linked | _ => .faulted

/-- A copy slot from its record, which is all that a resume reads of the bytes to move (R418): a gather's list and a chain's entry are read
again (log 61). What the copy's issue fixed of the order of its effects stays with the context. -/
def slotFrom (c : Slot) (bs : List Byte) : Slot :=
  let w := fun i => leNat ((bs.drop (8 * i)).take 8)
  let st := slotState (w 3)
  let chain := st == .linked || w 4 ≠ 0
  if st == .free then Slot.free else
  { c with
    state := st, gd := BitVec.ofNat 64 (w 0), ga := BitVec.ofNat 64 (w 1), gb := BitVec.ofNat 64 (w 2)
    kind := ⟨bits (w 3) 7 5 % 8, Nat.mod_lt _ (by decide)⟩, b := ⟨bits (w 3) 4 2 % 8, Nat.mod_lt _ (by decide)⟩
    resume := bits (w 3) 63 32, chain := chain, entry := BitVec.ofNat 64 (w 4), loaded := false, waited := false
    glist := 0, goff := 0, gskip := bits (w 3) 63 32 }

/-- Window registers and cursors (R436). -/
def windowBytes (w : Window) : List Byte := leBytes 16 w.reg.toNat ++ leBytes 8 w.cursor ++ List.replicate 8 0

/-- The sections with an architectural layout, but the record, the weight buffer and the scratchpad. The place of p0, which holds no value of
its own, is zero (R419; log 62). -/
def sectBytes (x : Context) : Sect → Option (List Byte)
  | .aregs => some ((x.a.regs.toList.take x.decl.nareg).flatMap fun v => leBytes 8 v.toNat)
  | .status => some (statusBytes x)
  | .slots => some (x.m.slots.toList.flatMap slotBytes)
  | .cregs => some ((x.c.regs.toList.take x.decl.ncreg).flatMap (fun v => leBytes 8 v.toNat) ++ leBytes 8 x.c.vflg.toNat ++
      leBytes 8 x.lodcnt.toNat ++ List.replicate 48 0)
  | .vectors => some ((x.c.v.toList.take x.decl.nvreg ++ x.c.o.toList ++ x.c.y.toList).flatMap vecBytes)
  | .preds => some (((0 : Pred) :: (x.c.p.toList.take x.decl.npred).drop 1).flatMap fun p => leBytes 64 p.toNat)
  | .spill => some ((x.c.k.toList.take x.decl.nspill).flatMap vecBytes)
  | .matrix => some (x.c.m.toList.flatMap (fun m => leBytes 4096 m.toNat) ++ x.c.w.toList.flatMap windowBytes)
  | .flags => some (x.c.f.toList.flatMap (fun f => leBytes 1 f.val) ++ List.replicate 48 0)
  | _ => none

/-- Writes the record and the sections at a context's save area (R238, R246, R250). -/
def writeSave (s : State) (x : Context) (r : Record) : State :=
  match x.save with
  | none => s
  | some base =>
    let s := hwWrite s x.vd base (recordBytes x r)
    (layoutFrom x.decl x.det sections 0).foldl (fun s p => match sectBytes x p.1 with
      | some bs => hwWrite s x.vd (base + p.2) bs
      | none => s) s

/-- Writes the weight buffer and the scratchpad, when the task goes to another core (R251). -/
def writeBulk (s : State) (x : Context) : State :=
  match x.save with
  | none => s
  | some base =>
    let s := hwWrite s x.vd (base + sectOff x.decl x.det .wbuf) (memGetN x.m.wb 0 1048576)
    hwWrite s x.vd (base + sectOff x.decl x.det .spad) (memGetN x.m.spad 0 x.decl.spad)

/-- A vector of registers from bytes of `w` each, the first `n` of them read. -/
def loadRegs {α : Type} {k : Nat} (old : Vector α k) (n w : Nat) (of : List Byte → α) (bs : List Byte) : Vector α k :=
  old.mapIdx fun i v => if i < n then of ((bs.drop (w * i)).take w) else v

/-- Reads back what a handler may change, APC, CPC and the changeable sections, and the copy slots with their barriers (R248, R249, R418). -/
def readBack (s : State) (x : Context) : Context :=
  match x.save with
  | none => x
  | some base =>
    let sec := fun y n => hwRead s x.vd (base + sectOff x.decl x.det y) n
    let word := fun bs => BitVec.ofNat 64 (leNat bs)
    let d := x.decl
    let apc := word (hwRead s x.vd (base + 8) 8)
    let cpc := word (hwRead s x.vd (base + 16) 8)
    let cr := sec .cregs (8 * d.ncreg + 16)
    let vs := sec .vectors (512 * (d.nvreg + 10))
    let sl := sec .slots 3072
    { x with
      m := { x.m with
        bars := loadRegs x.m.bars 8 4 (fun bs => BitVec.ofNat 32 (leNat bs)) (sec .status 32)
        slots := x.m.slots.mapIdx fun i c => slotFrom c ((sl.drop (64 * i)).take 64) }
      lodcnt := word ((cr.drop (8 * d.ncreg + 8)).take 8)
      a := { x.a with pc := apc, block := if apc = x.a.pc then x.a.block else none, regs := loadRegs x.a.regs d.nareg 8 word (sec .aregs (8 * d.nareg)) }
      c := { x.c with
        pc := cpc
        block := if cpc = x.c.pc then x.c.block else none
        regs := loadRegs x.c.regs d.ncreg 8 word cr
        vflg := BitVec.ofNat 5 (leNat ((cr.drop (8 * d.ncreg)).take 8))
        v := loadRegs x.c.v d.nvreg 512 vecOf vs
        o := loadRegs x.c.o 8 512 vecOf (vs.drop (512 * d.nvreg))
        y := loadRegs x.c.y 2 512 vecOf (vs.drop (512 * (d.nvreg + 8)))
        p := loadRegs x.c.p d.npred 64 (fun bs => BitVec.ofNat 512 (leNat bs)) (sec .preds (64 * d.npred))
        k := loadRegs x.c.k d.nspill 512 vecOf (sec .spill (512 * d.nspill)) } }

/-! Abort (R255 to R257, R437). -/

/-- The record of a task that fails with a cause of the whole context outside its own cut: SILENT_ERR stands in both fields and supersedes
every other cause (R239, R241). -/
def abortRecord (x : Context) (c : Cause) : Record :=
  let code := BitVec.ofNat 8 (causeCode c)
  { Record.none with sup := x.sup, causeC := code, causeA := code }

/-- An abort by SILENT_ERR: what was buffered is discarded, unsealed outputs are freed, sealed ones are lost, and the task is created
again; a tainted task or a domain member fails instead, and leaves its state and its record in its save area, if it holds one. -/
def taskAbort (s : State) (uid : Nat) : State :=
  match s.task? uid with
  | none => s
  | some k =>
    if k.state == .retired || k.state == .failed || k.state == .aborted then s else
    let tainted := (s.context? uid).elim false fun x => x.m.taint
    let s := logMgmt s 4 1 (k.core.getD 0) [k.core.getD 0, k.vd, k.kcopy]
    let s := if tainted || descDval k.desc then (s.context? uid).elim s fun x => writeSave s x (abortRecord x .silentErr) else s
    let s := dropHandles s uid
    let s := k.sealed.foldl (fun s n => match awayHome s n with
      | some h => askTile s h k.vd uid 0 .lose n []
      | none => loseTile s k.vd n) s
    if tainted || descDval k.desc then taskFail s uid .silentErr
    else
      let s := match k.save with
        | some n => s.modVd k.vd fun v => { v with used := v.used.filter (· != n) }
        | none => s
      let s := s.modTask uid fun k => { k with state := .aborted, cause := some .silentErr, save := none }
      let s := unqueue (dropContext s uid) uid
      match s.task? uid with
      | some k => reCreate s k
      | none => s

end Sys2Proof.Machine
end

