-- ==== Sys2Proof/Machine/Loader.lean ====
section
/-!
DEFINITION. The code loader (R110 to R114): the kernel header, the synchronization table and its count of queue traffic and flags, and
the pages that a code object may lie in.
-/

namespace Sys2Proof.Machine

/-- The V fields and modifiers of a vector instruction: destination, sources, word 1 (R90, R92). -/
def vecParts : Instr → Option (Option VDst × List VSrc × VMods)
  | .vadd d va vb _ m | .vsub d va vb _ m | .vmul d va vb _ m | .vmulz d va vb _ m | .vmulh d va vb _ m
    | .vmulhn d va vb _ m | .vmin d va vb _ m | .vmax d va vb _ m | .vminn d va vb _ m | .vmaxn d va vb _ m
    | .vand d va vb _ m | .vor d va vb _ m | .vxor d va vb _ m | .vandn d va vb _ m | .vshl d va vb _ m | .vshr d va vb _ m
    | .vsra d va vb _ m | .vqnt d va vb _ m | .vdqnt d va vb _ m | .vpack4 d va vb _ m | .vwmul2 d va vb _ m
    | .vperm d va vb _ m | .vrcps d va vb _ m | .vrsqs d va vb _ m =>
    some (some d, [va, vb], m)
  | .vfma d va vb vc _ m | .vfms d va vb vc _ m | .vfnma d va vb vc _ m | .vfshl d va vb vc _ m | .vfshr d va vb vc _ m
    | .vperm2 d va vb vc _ m =>
    some (some d, [va, vb, vc], m)
  | .vabs d va _ m | .vneg d va _ m | .vnot d va _ m | .vpopc d va _ m | .vclz d va _ m | .vctz d va _ m | .vunpk4 d va _ m
    | .vwid2 d va _ m | .vwid4 d va _ m | .vcomp d va _ m | .vexpd d va _ m | .vrsum d va _ m | .vrmax d va _ m
    | .vrmin d va _ m | .vscan d va _ m | .vrcpe d va _ m | .vrsqe d va _ m | .vexp2F d va _ m | .vlog2F d va _ m
    | .vtanhF d va _ m | .vexp2X d va _ m | .vlog2X d va _ m | .vtanhX d va _ m =>
    some (some d, [va], m)
  | .vshli d va _ _ m | .vshri d va _ _ m | .vsrai d va _ _ m | .vcvt d va _ _ m | .vbcast d va _ _ m | .vgmax d va _ _ m =>
    some (some d, [va], m)
  | .vceq _ va vb _ m | .vcne _ va vb _ m | .vclt _ va vb _ m | .vcle _ va vb _ m | .vcltn _ va vb _ m | .vclen _ va vb _ m
    | .vcun _ va vb _ m =>
    some (none, [va, vb], m)
  | .pand _ _ _ m | .por _ _ _ m | .pxor _ _ _ m | .pandn _ _ _ m | .plt _ _ _ m | .pge _ _ _ m =>
    some (none, [], m)
  | .pnot _ _ m =>
    some (none, [], m)
  | .pset _ m | .pclr _ m =>
    some (none, [], m)
  | .vslup d va _ vc _ m | .vsldn d va _ vc _ m =>
    some (some d, [va, vc], m)
  | .vsplat d _ _ m | .vidx d _ _ m | .vrng d _ _ m | .vrngD d _ _ m =>
    some (some d, [], m)
  | .vmov d va m =>
    some (some d, [va], m)
  | .vins d _ _ _ m =>
    some (some d, [], m)
  | .vext _ va _ _ m =>
    some (none, [va], m)
  | .vspill _ va m =>
    some (none, [va], m)
  | .vfill d _ m =>
    some (some d, [], m)
  | _ => none

/-- What an instruction moves through the coupling queues and adds to and takes from the flags (R114). Queues are numbered as in
R238; aQ is its traffic in an A range, cQ in a C range. -/
structure Traffic where
  aQ  : List Nat
  cQ  : List Nat
  inc : List (Nat × Nat)
  dec : List (Nat × Nat)
deriving DecidableEq, Repr

def Traffic.none : Traffic := ⟨[], [], [], []⟩

/-- SF and AF fields: one each, none for 0 (R90). -/
def flagTraffic (sf af : Fin 16) : List (Nat × Nat) × List (Nat × Nat) :=
  (if sf = 0 then [] else [(sf.val, 1)], if af = 0 then [] else [(af.val, 1)])

def modTraffic (sf af : Fin 16) (q : List Nat) : Traffic := ⟨[], q, (flagTraffic sf af).1, (flagTraffic sf af).2⟩

/-- One pop of each lq that the sources name (R92, R114). -/
def lqPops (srcs : List VSrc) : List Nat :=
  srcs.foldl (fun l v => match v with
    | .lq n => if l.contains n.val then l else l ++ [n.val]
    | _ => l) []

def sqPush : Option VDst → List Nat
  | some (.sq q) => [4 + q.val]
  | _ => []

def instrTraffic (i : Instr) : Traffic :=
  match i with
  | .vld n _ _ | .vldExt n _ _ => ⟨[n.val], [], [], []⟩
  | .ldx _ _ | .ldxExt _ _ | .qpushXq _ => ⟨[6], [], [], []⟩
  | .vst q _ _ | .vstExt q _ _ => ⟨[4 + q.val], [], [], []⟩
  | .stx _ _ | .stxExt _ _ | .qpopYq _ => ⟨[7], [], [], []⟩
  | .qpopXq _ => ⟨[], [6], [], []⟩
  | .qpushYq _ => ⟨[], [7], [], []⟩
  | .wbsel _ _ _ f | .mzero _ f | .mma _ _ _ _ _ _ f | .mmaz _ _ _ _ _ _ f | .mdrain _ _ _ _ f | .mmov _ _ f | .mswap _ _ f
    | .mstat _ _ f => modTraffic f.sf f.af []
  | .rsmax r | .rexps r | .rscal r | .rsoftmax r | .rnorm r => modTraffic r.fm.sf r.fm.af []
  | .fset f n => ⟨[], [], [(f.val, n.val)], []⟩
  | .fwait f n => ⟨[], [], [], [(f.val, n.val)]⟩
  | i => match vecParts i with
    | some (d, srcs, m) => modTraffic m.sf m.af (lqPops srcs ++ sqPush d)
    | none => Traffic.none

/-- Matrix and row commands whose use of a stream may start it (R149, R175). -/
def startsStreams : Instr → Bool
  | .mma .. | .mmaz .. | .mdrain .. | .rsmax _ | .rexps _ | .rscal _ | .rsoftmax _ | .rnorm _ => true
  | _ => false

def codeTraffic : Sys2Proof.Code → Traffic
  | .instr i => instrTraffic i
  | _ => Traffic.none

/-- The traffic of every instruction of a range, one after another; none when an instruction would pass its end (R114). -/
def walkRange (word : Nat → Nat) : Nat → Nat → Nat → Option (List Traffic)
  | 0, _, _ => none
  | fuel + 1, at_, stop =>
    if at_ = stop then some [] else
    let w := word at_
    let n := if hasWord1 w then 8 else 4
    if at_ + n > stop then none
    else
      let t := match decodeCode w (if n = 8 then word (at_ + 4) else 0) with
        | .ok c => codeTraffic c
        | .error _ => Traffic.none
      (walkRange word fuel (at_ + n) stop).map fun l => t :: l

def countOf (q : Nat) (l : List Nat) : Nat := (l.filter (· == q)).length
def flagSum (l : List (Nat × Nat)) : Nat := l.foldl (fun n x => n + x.2) 0
def flagOf (f : Nat) (l : List (Nat × Nat)) : Nat := flagSum (l.filter fun x => x.1 == f)

/-- A region of the synchronization table (R113). -/
structure Region where
  a0 : Nat
  a1 : Nat
  c0 : Nat
  c1 : Nat
  counts : List Nat           -- lq0-lq3, sq0, sq1, xq, yq
  fset : Nat
  fwait : Nat
  rsvd : Nat
deriving DecidableEq, Repr

def readRegion (byte : Nat → Nat → Nat) (o : Nat) : Region :=
  ⟨byte o 4, byte (o + 4) 4, byte (o + 8) 4, byte (o + 12) 4,
    (List.range 8).map (fun i => byte (o + 16 + 2 * i) 2), byte (o + 0x20) 2, byte (o + 0x22) 2, byte (o + 0x24) 4⟩

/-- Whether two ranges overlap. -/
def meets (a b : Nat × Nat) : Bool := a.1 < b.2 && b.1 < a.2

def pairwise {α : Type} (p : α → α → Bool) : List α → Bool
  | [] => true
  | x :: l => l.all (p x) && pairwise p l

/-- The table's checks for one region (R114). -/
def regionOk (word : Nat → Nat) (aoff alen coff clen : Nat) (r : Region) : Bool :=
  r.rsvd == 0 && r.a0 % 4 == 0 && r.a1 % 4 == 0 && r.c0 % 4 == 0 && r.c1 % 4 == 0 &&
  r.a0 < r.a1 && r.a1 ≤ alen && r.c0 < r.c1 && r.c1 ≤ clen &&
  match walkRange word (r.a1 - r.a0) (aoff + r.a0) (aoff + r.a1), walkRange word (r.c1 - r.c0) (coff + r.c0) (coff + r.c1) with
  | some ta, some tc =>
    let aq := ta.flatMap Traffic.aQ
    let cq := tc.flatMap Traffic.cQ
    let inc := tc.flatMap Traffic.inc
    let dec := tc.flatMap Traffic.dec
    ((List.range 8).all fun q => countOf q aq == nth 0 r.counts q && countOf q cq == nth 0 r.counts q) &&
    ((List.range 16).all fun f => flagOf f inc == flagOf f dec) && flagSum inc == r.fset && flagSum dec == r.fwait
  | _, _ => false

/-- What the loader finds (R112): the declarations and the place of the code, a failure, or a stage-2 fault that holds the read. -/
inductive LoadRes where
  | ok (d : Decl) (c : CodeObj)
  | bad
  | held (f : S2Flt) (va : Nat)
  | ask (home va len rights : Nat)        -- the bytes lie at another home, which is to be asked (R289)
  | lost                                  -- that home is lost (R289)
deriving DecidableEq, Repr

/-- A page of a code object as the loader reads it (R112): mapped, with X and the level's right, and, for the header and the table, of a
type that accepts a load. -/
def codePage (s : State) (vd : Nat) (sup table : Bool) (va : Nat) : Except XFlt Place :=
  match findPage s vd va with
  | .error e => .error e
  | .ok f =>
    if table && ((typeFlt .load sup f.mt).isSome || f.mt == .tile) then .error (.flt .access va) else
    match stage2 s f.part f.ipa false true with
    | .error r => .error (.s2 ⟨r, f.ipa, false⟩ va)
    | .ok pa =>
      if rightsBad s .fetch sup f || (table && !targetOk f.dev f.lva f.mt pa) then .error (.flt .access va)
      else .ok ⟨f.lva, pa, f.mt, f.entry, none⟩

/-- The pages of a range: the first that does not pass. -/
def codeFlt (s : State) (vd : Nat) (sup table : Bool) (va len : Nat) : Option XFlt :=
  (pieces va len).findSome? fun p => match codePage s vd sup table p.1 with
    | .error e => some e
    | .ok _ => none

/-- The bytes of a part of a code object: a reader by address and length, or why there is none. At another home they are asked for, and
checked there (R289). DESIGN CHOICE (log 70): a unit in error, or of a retired range, is read as its bytes stand. -/
def codeRead (s : State) (who vd : Nat) (sup table : Bool) (va len : Nat) : Except LoadRes (Nat → Nat → Nat) :=
  match codeFlt s vd sup table va len with
  | none => .ok (hwWord s vd)
  | some (.flt _ _) => .error .bad
  | some (.s2 f a) => .error (.held f a)
  | some (.remote h) => match farAnswer s who va with
    | some r => if r.status = 0 then .ok fun a n => leNat (((reply r).data.drop (a - va)).take n) else .error .bad
    | none => .error (if peerLost s h then .lost else .ask h va len (b2n sup + if table then rightTable else rightCode))

/-- The counts of a kernel header (R111). -/
def headDecl (h : List Byte) : Decl :=
  let f := fun o => leNat ((h.drop o).take 4)
  { nareg := bits (f 0x20) 5 0, ncreg := bits (f 0x20) 13 8, nvreg := bits (f 0x20) 21 16, npred := bits (f 0x20) 30 24
    nspill := bits (f 0x24) 8 0, nbb := bits (f 0x24) 19 16, nflag := bits (f 0x24) 28 24
    nstrm := bits (f 0x28) 4 0, slipl := bits (f 0x28) 14 8, spad := bits (f 0x2C) 22 0 }

/-- The checks of a kernel header: its words by offset (R111, R112). -/
def headerOk (f : Nat → Nat → Nat) (d : Decl) (det : Bool) : Bool :=
  let aoff := f 8 4; let alen := f 12 4; let coff := f 16 4; let clen := f 20 4; let soff := f 24 4; let slen := f 28 4
  let w20 := f 0x20 4; let w24 := f 0x24 4; let w28 := f 0x28 4; let w2c := f 0x2C 4
  let inR := fun lo n hi => lo ≤ n && n ≤ hi
  f 0 4 == 0x3638594E && bits (f 4 4) 31 16 == 128 && bits (f 4 4) 15 0 == 1 &&
    aoff % 16 == 0 && coff % 16 == 0 && soff % 16 == 0 && 128 ≤ aoff && 128 ≤ coff && 128 ≤ soff &&
    alen != 0 && alen % 4 == 0 && clen != 0 && clen % 4 == 0 && 8 ≤ slen && slen % 40 == 8 &&
    bits w20 31 31 == 0 && bits w20 23 22 == 0 && bits w20 15 14 == 0 && bits w20 7 6 == 0 &&
    bits w24 31 29 == 0 && bits w24 23 20 == 0 && bits w24 15 9 == 0 &&
    bits w28 31 17 == 0 && bits w28 15 15 == 0 && bits w28 7 5 == 0 && bits w2c 31 23 == 0 &&
    f 0x30 80 == 0 &&
    inR 1 d.nareg 32 && inR 1 d.ncreg 32 && d.nvreg ≤ 48 && inR 1 d.npred 64 && d.nspill ≤ 256 && d.nbb ≤ 8 &&
    d.nflag ≤ 16 && d.nstrm ≤ 16 && inR 1 d.slipl 64 && d.spad % 512 == 0 && d.spad ≤ 6291456 &&
    pairwise (fun a b => !meets a b) [(aoff, aoff + alen), (coff, coff + clen), (soff, soff + slen)] &&
    !(bits w28 16 16 == 1 && det)

/-- The checks of a synchronization table (R113, R114). -/
def tableOk (f : Nat → Nat → Nat) (word : Nat → Nat) : Bool :=
  let soff := f 24 4
  let n := f soff 4
  let rs := (List.range n).map fun i => readRegion f (soff + 8 + 40 * i)
  n * 40 + 8 == f 28 4 && f (soff + 4) 4 == 0 && rs.all (regionOk word (f 8 4) (f 12 4) (f 16 4) (f 20 4)) &&
    pairwise (fun a b => !meets (a.a0, a.a1) (b.a0, b.a1)) rs && pairwise (fun a b => !meets (a.c0, a.c1) (b.c0, b.c1)) rs

/-- The counts that the header of a task's code object declares, as the loader reads it: none where it cannot (R334). -/
def loaderDecl (s : State) (who vd base : Nat) : Decl :=
  match codeRead s who vd false true base 128 with
  | .ok h => headDecl (leBytes 128 (h base 128))
  | .error _ => Decl.none

/-- Reads and checks a code object as the task's VD does at a level (R112). `who` asks where it lies at another home. -/
def loaderCheck (s : State) (who vd base : Nat) (sup det : Bool) : LoadRes :=
  if base % 256 ≠ 0 then .bad else
  let part := fun table off len => codeRead s who vd sup table (base + off) len
  match part true 0 128 with
  | .error e => e
  | .ok h =>
    let f := fun o n => h (base + o) n
    let d := headDecl (leBytes 128 (f 0 128))
    if !headerOk f d det then .bad else
    let aoff := f 8 4; let alen := f 12 4; let coff := f 16 4; let clen := f 20 4; let soff := f 24 4
    match part false aoff alen, part false coff clen, part true soff (f 28 4) with
    | .error e, _, _ | .ok _, .error e, _ | .ok _, .ok _, .error e => e
    | .ok a, .ok c, .ok t =>
      let byte := fun o n => if o < 128 then f o n else t (base + o) n
      let word := fun o => if aoff ≤ o && o < aoff + alen then a (base + o) 4 else c (base + o) 4
      if tableOk byte word then .ok d ⟨base, aoff, alen, coff, clen⟩ else .bad

end Sys2Proof.Machine
end

