-- ==== Sys2Proof/Machine/Ops.lean ====
section
/-!
DEFINITION. Taking an exception and returning from one: a slice stops (R235), the cut completes with its record and save area (R236 to
R241), the handler is entered (R246, R247) and left (R248, R249); and the checks of R102 that every meaning makes first.
-/

namespace Sys2Proof.Machine

/-- An entry of an A-to-C queue whose data is still to arrive. -/
def dataWaits (x : Context) (q : Nat) : Bool := x.q.toC.any fun e => e.queue.val == q && !e.ready && !e.poison

/-- A condition that lets the C-slice's part of a cut end: a coupling-queue condition, or a poison entry (R235). A pop whose entry's
data is still to arrive is none: the slice drains the entries before a poison entry (R143). -/
def blockEnds (x : Context) : BlockC → Bool
  | .wait => false
  | .popLq q => !dataWaits x q.val
  | .popXq => !dataWaits x 4
  | _ => true

/-- The homes to which a slot has sent the writes of its chunk: their keys stand above every address. -/
def writesSent (c : Slot) : List Nat := (c.asked.filter fun k => 2 ^ 57 ≤ k).map (· - 2 ^ 57)

/-- A chunk whose write has begun and which has not landed: a cut waits for it (R236). -/
def writeBegun (c : Slot) : Bool := !(writesSent c).isEmpty

/-- Both slices have stopped (R235), and the copy engine at a chunk boundary (R236). -/
def cutDone (x : Context) : Bool :=
  x.a.stop.isSome && (x.c.stop.isSome || x.c.stopped || match x.c.block with
    | some b => blockEnds x b
    | none => false) && !x.m.slots.toList.any writeBegun

/-- What the cut completes: the loads that passed their check, and the results that are visible at its C-cycle (R235, R237). -/
def completions (x : Context) : Context :=
  let come := fun (e : AEntry) => if e.poison then e else { e with ready := true }
  let x : Context := { x with q := { x.q with toC := x.q.toC.map come } }
  let due := x.c.pend.filter fun p => p.due ≤ x.c.cc
  due.foldl land { x with c := { x.c with pend := x.c.pend.filter fun p => p.due > x.c.cc } }

/-- A slice stopped only because the other did. -/
def otherStop (pc : Word) : Stop := ⟨none, 0, 0, 0, false, false, pc, []⟩

/-- The stop that a record describes: that of a cause of class F, else the A-slice's when it has a cause (R239, R241; log 8). -/
def mainStop (sa sc : Stop) : Stop :=
  if sa.cause.any classF then sa else if sc.cause.any classF then sc else if sa.cause.isSome then sa else sc

/-- The record of a cut (R238, R240, R241). -/
def recordOf (x : Context) : Record :=
  let sa := x.a.stop.getD (otherStop 0)
  let sc := x.c.stop.getD (otherStop 0)
  let main := mainStop sa sc
  let code := fun (s : Stop) => BitVec.ofNat 8 (s.cause.elim 0 causeCode)
  let whole := main.cause.elim false classF
  { fetch := main.fetch, write := main.write, preempt := main.cause.isNone, sup := x.sup, imprecise := main.cause == some .copyFault
    subcause := main.subcause, causeC := if whole then code main else code sc, causeA := if whole then code main else code sa
    faddr := main.faddr, info := main.info
    fpc := if sc.cause.isSome then sc.pc else if x.c.block == some .poison then x.c.cur.pc else 0
    xtnt := main.xtnt }

/-- The cause of a stopped context: one of class F first, then the A-slice's (R239, R241). -/
def stopCause (x : Context) : Option Cause := (mainStop (x.a.stop.getD (otherStop 0)) (x.c.stop.getD (otherStop 0))).cause

/-- The cut is complete: the record and the save area are written, TRAPREC and the handler's address stand (R238, R246); a cause of
class F ends the task (R239, R257). -/
def completeCut (s : State) : State :=
  let s := s.modCtx completions
  let r := recordOf s.ctx
  let s := s.modCtx fun x => { x with
    record := r, phase := .stopped
    trapRec := if x.sup then x.trapRec else BitVec.ofNat 64 (x.save.getD 0)
    vec := (s.vd? x.vd).elim 0 (·.trapvec) }
  let s := writeSave s s.ctx r
  match stopCause s.ctx with
  | some c => if classF c then taskFail s s.ctx.uid c r.subcause.toNat else s
  | none => s

/-- Completes the cut once both slices have stopped. -/
def settle (s : State) : State := if s.ctx.phase == .cut && cutDone s.ctx then completeCut s else s

/-- HANDLER_FAULT: a second record in the handler area, and the task fails (R247). x is the task's own context. DESIGN CHOICE (log 52): of
the second record R247 gives only the two causes; its other fields are the first record's, but SUP, which is 1, and SUBCAUSE, INFO,
IMPRECISE and XTNT, which are 0. -/
def handlerFail (s : State) (x : Context) : State :=
  let r : Record := { x.record with
    sup := true, imprecise := false, subcause := 0, causeC := BitVec.ofNat 8 (causeCode .handlerFault)
    causeA := BitVec.ofNat 8 (causeCode .handlerFault), info := 0, xtnt := [] }
  let s := match x.save with
    | some base => hwWrite s x.vd (base + 512) (recordBytes x r)
    | none => s
  taskFail s x.uid .handlerFault

/-- The context whose handler runs. -/
def handledCtx (s : State) : Context := (s.context? s.ctx.uid).getD s.ctx

/-- TAKING AN EXCEPTION (R139, R234, R235, R238). The slice whose instruction runs stops with its cause, the other slice stops as R235
says, and the cut completes at once or later. A fault raised at supervisor level is a HANDLER_FAULT (R247). The faulting C-slice
instruction stays at the head of its queue; `trap` and `brk` have issued (R130). -/
def raise (f : Flt) (s : State) : State :=
  if s.ctx.sup then handlerFail s (handledCtx s)
  else
    let st : Stop := ⟨some f.cause, f.sub, f.info, f.faddr, f.fetch, f.write, instrPc s, f.xtnt⟩
    match s.slice with
    | .a => settle (s.modCtx fun x => { x with phase := .cut, a := { x.a with stop := some st, block := none } })
    | .c =>
      let s := if f.cause == .trap || f.cause == .brk then s else requeue s
      settle (s.modCtx fun x => { x with
        phase := .cut
        c := { x.c with stop := some st, block := none }
        a := { x.a with stop := some (x.a.stop.getD (otherStop x.a.pc)), block := none } })

/-- Ends a meaning in the exception it takes. -/
def fault (c : Cause) (s : State) : Out := .next (raise { cause := c } s)

/-- A cause of the whole context, at the addresses of both slices' instructions (R239, R243). -/
def raiseWhole (f : Flt) (cpc : Word) (s : State) : State :=
  if s.ctx.sup then handlerFail s (handledCtx s)
  else
    let st := fun pc => (⟨some f.cause, f.sub, f.info, f.faddr, f.fetch, f.write, pc, f.xtnt⟩ : Stop)
    settle (s.modCtx fun x => { x with
      phase := .cut, a := { x.a with stop := some (st x.a.pc), block := none }, c := { x.c with stop := some (st cpc) } })

/-! The checks of decoding that need the state (R102, orders 6 to 8). -/

/-- Orders 6 and 8 of R102 for an instruction of a slice, or of both, that names some items. -/
def checkItems (s : State) (x : Option Slice) (need : List Item) : Option Cause :=
  if x.isSome && x != some s.slice then some .wrongSlice
  else if need.all (s.ctx.decl.has s.slice) then none else some .declaration

/-- Runs a meaning once its instruction has passed the checks. -/
def checked (s : State) (x : Option Slice) (need : List Item) (k : Out) : Out :=
  match checkItems s x need with
  | some c => fault c s
  | none => k

/-! Entering the handler and leaving it (R246 to R249). -/

/-- Word 0x000 of a record (R238, R246). -/
def recordWord0 (x : Context) (r : Record) : Word := BitVec.ofNat 64 (leNat ((recordBytes x r).take 8))

/-- The handler's context: R25, with TRAPREC and the record's first word in a1, c1, a2 and c2 (R246). -/
def handlerCtx (x : Context) (d : Decl) (c : CodeObj) : Context :=
  let w0 := recordWord0 x x.record
  { Context.reset with
    uid := x.uid, vd := x.vd, part := x.part, core := x.core, bank := x.bank, sup := true, det := x.det, dom := x.dom
    tdesc := x.tdesc, trapRec := x.trapRec, vec := x.vec, decl := d, code := c
    save := x.save.map fun b => b + saveSize x.decl x.det, m := { MemSide.reset with epoch := x.m.epoch }
    phase := .running, record := x.record, cycle := x.cycle
    a := { ASide.reset with
      order := x.a.order
      regs := (ASide.reset.regs.set 1 x.trapRec).set 2 w0, pc := BitVec.ofNat 64 (c.base + c.aoff) }
    c := { CSide.reset with
      regs := (CSide.reset.regs.set 1 x.trapRec).set 2 w0, pc := BitVec.ofNat 64 (c.base + c.coff) } }

/-- A page from which a handler's first instruction may be fetched: pinned in this package's stage 1 (R247, R286). One at another home is
not (log 52). -/
def pinnedAt (s : State) (vd va : Nat) : Bool :=
  match translate s vd va .fetch true with
  | .ok p => p.pin
  | .error _ => false

/-- HANDLER_ENTRY (R246): once the cut is complete, the object at TRAPVEC is loaded and started at supervisor level, or the task fails
with HANDLER_FAULT (R247, R286). A context that leaves its bank with its record enters the handler when it is next active (R241). -/
def enterHandler (s : State) : State :=
  let x := s.ctx
  if !s.live || x.phase != .stopped || x.record.preempt || x.sup || (s.core? x.core).any (fun c => c.switchTo.isSome) then s else
  let base := x.vec.toNat
  match loaderCheck s x.uid x.vd base true x.det with
  | .ok d c =>
    if !(pinnedAt s x.vd (base + c.aoff) && pinnedAt s x.vd (base + c.coff)) then handlerFail s x else
    { s with ctx := handlerCtx x d c, parked := { x with phase := .handled } :: s.parked }
  | _ => handlerFail s x

/-- A copy slot as a resume re-arms it (R249): a fault that has been reported is over; one still to be raised stays (R241). -/
def rearm (c : Slot) : Slot := if c.state == .faulted && c.cause.isNone then { c with state := .active } else c

/-- Withdraws the poison entries: each queue's push number falls by one for each (R242). -/
def withdraw (q : Couple) : Couple :=
  let bad := q.toC.filter AEntry.poison
  { q with
    toC := q.toC.filter fun e => !e.poison
    push := bad.foldl (fun p e => p.set (seqIdx e.queue) (p[seqIdx e.queue] - 1)) q.push
    nPushA := q.nPushA - bad.length }

/-- What still blocks an A-slice that resumes: the answer of a home, or of the partition supervisor (R285, R289). -/
def keptA : Option BlockA → Option BlockA
  | some (.stage2 n) => some (.stage2 n)
  | some .remote => some .remote
  | _ => none

/-- A context goes on from its cut, in scoreboard mode until every earlier operation has landed (R45, R249, R254). -/
def resumed (x : Context) : Context :=
  let till := x.c.pend.foldl (fun n p => max n p.due) 0
  { x with
    phase := .running, sbTill := till, sb := till > x.c.cc
    a := { x.a with stop := none, block := keptA x.a.block }
    c := { x.c with stop := none, block := if x.c.block == some .wait then some .wait else none }
    q := withdraw x.q
    m := { x.m with slots := x.m.slots.map rearm } }

/-- Whether a slice is over. -/
def ended (stopped eret : Bool) : Bool := stopped || eret

/-- The end of a handler, once each of its slices has executed `eret` or `done`: the task resumes, fails with its record's cause, or
fails with HANDLER_FAULT (R129, R131, R247, R248). DESIGN CHOICE (log 59): what the handler has logged and held follows what its task
has, the handler's instructions standing between the task's in the A-slice order. -/
def leaveHandler (s : State) : State :=
  let h := s.ctx
  if !h.sup || !ended h.a.stopped h.a.eret || !ended h.c.stopped h.c.eret then s else
  let x := handledCtx s
  if h.a.stopped && h.c.stopped then taskFail s x.uid ((stopCause x).getD .handlerFault)
  else if h.a.eret && h.c.eret && h.q.toC.isEmpty && h.q.sq.toList.all List.isEmpty && h.q.yq.isEmpty &&
      h.m.slots.toList.all (fun c => c.state == .free || c.state == .linked) then
    let y := resumed (readBack s x)
    { s with
      ctx := { y with
        core := h.core, bank := h.bank, cycle := h.cycle, a := { y.a with order := h.a.order }
        m := { y.m with
          log := y.m.log ++ h.m.log, held := y.m.held ++ h.m.held, past := y.m.past ++ h.m.past, epoch := h.m.epoch } }
      parked := s.parked.filter fun c => c.uid != x.uid }
  else handlerFail s x

end Sys2Proof.Machine
end

