-- ==== Sys2Proof/Machine/Stage2.lean ====
section
/-!
DEFINITION. Accesses held by a stage-2 fault: the record of R285 in the ring of R328, and its release by a RETRY or by the end of a
recalibration (R396).
-/

namespace Sys2Proof.Machine

/-- The physical address at which stage 2 of an address ends, or is refused: of its page, or of a table entry. -/
def refusedPa (s : State) (p : Partition) (ipa : Nat) : Nat := match walk2 s p ipa 3 p.fence.s2root with
  | .ok g => g.out
  | .error e => e.2

/-- A stage-2 fault of an access: its record, and a fence violation's count and report (R285, R328, R364). Answers its RSEQ. -/
def holdAccess (s : State) (part vd core : Nat) (f : S2Flt) (va : Word) (src : Nat) (fetch write : Bool) (h : Holder) : State × Nat :=
  match s.part? part with
  | none => (s, 0)
  | some p =>
    let r : S2Rec := ⟨p.rseq, va, f.ipa, f.reason, src, f.walk, fetch, write, vd, core, false, h⟩
    let s := s.modPart part fun p => { p with rseq := p.rseq + 1, recs := p.recs ++ [r] }
    let s := if f.reason = 4 then
        logMgmt (s.modPart part fun p => { p with viol := p.viol + 1 }) 7 6 part [part, refusedPa s p f.ipa, p.viol + 1]
      else s
    (fillRing s part (p.recs.length + 1), p.rseq)

/-- The context of a task, or of its handler, whose A-slice a record holds, tries its access again. -/
def releaseA (uid rseq : Nat) (x : Context) : Context :=
  if x.uid == uid && x.a.block == some (.stage2 rseq) then { x with a := { x.a with block := none } } else x

/-- The access that a record held translates again: the blocked slice tries once more (R285, R328). A held copy chunk, staging read or
peer request is tried again by its engine's next step, which finds no record in its way. -/
def releaseHeld (s : State) (r : S2Rec) : State :=
  match r.holder with
  | .aSlice uid => { s with ctx := releaseA uid r.rseq s.ctx, parked := s.parked.map (releaseA uid r.rseq) }
  | .cSlice uid => s.modUid uid fun x => { x with c := { x.c with block := if x.c.block == some .wait then none else x.c.block } }
  | _ => s

/-- A stage-2 fault of an A-slice access: it blocks until its release (R19, R285). -/
def heldA (s : State) (f : S2Flt) (va : Nat) (fetch write : Bool) : State :=
  let x := s.ctx
  let (s, n) := holdAccess s x.part x.vd x.core f (BitVec.ofNat 64 va) 0 fetch write (.aSlice x.uid)
  blockA s (.stage2 n)

/-- A stage-2 fault of a C-slice fetch: the front end waits. -/
def heldC (s : State) (f : S2Flt) (va : Nat) : State :=
  let x := s.ctx
  let (s, _) := holdAccess s x.part x.vd x.core f (BitVec.ofNat 64 va) 0 true false (.cSlice x.uid)
  s.modC fun c => { c with block := some .wait }

end Sys2Proof.Machine
end

