-- ==== Sys2Proof/Machine/Operands.lean ====
section
/-!
DEFINITION. The operands of scalar and control instructions: predicate prefixes (R83, R116), results with their latencies (R117),
immediates (R82), and the integer operations on words (R48, R49, R119).
-/

namespace Sys2Proof.Machine

/-! Scalar results (R115 to R117). -/

/-- A prefix other than none (R83). -/
def pqSome (q : Pq) : Bool := q.pn || q.pq != 0

/-- The predicate that a prefix names. -/
def pqPred (q : Pq) : Fin 64 := q.pq.castLE (by decide)

/-- Whether a scalar instruction writes: bit 0 of its predicate, after negation (R116). -/
def pqActive (s : State) (q : Pq) : Bool :=
  match s.slice with
  | .a => true
  | .c => (pRead s (pqPred q)).getLsbD 0 != q.pn

/-- A scalar result: at once in the A-slice, after its latency in the C-slice (R117). -/
def putG (s : State) (gd : Reg) (lat : Nat) (v : Word) : State :=
  match s.slice with
  | .a => aWrite s gd v
  | .c => pend s lat [.cReg gd v]

/-- An SRR or SRI instruction of `n` bytes that names some registers and has a result (R116, R117, R119, R121). -/
def scalarOp (s : State) (q : Pq) (regs : List Reg) (gd : Reg) (lat n : Nat) (v : Word) : Out :=
  if s.slice == .a && pqSome q then fault .wrongSlice s
  else checked s none (.p (pqPred q) :: regs.map Item.g) (.next (finish (if pqActive s q then putG s gd lat v else s) n))

/-! Integer operations on words. -/

def bool64 (b : Bool) : Word := if b then 1 else 0

/-- Division and remainder with the special cases of R49. -/
def divS (a b : Word) : Word := if b = 0 then BitVec.allOnes 64 else BitVec.sdiv a b
def divU (a b : Word) : Word := if b = 0 then BitVec.allOnes 64 else a / b
def remS (a b : Word) : Word := if b = 0 then a else BitVec.srem a b
def remU (a b : Word) : Word := if b = 0 then a else a % b

/-- The high halves of the products (R119). -/
def mulhS (a b : Word) : Word := BitVec.ofInt 64 (a.toInt * b.toInt / 2 ^ 64)
def mulhU (a b : Word) : Word := BitVec.ofNat 64 (a.toNat * b.toNat / 2 ^ 64)

/-- One bits, leading zeros and trailing zeros of a value of `w` bits. -/
def popNat : Nat → Nat → Nat
  | 0, _ => 0
  | w + 1, v => v % 2 + popNat w (v / 2)

def clzNat : Nat → Nat → Nat
  | 0, _ => 0
  | w + 1, v => if v / 2 ^ w % 2 = 1 then 0 else 1 + clzNat w v

def ctzNat : Nat → Nat → Nat
  | 0, _ => 0
  | w + 1, v => if v % 2 = 1 then 0 else 1 + ctzNat w (v / 2)

/-- Shift counts are taken modulo 64 (R119). -/
def shAmount (b : Word) : Nat := b.toNat % 64

/-- The field of a bit-field instruction: bits [pos + width - 1 : pos], width = wm1 + 1 (R122). -/
def fieldOf (a : Word) (pos wm1 : Nat) : Nat := a.toNat / 2 ^ pos % 2 ^ (wm1 + 1)

/-- Bits [pos + width - 1 : pos] of a word replaced (R122). -/
def fieldPut (old a : Word) (pos wm1 : Nat) : Word :=
  let mask : Word := BitVec.ofNat 64 ((2 ^ (wm1 + 1) - 1) * 2 ^ pos)
  (old &&& ~~~mask) ||| ((a <<< pos) &&& mask)

/-! Control transfer (R118, R123 to R127). -/

/-- A branch on a register last written by a pop of yq adds the core cycles it waited to LODCNT: a free value (R35, R127). -/
def lossOfDecoupling (s : State) (regs : List Reg) : State :=
  if s.slice == .a && regs.any fun r => s.ctx.a.fromYq[r] then
    (s.tick).modCtx fun x => { x with lodcnt := x.lodcnt + Config.freeWord s.fresh }
  else s

/-- A conditional branch of `n` bytes (R123). -/
def branch (s : State) (ga gb : Reg) (off : Word) (n : Nat) (taken : Bool) : Out :=
  checked s none [.g ga, .g gb]
    (let t := lossOfDecoupling s [ga, gb]
     .next (if taken then jumpTo t (instrPc s + 4 * off) else finish t n))

/-- `loop` (R124): the counter's new value decides. -/
def loopOp (s : State) (ga : Reg) (off : Word) (n : Nat) : Out :=
  checked s none [.g ga]
    (let count := gRead s ga - 1
     let t := putG (lossOfDecoupling s [ga]) ga 1 count
     .next (if count = 0 then finish t n else jumpTo t (instrPc s + 4 * off)))

/-- A call or jump with a link register, c0 or a0 for none (R125). -/
def callTo (s : State) (gd : Reg) (target : Word) : State := jumpTo (putG s gd 1 (instrPc s + 4)) target

end Sys2Proof.Machine
end

