-- ==== Sys2Proof/Machine/Lineage.lean ====
section
/-!
DEFINITION. The Regather unit and Lehr (R343 to R354): the walk of a wanted lost version, its rebuild task, the seal that ends a rebuild,
versions lost for good, and the replicas of anchors. These are the shared operations; the events that use them stand in RecoveryEvents.lean.
-/

namespace Sys2Proof.Machine

/-! Who wants a version (R351). -/

/-- A context whose A-slice, or one of whose copies' next chunk, waits for a version. -/
def waitsFor (x : Context) (name : Word) : Bool :=
  x.a.block == some (.tileAcquire name) || x.a.block == some (.tileLostAccess name) ||
  x.m.slots.toList.any fun c => c.state == .active && c.lost == name && name != 0

def wantsTile (s : State) (vd : Nat) (name : Word) (k : Task) : Bool :=
  k.vd == vd && k.alive &&
  ((k.state == .waiting && (operands k.desc).contains name && !operandReady s k name) ||
    (s.context? k.uid).any fun x => waitsFor x name)

/-- The tasks that want a version, and the highest PRIO among them. -/
def wanters (s : State) (vd : Nat) (name : Word) : List Task := s.tasks.filter (wantsTile s vd name)

def wantPrio (l : List Task) : Nat := l.foldl (fun n k => max n k.prio) 0

/-! Versions lost for good (R351, R353). -/

/-- A version is lost for good: the tasks that wait with it as an operand fail, and the walks that wanted it end the same way. -/
def loseAll : Nat → State → Nat → Word → State
  | 0, s, _, _ => s
  | fuel + 1, s, vd, name =>
    let s := loseForever s vd name
    let fail := s.tasks.filter fun k => k.vd == vd && k.state == .waiting && (operands k.desc).contains name
    let s := fail.foldl (fun s k => taskFail s k.uid .tileLost) s
    let up := s.recs.filter fun r => r.rbld && tileVd r.name == vd && r.acq.contains name
    up.foldl (fun s r => loseAll fuel s vd r.name) s

def loseVersion (s : State) (vd : Nat) (name : Word) : State := loseAll (s.recs.length + 1) s vd name

/-! The walk (R351). -/

/-- The rebuild task of a kept copy that has not yet executed its `talloc` of a version. -/
def rebuildTask (s : State) (kcopy : Nat) (name : Word) : Option Task :=
  s.tasks.find? fun k => k.rebuild && k.kcopy == kcopy && k.alive && !k.alloced.contains name

/-- Raises the priority of a version's rebuild task, if it is still to run or runs, and of the walks of its lost operands, at their homes. -/
def raiseTask : Nat → State → Word → Nat → State
  | 0, s, _, _ => s
  | fuel + 1, s, name, pr => match s.rec? name with
    | none => s
    | some r =>
      let s := s.modRec name fun r => { r with prio := max r.prio pr }
      let runs := fun (k : Task) => k.rebuild && k.kcopy == r.kcopy && (k.state == .waiting || k.state == .ready || k.state == .running)
      let s := { s with tasks := mapIf runs (fun k => { k with prio := max k.prio pr }) s.tasks }
      r.acq.foldl (fun s a => match awayHome s a with
        | some h => sendPeer s h (tileVd name) .rebuild 0 [a.toNat, pr, 1] []
        | none => if (s.rec? a).any fun x => x.rbld then raiseTask fuel s a pr else s) s

/-- A version that is there: sealed, resident, not lost. -/
def tileThere (s : State) (vd : Nat) (name : Word) : Bool :=
  (s.tile? vd name).any (fun t => t.sealed && t.resident) && !(s.rec? name).any LinRec.lost

/-- A version sealed again under its name: LOST and RBLD are cleared; the tasks that wanted a FREED one may acquire it, a TFREE that
came meanwhile takes effect, and accesses to lost memory that is still held go on (R348, R353, R354). -/
def resealed (s : State) (v : Vd) (name : Word) : State :=
  let freed := (s.rec? name).any LinRec.freed
  let late := (s.rec? name).any LinRec.tfree
  let want := (wanters s v.num name).map Task.uid
  let s := setSealed s v name
  let s := modShared s name fun r => { r with lost := false, rbld := false, prio := 0, freed := r.freed || late, tfree := false }
  let s := if freed then { s with
      tasks := mapIf (fun k => want.contains k.uid && !k.freed.contains name) (fun k => { k with freed := name :: k.freed }) s.tasks
      rests := mapIf (fun r => r.name == name) (fun r => { r with ok := true }) s.rests } else s
  let s := if late then (s.tile? v.num name).elim s (freeSeal s) else s
  let s := (s.tiles.filter fun t => t.vd == v.num && t.name == name && t.stale && !t.resident).foldl (fun s t => match s.tile? v.num name with
    | some u => (hwWrite s v.num t.va (hwRead s v.num u.va u.size)).modExtent v.num t.va fun t => { t with resident := true }
    | none => s) s
  trim (tellRests s v.num name)

/-- The seal of a rebuilt version: its digest decides (R353). In a pair whose digests differed, the two new ones are compared (R359). -/
def reseal (s : State) (v : Vd) (r : LinRec) (dg : Word) (tainted : Bool) : State :=
  if (dg == r.digest || r.again) && !tainted then resealed (modShared s r.name fun r => { r with digest := dg }) v r.name
  else loseVersion (logMgmt s 5 7 v.num [r.name.toNat, r.digest.toNat, dg.toNat]) v.num r.name

/-- Whether every byte of a range of a VD's memory can be read. -/
def rangeGood (s : State) (vd va len : Nat) : Bool :=
  (pieces va len).all fun p => match hwTranslate s vd p.1 with
    | none => false
    | some pa => (List.range (p.2 / 64 + 2)).all fun i => !badUnit s (min (pa + 64 * i) (pa + p.2 - 1))

/-- A replica of this package that is there and whose bytes have the digest. -/
def replicaBytes (s : State) (vd : Nat) (r : LinRec) : Option (List Byte) :=
  if r.replica = 0 || (homeOf s vd r.replica.toNat).isSome || !rangeGood s vd (localVa r.replica.toNat) r.size then none else
  let bs := hwRead s vd r.replica.toNat r.size
  if digest bs == r.digest then some bs else none

/-- The place of a version that is restored: its own, or a new one where its memory has been taken back. -/
def tilePlace (s : State) (v : Vd) (r : LinRec) : State × Option Nat :=
  match s.tile? v.num r.name with
  | some t => (s, some t.va)
  | none => match placeTile s v r.name r.size with
    | (s, none) => (s, none)
    | (s, some va) => ({ s with tiles := ⟨r.name, v.num, va, r.size, false, false, 0, false, false, true, 0, false⟩ :: s.tiles }, some va)

/-- A replica at the buddy package (R346). -/
def replicaAway (s : State) (r : LinRec) : Option Nat := if r.replica = 0 then none else
  (homeOf s (tileVd r.name) r.replica.toNat).bind fun h => if s.peers.any fun p => p.num == h && p.lost then none else some h

/-- Enqueues the kept copy of a producer as a new task (R351). -/
def enqueueRebuild (s : State) (v : Vd) (r : LinRec) (pr : Nat) : State :=
  let bs := keptRead s r.kcopy
  let word := fun i => BitVec.ofNat 64 (leNat ((bs.drop (8 * i)).take 8))
  let d : Vector Word 16 := markDesc (Vector.ofFn fun i => word i.val) (bits (word 3).toNat 52 52 = 1) true
  let ps := (List.range (descNparam d)).map fun i => word (16 + i)
  let s := s.modVd v.num fun v => { v with rgcnt := v.rgcnt + 1 }
  admitTask s { newTask v.num v.part d ps r.tqidx r.tpseq none with rebuild := true, rgth := true, prio := pr, kcopy := r.kcopy }

/-- The walk of a lost version. An anchor is restored from its replica; a root without one is lost for good; otherwise the lost operands
are walked and the producer is enqueued, or joined. A weight tile is fetched again by the staging engine, in its window alone (R295, R296). -/
def walkFrom : Nat → State → Vd → Word → Nat → State
  | 0, s, _, _, _ => s
  | fuel + 1, s, v, name, pr =>
    match openRec s name with
    | none => loseVersion s v.num name
    | some r =>
      if r.gone || (!r.prim && !r.second && !(r.complete && r.replica ≠ 0)) then loseVersion s v.num name
      else if r.weight then s
      else
      let pr := max r.prio pr
      let s := s.modRec name fun r => { r with prio := pr }
      if r.rbld then raiseTask fuel s name pr
      else
      let s := modShared s name fun r => { r with rbld := true }
      match if r.complete then replicaBytes s v.num r else none with
      | some bs => match tilePlace s v r with
        | (s, some va) => resealed (hwWrite s v.num va bs) v name
        | (s, none) => modShared s name fun r => { r with rbld := false }
      | none => match if r.complete then replicaAway s r else none with
        | some h => sendPeer s h v.num .replica r.replica.toNat [0, name.toNat, r.size] []
        | none =>
          if r.root then loseVersion s v.num name else
          let s := r.acq.foldl (fun s a => match awayHome s a with
            | some h => sendPeer s h v.num .rebuild 0 [a.toNat, pr, 0] []
            | none => if tileThere s v.num a then s else walkFrom fuel s v a pr) s
          if tileGone s v.num name then s
          else if (rebuildTask s r.kcopy name).isSome then raiseTask fuel s name pr
          else enqueueRebuild s v r pr

def walk (s : State) (v : Vd) (name : Word) (pr : Nat) : State := walkFrom (s.recs.length + 1) s v name pr

/-- Whether a walk can bring a version back: its bytes are lost, or it is FREED, whether or not its memory is still held (R348, R350). -/
def walkable (s : State) (name : Word) : Bool := (openRec s name).any fun r => !r.gone && !r.weight && (r.lost || r.freed)

/-- A FREED version whose memory is still held counts as lost for who has no access to it; the memory stays (R348). -/
def loseFreed (s : State) (vd : Nat) (name : Word) : State :=
  if (s.rec? name).any LinRec.freed then modShared s name fun r => { r with lost := true } else loseTile s vd name

/-- A version that is wanted is walked (R351). -/
def walkWanted (s : State) (vd : Nat) (name : Word) (pr : Nat) : State :=
  match s.vd? vd with
  | none => s
  | some v =>
    if !walkable s name then s
    else if (s.rec? name).any LinRec.rbld then walk s v name pr
    else walk (loseFreed s vd name) v name pr

/-- A version that has gone, and that tasks still wait for as an operand: the walk finds no record (R351). -/
def goneWanted (s : State) (vd : Nat) (name : Word) : Bool :=
  tileGone s vd name && s.tasks.any fun k => k.vd == vd && k.state == .waiting && (operands k.desc).contains name

/-! Losses (R350). -/

/-- The version whose extent holds a physical address (the tile directory). -/
def tileAtPa (s : State) (pa : Nat) : Option Tile :=
  s.tiles.find? fun t => (pieces t.va t.size).any fun p => match hwTranslate s t.vd p.1 with
    | none => false
    | some q => q ≤ pa && pa < q + p.2

/-- Tasks of other packages stand in a version's owner with their package (Peer.lean). -/
def farUid (pkg uid : Nat) : Nat := 2 ^ 50 * (pkg + 1) + uid

/-- The abort of a version's producer, on this package or on its own (R350). -/
def abortOwner (s : State) (vd owner : Nat) : State :=
  if owner < 2 ^ 50 then taskAbort s owner
  else askTile s (owner / 2 ^ 50 - 1) vd 0 0 .abort (BitVec.ofNat 64 (owner % 2 ^ 50 % handlerUid)) []

/-- The loss of a version's memory: a sealed one is lost, the producer of one that is not sealed is aborted. -/
def tileHit (s : State) (t : Tile) : State :=
  if t.sealed then (if t.resident then (extentLost s t).getD s else s)
  else abortOwner s t.vd t.owner

/-! Lehr (R346). -/

/-- The dies that hold a version's bytes. -/
def tileDies (s : State) (vd : Nat) (name : Word) : List Nat :=
  ((s.tile? vd name).elim [] fun t => (pieces t.va t.size).filterMap fun p => (hwTranslate s vd p.1).bind fun pa => match target pa with
    | .hbm st _ => some (st / 3)
    | .dur site _ => some site
    | _ => none).eraseDups

/-- The site from which a replica keeps away: that of a DUR version's bytes, else that of the base die of its home's unit (R346); on a part
without a reserve the base die of the stack that holds the version (R312). -/
def siteOf (s : State) (vd : Nat) (name : Word) : Nat :=
  match (s.tile? vd name).bind fun t => (hwTranslate s vd t.va).map target with
  | some (.dur site _) => site
  | some (.hbm st _) => if s.pkg.nores then st / 3 else tileUnit name
  | _ => tileUnit name

/-- Where a stretch of the anchor pool lies: the site, or the base die of its stack on a part without a reserve (R312). -/
def poolDie (s : State) (vd va len : Nat) : Option Nat :=
  let dies := (pieces va len).map fun p => match (hwTranslate s vd p.1).map target with
    | some (.dur site _) => some site
    | some (.hbm st _) => if s.pkg.nores then some (st / 3) else none
    | _ => none
  match dies with
  | d :: l => if l.all (· == d) then d else none
  | [] => none

/-- Bytes of a replica with the copy of its record beside it, in whole 512-byte steps. -/
def replicaLen (r : LinRec) : Nat := r.size + 512

/-- The first free stretch of the pool on a die, of those that start at the pool's start, at a page, or at the end of a replica. -/
def poolFind (s : State) (v : Vd) (len die : Nat) : Option Nat :=
  let used := v.replicas.map fun x => (x.1, x.2.1)
  let starts := (List.range (v.aplen / 4096)).map (fun i => v.apool + 4096 * i) ++ used.map fun u => u.1 + u.2
  starts.find? fun a => v.apool ≤ a && a + len ≤ v.apool + v.aplen && used.all (fun u => a + len ≤ u.1 || u.1 + u.2 ≤ a) &&
    poolDie s v.num a len == some die

/-- Free space in the order of R346: the next site after the version's, then the others but its own; without a reserve none on a die that
holds bytes of the version (R312). -/
def replicaPlace (s : State) (v : Vd) (r : LinRec) : Option Nat :=
  let d := siteOf s v.num r.name
  let own := tileDies s v.num r.name
  ([1, 2, 3].filter fun k => !(s.pkg.nores && own.contains ((d + k) % 4))).findSome? fun k => poolFind s v (replicaLen r) ((d + k) % 4)

/-- Anchors of a VD whose replica is pending (R348). -/
def anpend (s : State) (vd : Nat) : Nat := (s.recs.filter fun r => r.anchor && r.apend && tileVd r.name == vd).length

/-- A replica is complete: its record says so, and the records it listed lose their need (R346, R347). -/
def anchorDone (s : State) (name replica : Word) : State :=
  match s.rec? name with
  | none => s
  | some r =>
    if !r.apend then s else
    let s := modShared s name fun r => { r with apend := false, replica := replica, lstep := 0, lplace := 0 }
    trim (needDown s r.acq)

/-- The next step of a replica in the anchor pool (R346): its bytes, then the copy of the record beside them, then REPLICA; each once the tier
has accepted the one before. Without space Lehr reports and tries again later. -/
def lehrHere (s : State) (v : Vd) (r : LinRec) (t : Tile) : State :=
  let at_ := r.lplace.toNat
  if r.lstep = 0 || r.lstep = 3 then
    match replicaPlace s v r with
    | none => logMgmt (s.modRec r.name fun r => { r with lstep := 3 }) 6 7 v.num [v.num, anpend s v.num]
    | some va =>
      let s := ordWrite s v.num va (hwRead s v.num t.va t.size)
      let s := s.modVd v.num fun v => { v with replicas := (va, replicaLen r, r.name) :: v.replicas }
      s.modRec r.name fun r => { r with lstep := 1, lplace := BitVec.ofNat 64 va }
  else if rangePending s v.num at_ (replicaLen r) then s
  else if r.lstep = 1 then (ordWrite s v.num (at_ + r.size) (lrecBytes r)).modRec r.name fun r => { r with lstep := 2 }
  else anchorDone s r.name r.lplace

/-- Lehr's step for one anchor. A replica at the buddy package goes there in the same steps: its bytes now, the rest as it acknowledges them. -/
def lehr (s : State) (v : Vd) (r : LinRec) : State :=
  if !r.anchor || !r.apend then s else
  match s.tile? v.num r.name with
  | none => s
  | some t =>
    if !t.resident then s
    else if !v.atgt then lehrHere s v r t
    else if r.lstep = 1 || r.lstep = 2 || peerLost s v.buddy then s
    else (sendPeer s v.buddy v.num .replica 0 [1, r.name.toNat, r.size] (hwRead s v.num t.va t.size)).modRec r.name fun r =>
      { r with lstep := 1 }

end Sys2Proof.Machine
end

