-- ==== Sys2Proof/Machine/Queues.lean ====
section
/-!
DEFINITION. User queues: control blocks, kicks, states, slots and the journal (R313 to R328), and the packets (R316 to R319).
-/

namespace Sys2Proof.Machine

/-! Order stamps. -/

def State.stamped (s : State) : State := { s with stamp := s.stamp + 1 }

/-! Control blocks (R313). -/

/-- A queue with the fields that software may have written in its control block. -/
def readQcb (s : State) (x : Queue) : Queue :=
  let bs := hwRead s x.vd x.qcb 256
  let f := fun o n => leNat ((bs.drop o).take n)
  let w1 := f 8 8
  { x with
    base := f 0 8, supq := bits w1 37 37 == 1, lsize := bits w1 36 32, prio := bits w1 31 28
    head := f 0x10 8, tail := f 0x18 8, progress := f 0x20 8, age := bits (f 0x28 8) 63 32, kpend := bits (f 0x28 8) 0 0 == 1
    pseq := f 0x30 8, dseq := f 0x38 8, reca := f 0x40 8
    shadow := Vector.ofFn fun i : Fin 32 => BitVec.ofNat 32 (f (0x80 + 4 * i.val) 4) }

/-- QCB_INVALID: a reserved field, a ring size out of range, or HEAD above TAIL (R313). -/
def qcbBad (s : State) (x : Queue) : Bool :=
  let bs := hwRead s x.vd x.qcb 256
  let f := fun o n => leNat ((bs.drop o).take n)
  bits (f 8 8) 63 38 != 0 || bits (f 8 8) 23 21 != 0 || bits (f 0x28 8) 31 1 != 0 || ((bs.drop 0x48).take 56).any (· != 0) ||
    x.lsize < 12 || x.lsize > 30 || x.head > x.tail

/-- A ring that holds more than its size (R314). -/
def overrun (x : Queue) : Bool := x.tail - x.head > 2 ^ x.lsize

def vdActive (s : State) (vd : Nat) : Bool := match s.vd? vd with
  | some v => v.dorm == .active
  | none => false

/-- A queue becomes PENDING, after every queue that is so already (R325). -/
def toPending (s : State) (vd q : Nat) : State :=
  (setQueue s vd q fun x => { x with state := .pending, since := s.stamp, held := false, back := false }).stamped

/-- A trigger of R370: a VD that is dormant starts to reheat; one that collapses too, with the step in progress, before which its contexts have
not left their banks: the depth it has reached is warm (R367, R369). -/
def reheatTrigger (s : State) (vd : Nat) : State :=
  s.modVd vd fun v => match v.dorm with
    | .collapsing => { v with dorm := .reheating, depth := 0 }
    | .dormant => { v with dorm := .reheating }
    | _ => v

def countBad (s : State) (vd : Nat) : State := s.modVd vd fun v => { v with nbad := min (v.nbad + 1) 65535 }

/-- Freezes a queue with the record of a packet (R338, R339). -/
def freezeAtPacket (s : State) (x : Queue) (qcause pseq poff : Nat) (tcause faddr : Nat := 0) (stage2 : Bool := false) : State :=
  freezeQueue s x.vd x.qidx { qcause := qcause, tcause := tcause, pseq := pseq, poff := poff, faddr := faddr, stage2 := stage2 }

/-- A kick (R314, R321, R322). -/
def applyKick (s : State) (vd : Nat) (w : Word) : State :=
  let q := bits w.toNat 59 48
  if bits w.toNat 63 60 ≠ 0 then countBad s vd else
  match s.queue? vd q with
  | none => countBad s vd
  | some x0 =>
    let x := if x0.state == .disabled then readQcb s x0 else x0
    let d := (bits w.toNat 47 0 + 2 ^ 48 - x.tail % 2 ^ 48) % 2 ^ 48
    if d ≥ 2 ^ 47 then s else
    let y := { x with tail := x.tail + d, kpend := x.kpend || x.state != .mapped }
    let s := reheatTrigger (setQueue s vd q fun _ => y) vd
    if overrun y then freezeAtPacket s y 3 y.pseq y.head
    else if !vdActive s vd then s
    else match y.state with
      | .idle => if y.tail > y.head then toPending s vd q else s
      | .fetchFault => toPending (endFetchFault s y) vd q
      | _ => s

/-! SCHED_QCTL (R321, R324). -/

def queueEnable (s : State) (vd q : Nat) : State :=
  match s.queue? vd q with
  | none => s
  | some x0 =>
    if x0.state != .disabled then s else
    let x := readQcb s x0
    if x.head > x.tail then s
    else if overrun x then
      setQueue (writeQRec (s.modQueue vd q fun _ => x) x { qcause := 3, pseq := x.pseq, poff := x.head }) vd q
        fun x => { x with state := .frozen }
    else if x.head = x.tail then setQueue s vd q fun _ => { x with state := .idle }
    else toPending (s.modQueue vd q fun _ => x) vd q

def queueDisable (s : State) (vd q : Nat) : State :=
  match s.queue? vd q with
  | none => s
  | some x =>
    if x.state == .idle || x.state == .fetchFault || x.state == .frozen
    then setQueue (endFetchFault s x) vd q fun x => { x with state := .disabled } else s

/-- The Crucible as a unit that reads another home: one asker for each queue. -/
def ringReader (vd q : Nat) : Nat := 2 ^ 41 + 4096 * vd + q

/-- A reset discards what was fetched and not complete (R321). -/
def queueReset (s : State) (vd q : Nat) : State :=
  match s.queue? vd q with
  | none => s
  | some x =>
    if x.state == .fetchFault || x.state == .frozen then
      setQueue (endFetchFault (dropFar s (ringReader vd q)) x) vd q fun x => { x with
        state := .idle, head := x.tail, progress := x.tail, dseq := x.pseq, shadow := Vector.replicate 32 0, kpend := false
        journal := [] }
    else s

def queueControl (s : State) (vd q op : Nat) : State :=
  match op with
  | 0 => queueEnable s vd q
  | 1 => queueDisable s vd q
  | 2 => queueReset s vd q
  | _ => s

/-! Slots (R320, R325). -/

def vdPart (s : State) (vd : Nat) : Nat := (s.vd? vd).elim 0 (·.part)

def partQueues (s : State) (part : Nat) : List Queue := s.queues.filter fun x => vdPart s x.vd == part

def slotsUsed (s : State) (part : Nat) : Nat :=
  ((partQueues s part).filter fun x => x.state == .mapping || x.state == .mapped || x.state == .unmapping).length

def slotFree (s : State) (p : Partition) : Bool := slotsUsed s p.num < p.fence.slots

/-- Effective priority of a PENDING queue. -/
def effPrio (x : Queue) : Nat := min 15 (x.prio + x.age)

/-- Whether one PENDING queue goes before another: EQ, then longest PENDING, then the lower number. -/
def queueBefore (x y : Queue) : Bool :=
  effPrio x > effPrio y || (effPrio x == effPrio y &&
    (x.since < y.since || (x.since == y.since && (x.vd < y.vd || (x.vd == y.vd && x.qidx < y.qidx)))))

/-- The first of a list by an order. -/
def firstBy {α : Type} (before : α → α → Bool) : List α → Option α
  | [] => none
  | x :: l => match firstBy before l with
    | none => some x
    | some y => some (if before y x then y else x)

def nextPending (s : State) (part : Nat) : Option Queue :=
  firstBy queueBefore ((partQueues s part).filter fun x => x.state == .pending && vdActive s x.vd)

/-- The queue that a displacement takes: lowest PRIO, mapped longest. -/
def victim (s : State) (part : Nat) : Option Queue :=
  firstBy (fun x y => x.prio < y.prio || (x.prio == y.prio && x.since < y.since))
    ((partQueues s part).filter fun x => x.state == .mapped)

/-- Grants a free slot: the control block is checked, and the queue is MAPPED (R313, R325). -/
def slotGrant (s : State) (part : Nat) : State :=
  match s.part? part with
  | none => s
  | some p =>
    if !slotFree s p then s else
    match nextPending s part with
    | none => s
    | some x =>
      let s := setQueue s x.vd x.qidx fun x => { x with state := .mapping, age := 0, kpend := false }
      match s.queue? x.vd x.qidx with
      | none => s
      | some y =>
        if qcbBad s y then freezeAtPacket s y 10 y.pseq y.head
        else (setQueue s y.vd y.qidx fun y => { y with state := .mapped, since := s.stamp, held := false }).stamped

/-- A packet that holds those after it: WAITV, FENCE, DORMANT (R318, R368). -/
def holdsLater (e : JEntry) : Bool := (e.ptype == 2 || e.ptype == 7 || e.ptype == 8) && !e.complete

/-- Entries before a packet in its queue. -/
def earlier (x : Queue) (e : JEntry) : List JEntry := x.journal.filter fun d => d.pseq < e.pseq

/-- Whether a packet may start: every packet before it has begun, and none holds it (R318). -/
def mayStart (x : Queue) (e : JEntry) : Bool := (earlier x e).all fun d => (d.begun || d.complete) && !holdsLater d

/-- A mapped queue that holds at a WAITV or FENCE. -/
def holding (x : Queue) : Bool := x.state == .mapped && x.journal.any fun e => e.begun && (e.ptype == 2 || e.ptype == 7) && !e.complete

/-- A 64-bit argument: its low word first. -/
def arg64 (args : List (BitVec 32)) (k : Nat) : Nat := (nth 0 args k).toNat + 2 ^ 32 * (nth 0 args (k + 1)).toNat

def arg32 (args : List (BitVec 32)) (k : Nat) : Nat := (nth 0 args k).toNat

/-- Bytes of the next chunk of a COPY: 256, cut at the border of a destination chunk of the packet (R327). -/
def copyLen (e : JEntry) : Nat := min 256 (arg64 e.args 4 - e.moved)

/-- The ranges of its VD's memory that the next step of a COPY, TILEPUT or MAP accesses (R319). -/
def packetRanges (e : JEntry) : List (Nat × Nat) :=
  match e.ptype with
  | 4 => [(arg64 e.args 2 + e.moved, copyLen e), (arg64 e.args 0 + e.moved, copyLen e)]
  | 5 => [(arg64 e.args 2, arg32 e.args 4)]
  | 6 => [(arg64 e.args 0, 1)]
  | _ => []

/-- A packet that waits for the RETRY of a stage-2 fault of its own (R285). -/
def packetHeld (s : State) (x : Queue) (e : JEntry) : Bool := heldIn s x.vd 1 (packetRanges e)

/-- A packet that has been started and moves bytes until it is complete: no displacement splits it, unless it waits for a RETRY, which may
come on the queue that needs the slot (R325, R328). -/
def splits (s : State) (x : Queue) : Bool :=
  x.journal.any fun e => e.begun && !e.complete && (e.ptype == 4 || e.ptype == 5 || e.ptype == 6) && !packetHeld s x e

/-- A list in an order, from its first. -/
def ordered {α : Type} [BEq α] (before : α → α → Bool) : Nat → List α → List α
  | 0, _ => []
  | fuel + 1, l => match firstBy before l with
    | none => []
    | some x => x :: ordered before fuel (l.erase x)

/-- The PENDING queue for which no slot is being emptied yet: the slots of queues that unmap go to those before it (R325). -/
def pendingBeyond (s : State) (part : Nat) : Option Queue :=
  let pend := (partQueues s part).filter fun x => x.state == .pending && vdActive s x.vd
  (ordered queueBefore pend.length pend)[((partQueues s part).filter fun x => x.state == .unmapping).length]?

/-- A mapped queue gives its slot to a PENDING one (R321, R325), at a packet boundary. -/
def displace (s : State) (part : Nat) : State :=
  match s.part? part, pendingBeyond s part with
  | some p, some x =>
    if slotFree s p then s else
    match (partQueues s part).find? fun y => holding y && !splits s y with
    | some y => setQueue s y.vd y.qidx fun y => { y with state := .unmapping, back := true }
    | none => match victim s part with
      | none => s
      | some y =>
        if (effPrio x > y.prio || (effPrio x == 15 && y.held)) && !splits s y then
          setQueue s y.vd y.qidx fun y => { y with state := .unmapping, back := true }
        else s
  | _, _ => s

/-- A mapped queue with nothing to fetch and no packet that waits to start (R321). -/
def idleQueue (x : Queue) : Bool := x.state == .mapped && x.head == x.tail && x.journal.all fun e => e.begun || e.complete

/-- An idle queue starts to unmap (R321). -/
def idleUnmap (s : State) (vd q : Nat) : State :=
  match s.queue? vd q with
  | some x => if idleQueue x
      then setQueue s vd q fun x => { x with state := .unmapping, back := false } else s
  | none => s

/-- The end of an unmapping (R321, R322). -/
def unmapped (s : State) (vd q : Nat) : State :=
  match s.queue? vd q with
  | some x =>
    if x.state != .unmapping then s
    else if x.back || (x.kpend && x.tail > x.head) then toPending s vd q
    else setQueue s vd q fun x => { x with state := .idle, kpend := false }
  | none => s

/-! Accesses of the Crucible to a VD's memory (R317 to R319, R326). -/

/-- What an access of the Crucible meets. -/
inductive CAcc where
  | ok (ps : List (Place × Nat))
  | flt (c : Cause) (va : Nat)
  | held (f : S2Flt) (va : Nat)
  | remote (home : Nat)
deriving DecidableEq, Repr

/-- One piece: no handle of a packet covers TILE memory, and DEV memory takes no such access (R137). -/
def crucPiece (s : State) (vd : Nat) (k : AKind) (va len : Nat) : Except CAcc (Place × Nat) :=
  match translate s vd va k true with
  | .error (.flt c a) => .error (.flt c a)
  | .error (.s2 f a) => .error (.held f a)
  | .error (.remote h) => .error (.remote h)
  | .ok p => if p.mt == .tile then .error (.flt .access va)
      else if accessBad s k (p, len) then .error (.flt .memUncorrectable va)
      else .ok (p, len)

def crucPieces (s : State) (vd : Nat) (k : AKind) : List (Nat × Nat) → CAcc
  | [] => .ok []
  | p :: l => match crucPiece s vd k p.1 p.2 with
    | .error e => e
    | .ok x => match crucPieces s vd k l with
      | .ok xs => .ok (x :: xs)
      | e => e

def crucAccess (s : State) (vd : Nat) (k : AKind) (va len : Nat) : CAcc :=
  if va + len > 2 ^ 56 then .flt .address va else crucPieces s vd k (pieces va len)

def placesBytes (s : State) (ps : List (Place × Nat)) : List Byte := ps.flatMap fun p => memGetN s.mem p.1.pa p.2

/-- Writes bytes at places at once. -/
def writePlaces (s : State) : List (Place × Nat) → List Byte → State
  | [], _ => s
  | (p, n) :: ps, bs => writePlaces (performRun s 0 0 p.pa (bs.take n)) ps (bs.drop n)

/-- A stage-2 fault of a packet's own access: its record goes to the supervisor, and the queue freezes (R285). -/
def noteS2 (s : State) (vd : Nat) (f : S2Flt) (va src : Nat) (write : Bool) : State :=
  (holdAccess s (vdPart s vd) vd 255 f (BitVec.ofNat 64 va) src false write .none).1

/-- TCAUSE of a queue's record for a fault of the Crucible's access (R339). For a stage-2 fault the spec leaves open which of the two it is:
PAGE_FAULT where the walk finds no page, ACCESS where it refuses one, as in stage 1 (R284; log 57). -/
def queueCause (c : Cause) : Nat := causeCode (match c with
  | .pageFault => .pageFault
  | .memUncorrectable => .memUncorrectable
  | _ => .access)

def s2Cause (f : S2Flt) : Nat := causeCode (if f.reason = 1 || f.reason = 2 then .pageFault else .access)

/-- The address at which another home has found a fault (R135). -/
def answerVa (r : Answer) (va : Nat) : Nat := if r.status = 1 then leNat (r.data.take 8) else va

/-! Fetching packets (R315, R316, R326, R327). -/

/-- The address of a ring byte count (R313). -/
def ringVa (x : Queue) (n : Nat) : Nat := x.base + n % 2 ^ x.lsize

/-- One ring word: read here, or answered by its home (R289, R326). A word that its home has yet to give is `remote`, a word of a lost home
cannot be read. -/
def ringWord (s : State) (x : Queue) (at_ : Nat) : Except (CAcc × Nat) Nat :=
  let va := ringVa x at_
  match crucAccess s x.vd .load va 4 with
  | .ok ps => .ok (leNat (placesBytes s ps))
  | .remote h => match farAnswer s (ringReader x.vd x.qidx) va with
    | some r => if r.status = 0 then .ok (leNat (reply r).data) else .error (.flt (causeOf r.cause) (answerVa r va), va)
    | none => if peerLost s h then .error (.flt .access va, va) else .error (.remote h, va)
  | e => .error (e, va)

/-- The words of a ring from a byte count, or why one cannot be read, and its address. -/
def ringWords (s : State) (x : Queue) : Nat → Nat → Except (CAcc × Nat) (List Nat)
  | 0, _ => .ok []
  | n + 1, at_ => match ringWord s x at_ with
    | .ok w => match ringWords s x n (at_ + 4) with
      | .ok l => .ok (w :: l)
      | .error e => .error e
    | .error e => .error e

/-- Argument words of each type (R316). -/
def argCount : Nat → Option Nat
  | 0 => some 0 | 1 => some 0 | 2 => some 4 | 3 => some 5 | 4 => some 6 | 5 => some 5 | 6 => some 5 | 7 => some 1 | 8 => some 0
  | 9 => some 0 | 10 => some 2
  | _ => none

/-- A privileged MAP entry (R319). -/
def privEntry (e : Nat) : Bool := bits e 11 11 == 1 || bits e 60 60 == 1

/-- The PA of the stage-1 entry that a MAP writes: the walk from the root to its level. `miss` if an entry on the way is no table. -/
def mapSlot (s : State) (p : Partition) (va lvl : Nat) : Nat → Nat → Except WalkFlt Nat
  | level, table =>
    match stage2 s p (entryAddr table level va) (level = lvl) false with
    | .error r => .error (.s2 ⟨r, entryAddr table level va, true⟩)
    | .ok pa =>
      if retiredPa s pa then .error (.s2 ⟨4, entryAddr table level va, true⟩) else
      if level = lvl then .ok pa else
      match level with
      | 0 => .error .miss
      | l + 1 => match readEntry true (l + 1) va (memWord s.mem pa 8) with
        | some (.inl t) => if memWord s.mem pa 8 % 2 = 1 then mapSlot s p va lvl l t else .error .miss
        | _ => .error .miss

def mapTarget (s : State) (vd va lvl : Nat) : Except WalkFlt Nat :=
  match s.vd? vd with
  | none => .error .miss
  | some v => match s.part? v.part with
    | none => .error .miss
    | some p => mapSlot s p va lvl 4 v.s1root

/-- Whether a MAP is privileged: its entry, or the one it replaces (R319). -/
def mapPrivileged (s : State) (vd : Nat) (args : List (BitVec 32)) : Bool :=
  privEntry (arg64 args 2) || match mapTarget s vd (arg64 args 0) (arg32 args 4) with
    | .ok pa => let e := memWord s.mem pa 8; e % 2 == 1 && privEntry e
    | .error _ => false

/-- Arguments outside their range, and packets that need a supervisor's queue (R316). -/
def argsBad (s : State) (x : Queue) (ty : Nat) (args : List (BitVec 32)) : Bool :=
  match ty with
  | 2 => arg64 args 0 % 8 != 0
  | 3 => arg64 args 0 % 8 != 0 || arg32 args 4 > 1
  | 4 => arg64 args 4 == 0 || arg64 args 4 > 2 ^ 40
  | 6 => arg32 args 4 > 4 || (!x.supq && mapPrivileged s x.vd args)
  | 7 => arg32 args 0 > 4
  | 10 => !x.supq
  | _ => false

/-- Replaces the shadow registers that a mask names, in ascending order (R315). -/
def putShadow (mask : Nat) : List Nat → List (BitVec 32) → Vector (BitVec 32) 32 → Vector (BitVec 32) 32
  | [], _, v => v
  | i :: is, ws, v =>
    if mask / 2 ^ i % 2 = 1 then match ws with
      | [] => v
      | w :: rest => putShadow mask is rest (if h : i < 32 then v.set i w else v)
    else putShadow mask is ws v

/-- A fetch that cannot read the ring: the queue enters FETCH_FAULT, or waits for the word that another home has been asked for (R326). -/
def fetchFault (s : State) (x : Queue) (e : CAcc × Nat) : State :=
  match e.1 with
  | .remote h => askFar s h x.vd (ringReader x.vd x.qidx) e.2 4 1
  | _ =>
    let (cause, va, s2) := match e.1 with
      | .flt .pageFault a => (causeCode .pageFault, a, none)
      | .flt _ a => (causeCode .access, a, none)
      | .held f a => (s2Cause f, a, some f)
      | _ => (causeCode .access, e.2, none)
    let s := dropFar s (ringReader x.vd x.qidx)
    let s := match s2 with
      | some f => (holdAccess s (vdPart s x.vd) x.vd 255 f (BitVec.ofNat 64 va) 4 false false (.ring x.vd x.qidx)).1
      | none => s
    let s := writeQRec s x { qcause := 1, tcause := cause, pseq := x.pseq, poff := x.head, faddr := va, stage2 := s2.isSome }
    setQueue s x.vd x.qidx fun x => { x with state := .fetchFault }

/-- The bytes of a packet, by its header and mask words (R315). -/
def packetSize (h mask : Nat) : Nat := (8 + 4 * (popNat 32 mask + bits h 23 16) + 7) / 8 * 8

/-- A mapped queue whose turn to fetch can do something: a packet is covered by TAIL, or its words cannot be read, or are to be asked for
(R315, R326, R327). -/
def fetches (s : State) (x : Queue) : Bool :=
  let asked := fun (e : CAcc × Nat) => match e.1 with
    | .remote _ => s.far.any fun r => r.who == ringReader x.vd x.qidx && r.va == e.2
    | _ => false
  x.state == .mapped && x.tail ≥ x.head + 8 && (s.vd? x.vd).any (fun v => v.dorm == .active && !v.stopFetch) &&
    (x.journal.filter fun e => !e.complete).length < 64 &&
    match ringWords s x 2 x.head with
    | .error e => !asked e
    | .ok l =>
      let h := nth 0 l 0
      let mask := nth 0 l 1
      x.tail ≥ x.head + packetSize h mask && match ringWords s x (popNat 32 mask + bits h 23 16) (x.head + 8) with
        | .error e => !asked e
        | .ok _ => true

/-- Fetches and journals the next packet of a mapped queue (R315, R327). DESIGN CHOICE (log 64): the words
that fill a packet up to 8 bytes are not looked at. -/
def packetFetch (s : State) (vd q : Nat) : State :=
  match s.queue? vd q with
  | some x =>
    if !fetches s x then s else
    match ringWords s x 2 x.head with
    | .error e => fetchFault s x e
    | .ok l =>
      let h := nth 0 l 0
      let mask := nth 0 l 1
      let ty := bits h 31 28
      let argw := bits h 23 16
      let n := popNat 32 mask
      match ringWords s x (n + argw) (x.head + 8) with
        | .error e => fetchFault s x e
        | .ok ws =>
          let ws := ws.map (BitVec.ofNat 32)
          let args := ws.drop n
          let s := dropFar s (ringReader vd q)
          if bits h 27 24 ≠ 0 || bits h 15 0 ≠ 0 || argCount ty != some argw || argsBad s x ty args
          then freezeAtPacket s x 2 x.pseq x.head
          else
            let image := putShadow mask (List.range 32) ws x.shadow
            let stop := x.head + packetSize h mask
            let e : JEntry := ⟨x.pseq, ty, image, args, x.head, stop, false, false, false, 0, 0, false, [], 0⟩
            setQueue s vd q fun x => { x with
              shadow := image, head := stop, pseq := x.pseq + 1, journal := x.journal ++ [e] }
  | none => s

/-! The journal. -/

def modEntry (s : State) (vd q pseq : Nat) (f : JEntry → JEntry) : State :=
  s.modQueue vd q fun x => { x with journal := mapIf (fun e => e.pseq == pseq) f x.journal }

def completeEntry (s : State) (vd q pseq : Nat) : State :=
  modEntry s vd q pseq fun e => { e with begun := true, guard := true, complete := true }

/-- A packet in progress that goes on where its queue has lost its slot: its engine has it, or it waits for what earlier packets do (R321). -/
def goesOn (x : Queue) (e : JEntry) : Bool :=
  e.begun && x.state != .frozen && (e.ptype == 3 || e.ptype == 4 || e.ptype == 5 || e.ptype == 6 || e.ptype == 8)

/-- A packet that is started, or starts now: its queue is mapped, and nothing before it holds it. -/
def startable (s : State) (vd q pseq ty : Nat) : Option (Queue × JEntry) :=
  match s.queue? vd q with
  | none => none
  | some x => match jentry? x pseq with
    | none => none
    | some e => if (x.state == .mapped || goesOn x e) && e.ptype == ty && !e.complete && mayStart x e then some (x, e) else none

/-- Tasks of a LAUNCH's tree, rebuild tasks apart (R316). -/
def treeTasks (s : State) (vd q pseq : Nat) : List Task :=
  s.tasks.filter fun k => k.vd == vd && k.qidx == q && k.pseq == pseq && !k.rebuild

/-- Whether a member of a gang has retired for good: its commit is applied (R17). -/
def committed (s : State) (k : Task) : Bool :=
  s.gangs.all fun g => g.final || g.members.all fun m => m.uid != k.uid || g.phase > m.dbars

/-- A tree is complete once each of its tasks has retired, or was aborted and another stands in for it (R316). -/
def treeDone (s : State) (vd q pseq : Nat) : Bool :=
  (treeTasks s vd q pseq).all fun k => (k.state == .retired && committed s k) ||
    (k.state == .aborted && s.tasks.any fun j => j.replaces == some k.uid)

/-- PROGRESS moves to the end of the longest complete prefix (R323); not in a frozen queue (R338). -/
def progressAdvance (s : State) (vd q : Nat) : State :=
  match s.queue? vd q with
  | none => s
  | some x =>
    if x.state == .frozen then s else
    let s := x.journal.foldl (fun s e => if e.ptype == 1 && e.begun && !e.complete && treeDone s vd q e.pseq
      then completeEntry s vd q e.pseq else s) s
    match s.queue? vd q with
    | none => s
    | some y =>
      let pre := (y.journal.filter fun e => e.start ≥ y.progress).takeWhile (·.complete)
      match pre.getLast? with
      | none => s
      | some e => setQueue s vd q fun y => { y with progress := e.stop, dseq := y.dseq + pre.length }

/-- Replay (R327): an effect whose guard is set is skipped, WAITV and FENCE are evaluated again, and what is in progress goes on from what it has
recorded. -/
def replay (s : State) (vd q : Nat) : State :=
  s.modQueue vd q fun x => { x with journal := x.journal.map fun e =>
    if e.complete then e else if e.guard && !(e.ptype == 1 || e.ptype == 4 || e.ptype == 5 || e.ptype == 8) then { e with complete := true }
    else if e.ptype == 2 || e.ptype == 7 then { e with begun := false, answers := [], asked := false, moved := 0 } else e }

/-! Packets. -/

/-- The operands of a LAUNCH: the shadow image as a descriptor (R317). -/
def imageDesc (v : Vector (BitVec 32) 32) : Vector Word 16 :=
  Vector.ofFn fun k : Fin 16 => (v[2 * k.val + 1] ++ v[2 * k.val] : BitVec 64)

/-- Earlier SIGNALs of a queue that have not been applied (R318). -/
def openSignals (x : Queue) (e : JEntry) : List Nat := ((earlier x e).filter fun d => d.ptype == 3 && !d.complete).map (·.pseq)

/-- The parameter block of a LAUNCH: its bytes; or the state after a fault, or while another home has yet to answer (R317). -/
def launchReads (s : State) (x : Queue) (e : JEntry) (va len : Nat) : Except State (List Byte) :=
  let stop := fun (s : State) (tcause a : Nat) (stage2 : Bool) => Except.error (freezeAtPacket s x 4 e.pseq e.start tcause a stage2)
  match crucAccess s x.vd .load va len with
  | .flt c a => stop s (queueCause c) a false
  | .held f a => stop (noteS2 s x.vd f a 5 false) (s2Cause f) a true
  | .ok ps => .ok (placesBytes s ps)
  | .remote h => match farAnswer s (ringReader x.vd x.qidx) va with
    | some r =>
      if r.status = 0 then .ok (reply r).data
      else stop (dropFar s (ringReader x.vd x.qidx)) (queueCause (causeOf r.cause)) (answerVa r va) false
    | none =>
      if peerLost s h then stop (dropFar s (ringReader x.vd x.qidx)) (causeCode .memUncorrectable) va false
      else .error (askFar s h x.vd (ringReader x.vd x.qidx) va len 1)

/-- LAUNCH (R317). -/
def launch (s : State) (vd q pseq : Nat) : State :=
  match startable s vd q pseq 1, s.vd? vd with
  | some (x, e), some v =>
    if e.begun then s else
    let d := imageDesc e.image
    if descInvalid s vd v.part d then freezeAtPacket s x 4 pseq e.start else
    let n := descNparam d
    match launchReads s x e (descParam d) (8 * n) with
    | .error t => t
    | .ok bs =>
      let params := (List.range n).map fun i => BitVec.ofNat 64 (leNat ((bs.drop (8 * i)).take 8))
      let uid := s.nextUid
      let k := { newTask vd v.part (markDesc d false false) params q pseq none with signals := openSignals x e }
      let s := modEntry s vd q pseq fun e => { e with begun := true, guard := true, task := uid }
      admitTask (dropFar s (ringReader vd q)) k
  | _, _ => s

/-- The translation of a WAITV's or SIGNAL's ADDR, once, when the packet starts; and the freeze it may end in (R318). -/
def syncAddr (s : State) (x : Queue) (e : JEntry) (write : Bool) : Except State Nat :=
  let a := arg64 e.args 0
  let stop := fun (s : State) (tcause : Nat) (stage2 : Bool) => Except.error (freezeAtPacket s x 12 e.pseq e.start tcause a stage2)
  if e.begun && e.moved = 0 then .ok e.place else
  match crucAccess s x.vd (if write then .store else .load) a 8 with
  | .ok [(p, _)] => if p.mt == .sync then .ok p.pa else stop s (causeCode .access) false
  | .flt c _ => stop s (causeCode (if c == .pageFault then .pageFault else .access)) false
  | .held f _ => stop (noteS2 s x.vd f a 5 write) (s2Cause f) true
  | _ => stop s (causeCode .access) false

/-- The other home of a WAITV's or SIGNAL's word: it translates ADDR and performs the access (R289, R318). -/
def syncHome (s : State) (x : Queue) (e : JEntry) : Option Nat :=
  if e.begun && e.moved = 0 then none else
  match crucAccess s x.vd .load (arg64 e.args 0) 8 with
  | .remote h => some h
  | _ => none

/-- A home's refusal of a SYNC access, or its loss (R289, R318). -/
def syncRefused (s : State) (x : Queue) (e : JEntry) (c : Cause) : State :=
  freezeAtPacket s x 12 e.pseq e.start (causeCode (if c == .pageFault then .pageFault else .access)) (arg64 e.args 0)

/-- A request of a WAITV or SIGNAL at another home has been sent: MOVED counts its steps. -/
def syncAsked (s : State) (x : Queue) (e : JEntry) (n : Nat) : State :=
  modEntry s x.vd x.qidx e.pseq fun e => { e with begun := true, asked := true, moved := n, answers := [] }

/-- WAITV on a word of another home: read there until it has reached VAL. -/
def waitvFar (s : State) (x : Queue) (e : JEntry) (h : Nat) : State :=
  let a := arg64 e.args 0
  let ask := fun (s : State) => syncAsked (askLoad s h x.vd (ringUid x.qidx) e.pseq [(a, 8)] (1 + rightOnly .sync)) x e 1
  match e.answers with
  | r :: _ =>
    if r.status ≠ 0 then syncRefused s x e (causeOf r.cause)
    else if leNat (reply r).data ≥ arg64 e.args 2 then completeEntry s x.vd x.qidx e.pseq
    else ask s
  | [] => if peerLost s h then syncRefused s x e .access else if e.asked then s else ask s

/-- WAITV (R318). -/
def waitv (s : State) (vd q pseq : Nat) : State :=
  match startable s vd q pseq 2 with
  | none => s
  | some (x, e) => match syncHome s x e with
    | some h => waitvFar s x e h
    | none => match syncAddr s x e false with
    | .error t => t
    | .ok pa =>
      if memWord s.mem pa 8 ≥ arg64 e.args 2 then completeEntry s vd q pseq
      else modEntry s vd q pseq fun e => { e with begun := true, place := pa }

/-- The completion frame of an applied SIGNAL (R383); of a pair only the primary package writes to the host (R358). -/
def sendCmpl (s : State) (x : Queue) (pseq v : Nat) : State :=
  match s.vd? x.vd with
  | none => s
  | some d =>
    if !d.cmplEn || (d.mirror && !d.mpri && !d.msolo) then s else
    sendFrame s d.cmplTo 6 x.vd 0 0 (wordsBytes [x.qidx * 2 ^ 48 + d.htag, pseq, v, x.progress])

/-- What a SIGNAL must follow is complete (R318). -/
def signalDue (x : Queue) (e : JEntry) : Bool :=
  (earlier x e).all fun d => d.complete || !(d.ptype == 1 || d.ptype == 4 || d.ptype == 5 || d.ptype == 6)

/-- A SIGNAL has been applied: its value stands in the word (R318, R383). -/
def signalDone (s : State) (x : Queue) (pseq v : Nat) : State :=
  let s := completeEntry s x.vd x.qidx pseq
  let s := { s with tasks := s.tasks.map fun k =>
    if k.vd == x.vd && k.qidx == x.qidx then { k with signals := k.signals.filter (· != pseq) } else k }
  sendCmpl s ((s.queue? x.vd x.qidx).getD x) pseq v

/-- The value that a SIGNAL leaves in its word. -/
def signalValue (e : JEntry) (old : Nat) : Nat := if arg32 e.args 4 % 2 = 1 then (old + arg64 e.args 2) % 2 ^ 64 else arg64 e.args 2

/-- SIGNAL of a word of another home. Its steps: 1 the address is being checked, 2 it is good, 3 the write or the sum is under way. -/
def signalFar (s : State) (x : Queue) (e : JEntry) (h : Nat) : State :=
  let a := arg64 e.args 0
  let apply := fun (s : State) =>
    if !signalDue x e then modEntry s x.vd x.qidx e.pseq fun e => { e with asked := false, moved := 2, answers := [] }
    else syncAsked (askAmo s h x.vd (ringUid x.qidx) e.pseq a 1 false (if arg32 e.args 4 % 2 = 1 then .add else .swap) .i64
      (BitVec.ofNat 64 (arg64 e.args 2)) 0) x e 3
  match e.answers with
  | r :: _ =>
    if r.status ≠ 0 then syncRefused s x e (causeOf r.cause)
    else if e.moved = 3 then signalDone s x e.pseq (signalValue e (leNat ((reply r).data.take 8)))
    else apply s
  | [] =>
    if peerLost s h then syncRefused s x e .access
    else if e.asked then s
    else if e.moved = 2 then apply s
    else syncAsked (askLoad s h x.vd (ringUid x.qidx) e.pseq [(a, 8)] (1 + rightStore + rightOnly .sync)) x e 1

/-- SIGNAL (R318): it starts in order, and is applied once what it must follow is complete. -/
def signal (s : State) (vd q pseq : Nat) : State :=
  match startable s vd q pseq 3 with
  | none => s
  | some (x, e) => match syncHome s x e with
    | some h => signalFar s x e h
    | none => match syncAddr s x e true with
    | .error t => t
    | .ok pa =>
      if !signalDue x e then modEntry s vd q pseq fun e => { e with begun := true, place := pa }
      else
        let v := signalValue e (memWord s.mem pa 8)
        signalDone (performRun s 0 0 pa (leBytes 8 v)) x pseq v

/-- Whether every DUR store of the trees of earlier packets has been accepted (R318). -/
def treesAccepted (s : State) (vd q pseq : Nat) : Bool :=
  s.durPend.all fun d => match s.task? d.uid with
    | some k => !(k.vd == vd && k.qidx == q && k.pseq < pseq)
    | none => true

/-- FENCE (R318). -/
def fencePacket (s : State) (vd q pseq : Nat) : State :=
  match startable s vd q pseq 7 with
  | none => s
  | some (x, e) =>
    if (earlier x e).all (·.complete) && (arg32 e.args 0 != 4 || treesAccepted s vd q pseq) then completeEntry s vd q pseq
    else modEntry s vd q pseq fun e => { e with begun := true }

/-- A packet's access that a stage-2 fault holds: the packet has been started (R285, R318). -/
def holdPacket (s : State) (x : Queue) (e : JEntry) (f : S2Flt) (va : Nat) (write : Bool) : State :=
  modEntry (holdAccess s (vdPart s x.vd) x.vd 255 f (BitVec.ofNat 64 va) 1 false write .none).1 x.vd x.qidx e.pseq fun e => { e with begun := true }

/-- One chunk of a COPY whose bytes have been read: written here, or sent to the destination's home. -/
def copyWrite (s : State) (x : Queue) (e : JEntry) (bs : List Byte) (rest : List Answer) : State :=
  let dst := arg64 e.args 0 + e.moved
  let step := fun (s : State) =>
    let n := e.moved + bs.length
    modEntry s x.vd x.qidx e.pseq fun e => { e with
      begun := true, guard := true, moved := n, asked := false, answers := [], complete := n == arg64 e.args 4 }
  match crucAccess s x.vd .store dst bs.length with
  | .ok ps => step (writePlaces s ps bs)
  | .flt _ a => freezeAtPacket s x 6 e.pseq e.start 0 a
  | .held f a => holdPacket s x e f a true
  | .remote h => match rest with
    | r :: _ => if r.status = 0 then step s else freezeAtPacket s x 6 e.pseq e.start 0 (answerVa r dst)
    | [] => if peerLost s h then freezeAtPacket s x 6 e.pseq e.start 0 dst else if e.asked then s else
        modEntry (askStore s h x.vd (ringUid x.qidx) e.pseq dst 1 (bs.map fun b => (b, true))) x.vd x.qidx e.pseq
          fun e => { e with begun := true, asked := true }

/-- One chunk of a COPY (R319, R327). -/
def copyPacket (s : State) (vd q pseq : Nat) : State :=
  match startable s vd q pseq 4 with
  | none => s
  | some (x, e) =>
    let src := arg64 e.args 2 + e.moved
    let n := copyLen e
    if packetHeld s x e then s else
    match crucAccess s vd .load src n with
    | .ok ps => copyWrite s x e (placesBytes s ps) e.answers
    | .flt _ a => freezeAtPacket s x 6 pseq e.start 0 a
    | .held f a => holdPacket s x e f a false
    | .remote h => match e.answers with
      | r :: rest =>
        if r.status ≠ 0 then freezeAtPacket s x 6 pseq e.start 0 (answerVa r src)
        else copyWrite s x { e with asked := e.asked && rest.isEmpty && e.answers.length > 1 } (reply r).data rest
      | [] => if peerLost s h then freezeAtPacket s x 6 pseq e.start 0 src else if e.asked then s else
          modEntry (askLoad s h vd (ringUid q) pseq [(src, n)] 1) vd q pseq fun e => { e with begun := true, asked := true }

/-- The sum of an error: a TILEPUT that cannot be done (R319). -/
def tileputFail (s : State) (x : Queue) (e : JEntry) (faddr : Nat) : State := freezeAtPacket s x 8 e.pseq e.start 0 faddr

/-- A root version allocated and filled, with its record; a durable one with the header that `pseal` writes (R169, R319). It is sealed by
`putsDone`. -/
def putRoot (s : State) (v : Vd) (name : Word) (bs : List Byte) (q pseq : Nat) : Option (State × Nat) :=
  match placeTile s v name bs.length with
  | (_, none) => none
  | (s, some va) =>
    let t : Tile := ⟨name, v.num, va, bs.length, false, true, 0, false, false, !v.pairs, 0, false⟩
    let dg := digest bs
    let w : Sealing := { root := true, durs := tileDur name, tqidx := q, tpseq := pseq }
    let s := { s with tiles := t :: s.tiles }
    let s := if tileDur name then
        writeSeal (ordWrite (ordWrite s v.num va bs) v.num (va - 512) (lrecBytes (sealedRec v name t.size dg w))) v.num (va - 512)
          ⟨name, dg, t.size, 2⟩
      else hwWrite s v.num va bs
    some (writeRec s v t dg w, va)

/-- A root version that waits for its seal: of no task, and not sealed. -/
def rootWaits (t : Tile) : Bool := t.owner == 0 && !t.sealed && t.resident && !t.shadow

/-- Seals root versions whose records are written, both copies, and of the durable ones those whose seal entries have been accepted
(R305, R319, R343). -/
def putsDone (s : State) : State :=
  (s.tiles.filter fun t => rootWaits t && !copiesWait s t.name &&
      !(tileDur t.name && rangePending s t.vd (t.va - 512) (t.size + 512))).foldl
    (fun s t => (s.vd? t.vd).elim s fun v => setSealed s v t.name) s

/-- TILEPUT (R319): a root version, allocated, filled and sealed at its home. MOVED counts its steps: 1 its home has been asked, 2 it waits for
its seal here. -/
def tileput (s : State) (vd q pseq : Nat) : State :=
  match startable s vd q pseq 5, s.vd? vd with
  | some (x, e), some v =>
    let name := BitVec.ofNat 64 (arg64 e.args 0)
    let src := arg64 e.args 2
    let size := arg32 e.args 4
    let away := awayHome s name
    let bad := s.pkg.phase == .reduced || tileVd name != vd || !tileSizeOk size ||
      (away.isNone && ((s.tile? vd name).isSome || (s.rec? name).isSome)) || away.any fun h => !v.peers.contains h || peerLost s h
    let wait := fun (s : State) => modEntry s vd q pseq fun e => { e with begun := true, asked := true }
    let close := fun (s : State) =>
      let s := putsDone s
      if (s.tile? vd name).all (·.sealed) then completeEntry s vd q pseq else s
    -- The bytes are there: a version of this package is made, another home is asked to make it.
    let give := fun (s : State) (bs : List Byte) => match away with
      | some h => modEntry (askTile s h vd (ringUid q) pseq .put name [size, q, pseq] bs) vd q pseq fun e =>
          { e with begun := true, asked := true, answers := [], moved := 1 }
      | none => match putRoot s v name bs q pseq with
        | some (s, _) => close (modEntry s vd q pseq fun e => { e with begun := true, guard := true, moved := 2 })
        | none => tileputFail s x e 0
    if e.moved = 2 then close s
    else if e.moved = 1 then match e.answers with
      | r :: _ => if r.status = 0 then completeEntry s vd q pseq else tileputFail s x e 0
      | [] => if away.any (peerLost s) then tileputFail s x e 0 else s
    else if bad then tileputFail s x e 0
    else if packetHeld s x e then s
    else match crucAccess s vd .load src size with
      | .flt _ a => tileputFail s x e a
      | .held f a => holdPacket s x e f a false
      | .remote h => match e.answers with
        | r :: _ => if r.status ≠ 0 then tileputFail s x e (answerVa r src) else give s (reply r).data
        | [] => if peerLost s h then tileputFail s x e src else if e.asked then s
          else wait (askLoad s h vd (ringUid q) pseq [(src, size)] 1)
      | .ok ps => give s (placesBytes s ps)
  | _, _ => s

/-- The entry of a MAP that R281 or R282 refuse at its level. Of one that is not valid, which has no size, R281's fields are checked alone:
what it reserves, the type, SOIX, and T at L0 (log 57). -/
def mapEntryBad (lvl ent : Nat) : Bool :=
  if ent % 2 = 1 then (readEntry true lvl 0 ent).isNone
  else bits ent 63 61 ≠ 0 || bits ent 51 48 ≠ 0 || (memType (bits ent 8 6)).isNone || (bits ent 8 6 ≠ 2 && bits ent 59 52 ≠ 0) ||
    (bits ent 1 1 = 1 && lvl = 0)

/-- MAP (R319): the entry is written, and cached translations of it go (R288). A stage-2 fault of the walk holds it (R285; log 57). -/
def mapPacket (s : State) (vd q pseq : Nat) : State :=
  match startable s vd q pseq 6 with
  | none => s
  | some (x, e) =>
    let ent := arg64 e.args 2
    let lvl := arg32 e.args 4
    if !x.supq && mapPrivileged s vd e.args then freezeAtPacket s x 2 pseq e.start
    else if packetHeld s x e then s
    else match mapTarget s vd (arg64 e.args 0) lvl with
      | .error .miss => freezeAtPacket s x 7 pseq e.start
      | .error (.s2 f) => holdPacket s x e f (arg64 e.args 0) false
      | .ok pa =>
        if mapEntryBad lvl ent then freezeAtPacket s x 7 pseq e.start
        else completeEntry (performRun s 0 0 pa (leBytes 8 ent)) vd q pseq

/-- RETRY (R328): the named access translates again. -/
def retry (s : State) (vd q pseq : Nat) : State :=
  match startable s vd q pseq 10 with
  | none => s
  | some (_, e) =>
    let part := vdPart s vd
    let s := completeEntry s vd q pseq
    match (s.part? part).bind fun p => p.recs.find? fun r => r.rseq == arg64 e.args 0 && r.reason != 5 && r.src < 4 with
    | none => s
    | some r => freeRec (releaseHeld s r) part r.rseq

end Sys2Proof.Machine
end

