-- ==== Sys2Proof/Machine/Staging.lean ====
section
/-!
DEFINITION. The staging of weight tiles: the layer table (R292), its registers (R293), the window and its layers (R294), stalls (R295), and
the replicas (R296).
-/

namespace Sys2Proof.Machine

/-! Dormancy regions (R365, R370). -/

/-- The pseudo-channel of a physical address, numbered as DR0 counts them. -/
def chanOf (pa : Nat) : Option Nat :=
  match target pa with
  | .hbm st ch => some (64 * st + ch)
  | _ => none

/-- Whether a pseudo-channel belongs to the dormancy region of a VD. -/
def inDorm (v : Vd) (pa : Nat) : Bool := (chanOf pa).any fun c => v.dr0 ≤ c && c < v.dr0 + v.drn

/-- An access of a host, a peer or the staging engine to a dormancy region that is in self-refresh or shelved triggers a reheat and is not
performed yet (R370). -/
def dormHoldPa (s : State) (pa : Nat) : Option State :=
  match s.vds.find? fun v => v.dorm != .active && v.dorm != .collapsing && v.depth ≥ 1 && inDorm v pa with
  | some v => some (reheatTrigger s v.num)
  | none => none

/-- The same for a range of a VD's addresses, by its pages. -/
def dormHold (s : State) (vd va len : Nat) : Option State :=
  (pieces va len).findSome? fun p => (hwTranslate s vd p.1).bind (dormHoldPa s)

/-! The layer table. -/

/-- Why the layer table cannot be read at an address: a stage-2 fault, or a miss of stage 1. -/
abbrev TblErr := Option S2Flt × Nat

/-- The place of a byte of the layer table. -/
def tablePa (s : State) (v : Vd) (va : Nat) : Except TblErr Nat :=
  match s.part? v.part with
  | none => .error (none, va)
  | some p => match walk1 s p (localVa va) 4 v.s1root with
    | .error .miss => .error (none, va)
    | .error (.s2 f) => .error (some f, va)
    | .ok g => match stage2 s p g.out false false with
      | .error r => .error (some ⟨r, g.out, false⟩, va)
      | .ok pa => .ok pa

/-- A word of `n` bytes of the table. -/
def tableWord (s : State) (v : Vd) (va n : Nat) : Except TblErr Nat :=
  match (pieces va n).mapM fun p => (tablePa s v p.1).map fun pa => memGetN s.mem pa p.2 with
  | .error e => .error e
  | .ok bs => .ok (leNat bs.flatten)

/-- TREC, NTILE and RELEASES of a layer (R292). -/
def layerEntry (s : State) (v : Vd) (l : Nat) : Except TblErr (Nat × Nat × Nat) :=
  let a := v.stgTbl.toNat + 16 * l
  match tableWord s v a 8, tableWord s v (a + 8) 8 with
  | .ok w0, .ok w1 => .ok (w0, bits w1 47 32, bits w1 31 0)
  | .error e, _ => .error e
  | _, .error e => .error e

/-- A tile record (R292), as the staged tile of a layer that it stands for. -/
def tileRecord (s : State) (v : Vd) (l i a : Nat) : Except TblErr Staged :=
  match tableWord s v a 8, tableWord s v (a + 8) 8, tableWord s v (a + 16) 8, tableWord s v (a + 24) 4 with
  | .ok n, .ok src, .ok repl, .ok size => .ok ⟨l, i, BitVec.ofNat 64 n, src, BitVec.ofNat 64 repl, size, false, false, false, false, false⟩
  | .error e, _, _, _ => .error e
  | _, .error e, _, _ => .error e
  | _, _, .error e, _ => .error e
  | _, _, _, .error e => .error e

/-- The tiles of a layer, in record order. -/
def layerTiles (s : State) (v : Vd) (l : Nat) : Except TblErr (List Staged) :=
  match layerEntry s v l with
  | .error e => .error e
  | .ok (a, n, _) => (List.range n).mapM fun i => tileRecord s v l i (a + 32 * i)

/-- Whether a layer has a tile of a name. -/
def layerNames (s : State) (v : Vd) (l : Nat) (ok : Word → Bool) : Bool := match layerTiles s v l with
  | .ok ts => ts.any fun t => ok t.name
  | .error _ => false

/-- The layers of the window in their order (R294). -/
def windowLayers (v : Vd) : List Nat :=
  let l := (List.range v.win).map fun i => v.cur + i
  if v.wrap then (l.map fun n => n % v.nlayer).eraseDups else l.filter fun n => n < v.nlayer

/-- Whether a weight tile stands in HBM. -/
def stagedThere (s : State) (vd : Nat) (name : Word) : Bool := (s.tile? vd name).any fun t => t.sealed && t.resident

/-- The list of staged tiles follows the window: tiles of new layers join it, those of layers that have left it are marked. -/
def windowTiles (s : State) (v : Vd) : Except TblErr (List Staged) :=
  if !v.stgEn then .ok v.staged else
  let ls := windowLayers v
  match (ls.filter fun l => !v.staged.any fun t => t.layer == l && !t.out).mapM (layerTiles s v) with
  | .error e => .error e
  | .ok tss =>
    let news := tss.flatten.map fun t => { t with resident := stagedThere s v.num t.name }
    let olds := v.staged.map fun t => { t with out := t.out || !ls.contains t.layer }
    .ok (olds.filter (fun t => t.out && !news.any fun n => n.name == t.name) ++ ls.flatMap fun l =>
      (olds ++ news).filter fun t => t.layer == l && !t.out)

/-- Whether the HBM copy of a tile is still needed: a handle holds it, or a task that has not ended names it (R294). -/
def weightNeeded (s : State) (vd : Nat) (name : Word) : Bool :=
  (s.tile? vd name).any (fun t => t.claims ≠ 0) || s.tasks.any fun k => k.vd == vd && k.alive && (operands k.desc).contains name

/-- Copies of layers that have left the window are freed once nothing needs them; their roots' records stand. A tile that a layer of the window
has too stays. -/
def freeOut (s : State) (vd : Nat) : State :=
  match s.vd? vd with
  | none => s
  | some v =>
    let inWin := fun (n : Word) => v.staged.any fun t => !t.out && t.name == n
    let gone := (v.staged.filter fun t => t.out && !inWin t.name && !weightNeeded s vd t.name).map Staged.name
    { s with tiles := if gone.isEmpty then s.tiles else s.tiles.filter fun t => t.vd != vd || t.shadow || !gone.contains t.name }.modVd vd fun v =>
      { v with staged := v.staged.filter fun t => !(t.out && (gone.contains t.name || inWin t.name)) }

/-- Brings the window up to date; as long as its layers cannot be read it stays as it is. -/
def syncWindow (s : State) (vd : Nat) : State :=
  match s.vd? vd with
  | none => s
  | some v => match windowTiles s v with
    | .ok ts => freeOut (s.modVd vd fun w => { w with staged := ts }) vd
    | .error _ => s

/-- The retired tasks that count for a layer: each names one of its tiles, and none has completed it before (R294). -/
def layerCount (s : State) (v : Vd) (l : Nat) : List Nat :=
  match layerTiles s v l with
  | .error _ => []
  | .ok ts =>
    let names := ts.map Staged.name
    ((v.retd.filter fun e => e.2.any names.contains).map (·.1)).filter fun u => !v.released.contains (l, u)

/-- Whether a layer is complete, and the retirements that complete it: as many as RELEASES says (R294). -/
def layerComplete (s : State) (v : Vd) (l : Nat) : Option (List Nat) :=
  match layerEntry s v l with
  | .error _ => none
  | .ok (_, _, n) =>
    if n = 0 then match layerTiles s v l with
      | .ok ts => if ts.all fun t => stagedThere s v.num t.name then some [] else none
      | .error _ => none
    else
      let us := layerCount s v l
      if us.length ≥ n then some (us.take n) else none

/-- While layer CUR is complete, CUR advances (R294). -/
def advanceWindow : Nat → State → Nat → State
  | 0, s, _ => s
  | fuel + 1, s, vd => match s.vd? vd with
    | none => s
    | some v =>
      if !v.stgEn then s else
      match layerComplete s v v.cur with
      | none => s
      | some us =>
        let last := v.cur + 1 ≥ v.nlayer
        let s := s.modVd vd fun v => { v with
          cur := if last && v.wrap then 0 else v.cur + 1
          released := v.released ++ us.map fun u => (v.cur, u)
          stgEn := !(last && !v.wrap)
          staged := if last && !v.wrap then v.staged.map fun t => { t with out := true } else v.staged }
        advanceWindow fuel (syncWindow s vd) vd

def advance (s : State) (vd : Nat) : State :=
  match s.vd? vd with
  | some v => freeOut (advanceWindow (v.nlayer + 1) s vd) vd
  | none => s

/-- A retirement counts for every layer of the table that has a tile among the task's operands, whether in the window yet or not: when it comes
decides nothing (R294). A VD that has never had a table has none to count for (log 58). -/
def noteRelease (s : State) (k : Task) : State :=
  advance (s.modVd k.vd fun v => { v with retd := if v.nlayer = 0 then v.retd else v.retd ++ [(k.uid, operands k.desc)] }) k.vd

/-! Reading a tile. -/

def modStaged (s : State) (vd : Nat) (t : Staged) (f : Staged → Staged) : State :=
  s.modVd vd fun v => { v with staged := mapIf (fun x => x.layer == t.layer && x.index == t.index && x.out == t.out) f v.staged }

/-- A tile of which neither the primary copy nor the replica serves: its root is lost (R296), also where it has never had a record. -/
def lostRoot (s : State) (v : Vd) (t : Staged) : State :=
  let s := modStaged s v.num t fun t => { t with asked := false, flight := false }
  let s := if (s.rec? t.name).isSome || v.names.contains t.name then s else s.modVd v.num fun v => { v with names := t.name :: v.names }
  loseVersion s v.num t.name

/-- The bytes of a tile have been read: they are checked and stand in HBM (R294). None if the digest differs; while the pool has no room the tile
is read again. -/
def landTile (s : State) (v : Vd) (t : Staged) (bs : List Byte) : Option State :=
  let dg := digest bs
  let arrive := fun (s : State) => modStaged s v.num t fun t => { t with resident := true, asked := false, flight := false }
  match s.rec? t.name, s.tile? v.num t.name with
  | some r, some u =>
    if r.digest != dg then none else
    match dormHold s v.num u.va u.size with
    | some s => some (modStaged s v.num t fun t => { t with asked := false })
    | none => some (arrive (resealed (hwWrite s v.num u.va bs) v t.name))
  | r, _ =>
    if r.any fun r => r.digest != dg then none else
    match placeTile s v t.name t.size with
    | (s, none) => some (modStaged s v.num t fun t => { t with asked := false })
    | (s', some va) => match dormHold s v.num va t.size with
      | some s => some (modStaged s v.num t fun t => { t with asked := false })
      | none =>
      let s := s'
      let u : Tile := ⟨t.name, v.num, va, t.size, false, true, 0, false, false, !v.pairs, 0, false⟩
      let s := hwWrite { s with tiles := u :: s.tiles } v.num va bs
      let s := match r with
        | some _ => setSealed (modShared s t.name fun r => { r with lost := false, rbld := false }) v t.name
        | none => writeRec s v u dg { root := true, weight := true, replica := t.repl }
      some (arrive (if copiesWait s t.name then s else setSealed s v t.name))

/-- Bytes that fail, or cannot be read: the replica is next, and after it nothing. -/
def stageFail (s : State) (v : Vd) (t : Staged) : State :=
  if t.useRepl || t.repl = 0 then lostRoot s v t else modStaged s v.num t fun t => { t with useRepl := true, asked := false, flight := false }

/-- Who asks for a replica of a weight tile at another home: above every handler's number. -/
def stageUid (vd : Nat) : Nat := 2 ^ 42 + vd

/-- A stage-2 fault of the staging engine: it waits for the RETRY (R285, SRC 2). -/
def stagingHeld (s : State) (vd : Nat) : Bool := s.parts.any fun p => p.recs.any fun r => r.holder == .staging vd

def holdStaging (s : State) (v : Vd) (f : S2Flt) (va : Nat) : State :=
  (holdAccess s v.part v.num 255 f (BitVec.ofNat 64 va) 2 false false (.staging v.num)).1

/-- One staging read (R294, R296). A stage-2 fault holds it. DESIGN CHOICE (log 71): a stage-1 fault of SRC or REPL is taken as a failed
read. -/
def stageRead (s : State) (v : Vd) (t : Staged) : State :=
  let lost := t.resident && !stagedThere s v.num t.name
  let t := if lost then { t with useRepl := true } else t
  let s := if lost then modStaged s v.num t fun t => { t with useRepl := true, resident := false } else s
  let a := if t.useRepl then t.repl.toNat else t.src
  if t.useRepl && t.repl = 0 then lostRoot s v t else
  match dormHold s v.num a t.size with
  | some s => s
  | none => match crucAccess s v.num .load a t.size with
  | .ok ps => (landTile s v t (placesBytes s ps)).getD (stageFail s v t)
  | .flt _ _ => stageFail s v t
  | .held f b => holdStaging (modStaged s v.num t fun t => { t with flight := true }) v f b
  | .remote h =>
    if peerLost s h then stageFail s v t
    else if t.asked then s
    else modStaged (askLoad s h v.num (stageUid v.num) (t.index % 256) [(a, t.size)] 1) v.num t fun t => { t with asked := true }

/-- EN has fallen at the end of the table (R294). -/
def atEnd (v : Vd) : Bool := !v.stgEn && v.nlayer ≠ 0 && v.cur ≥ v.nlayer

/-- Whether a tile is to be read: of the window; of a layer that has left it, also at the end of the table, a copy that has been lost and is still
needed (R296); or one whose read is in flight (R293). -/
def toStage (s : State) (v : Vd) (t : Staged) : Bool :=
  !stagedThere s v.num t.name && !tileGone s v.num t.name && (tileHome t.name == s.pkg.num || v.mirror) &&
    (t.flight || (v.stgEn && !t.out) || ((v.stgEn || atEnd v) && t.out && (t.resident || t.useRepl) && weightNeeded s v.num t.name))

/-- The next tile to be read: ascending window order, then record order; one in flight goes first. -/
def nextStaged (s : State) (v : Vd) : Option Staged :=
  (v.staged.find? fun t => t.flight && toStage s v t).or (v.staged.find? (toStage s v))

/-- The answer of the home of a replica. -/
def stageAnswer (s : State) (vd status : Nat) (bs : List Byte) : State :=
  match s.vd? vd with
  | none => s
  | some v => match v.staged.find? fun t => t.asked with
    | none => s
    | some t =>
      if status ≠ 0 then stageFail s v t
      else advance ((landTile s v t bs).getD (stageFail s v t)) vd

/-- A VD whose staging engine has work: a clear EN lets what is in flight finish (R293). -/
def stages (v : Vd) : Bool := (v.stgEn || atEnd v || v.staged.any (·.flight)) && v.dorm == .active

/-- A copy of a layer that has left the window and that nothing needs any more (R294). -/
def freesOut (s : State) (v : Vd) : Bool := v.staged.any fun t => t.out && !weightNeeded s v.num t.name

/-- Whether the engine has something to do for a VD: the window to be read or to advance, a tile to be read, a copy to be freed. -/
def stageDue (s : State) (v : Vd) : Bool :=
  freesOut s v || (stages v && !stagingHeld s v.num && match windowTiles s v with
    | .error f => f.1.isSome
    | .ok ts => ts != v.staged || (nextStaged s v).isSome || (v.stgEn && (layerComplete s v v.cur).isSome))

/-- The engine's step for a VD: the layer table of the window is read, the window advances, and the next tile is read. -/
def stageStep (s0 : State) (v0 : Vd) : State :=
  let s := freeOut s0 v0.num
  match s.vd? v0.num with
  | none => s
  | some v =>
  if !stages v || stagingHeld s v.num then s else
  match windowTiles s v with
  | .error (some f, a) => holdStaging s v f a
  | .error (none, _) => s
  | .ok _ =>
    let s := advance (syncWindow s v.num) v.num
    match s.vd? v.num with
    | none => s
    | some v => match (if stages v then nextStaged s v else none) with
      | none => s
      | some t => advance (stageRead s v t) v.num

/-- STAGING_READ_COMPLETE (R294): the next tile of a VD's window is read, and the window advances. -/
def execStagingReadComplete (s : State) : Out :=
  let pick := match s.input with
    | .vd n => s.vd? n
    | _ => s.vds.find? (stageDue s)
  match pick with
  | none => .next s
  | some v => .next (stageStep s v)

/-! Registers (R293). -/

/-- A write of STG_CTL. That one that asks for EN with a bad window leaves EN at 0 is its only effect. -/
def writeStgCtl (s : State) (vd : Nat) (w : Word) : State :=
  let x := w.toNat
  let en := bits x 16 16 = 1
  let s := s.modVd vd fun v =>
    if en && (bits x 7 0 = 0 || bits x 33 18 = 0 || v.cur ≥ bits x 33 18) then { v with stgEn := false } else
    let olds := if en && !v.stgEn then v.staged.map fun t => { t with out := true } else v.staged
    { v with nlayer := bits x 33 18, wrap := bits x 17 17 = 1, stgEn := en, win := bits x 7 0, staged := olds }
  syncWindow s vd

/-- A write of STG_TBL: the retirements that have been counted were those of another table (log 58). -/
def writeStgTbl (s : State) (vd : Nat) (w : Word) : State := s.modVd vd fun v => { v with stgTbl := w, retd := [], released := [] }

/-- STG_ENABLE (R293): the write of STG_CTL at the inputs, with EN = 1. -/
def execStgEnable (s : State) : Out :=
  match s.input with
  | .word vd w => if bits w.toNat 16 16 = 1 then .next (writeStgCtl s vd w) else .next s
  | _ => .next s

/-- STG_DISABLE (R293): the write of STG_CTL at the inputs, with EN = 0. -/
def execStgDisable (s : State) : Out :=
  match s.input with
  | .word vd w => if bits w.toNat 16 16 = 0 then .next (writeStgCtl s vd w) else .next s
  | _ => .next s

/-- A weight tile of the VD that is not resident: of any layer of its table (R295). -/
def weightAway (s : State) (v : Vd) (n : Word) : Bool :=
  !stagedThere s v.num n && ((v.staged.any fun t => t.name == n) || (List.range v.nlayer).any fun l => layerNames s v l (· == n))

/-- A waiting task, or one blocked in `tacq`, that misses nothing but weight tiles (R295). -/
def stalled (s : State) (v : Vd) : Bool :=
  let weight := weightAway s v
  s.tasks.any fun k => k.vd == v.num && (
    (k.state == .waiting && (operands k.desc).any (fun n => !operandReady s k n) &&
      (operands k.desc).all fun n => operandReady s k n || weight n) ||
    (k.state == .running && (s.context? k.uid).any fun x => match x.a.block with
      | some (.tileAcquire n) => weight n
      | _ => false))

end Sys2Proof.Machine
end

