-- ==== Sys2Proof/Machine/Fp.lean ====
section
/-!
DEFINITION. Number formats and exact arithmetic (chapter "Number formats and exact arithmetic"): values of FP32 and BF16 bits
(R50 to R52), the rounding function (R53 to R56), MX blocks (R57 to R59), quantization (R63, R64), estimates and Newton steps
(R67 to R70), the zero-annihilating product (R71), transcendentals (R72 to R75) and the counter-based generator (R76).
-/

namespace Sys2Proof.Machine

/-! Formats and values (R50 to R52). -/

/-- A binary format: its precision, the exponent of its subnormal spacing, and its width. -/
structure Fmt where
  p    : Nat
  qmin : Int
  w    : Nat
deriving DecidableEq, Repr

def fp32 : Fmt := ⟨24, -149, 32⟩
def bf16 : Fmt := ⟨8, -133, 16⟩

/-- A floating-point value: `fin neg m e` is (-1)^neg * m * 2^e. -/
inductive FVal where
  | nan (signalling : Bool)
  | inf (neg : Bool)
  | fin (neg : Bool) (m : Nat) (e : Int)
deriving DecidableEq, Repr

/-- The five flags of VFLG (R41). -/
abbrev Flags := BitVec 5

def flNV : Flags := 16
def flDZ : Flags := 8
def flOF : Flags := 4
def flUF : Flags := 2
def flNX : Flags := 1

def flag (b : Bool) (f : Flags) : Flags := if b then f else 0

/-- A result's bits and the flags that its operation raises. -/
abbrev FRes := Nat × Flags

/-- The value of a format's bits (R50). -/
def fval (f : Fmt) (v : Nat) : FVal :=
  let frac := v % 2 ^ (f.p - 1)
  let ex := v / 2 ^ (f.p - 1) % 256
  let neg := v / 2 ^ (f.w - 1) % 2 == 1
  if ex == 255 then (if frac == 0 then .inf neg else .nan (frac < 2 ^ (f.p - 2)))
  else if ex == 0 then .fin neg frac f.qmin
  else .fin neg (frac + 2 ^ (f.p - 1)) (f.qmin + (ex - 1 : Nat))

def signBits (f : Fmt) (neg : Bool) : Nat := if neg then 2 ^ (f.w - 1) else 0
def infMag (f : Fmt) : Nat := 255 * 2 ^ (f.p - 1)
def infBits (f : Fmt) (neg : Bool) : Nat := signBits f neg + infMag f
def maxBits (f : Fmt) (neg : Bool) : Nat := signBits f neg + infMag f - 1

/-- The canonical NaN (R50). -/
def nanBits (f : Fmt) : Nat := infMag f + 2 ^ (f.p - 2)

def FVal.isSnan : FVal → Bool
  | .nan s => s
  | _ => false

def FVal.isNan : FVal → Bool
  | .nan _ => true
  | _ => false

def FVal.isInf : FVal → Bool
  | .inf _ => true
  | _ => false

def FVal.isZero : FVal → Bool
  | .fin _ m _ => m == 0
  | _ => false

/-- The sign of a number; a NaN counts as positive. -/
def FVal.sign : FVal → Bool
  | .nan _ => false
  | .inf n => n
  | .fin n _ _ => n

def FVal.negate : FVal → FVal
  | .nan s => .nan s
  | .inf n => .inf (!n)
  | .fin n m e => .fin (!n) m e

/-- The canonical NaN for NaN operands (R52). -/
def nanRes (f : Fmt) (ops : List FVal) : FRes := (nanBits f, flag (ops.any FVal.isSnan) flNV)

/-- The canonical NaN of an invalid operation (R52). -/
def invalid (f : Fmt) : FRes := (nanBits f, flNV)

/-! The rounding function (R53 to R55). -/

/-- Whether the quotient k with remainder r of D is rounded up in magnitude (R53). -/
def roundUp (rm : RMode) (neg : Bool) (k r d : Nat) : Bool :=
  match rm with
  | .rne => 2 * r > d || (2 * r == d && k % 2 == 1)
  | .rtz => false
  | .rdn => neg && r > 0
  | .rup => !neg && r > 0

/-- floor(log2(num / den)) of positive numbers. -/
def floorLog2 (num den : Nat) : Int :=
  let l : Int := (num.log2 : Int) - den.log2
  let ok := if l ≥ 0 then den <<< l.toNat ≤ num else den ≤ num <<< (-l).toNat
  if ok then l else l - 1

/-- num / den * 2^e as a quotient of naturals. -/
def scaled (num den : Nat) (e : Int) : Nat × Nat :=
  if e ≥ 0 then (num <<< e.toNat, den) else (num, den <<< (-e).toNat)

/-- The result of an overflow (R53, R54). -/
def overflowBits (f : Fmt) (rm : RMode) (sat neg : Bool) : Nat :=
  if sat || (match rm with
    | .rne => false
    | .rtz => true
    | .rdn => !neg
    | .rup => neg) then maxBits f neg else infBits f neg

/-- round((-1)^neg * num / den * 2^e) (R53), under SAT (R54). -/
def roundRat (f : Fmt) (rm : RMode) (sat neg : Bool) (num den : Nat) (e : Int) : FRes :=
  if num == 0 then (signBits f neg, 0) else
  let l := floorLog2 num den + e
  let q := max (l - (f.p - 1 : Nat)) f.qmin
  let (n, d) := scaled num den (e - q)
  let k := n / d
  let r := n % d
  let k := if roundUp rm neg k r d then k + 1 else k
  let mag := (q - f.qmin).toNat * 2 ^ (f.p - 1) + k
  if mag ≥ infMag f then (overflowBits f rm sat neg, flOF ||| flNX)
  else (signBits f neg + mag, flag (r > 0) flNX ||| flag (r > 0 && l < -126) flUF)

/-- round(v) of an integer times 2^e whose exact zero takes a given sign. -/
def roundInt (f : Fmt) (rm : RMode) (sat zero : Bool) (v : Int) (e : Int) : FRes :=
  if v == 0 then (signBits f zero, 0) else roundRat f rm sat (v < 0) v.natAbs 1 e

/-- (-1)^neg * m as an integer. -/
def signed (neg : Bool) (m : Nat) : Int := if neg then -(m : Int) else m

/-- The exact sum of two dyadic numbers. -/
def dySum (a : Int) (ea : Int) (b : Int) (eb : Int) : Int × Int :=
  if ea ≤ eb then (a + b * 2 ^ (eb - ea).toNat, ea) else (a * 2 ^ (ea - eb).toNat + b, eb)

/-- Sign of an exact zero that is the sum of two values (R55). -/
def zeroSign (rm : RMode) (na nb : Bool) : Bool := if na == nb then na else rm == .rdn

/-- round(a + b) under R52, R53 and R55. -/
def addVal (f : Fmt) (rm : RMode) (sat : Bool) (a b : FVal) : FRes :=
  match a, b with
  | .fin na ma ea, .fin nb mb eb =>
    let (v, e) := dySum (signed na ma) ea (signed nb mb) eb
    roundInt f rm sat (zeroSign rm na nb) v e
  | .inf na, .inf nb => if na == nb then (infBits f na, 0) else invalid f
  | .inf na, .fin _ _ _ => (infBits f na, 0)
  | .fin _ _ _, .inf nb => (infBits f nb, 0)
  | a, b => nanRes f [a, b]

/-- The exact product of two values that are no NaNs, or nothing where it is 0 × ∞ (R52, R55). -/
def mulExact (a b : FVal) : Option FVal :=
  let n := a.sign != b.sign
  match a, b with
  | .fin _ ma ea, .fin _ mb eb => some (.fin n (ma * mb) (ea + eb))
  | a, b => if a.isZero || b.isZero then none else some (.inf n)

/-- A value that is no NaN, rounded. -/
def roundVal (f : Fmt) (rm : RMode) (sat : Bool) : FVal → FRes
  | .fin n m e => roundRat f rm sat n m 1 e
  | .inf n => (infBits f n, 0)
  | .nan s => nanRes f [.nan s]

/-- round(a * b). -/
def mulVal (f : Fmt) (rm : RMode) (sat : Bool) (a b : FVal) : FRes :=
  if a.isNan || b.isNan then nanRes f [a, b]
  else match mulExact a b with
    | some v => roundVal f rm sat v
    | none => invalid f

/-- round(a * b + c): 0 × ∞ is invalid whatever c holds (R181). -/
def fmaVal (f : Fmt) (rm : RMode) (sat : Bool) (a b c : FVal) : FRes :=
  if a.isNan || b.isNan then nanRes f [a, b, c]
  else match mulExact a b with
    | some v => addVal f rm sat v c
    | none => invalid f

/-- round(a / b) with the special quotients of R64. -/
def divVal (f : Fmt) (rm : RMode) (sat : Bool) (a b : FVal) : FRes :=
  let n := a.sign != b.sign
  match a, b with
  | .fin _ ma ea, .fin _ mb eb =>
    if mb == 0 then (if ma == 0 then invalid f else (infBits f n, flDZ))
    else roundRat f rm sat n ma mb (ea - eb)
  | .inf _, .inf _ => invalid f
  | .inf _, .fin _ _ _ => (infBits f n, 0)
  | .fin _ _ _, .inf _ => (signBits f n, 0)
  | a, b => nanRes f [a, b]

/-! Operations on bits. -/

def fAdd (f : Fmt) (r : Rnd) (a b : Nat) : FRes := addVal f r.mode r.sat (fval f a) (fval f b)
def fSub (f : Fmt) (r : Rnd) (a b : Nat) : FRes := addVal f r.mode r.sat (fval f a) (fval f b).negate
def fMul (f : Fmt) (r : Rnd) (a b : Nat) : FRes := mulVal f r.mode r.sat (fval f a) (fval f b)
def fFma (f : Fmt) (r : Rnd) (a b c : Nat) : FRes := fmaVal f r.mode r.sat (fval f a) (fval f b) (fval f c)
def fFms (f : Fmt) (r : Rnd) (a b c : Nat) : FRes := fmaVal f r.mode r.sat (fval f a) (fval f b) (fval f c).negate
def fFnma (f : Fmt) (r : Rnd) (a b c : Nat) : FRes := fmaVal f r.mode r.sat (fval f a).negate (fval f b) (fval f c)

def rne : Rnd := ⟨false, .rne⟩

/-- vmulz (R71). -/
def fMulz (f : Fmt) (r : Rnd) (a b : Nat) : FRes :=
  let x := fval f a
  let y := fval f b
  if x.isZero || y.isZero then
    (signBits f (if x.isNan || y.isNan then false else x.sign != y.sign), 0)
  else mulVal f r.mode r.sat x y

/-! Comparisons (R184, R187). -/

/-- a < b of numbers; false where one is a NaN. -/
def ltVal (a b : FVal) : Bool :=
  match a, b with
  | .fin na ma ea, .fin nb mb eb =>
    let (v, _) := dySum (signed na ma) ea (-(signed nb mb)) eb
    v < 0
  | .inf na, .inf nb => na && !nb
  | .inf na, .fin _ _ _ => na
  | .fin _ _ _, .inf nb => !nb
  | _, _ => false

def eqVal (a b : FVal) : Bool := !a.isNan && !b.isNan && !ltVal a b && !ltVal b a

/-- Minimum or maximum, -0 below +0; a NaN operand gives the canonical NaN (R184). -/
def fMinMax (f : Fmt) (isMax : Bool) (a b : Nat) : FRes :=
  let x := fval f a
  let y := fval f b
  if x.isNan || y.isNan then nanRes f [x, y]
  else
    let less := ltVal x y || (x.isZero && y.isZero && x.sign && !y.sign)
    (if less == isMax then b else a, 0)

/-! Conversions (R56, R63, R64). -/

/-- round(num / den * 2^e) to an integer, and whether it is inexact. -/
def toInt (rm : RMode) (neg : Bool) (num den : Nat) (e : Int) : Int × Bool :=
  let (n, d) := scaled num den e
  let k := n / d
  let r := n % d
  (signed neg (if roundUp rm neg k r d then k + 1 else k), r > 0)

def clampInt (lo hi v : Int) : Int := max lo (min hi v)

/-- The range of a two's-complement width. -/
def intMin (w : Nat) : Int := -(2 ^ (w - 1) : Nat)
def intMax (w : Nat) : Int := (2 ^ (w - 1) : Nat) - 1

/-- An exact number as a two's-complement integer of `w` bits, saturating (R56). -/
def ratToInt (w : Nat) (rm : RMode) (neg : Bool) (num den : Nat) (e : Int) : FRes :=
  let (v, nx) := toInt rm neg num den e
  let c := clampInt (intMin w) (intMax w) v
  (wrap w c, if c != v then flNV else flag nx flNX)

/-- A floating-point value as an integer (R56). -/
def valToInt (w : Nat) (rm : RMode) : FVal → FRes
  | .nan _ => (0, flNV)
  | .inf n => (wrap w (if n then intMin w else intMax w), flNV)
  | .fin n m e => ratToInt w rm n m 1 e

/-- Conversion between floating-point formats (R56). -/
def valToFmt (f : Fmt) (r : Rnd) (v : FVal) : FRes := roundVal f r.mode r.sat v

/-- An integer converted to a format (R56). -/
def intToFmt (f : Fmt) (r : Rnd) (v : Int) : FRes := roundInt f r.mode r.sat false v 0

/-- A destination of narrowing: a format or an integer width. -/
inductive NFmt where
  | fp (f : Fmt)
  | int (w : Nat)
deriving DecidableEq, Repr

/-- narrow(v, fmt, mode) (R63). -/
def narrow (o : NFmt) (rm : RMode) (v : FVal) : FRes :=
  match o with
  | .fp f => valToFmt f ⟨true, rm⟩ v
  | .int w => valToInt w rm v

/-- quantize(x, q, fmt, mode): the exact quotient narrowed with one rounding (R64).
DESIGN CHOICE (log 51): an infinity over a zero raises no DZ. R64 gives DZ to a finite non-zero x alone; R223's 'non-zero value over zero'
could be read to take the infinity in. -/
def quantize (o : NFmt) (rm : RMode) (x q : FVal) : FRes :=
  let n := x.sign != q.sign
  let both (v : FVal) (fl : Flags) : FRes := ((narrow o rm v).1, (narrow o rm v).2 ||| fl)
  match x, q with
  | .fin _ mx ex, .fin _ mq eq =>
    if mq == 0 then (if mx == 0 then both (.nan false) flNV else both (.inf n) flDZ)
    else match o with
      | .fp f => roundRat f rm true n mx mq (ex - eq)
      | .int w => ratToInt w rm n mx mq (ex - eq)
  | .inf _, .inf _ => both (.nan false) flNV
  | .inf _, .fin _ _ _ => both (.inf n) 0
  | .fin _ _ _, .inf _ => both (.fin n 0 0) 0
  | x, q => both (.nan false) (flag (x.isSnan || q.isSnan) flNV)

/-- The activations of R63. -/
inductive Activation where
  | none
  | relu
  | clamp (lo hi : Nat)
deriving DecidableEq, Repr

/-- activation(v) on FP32 bits (R63). -/
def activate (a : Activation) (v : Nat) : Nat :=
  let x := fval fp32 v
  match a with
  | .none => v
  | .relu => if x.isNan then nanBits fp32 else if ltVal (.fin false 0 0) x then v else 0
  | .clamp lo hi =>
    if x.isNan then nanBits fp32
    else (fMinMax fp32 false (fMinMax fp32 true v lo).1 hi).1

/-- Points 1 to 3 of a drained element; a scale or bias that is omitted is none (R63, R64). q is the divisor of quantizing mode.
DESIGN CHOICE (log 51): a product of three factors with a NaN among them is no invalid operation, also where the other two are 0 and an
infinity: NV comes from a signalling NaN alone. R52 and R218 do not order the factors of the exact product. -/
def drainElem (rs cs bias : Option Nat) (act : Activation) (o : NFmt) (rm : RMode) (q : Option Nat) (a : Nat) : FRes :=
  let x := fval fp32 a
  let ops := [rs, cs].filterMap fun v => v.map (fval fp32)
  let (t1, f1) :=
    if x.isNan || ops.any FVal.isNan then nanRes fp32 (x :: ops)
    else match ops.foldl (fun v y => v.bind fun v => mulExact v y) (some x) with
      | some v => roundVal fp32 .rne false v
      | none => invalid fp32
  let (t2, f2) := match bias with
    | some b => fAdd fp32 rne t1 b
    | none => (t1, 0)
  let t3 := activate act t2
  let (v, f3) := match q with
    | none => narrow o rm (fval fp32 t3)
    | some d => quantize o rm (fval fp32 t3) (fval fp32 d)
  (v, f1 ||| f2 ||| f3)

/-! MX blocks (R57, R59). -/

/-- The value of an MX code under a scale byte (R57). -/
def mxVal (w : Nat) (code : Nat) (scale : Nat) : FVal :=
  if scale == 255 then .nan false
  else
    let c := sext w code
    .fin (c < 0) c.natAbs ((scale : Int) - 127 - (w - 2 : Nat))

/-- A block of finite or FP32 values as scale byte and codes, with its flags (R59). DESIGN CHOICE (log 69): a block with a NaN or an
infinity raises NV alone. -/
def mxEncode (w : Nat) (rm : RMode) (xs : List FVal) : Nat × List Nat × Flags :=
  if xs.any fun x => x.isNan || x.isInf then (255, xs.map fun _ => 0, flNV)
  else
    let logOf : FVal → Option Int
      | .fin _ m e => if m == 0 then none else some ((m.log2 : Int) + e)
      | _ => none
    match (xs.filterMap logOf).foldl (fun (o : Option Int) l => some (o.elim l (max l))) none with
    | none => (0, xs.map fun _ => 0, 0)
    | some l =>
      let sc := (clampInt 0 254 (l + 127)).toNat
      let enc : FVal → Int × Bool
        | .fin n m e =>
          let (q, nx) := toInt rm n m 1 (e + 127 - (sc : Int) + (w - 2 : Nat))
          let c := clampInt (intMin w) (intMax w) q
          (c, nx || c != q)
        | _ => (0, false)
      let cs := xs.map enc
      (sc, cs.map fun c => wrap w c.1, flag (cs.any fun c => c.2) flNX)

/-! Estimates and Newton steps (R67 to R70). -/

/-- The square root rounded down, bit by bit from 2^n. -/
def isqrtFrom : Nat → Nat → Nat → Nat
  | 0, _, r => r
  | n + 1, v, r => if (r + 2 ^ n) * (r + 2 ^ n) ≤ v then isqrtFrom n v (r + 2 ^ n) else isqrtFrom n v r

def isqrt (v : Nat) : Nat := isqrtFrom (v.log2 / 2 + 1) v 0

/-- rcpe (R67, R69). -/
def rcpe (v : Nat) : FRes :=
  match fval fp32 v with
  | .nan s => nanRes fp32 [.nan s]
  | .inf n => (signBits fp32 n, 0)
  | .fin n m e =>
    if m == 0 then (infBits fp32 n, flDZ)
    else
      let l := m.log2
      let i := (m * 2 ^ 12) / 2 ^ l - 2 ^ 12
      let d := 2 ^ 13 + 2 * i + 1
      let g := (2 * 2 ^ 26 + d) / (2 * d)
      roundRat fp32 .rne false n g 1 (-13 - (e + l))

/-- rsqe (R68, R69). floor(2^13 / sqrt(mc) + 1/2) is the largest g with (2g - 1)^2 * mc ≤ 2^28; mc is c / 2^12. -/
def rsqe (v : Nat) : FRes :=
  match fval fp32 v with
  | .nan s => nanRes fp32 [.nan s]
  | .inf n => if n then invalid fp32 else (0, 0)
  | .fin n m e =>
    if m == 0 then (infBits fp32 n, flDZ)
    else if n then invalid fp32
    else
      let l := m.log2
      let ex := e + l
      let par := (ex % 2).toNat
      let j := (m * 2 ^ 11) / 2 ^ l - 2 ^ 11
      let c := (2 ^ 12 + 2 * j + 1) * 2 ^ par
      let g := (isqrt (2 ^ 40 / c) + 1) / 2
      roundRat fp32 .rne false false g 1 (-13 - (ex - par) / 2)

/-- rcps (R70). -/
def rcps (rm : RMode) (a x : Nat) : FRes :=
  let va := fval fp32 a
  let vx := fval fp32 x
  if va.isNan || vx.isNan then nanRes fp32 [va, vx]
  else match va, vx with
    | .fin na ma ea, .fin nx mx ex =>
      if ma == 0 || mx == 0 then (0x40000000, 0)
      else
        let (v, e) := dySum 2 0 (-(signed (na != nx) (ma * mx))) (ea + ex)
        roundInt fp32 rm false (rm == .rdn) v e
    | _, _ => (0x40000000, 0)

/-- rsqs (R70): 1.5 is 3 * 2^-1. -/
def rsqs (rm : RMode) (a x : Nat) : FRes :=
  let va := fval fp32 a
  let vx := fval fp32 x
  if va.isNan || vx.isNan then nanRes fp32 [va, vx]
  else match va, vx with
    | .fin na ma ea, .fin _ mx ex =>
      if ma == 0 || mx == 0 then (0x3FC00000, 0)
      else
        let (v, e) := dySum 3 (-1) (-(signed na (ma * mx * mx))) (ea + ex + ex - 1)
        roundInt fp32 rm false (rm == .rdn) v e
    | _, _ => (0x3FC00000, 0)

/-! The reproducible transcendentals (R72 to R75). Every step is an FP32 operation with RNE. -/

def f32One : Nat := 0x3F800000

def xFma (a b c : Nat) : Nat := (fFma fp32 rne a b c).1
def xMul (a b : Nat) : Nat := (fMul fp32 rne a b).1

/-- RNE32 of a dyadic number. -/
def xDy (v : Int) (e : Int) : Nat := (roundInt fp32 .rne false false v e).1

/-- RNE32(2^(i/64)): the 64th root of 2^(i + 64 * 40) rounded down by six square roots; only i = 0 is exact, and an odd last bit stands for
what was cut off. -/
def expTbl (i : Nat) : Nat :=
  let r := isqrt (isqrt (isqrt (isqrt (isqrt (isqrt (2 ^ (i + 2560)))))))
  if i == 0 then f32One else (roundRat fp32 .rne false false (2 * r + 1) 1 (-41)).1

/-- The core of exp2.x for -150 ≤ v * 2^e < 128 (R73). The remainder r is exact and not negative; it may have more bits than FP32 holds. -/
def exp2Core (v : Int) (e : Int) : FRes :=
  let n := if e ≥ 0 then v * 2 ^ e.toNat else v / 2 ^ (-e).toNat
  let (f, ef) := dySum v e (-n) 0
  let i := if ef ≥ 0 then 0 else f * 64 / 2 ^ (-ef).toNat
  let (r, er) := dySum f ef (-i) (-6)
  let step (a c : Nat) : Nat := (fmaVal fp32 .rne false (fval fp32 a) (.fin false r.toNat er) (fval fp32 c)).1
  let p := step 0x3D635847 0x3E75FDF0
  let p := step p 0x3F317218
  let p := step p f32One
  let y := xMul (expTbl i.toNat) p
  match fval fp32 y with
  | .fin _ m ey => roundRat fp32 .rne false false m 1 (ey + n)
  | _ => (nanBits fp32, 0)

/-- exp2.x (R73). -/
def exp2X (x : Nat) : FRes :=
  match fval fp32 x with
  | .nan s => nanRes fp32 [.nan s]
  | .inf n => (if n then 0 else infBits fp32 false, 0)
  | .fin n m e =>
    let v := FVal.fin n m e
    if !ltVal v (.fin false 128 0) then (infBits fp32 false, flOF ||| flNX)
    else if ltVal v (.fin true 150 0) then (0, flUF ||| flNX)
    else exp2Core (signed n m) e

/-- Bits of log2(m / 2^k) for 1 ≤ m / 2^k < 2, as an integer below 2^n, by repeated squaring. -/
def logBits : Nat → Nat → Nat → Nat → Nat
  | 0, _, _, acc => acc
  | n + 1, k, m, acc =>
    let s := (m * m) >>> k
    if s ≥ 2 ^ (k + 1) then logBits n k (s >>> 1) (2 * acc + 1) else logBits n k s (2 * acc)

/-- inv_c = RNE32(1 / (1 + i/64)) (R74). -/
def logInv (i : Nat) : Nat := (roundRat fp32 .rne false false 64 (64 + i) 0).1

/-- lg = RNE32(-log2(inv_c)), with inv_c = c * 2^(-24) and 1 - log2(2 * inv_c) rounded from 72 bits of the logarithm (R74). -/
def logTbl (i : Nat) : Nat :=
  if i == 0 then 0
  else match fval fp32 (logInv i) with
    | .fin _ m _ =>
      let b := logBits 72 230 (m <<< (230 - m.log2)) 0
      (roundRat fp32 .rne false false (2 * (2 ^ 72 - b) - 1) 1 (-73)).1
    | _ => 0

/-- log2.x (R74). DESIGN CHOICE (log 69): a signalling NaN raises NV, as R52 has it. -/
def log2X (x : Nat) : FRes :=
  match fval fp32 x with
  | .nan s => nanRes fp32 [.nan s]
  | .inf n => if n then invalid fp32 else (infBits fp32 false, 0)
  | .fin n m e =>
    if m == 0 then (infBits fp32 true, flDZ)
    else if n then invalid fp32
    else
      let l := m.log2
      let mm := m <<< (23 - l)
      let i := mm / 2 ^ 17 - 64
      let ic := logInv i
      let t := xFma (xDy mm (-23)) ic 0xBF800000
      let q := xFma 0x3EF6384A t 0xBF38AA3B
      let q := xFma q t 0x3FB8AA3B
      let q := xMul q t
      let s := (fAdd fp32 rne (logTbl i) q).1
      fAdd fp32 rne (xDy (e + l) 0) s

/-- tanh.x (R75). DESIGN CHOICE (log 69): a signalling NaN raises NV, as R52 has it. -/
def tanhX (x : Nat) : FRes :=
  match fval fp32 x with
  | .nan s => nanRes fp32 [.nan s]
  | .inf n => (signBits fp32 n + f32One, flNX)
  | .fin n m e =>
    let a := FVal.fin false m e
    if m == 0 then (x, 0)
    else if !ltVal a (.fin false 9 0) then (signBits fp32 n + f32One, flNX)
    else if ltVal a (.fin false 1 (-12)) then (x, flNX)
    else if ltVal a (.fin false 1 (-2)) then
      let w := xMul x x
      let h := xFma 0x3CB327A4 w 0xBD5D0DD1
      let h := xFma h w 0x3E088889
      let h := xFma h w 0xBEAAAAAB
      let h := xMul h w
      fFma fp32 rne h x x
    else
      let u := xMul (x % 2 ^ 31) 0x4038AA3B
      let z := (exp2X (u + 2 ^ 31)).1
      let num := (fSub fp32 rne f32One z).1
      let den := (fAdd fp32 rne f32One z).1
      let (v, fl) := divVal fp32 .rne false (fval fp32 num) (fval fp32 den)
      (signBits fp32 n + v, fl)

/-! The fast forms (R72, R205): the part's own function, held to the bound; a value outside it counts as the true value rounded. -/

/-- 2^(2^-k) as a fixed-point number of 100 bits, by repeated square roots. -/
def rootTwo : Nat → Nat
  | 0 => 2 ^ 101
  | k + 1 => isqrt (rootTwo k * 2 ^ 100)

/-- 2^f for f = b / 2^n, in 100 bits: the product of the roots that the bits of f select. -/
def expFrac : Nat → Nat → Nat → Nat
  | 0, _, acc => acc
  | n + 1, b, acc => expFrac n (b / 2) (if b % 2 == 1 then (acc * rootTwo (n + 1)) >>> 100 else acc)

/-- 2^(v * 2^e) as m * 2^k, to about 2^-70. -/
def expReal (v : Int) (e : Int) : Nat × Int :=
  let t : Int := if e + 72 ≥ 0 then v * 2 ^ (e + 72).toNat else v / 2 ^ (-(e + 72)).toNat
  let n := t / 2 ^ 72
  (expFrac 72 (t % 2 ^ 72).toNat (2 ^ 100), n - 100)

/-- The true value of a function at a finite operand, as m * 2^k to about 2^-60: 0 exp2, 1 log2, 2 tanh. -/
def fastTrue (fn : Nat) (n : Bool) (m : Nat) (e : Int) : Int × Int :=
  match fn with
  | 0 =>
    let (m, k) := expReal (signed n m) e
    (m, k)
  | 1 =>
    let b := logBits 100 300 (m <<< (300 - m.log2)) 0
    ((e + m.log2) * 2 ^ 100 + b, -100)
  | _ =>
    -- log2(e) * 2 to 96 bits
    let l := 0x2E2A8ECA5705FC2EEFA1FFB41
    let (z, k) := expReal (-((m * l : Nat) : Int)) (e - 96)
    let one : Int := 2 ^ 100
    let z : Int := if k + 100 ≥ 0 then z * 2 ^ (k + 100).toNat else z / 2 ^ (-(k + 100)).toNat
    let v := (one - z) * one / (one + z)
    (if n then -v else v, -100)

/-- The size of a unit in the last place of an FP32 value near v * 2^e, as an exponent. -/
def ulpExp (v : Int) (e : Int) : Int := max ((v.natAbs.log2 : Int) + e - 23) (-149)

/-- |c - t| ≤ k * 2^u for a candidate c and the true value t. -/
def within (c : FVal) (t : Int × Int) (k : Nat) (u : Int) : Bool :=
  match c with
  | .fin n m e =>
    let (d, ed) := dySum (signed n m) e (-t.1) t.2
    let (g, _) := dySum d.natAbs ed (-(k : Int)) u
    g ≤ 0
  | _ => false

/-- A `.f` result for an operand that is no special one (R72, R205).
DESIGN CHOICE (log 51): a tiny result that is exact raises no UF, as R53 has it; R205's 'UF when the result is tiny' says nothing of exact
ones. -/
def fastRes (fn : Nat) (x : Nat) : FRes :=
  match fval fp32 x with
  | .fin n m e =>
    let t := fastTrue fn n m e
    let c := (Config.fastFn fn (BitVec.ofNat 32 x)).toNat
    let v := fval fp32 c
    let u := ulpExp t.1 t.2
    let mid := !ltVal (.fin n m e) (.fin false 1 (-1)) && !ltVal (.fin false 2 0) (.fin n m e)
    let ok := within v t (if fn == 2 then 3 else 2) u || (fn == 1 && mid && within v t 1 (-22))
      || (fn == 0 && c == infBits fp32 false && t.1.natAbs.log2 + t.2 == 127 && within (.fin false 1 128) t 2 u)
    let r := if ok then c else (roundInt fp32 .rne false false t.1 t.2).1
    let nx := match fval fp32 r with
      | .fin n m e =>
        let whole := fn == 2 || (match fval fp32 x with
          | .fin _ mx ex => if fn == 1 then mx != 2 ^ mx.log2 else ex < 0 && mx % 2 ^ (-ex).toNat != 0
          | _ => true)
        whole || (dySum (signed n m) e (-t.1) t.2).1 != 0
      | _ => true
    (r, flag nx flNX ||| flag (fval fp32 r).isInf flOF ||| flag (nx && (t.1.natAbs.log2 : Int) + t.2 < -126) flUF)
  | _ => (nanBits fp32, 0)

/-- exp2.f. -/
def exp2F (x : Nat) : FRes :=
  let v := fval fp32 x
  let r := exp2X x
  if v.isNan || v.isInf || !ltVal v (.fin false 128 0) || ltVal v (.fin true 150 0) then r else fastRes 0 x

/-- log2.f. -/
def log2F (x : Nat) : FRes :=
  let v := fval fp32 x
  let r := log2X x
  if v.isNan || v.isInf || v.isZero || v.sign then r else fastRes 1 x

/-- tanh.f. -/
def tanhF (x : Nat) : FRes :=
  let a := fval fp32 (x % 2 ^ 31)
  let r := tanhX x
  if a.isNan || a.isZero || !ltVal a (.fin false 9 0) || ltVal a (.fin false 1 (-12)) then r else fastRes 2 x

/-! The counter-based generator (R76). -/

def cgRound : Nat → Nat → Nat → Nat → Nat → Bool → Nat × Nat
  | 0, _, _, x0, x1, _ => (x0, x1)
  | n + 1, k0, k1, x0, x1, odd =>
    let p := 0xD256D193 * x0
    cgRound n ((k0 + 0x9E3779B9) % 2 ^ 32) ((k1 + 0xBB67AE85) % 2 ^ 32)
      ((p >>> 32) ^^^ x1 ^^^ (if odd then k1 else k0)) (p % 2 ^ 32) (!odd)

/-- CG(K, v): the words x0 and x1 (R76). -/
def cg (k : Word) (v : Nat) : Nat × Nat :=
  let v := v % 2 ^ 64
  cgRound 10 (k.toNat % 2 ^ 32) (k.toNat >>> 32) (v >>> 32) (v % 2 ^ 32) false

end Sys2Proof.Machine
end

