-- ==== Sys2Proof/Machine/Atomics.lean ====
section
/-!
DEFINITION. Atomic updates (R163, R165), and the commits of logs and held stores (R267, R270, R271, R355).
-/

namespace Sys2Proof.Machine

/-! Updates (R163). -/

def amoWidth : AmoType → Nat
  | .i32 | .n32 | .f32 => 32
  | .i64 | .n64 => 64

def amoSigned : AmoType → Bool
  | .i32 | .i64 => true
  | _ => false

/-- Minimum or maximum of a type. -/
def amoPick (ty : AmoType) (isMax : Bool) (a b : Nat) : Nat :=
  let w := amoWidth ty
  match ty with
  | .f32 => (fMinMax fp32 isMax a b).1
  | _ =>
    let less := if amoSigned ty then sext w a < sext w b else a < b
    if less == isMax then b else a

/-- The new value of an update: old, operand and, for cas, the comparand (R163). -/
def amoNew (op : AmoOp) (ty : AmoType) (old b cmp : Nat) : Nat :=
  let w := amoWidth ty
  let b := b % 2 ^ w
  match op with
  | .add => match ty with
    | .f32 => (fAdd fp32 rne old b).1
    | _ => (old + b) % 2 ^ w
  | .min => amoPick ty false old b
  | .max => amoPick ty true old b
  | .or => old ||| b
  | .and => old &&& b
  | .xor => old ^^^ b
  | .swap => b
  | .cas => if old = cmp % 2 ^ w then b else old

/-- The old value as gd receives it: i32 sign-extended, n32 and f32 zero-extended (R163). -/
def amoExtend (ty : AmoType) (old : Nat) : Word :=
  match ty with
  | .i32 => BitVec.ofInt 64 (sext 32 old)
  | _ => BitVec.ofNat 64 old

/-- An update of memory at a physical address. -/
def amoAt (s : State) (pa : Nat) (op : AmoOp) (ty : AmoType) (b cmp : Word) : State × Nat :=
  let n := amoWidth ty / 8
  let old := memWord s.mem pa n
  (performAt s 0 0 (cellsAt pa (leBytes n (amoNew op ty old b.toNat cmp.toNat))), old)

/-! Commits. -/

/-- The home of a key: none for this package. -/
def homeOfKey (k : Nat) : Option Nat := if isGlobalKey k then some (keyHome k) else none

/-- The other homes to which some cells belong. -/
def homesOf (cells : List Host.Cell) : List Nat := (cells.filterMap fun c => homeOfKey c.1).eraseDups

/-- What of an entry belongs to a home. -/
def entryAt (h : Option Nat) : LogEntry → Option LogEntry
  | .store o c pa cells =>
    let mine := cells.filter fun x => homeOfKey x.1 == h
    if mine.isEmpty then none else some (.store o c pa mine)
  | .update o pa op ty b => if homeOfKey pa == h then some (.update o pa op ty b) else none

/-- One entry of a commit log applied at this home (R270): it never faults. -/
def applyEntry (s : State) (uid : Nat) : LogEntry → State
  | .store _ _ _ cells => performAt s uid 0 cells
  | .update _ pa op ty b => (amoAt s pa op ty b 0).1

/-- The other homes to which a log belongs. -/
def logHomes (log : List LogEntry) : List Nat :=
  (log.flatMap fun
    | .store _ _ _ cells => cells.filterMap fun c => homeOfKey c.1
    | .update _ pa .. => (homeOfKey pa).toList).eraseDups

/-- A whole log applied in order: here at once, and at each other home by one request. Answers how many homes must acknowledge. -/
def applyLog (s : State) (vd uid tag : Nat) (log : List LogEntry) : State × Nat :=
  let hs := logHomes log
  let s := (log.filterMap (entryAt none)).foldl (fun s e => applyEntry s uid e) s
  (hs.foldl (fun s h => sendCommit s h vd uid tag (log.filterMap (entryAt (some h)))) s, hs.length)

/-- Held stores performed at their homes, in order (R267). -/
def applyHeld (s : State) (vd uid tag : Nat) (held : List HeldStore) : State × Nat :=
  applyLog s vd uid tag (held.map fun h => .store h.order 0 (nth (0, 0) h.cells 0).1 h.cells)

/-! Commit digests of mirrored VDs (R360). -/

/-- The bytes of one entry in a commit digest. -/
def entryBytes : LogEntry → List Byte
  | .store _ _ pa cells =>
    leBytes 8 pa ++ [0, 0] ++ leBytes 2 cells.length ++ List.replicate 4 0 ++ cells.map (·.2)
  | .update _ pa op ty b =>
    leBytes 8 pa ++ [1, BitVec.ofNat 8 (amoCode op * 16 + amoTypeCode ty)] ++ leBytes 2 0 ++ List.replicate 4 0 ++ leBytes 8 b.toNat

end Sys2Proof.Machine
end

