-- ==== Sys2Proof/Machine/Durable.lean ====
section
/-!
DEFINITION. The durable tier: acceptance and programming of writes (R297 to R301), the loss of power and the drain (R307, R308, R310, R311),
and the scan of the durable tile pools (R303, R309).
-/

namespace Sys2Proof.Machine

/-! Acceptance. -/

/-- The site of a physical address of the durable tier. -/
def siteNo (pa : Nat) : Option (Fin 4) :=
  match target pa with
  | .dur site _ => some (Fin.ofNat 4 site)
  | _ => none

def modSite (s : State) (n : Fin 4) (f : Site → Site) : State := { s with sites := s.sites.set n (f s.sites[n]) }

def durUnit (d : DurStore) : Nat := (nth (0, 0) d.cells 0).1 / 64

/-- Units of 64 bytes in a buffer of 64 MiB. -/
def bufferUnits : Nat := 1048576

/-- Whether the site of a unit can take it: it accepts, and its buffer is not full (R298). -/
def siteTakes (s : State) (unit : Nat) : Bool :=
  (siteNo (64 * unit)).any fun n => s.sites[n].accepting && s.sites[n].buffer.length < bufferUnits

/-- A durable store of another persist epoch stands before one, at this home or at another (R299). -/
def durEarlier (s : State) (uid epoch : Nat) : Bool :=
  (s.durPend.any fun d => d.uid == uid && d.epoch < epoch) || s.durAway.any fun d => d.uid == uid && d.epoch < epoch

/-- Other homes are told of the durable stores of this package's tasks that they may accept from now on. -/
def openDur (s : State) : State :=
  let may := fun (d : DurAway) => !d.told && !durEarlier s d.uid d.epoch
  let s' := { s with durAway := mapIf may (fun d => { d with told := true }) s.durAway }
  (s.durAway.filter may).foldl (fun s d => sendPeer s d.home d.vd .accept 0 [d.uid, d.epoch] []) s'

/-- A store enters the write-pending buffer of its site. -/
def acceptStore (s : State) (d : DurStore) : State :=
  let u := durUnit d
  let s := openDur { s with media := memSetCells s.media d.cells, durPend := s.durPend.erase d }
  match siteNo (64 * u) with
  | some n => modSite s n fun x => { x with buffer := if x.buffer.contains u then x.buffer else u :: x.buffer }
  | none => s

/-- The first store that may be accepted: none to its unit stands before it (R300), and none of an earlier persist epoch of its task, which may
lie at another home (R299). -/
def nextAccept (s : State) (ok : DurStore → Bool) : List DurStore → List DurStore → Option DurStore
  | _, [] => none
  | before, d :: l =>
    let free := before.all fun e => durUnit e != durUnit d
    let late := d.uid ≠ 0 && (durEarlier s d.uid d.epoch || s.durHeld.contains (d.uid, d.epoch))
    if ok d && free && !late && siteTakes s (durUnit d) then some d else nextAccept s ok (before ++ [d]) l

/-- WRITE_ACCEPTED (R297): a store to the durable tier is accepted, the one to the unit at the inputs or the first that may be. -/
def execWriteAccepted (s : State) : Out :=
  let ok := fun (d : DurStore) => match s.input with
    | .unit pa => durUnit d == pa / 64
    | _ => true
  match nextAccept s ok [] s.durPend with
  | some d => .next (acceptStore s d)
  | none => .next s

/-- A site whose buffer is full programs the oldest unit of it (R298). -/
def freeUnits (s : State) : State :=
  { s with sites := s.sites.map fun x => if x.buffer.length < bufferUnits then x else { x with buffer := x.buffer.dropLast } }

def acceptRun : Nat → State → State
  | 0, s => s
  | fuel + 1, s =>
    let s := freeUnits s
    match nextAccept s (fun _ => true) [] s.durPend with
    | some d => acceptRun fuel (acceptStore s d)
    | none => s

/-- The part waits until every store to the durable tier has been accepted, each as soon as it may be. -/
def acceptAll (s : State) : State := acceptRun s.durPend.length s

/-- A write of the part that is accepted with every store before it. -/
def placeDur (s : State) (pa : Nat) (bs : List Byte) : State := acceptAll (performAt s 0 0 (cellsAt pa bs))

/-- UNIT_PROGRAMMED (R298): a unit leaves the buffer of its site for the media. -/
def execUnitProgrammed (s : State) : Out :=
  match s.input with
  | .unit pa => match siteNo pa with
    | some n => .next (modSite s n fun x => { x with buffer := x.buffer.erase (pa / 64) })
    | none => .next s
  | _ => match (List.finRange 4).find? fun n => !s.sites[n].buffer.isEmpty with
    | some n => .next (modSite s n fun x => { x with buffer := x.buffer.dropLast })
    | none => .next s

/-! Loss of power. -/

/-- Whether a byte lies in the durable range of partition 0 in reduced service without a reserve: what a loss of power leaves there is undefined
(R389). -/
def lostRange (s : State) (pa : Nat) : Bool :=
  s.pkg.nores && s.pkg.phase == .reduced && isDur pa && (s.part? 0).any fun p => inFences s p pa

/-- The media after a loss of power: where their contents are undefined, each byte that was listed is a free value (R389; log 67). -/
def mediaLeft (s : State) : List Host.Cell :=
  if s.media.any fun c => lostRange s c.1 then
    (s.media.filter fun c => lostRange s c.1).foldl (fun m c => memSet m c.1 (Config.lostByte s.pkg.inc c.1)) s.media
  else s.media

/-- What a loss of power leaves: the durable tier as accepted, on a site whose drain then fails too: of the prefixes that R311 allows there
the model takes this one (log 55), the units of it in error, the versions of signed objects and images, and
the management log; every task, VD, queue and translation is gone (R307, R308, R392, R395). -/
def losePower (s : State) : State :=
  { State.reset with
    mem := mediaLeft s
    media := mediaLeft s
    errs := s.errs.filter fun u => isDur (64 * u)
    pkg := { Pkg.reset with
      num := s.pkg.num, inc := s.pkg.inc, powered := false, lostPower := true, versions := s.pkg.versions, fwImage := s.pkg.fwImage
      fwNew := s.pkg.fwNew, mgmt := s.pkg.mgmt, mgmtSeq := s.pkg.mgmtSeq, mgmtOut := s.pkg.mgmtOut, mgmtHeld := s.pkg.mgmtHeld
      fwHeld := s.pkg.fwHeld, stop := s.pkg.stop, hot := s.pkg.hot }
    sites := s.sites.map fun x => { x with accepting := false, clean := false }
    nextUid := s.nextUid
    stamp := s.stamp
    input := s.input
    agenda := s.agenda
    fresh := s.fresh }

/-- POWER_LOSS (R307). -/
def execPowerLoss (s : State) : Out := if s.pkg.powered then .next (losePower s) else .next s

/-- SITE_DRAIN_COMPLETE (R307, R310): a site that has stopped accepting has programmed its buffer; the units that could not be
programmed are in error. A drain that comes to its end records the clean mark. After a thermal stop the last drain to end lets its record be
written (R402). -/
def execSiteDrainComplete (s : State) : Out :=
  let drained := fun (s : State) (n : Nat) => match s.pkg.stop with
    | none => s
    | some t =>
      let left := t.left.filter (· != n)
      if left.isEmpty then logMgmt (s.modPkg fun p => { p with stop := none }) 20 0 s.pkg.num [t.die, t.temp]
      else s.modPkg fun p => { p with stop := some { t with left := left } }
  match s.input with
  | .site n failed complete =>
    if s.pkg.powered then .next s else
    let i : Fin 4 := Fin.ofNat 4 n
    let bad := failed.filter fun u => s.sites[i].buffer.contains u
    let s := { s with errs := bad.filter (fun u => !s.errs.contains u) ++ s.errs }
    .next (drained (modSite s i fun x => { x with buffer := if complete then [] else x.buffer, clean := complete }) i.val)
  | _ =>
    if s.pkg.powered then .next s else
    match (List.finRange 4).find? fun n => !s.sites[n].clean with
    | some n => .next (drained (modSite s n fun x => { x with buffer := [], clean := true }) n.val)
    | none => .next s

/-! Pool descriptors and the scan (R303, R309). -/

/-- The runs of a VD's pool on every site, by their offset: physical address, offset and pages. -/
def insRun (r : Nat × Nat × Nat) : List (Nat × Nat × Nat) → List (Nat × Nat × Nat)
  | [] => [r]
  | x :: l => if x.2.1 ≤ r.2.1 then x :: insRun r l else r :: x :: l

def poolRuns (s : State) (vd : Nat) : List (Nat × Nat × Nat) :=
  ((s.sites.toList.flatMap Site.descs).filter fun d => d.1 == vd).foldl (fun l d => insRun d.2 l) []

/-- The physical address of a pool offset. -/
def runPa (rs : List (Nat × Nat × Nat)) (off : Nat) : Option Nat :=
  (rs.find? fun r => r.2.1 ≤ off && off < r.2.1 + 4096 * r.2.2).map fun r => r.1 + (off - r.2.1)

def runLen (rs : List (Nat × Nat × Nat)) : Nat := rs.foldl (fun n r => max n (r.2.1 + 4096 * r.2.2)) 0

/-- An entry of a pool head: name, physical address of the header, and code. -/
abbrev PoolEntry := Word × Nat × Nat

/-- The record of a restored version, from its LREC (R309). -/
def restoredRec (lrec : List Byte) (name digest : Word) (size : Nat) : LinRec :=
  let w := fun i => leNat ((lrec.drop (8 * i)).take 8)
  let w3 := w 3
  let n := min (bits w3 55 52) 8
  { name := name, kcopy := w 1, digest := digest, root := bits w3 63 63 = 1, taint := false, anchor := true, apend := false
    durs := bits w3 59 59 = 1, lost := false, rbld := false, freed := false, depth := 0, ord := 0, size := size, replica := 0
    need := 0, tqidx := 0, tpseq := 0, acq := (List.range n).map fun i => BitVec.ofNat 64 (w (8 + i)) }

/-- The scan of a chain of blocks from an offset: the state with versions restored and unsealed ones freed, the entries, and whether it
stopped early. -/
def scanBlocks (vd : Nat) (rs : List (Nat × Nat × Nat)) : Nat → State → Nat → List PoolEntry → State × List PoolEntry × Bool
  | 0, s, _, es => (s, es, false)
  | fuel + 1, s, off, es =>
    if off + 512 > runLen rs then (s, es, false) else
    match runPa rs off with
    | none => (s, es, false)
    | some pa =>
      let h := memGetN s.mem pa 512
      let name := BitVec.ofNat 64 (leNat ((h.drop 0x80).take 8))
      let dg := BitVec.ofNat 64 (leNat ((h.drop 0x88).take 8))
      let size := leNat ((h.drop 0x90).take 4)
      let st := leNat ((h.drop 0x98).take 1) % 4
      let unclean := (siteNo pa).any fun n => !s.sites[n].clean
      let broken := st = 3 || size = 0 || size % 512 ≠ 0 || off + 512 + size > runLen rs
      let next := off + 512 + size
      if (List.range 8).any fun i => badUnit s (pa + 64 * i) then (s, es ++ [(name, pa, 2)], true)
      else if unclean then
        -- R311: every header of the site is reported; the chain goes on through it (log 55).
        if broken then (s, es ++ [(name, pa, 2)], true) else scanBlocks vd rs fuel s next (es ++ [(name, pa, 2)])
      else if broken then (s, es ++ [(name, pa, 3)], true)
      else
        match st with
        | 1 =>
          let s := placeDur s (pa + 0x80) (leBytes 8 name.toNat ++ leBytes 8 dg.toNat ++ leBytes 8 size ++ List.replicate 40 0)
          scanBlocks vd rs fuel s next (es ++ [(name, pa, 1)])
        | 2 =>
          let t : Tile := ⟨name, vd, off + 512, size, true, true, 0, false, true, true, 0, false⟩
          let r := restoredRec h name dg size
          scanBlocks vd rs fuel { s with tiles := t :: s.tiles, recs := r :: s.recs.filter fun x => x.name != name } next es
        | _ => scanBlocks vd rs fuel s next es

/-- The pool head as a scan rewrites it (R309). -/
def headBytes (gen : Nat) (es : List PoolEntry) (brk : Bool) : List Byte :=
  let l := es.take 127
  let w0 := l.length + (if es.length > 127 then 2 ^ 16 else 0) + if brk then 2 ^ 17 else 0
  let head := leBytes 8 w0 ++ leBytes 8 gen ++ List.replicate 16 0 ++
    l.flatMap fun e => leBytes 8 e.1.toNat ++ leBytes 8 e.2.1 ++ leBytes 8 e.2.2 ++ List.replicate 8 0
  head ++ List.replicate (4096 - head.length) 0

/-- The scan of one VD's pool. -/
def scanPool (s : State) (vd : Nat) : State :=
  let rs := poolRuns s vd
  let (s, es, brk) := scanBlocks vd rs (runLen rs / 1024 + 1) s 4096 []
  match runPa rs 0 with
  | none => s
  | some pa =>
    let gen := memWord s.mem (pa + 8) 8 + if s.pkg.lostPower then 1 else 0
    placeDur s pa (headBytes (gen % 2 ^ 64) es brk)

/-- A failed unit of a durable page that no pool holds: it is reported by its address (R310). -/
def mediaFail (s : State) (u : Nat) : Bool :=
  isDur (64 * u) && !s.sites.toList.any fun x => x.descs.any fun d => d.2.1 ≤ 64 * u && 64 * u < d.2.1 + 4096 * d.2.2.2

/-- DURABLE_POOL_SCAN (R309): once in the reduced service of a bring-up; a site without its clean mark is reported (R311). -/
def execDurablePoolScan (s : State) : Out :=
  if s.pkg.phase != .reduced || s.pkg.scanned then .next s else
  let vds := ((s.sites.toList.flatMap Site.descs).map (·.1)).eraseDups
  let s := (s.errs.filter (mediaFail s)).foldl (fun s u => logMgmt s 3 3 ((siteNo (64 * u)).elim 0 Fin.val) [64 * u]) s
  .next ((vds.foldl scanPool s).modPkg fun p => { p with scanned := true })

end Sys2Proof.Machine
end

