-- ==== Sys2Proof/Machine/Fetch.lean ====
section
/-!
DEFINITION. The fetch of a slice's next instruction (R78, R102), and the context that moves.
-/

namespace Sys2Proof.Machine

/-! Fetch. -/

/-- What a fetch finds: the words of the instruction and its length, a fault, or a stage-2 fault. -/
inductive Fetched where
  | ok (w0 w1 n : Nat)
  | flt (f : Flt)
  | held (f : S2Flt) (va : Nat)
  | ask (home va : Nat)       -- the word lies at another home, which has not yet answered (R289)

/-- Whether bytes lie in the section of the slice that runs (R102, order 1). -/
def inSection (s : State) (va n : Nat) : Bool :=
  let c := s.ctx.code
  match s.slice with
  | .a => c.base + c.aoff ≤ va && va + n ≤ c.base + c.aoff + c.alen
  | .c => c.base + c.coff ≤ va && va + n ≤ c.base + c.coff + c.clen

/-- One word of the instruction at `pc`. Every fault reports the address of the instruction's first word (R102). -/
def fetchWord (s : State) (pc : Word) (va : Nat) : Fetched :=
  if va % 4 ≠ 0 || !inSection s va 4 then .flt { cause := .illegal, sub := 1, faddr := pc, fetch := true }
  else match checkAccess s .fetch (BitVec.ofNat 64 va) 4 [(va, 4)] with
    | .ok ps => .ok (leNat (readPlaces s ps)) 0 4
    | .flt c _ => .flt { cause := c, faddr := pc, fetch := true }
    | .held f a => .held f a
    | .remote h => match answerOf s (codeTag s.slice va) with
      | some r =>
        if r.status = 0 then .ok (leNat ((reply r).data.take 4)) 0 4 else .flt { cause := causeOf r.cause, faddr := pc, fetch := true }
      | none => if peerLost s h then .flt { cause := .memUncorrectable, faddr := pc, fetch := true } else .ask h va
    | .lostTile _ => .flt { cause := .tileLost, faddr := pc, fetch := true }
    | .memErr _ => .flt { cause := .memUncorrectable, faddr := pc, fetch := true }

/-- The instruction at an address. -/
def fetch (s : State) (pc : Word) : Fetched :=
  match fetchWord s pc pc.toNat with
  | .ok w0 _ _ =>
    if hasWord1 w0 then
      match fetchWord s pc (pc.toNat + 4) with
      | .ok w1 _ _ => .ok w0 w1 8
      | r => r
    else .ok w0 0 4
  | r => r

/-- Asks a home for a word of the slice's code; words of other instructions that the slice has asked for before are dropped (R289). -/
def askCode (s : State) (pc : Word) (home va : Nat) : State :=
  let keep := fun (r : Answer) => !isCodeTag s.slice r.tag || r.tag == codeTag s.slice va || r.tag == codeTag s.slice pc.toNat
  let s := s.modM fun m => { m with answers := m.answers.filter keep }
  askOnce s home (codeTag s.slice va) fun s =>
    askLoad s home s.ctx.vd (asker s) (codeTag s.slice va) [(va, 4)] (askRights s.ctx.sup s.ctx.rebuild + rightFetch)

/-- trap, brk, eret and done: the front end goes no further until they issue. -/
def isStopper (w0 : Nat) : Bool := major w0 == 0 && 2 ≤ w0 / 2 ^ 12 % 16 && w0 / 2 ^ 12 % 16 ≤ 5

/-- fwait holds the front end and is decided after the issues of its C-cycle (R226, R29). -/
def isFwait (w0 : Nat) : Bool := major w0 == 0x3A && w0 / 2 ^ 20 % 4 == 1

/-- Another context moves: it comes to the front, and the one that moved steps back. -/
def focusOn (s : State) (uid : Nat) : State :=
  match s.parked.find? fun c => c.uid == uid && (c.phase == .running || c.phase == .cut || c.phase == .stopped) with
  | none => s
  | some x =>
    let rest := s.parked.erase x
    { s with ctx := x, live := true, parked := if s.live then s.ctx :: rest else rest }

end Sys2Proof.Machine
end

