-- ==== Sys2Proof/Machine/Sched.lean ====
section
/-!
DEFINITION. The dispatcher (R249 to R254, R329 to R337): switches of a core, spills, save areas, the loading of a task into a bank,
deques with their overflow areas, stealing, and gangs. The events that use these operations stand in SchedEvents.lean.
-/

namespace Sys2Proof.Machine

/-! Switches (R235, R252, R253). -/

/-- Acts on the context of a task in a bank, and gives the machine back to the one that moved. -/
def onContext (s : State) (uid : Nat) (f : State → State) : State :=
  if s.live && s.ctx.uid == uid then f s
  else
    let was := s.live
    let me := s.ctx.uid
    let t := focusOn s uid
    if !t.live || t.ctx.uid != uid then s
    else
      let t := f t
      if was then focusOn t me else t

/-- Changes the context of a task that is not handled by another: its own, or its handler's. -/
def modBank (s : State) (uid : Nat) (f : Context → Context) : State :=
  if s.live && s.ctx.uid == uid then s.modCtx f
  else { s with parked := mapIf (fun c => c.uid == uid && c.phase != .handled) f s.parked }

def bankCtx? (s : State) (uid : Nat) : Option Context :=
  if s.live && s.ctx.uid == uid then some s.ctx else s.parked.find? fun c => c.uid == uid && c.phase != .handled

/-- The cut of a switch request: both slices stop at once (R235). Where a fault's cut is not complete yet, that cut is taken: the context
leaves once it is (R241). -/
def cutNow (s : State) : State :=
  match s.ctx.phase with
  | .running =>
    settle (s.modCtx fun x => { x with
      phase := .cut
      a := { x.a with stop := some (x.a.stop.getD (otherStop x.a.pc)) }
      c := { x.c with stop := some (x.c.stop.getD (otherStop x.c.pc)) } })
  | _ => settle s

/-- A context that has given up its bank: it comes back only once it has been spilled (R170, R171). -/
def awaitsSpill (x : Context) : Bool := x.a.block == some .yieldWait || x.m.spawnHeld

/-- The gang of a task, unless it has ended. -/
def gangOf (s : State) (uid : Nat) : Option Gang :=
  s.gangs.find? fun g => g.state != .ended && g.members.any fun m => m.uid == uid

/-- A context that may come into the active bank: it has not given up its bank, and its gang, if it has one, is in its banks as a whole
(R13, R253). -/
def mayComeIn (s : State) (uid : Nat) : Bool :=
  !(bankCtx? s uid).any awaitsSpill && (gangOf s uid).all fun g => g.state == .running

/-- A switch request on a core (R252): the outgoing context's cut is fixed, and the shadow context is to come in, if there is one that may.
A request taken during a switch waits for its end. A task that gives up its bank at `yield` or `spawn` is SUSPENDED from here on (R16). -/
def requestSwitch (s : State) (n : Nat) : State :=
  match s.core? n with
  | none => s
  | some c => match c.active, c.switchTo with
    | _, some _ => s.modCore n fun c => { c with again := true }
    | none, none => s
    | some uid, none =>
      let inc := c.shadow.filter (mayComeIn s)
      let gives := (bankCtx? s uid).any awaitsSpill
      let s := onContext s uid cutNow
      let s := modBank s uid fun x => if x.phase == .stopped then { x with phase := .switching } else x
      let s := if gives then s.modTask uid fun k => { k with state := .suspended } else s
      s.modCore n fun c => { c with switchTo := some inc }

/-- A context that comes into the active bank goes on (R249, R252), or its handler is still to be entered (R241). -/
def bringIn (s : State) (uid : Nat) : State :=
  let s := modBank s uid fun x => if (stopCause x).isSome && !x.sup then { x with phase := .stopped } else resumed x
  s.modTask uid fun k => { k with state := .running }

/-- The end of a switch, or a shadow context that comes into a free active bank. The outgoing context goes to the shadow bank, or waits for
its spill where that bank keeps a context that may not come in. A cut that is not complete holds the switch; a request that waited begins
its own (R241, R252). -/
def switchDone (s : State) (n : Nat) : State :=
  match s.core? n with
  | none => s
  | some c => match c.switchTo with
    | some inc =>
      if (c.active.bind (bankCtx? s)).any fun x => x.phase == .cut then s else
      let s := match c.active with
        | some uid =>
          let gives := (bankCtx? s uid).any awaitsSpill
          (modBank s uid fun x => { x with phase := .shadowed }).modTask uid fun k => { k with state := if gives then .suspended else .shadowed }
        | none => s
      let stays := inc.isNone && c.shadow.isSome
      let s := s.modCore n fun d => { d with
        active := inc, shadow := if stays then c.shadow else c.active, leaving := if stays then c.active else none
        switchTo := none, again := false, quantum := false }
      let s := inc.elim s fun uid => bringIn s uid
      if c.again then requestSwitch s n else s
    | none => match c.active, c.shadow with
      | none, some uid =>
        if mayComeIn s uid then bringIn (s.modCore n fun c => { c with active := some uid, shadow := none, quantum := false }) uid else s
      | _, _ => s

/-- A member of a gang whose banks are not to be given up one by one (R13, R22). -/
def bound (s : State) (uid : Nat) : Bool := (gangOf s uid).any fun g => g.state == .running

/-- The data of a load that passed its check is still to arrive (R234, R235). -/
def loadsWait (x : Context) : Bool := x.q.toC.any fun e => !e.ready && !e.poison

/-- The spill engine finishes with the context that waits to leave a core, or else with its shadow context: once every access that passed
its check has completed, the context is SUSPENDED, and its bank free; its weight buffer and scratchpad stay on the core (R251, R253). -/
def spillDone (s : State) (n : Nat) : State :=
  match (s.core? n).bind fun c => c.leaving.or c.shadow with
  | none => s
  | some uid =>
    if bound s uid then s else
    match bankCtx? s uid with
    | none => s
    | some x =>
      if x.phase != .shadowed || loadsWait x then s else
      let s := (modBank s uid fun x => { x with phase := .saved, onCore := true }).modTask uid fun k => { k with saved := true, state := .suspended }
      s.modCore n fun c => if c.leaving.isSome then { c with leaving := none } else { c with shadow := none }

/-! Readiness (R329). -/

/-- The count of R329 is 0. -/
def operandsReady (s : State) (k : Task) : Bool :=
  (operands k.desc).all fun n => match awayHome s n with
    | some _ => k.away.contains n
    | none => operandReady s k n

/-- An operand that never becomes resident: of another VD, or lost for good (R329, R353). -/
def operandGone (s : State) (k : Task) : Bool :=
  (operands k.desc).any fun n => tileVd n != k.vd || k.gone.contains n || ((awayHome s n).isNone && neverReady s k n)

/-- SIGNALs of its queue that a task must follow and that have not been applied (R318). -/
def signalsLeft (s : State) (k : Task) : Bool :=
  k.signals.any fun n => ((s.queue? k.vd k.qidx).bind fun x => jentry? x n).any fun e => !e.complete

/-- Ready but for its gang. -/
def selfReady (s : State) (k : Task) : Bool := operandsReady s k && !signalsLeft s k

/-- Packages with members of a level-3 gang that have not ended. -/
def gangPkgs (g : Gang) : List Nat := ((g.others.filter fun m => !m.ended).map RMember.pkg).eraseDups

/-- Whether every member of a gang on this package is ready: for the gang's first residence, or, spilled, for its next one (R336). -/
def membersReady (s : State) (g : Gang) : Bool :=
  let ks := (g.members.filter fun m => !m.ended).filterMap fun m => s.task? m.uid
  match g.state with
  | .waiting => ks.all (selfReady s)
  | .suspended => ks.all fun k => k.state == .ready
  | _ => false

/-- A gang in WAITING whose members are all ready becomes QUEUED, and they READY; so does a SUSPENDED one. The packages of a level-3 gang tell one
another when their own members are ready, or no longer are (R336, R337; log 9). -/
def gangReady (s : State) (g : Gang) : State :=
  let same := fun (x : Gang) => x.vd == g.vd && x.level == g.level && x.did == g.did && x.state == g.state
  let mine := membersReady s g
  if mine && (gangPkgs g).all fun p => g.readied.contains p then
    let s := if (gangPkgs g).isEmpty || g.readied.contains s.pkg.num then s else reportGang s g .ready s.pkg.num 1
    let s := g.members.foldl (fun s m => if m.ended then s else s.modTask m.uid fun k => { k with state := .ready, age := 0 }) s
    { s with gangs := mapIf same (fun g => { g with state := .queued, age := 0, readied := [] }) s.gangs }
  else if (gangPkgs g).isEmpty || mine == g.readied.contains s.pkg.num then s
  else
    let l := g.readied.filter (· != s.pkg.num)
    reportGang { s with gangs := mapIf same (fun g => { g with readied := if mine then s.pkg.num :: l else l }) s.gangs }
      g .ready s.pkg.num (b2n mine)

/-- A task becomes READY, if it may: from WAITING by R329, from SUSPENDED by R16. -/
def taskReady (s : State) (uid : Nat) : State :=
  match s.task? uid with
  | none => s
  | some k => match k.state with
    | .waiting =>
      if operandGone s k then taskFail s uid .tileLost
      else if descDval k.desc then (gangOf s uid).elim s fun g => gangReady s g
      else if !selfReady s k then s
      else
        let s := s.modTask uid fun k => { k with state := .ready, age := 0 }
        if s.cores.any (fun c => c.deque.contains uid || c.spill.any fun e => e.2 == uid) then s else placeTask s uid
    | .suspended =>
      if !k.saved || (s.context? uid).any (fun x => x.m.spawnHeld) then s else
      let s := s.modTask uid fun k => { k with state := .ready, age := 0 }
      if descDval k.desc then (gangOf s uid).elim s fun g => gangReady s g else placeBack s uid
    | _ => s

/-! Placement in a bank (R331, R334). -/

/-- Effective priority. -/
def taskEp (k : Task) : Nat := min 15 (k.prio + k.age)

/-- A free slot of the VD's save-area pool. -/
def freeSlot (s : State) (vd : Nat) : Option Nat :=
  (s.vd? vd).bind fun v => (List.range (min v.nslot (v.used.length + 1))).find? fun n => !v.used.contains n

/-- A task that can be placed: it has a save area, or one is free. -/
def placeable (s : State) (k : Task) : Bool := k.save.isSome || (freeSlot s k.vd).isSome

/-- Whether the VD of a task runs tasks (R368). -/
def vdRuns (s : State) (vd : Nat) : Bool := (s.vd? vd).any fun v => v.dorm == .active

/-- READY entries in their order, and those of them that can be placed. -/
def readyIn (s : State) (l : List Nat) : List Task := (l.filterMap (s.task? ·)).filter fun k => k.state == .ready && vdRuns s k.vd
def readyOf (s : State) (l : List Nat) : List Task := (readyIn s l).filter (placeable s)

/-- The spilled entries of a core that can be read: an entry whose page faults stays in place (R332). -/
def spilled (s : State) (c : Core) : List Nat := (c.spill.filter fun e => (spillRead s c e).isSome).map (·.2)

/-- The READY entry with the highest EP; ties go to the one nearest the tail. -/
def bestEntry (l : List Task) : Option Task :=
  l.foldl (fun b k => match b with
    | none => some k
    | some x => if taskEp k ≥ taskEp x then some k else b) none

/-- The entry that a core takes: the one for which it has pre-empted (R335), else from its on-chip entries, and then from the overflow area
(R331). -/
def ownEntry (s : State) (c : Core) : Option Task :=
  ((readyOf s (c.deque ++ spilled s c)).find? fun k => some k.uid == c.due).or
    ((bestEntry (readyOf s c.deque)).or (bestEntry (readyOf s (spilled s c))))

/-- The entry of the highest EP in a whole deque, the spilled entries the older ones (R335). -/
def topEntry (s : State) (c : Core) : Option Task := bestEntry (readyOf s (spilled s c ++ c.deque))

/-- DOM of a descriptor (R40). -/
def domOf (d : Vector Word 16) : Word := if descDval d then BitVec.ofNat 64 (descWord d 3 % 2 ^ 51) else 0

/-- Parameters in registers 1 to N (R25). -/
def withParams (ps : List Word) : Vector Word 32 :=
  (List.range ps.length).foldl (fun (v : Vector Word 32) i => if h : i + 1 < 32 then v.set (i + 1) (nth 0 ps i) else v) ASide.reset.regs

/-- The state of a context at the first instruction of its task (R25). -/
def freshContext (k : Task) (v : Vd) (n : Nat) (bank : Bool) (base : Nat) (d : Decl) (c : CodeObj) : Context :=
  { Context.reset with
    uid := k.uid, vd := k.vd, part := k.part, core := n, bank := bank, det := v.det, dom := domOf k.desc
    tdesc := BitVec.ofNat 64 k.kcopy, decl := d, code := c, save := some base, phase := .running, rebuild := k.rebuild
    skipSpawn := k.skipSpawn
    a := { ASide.reset with regs := withParams k.params, pc := BitVec.ofNat 64 (c.base + c.aoff) }
    c := { CSide.reset with regs := withParams k.params, pc := BitVec.ofNat 64 (c.base + c.coff) } }

/-- How a load into a bank ends. -/
inductive Loaded where
  | ok (s : State)
  | failed (s : State)                    -- the task fails
  | wait (s : State)                      -- a stage-2 fault, or no save area

/-- The loader's failure: a record alone, all of whose addresses and counts are zero (R245). DECLARATION is none of the causes that R239
writes to both fields; it stands in CAUSE_A (log 8). -/
def loaderFail (s : State) (k : Task) (base : Nat) : State :=
  let code := BitVec.ofNat 8 (causeCode .declaration)
  let s := hwWrite s k.vd base (recordBytes { Context.reset with tdesc := BitVec.ofNat 64 k.kcopy }
    { Record.none with causeA := code })
  taskFail s k.uid .declaration

/-- A stage-2 fault of the loader, which holds the task READY until it has been answered (R112, R285). -/
def loaderHeld (s : State) (k : Task) (n : Nat) (f : S2Flt) (va : Nat) : State :=
  (holdAccess s k.part k.vd n f (BitVec.ofNat 64 va) 0 true false (.loader k.uid)).1

def loaderWaits (s : State) (k : Task) : Bool := (s.part? k.part).any fun p => p.recs.any fun r => r.holder == .loader k.uid

/-- The weight buffer and scratchpad of a saved context go to its save area, and those of the task that a saved handler handles (R251). -/
def writeOut (s : State) (x : Context) : State :=
  (x :: s.parked.filter fun y => x.sup && y.uid == x.uid && y.phase == .handled).foldl writeBulk s

def bulkOut (s : State) (x : Context) : State :=
  if x.onCore then { writeOut s x with parked := mapIf (fun c => c == x) (fun c => { c with onCore := false }) s.parked } else s

/-- A context that is loaded into a bank of a core needs the space: saved contexts whose bytes still stand there are written (R251; log 53). -/
def makeRoom (s : State) (uid n : Nat) : State :=
  (s.parked.filter fun x => x.phase == .saved && x.onCore && x.core == n && x.uid != uid).foldl bulkOut s

/-- Loads a task into a bank of a core: for the first time, or as its save area holds it (R249, R251, R334). The context stands beside
the one that moves. -/
def loadTask (s : State) (uid n : Nat) (bank : Bool) : Loaded :=
  match s.task? uid with
  | none => .failed s
  | some k => match s.vd? k.vd with
    | none => .failed s
    | some v =>
      if k.saved then
        let s := if s.live && s.ctx.uid == uid && s.ctx.phase == .saved then { s with parked := s.ctx :: s.parked, live := false } else s
        match s.parked.find? fun c => c.uid == uid && c.phase == .saved with
        | none => .failed s
        | some x =>
          let s := makeRoom (if x.core = n || !x.onCore then s else writeOut s x) uid n
          let y := { readBack s x with core := n, bank := bank, onCore := false }
          let y := if (stopCause y).isSome && !y.sup then { y with phase := .stopped } else resumed y
          let s := { s with parked := y :: s.parked.erase x }
          .ok (s.modTask uid fun k => { k with state := .running, saved := false, core := some n })
      else
      let code := descCode k.desc
      match loaderCheck s uid k.vd code false v.det, k.save.or (freeSlot s k.vd) with
      | _, none => .wait s
      | .held f va, _ => .wait (if loaderWaits s k then s else loaderHeld s k n f va)
      | .ask h va len r, _ => .wait (askFar s h k.vd uid va len r)
      | .lost, _ => .failed (taskFail (dropFar s uid) uid .memUncorrectable)
      | r, some slot =>
        if loaderWaits s k then .wait s else
        let d := loaderDecl s uid k.vd code
        let s := dropFar s uid
        if saveSize d v.det > v.slotpg * 4096 then .failed (taskFail s uid .declaration)
        else
          let base := v.vsave + slot * v.slotpg * 4096
          let s := s.modVd k.vd fun v => { v with used := slot :: v.used.filter (· != slot) }
          let s := s.modTask uid fun k => { k with save := some slot, core := some n }
          match r with
          | .ok d c =>
            let x := freshContext k v n bank base d c
            let s := makeRoom s uid n
            .ok ({ s with parked := x :: s.parked }.modTask uid fun k => { k with state := .running })
          | _ => .failed (loaderFail s k base)

/-- A core of a die that is there. -/
def coreUp (s : State) (n : Nat) : Bool := !s.pkg.diesOut.getLsbD (n / 24)

/-- Whether a gang holds a bank of a core for a member that is not loaded yet. -/
def gangHolds (s : State) (n : Nat) (shadow : Bool) : Bool :=
  s.gangs.any fun g => g.state == .reserving && g.members.any fun m => m.bank == some (n, shadow)

def activeFree (s : State) (c : Core) : Bool :=
  c.active.isNone && c.leaving.isNone && c.switchTo.isNone && coreUp s c.num && !gangHolds s c.num false

def shadowFree (s : State) (c : Core) : Bool := c.shadow.isNone && c.leaving.isNone && !gangHolds s c.num true

/-- The physical bank that is free beside the other context of a core (MODE.BANK). -/
def freeBank (s : State) (c : Core) : Bool :=
  match c.active.or c.shadow with
  | some uid => !((bankCtx? s uid).any fun x => x.bank)
  | none => false

/-- Loads a task into the active bank of a core; if no context moves, it does. -/
def placeActive (s : State) (uid n : Nat) : State :=
  match s.core? n with
  | none => s
  | some c => match loadTask s uid n (freeBank s c) with
    | .wait t => t
    | .failed t => t
    | .ok t =>
      let t := unplace t uid
      let t := t.modCore n fun c => { c with active := some uid, quantum := false, due := none }
      if t.live then t else focusOn t uid

/-! Gangs (R336, R337). -/

def sameGang (g h : Gang) : Bool := g.vd == h.vd && g.level == h.level && g.did == h.did && h.state != .ended

def State.modGang (s : State) (g : Gang) (f : Gang → Gang) : State := { s with gangs := mapIf (sameGang g) f s.gangs }

/-- The highest PRIO of a gang's members, those on other packages among them (R336, R337). -/
def gangPrio (s : State) (g : Gang) : Nat :=
  (g.others.filter fun m => !m.ended).foldl (fun n m => max n m.prio)
    (((g.members.filter fun m => !m.ended).filterMap fun m => s.task? m.uid).foldl (fun n k => max n k.prio) 0)

def gangEp (s : State) (g : Gang) : Nat := min 15 (gangPrio s g + g.age)

/-- Ties go to the lower domain id, then to the lower VD. -/
def gangBefore (s : State) (g h : Gang) : Bool :=
  gangEp s g > gangEp s h || (gangEp s g == gangEp s h && (g.did < h.did || (g.did == h.did && g.vd < h.vd)))

def bestGang (s : State) (l : List Gang) : Option Gang :=
  l.foldl (fun b g => match b with
    | none => some g
    | some h => if gangBefore s g h then some g else b) none

/-- Members that still need a bank. -/
def needBank (g : Gang) : List Member := g.members.filter fun m => !m.ended && m.bank.isNone

/-- Gives a bank to the member with the lowest index that needs one. -/
def giveBank (s : State) (g : Gang) (n : Nat) (shadow : Bool) : State :=
  match (needBank g).foldl (fun b m => match b with
      | none => some m
      | some (x : Member) => if m.idx < x.idx then some m else b) none with
  | none => s
  | some m => s.modGang g fun g => { g with members := mapIf (fun x => x.idx == m.idx) (fun x => { x with bank := some (n, shadow) }) g.members }

/-- Whether a reserving gang goes before the READY entries of a core (R331). -/
def gangFirst (s : State) (g : Gang) (c : Core) : Bool :=
  match ownEntry s c with
  | none => true
  | some k => gangEp s g ≥ taskEp k

/-- The die of the partition with the most free active banks, the lowest on a tie. -/
def bestDie (free : List Core) : Option Nat :=
  ((List.range 8).foldl (fun (b : Option (Nat × Nat)) d =>
    let n := (free.filter fun c => c.num / 24 == d).length
    match b with
    | none => if n > 0 then some (d, n) else none
    | some (_, m) => if n > m then some (d, n) else b) none).map (·.1)

/-- The next bank that a reserving gang takes, in the order of R336. -/
def nextBank (s : State) (g : Gang) : Option (Nat × Bool) :=
  match s.part? g.part with
  | none => none
  | some p =>
    let free := (partCores s p).filter fun c => activeFree s c && gangFirst s g c
    let held := g.members.findSome? fun m => m.bank
    match g.level, held with
    | 0, some (n, false) => match s.core? n with
      | some c => if shadowFree s c then some (n, true) else none
      | none => none
    | 0, some (_, true) => none
    | 0, none => (free.find? fun c => g.members.length < 2 || shadowFree s c).map fun c => (c.num, false)
    | 1, some (n, _) => (free.find? fun c => c.num / 24 == n / 24).map fun c => (c.num, false)
    | 1, none => (bestDie free).bind fun d => (free.find? fun c => c.num / 24 == d).map fun c => (c.num, false)
    | _, _ => free.head?.map fun c => (c.num, false)

/-- A gang takes every bank that it can. -/
def reserve : Nat → State → Gang → State
  | 0, s, _ => s
  | fuel + 1, s, g => match s.gangs.find? (sameGang g) with
    | none => s
    | some g => if (needBank g).isEmpty then s else match nextBank s g with
      | none => s
      | some (n, sh) => reserve fuel (giveBank s g n sh) g

/-- Every member of a gang holds a bank. -/
def reserved (g : Gang) : Bool := (needBank g).isEmpty

def releaseBanks (s : State) (g : Gang) (st : GState) : State :=
  s.modGang g fun g => { g with state := st, members := g.members.map fun m => { m with bank := none }, reported := [] }

/-- Loads the members of a gang into their banks; the one in a shadow bank waits there (R336). -/
def startGang (s : State) (g : Gang) : State :=
  let s := s.modGang g fun g => { g with state := .running, quantum := false }
  (g.members.filter fun m => !m.ended).foldl (fun s m => match m.bank with
    | none => s
    | some (n, sh) => match loadTask s m.uid n sh with
      | .ok t =>
        let t := unplace t m.uid
        if sh then
          let t := (modBank t m.uid fun x => { x with phase := .shadowed }).modTask m.uid fun k => { k with state := .shadowed }
          t.modCore n fun c => { c with shadow := some m.uid }
        else
          let t := t.modCore n fun c => { c with active := some m.uid, quantum := false }
          if t.live then t else focusOn t m.uid
      | .wait t => t
      | .failed t => t) s

/-- Whether every member can be loaded now: save areas for all, and no stage-2 fault on their code. -/
def gangLoadable (s : State) (g : Gang) : Bool :=
  let ks := (g.members.filter fun m => !m.ended).filterMap fun m => s.task? m.uid
  let need := (ks.filter fun k => k.save.isNone).length
  let free := (s.vd? g.vd).elim 0 fun v => v.nslot - v.used.length
  need ≤ free && ks.all fun k => k.saved || (!loaderWaits s k &&
    match loaderCheck s k.uid k.vd (descCode k.desc) false ((s.vd? k.vd).any fun v => v.det) with
    | .held _ _ | .ask .. => false
    | _ => true)

/-- The reads of the loader that keep a gang from being loaded: a stage-2 fault's record, a request to another home (R112, R285, R289). -/
def gangReads (s : State) (g : Gang) : State :=
  ((g.members.filter fun m => !m.ended).filterMap fun m => (s.task? m.uid).bind fun k => m.bank.map fun b => (k, b.1)).foldl (fun s p =>
    let k := p.1
    if k.saved || loaderWaits s k then s else
    match loaderCheck s k.uid k.vd (descCode k.desc) false ((s.vd? k.vd).any fun v => v.det) with
    | .held f va => loaderHeld s k p.2 f va
    | .ask h va len r => askFar s h k.vd k.uid va len r
    | _ => s) s

/-- Every member that has not ended has reached the barrier count that the gang waits at. -/
def atSameBar (s : State) (g : Gang) : Bool :=
  (g.members.filter fun m => !m.ended).all fun m => m.dbars == g.phase + 1 && (bankCtx? s m.uid).any fun x => x.a.block == some .dbar

/-- The same of a level-3 gang's members everywhere (R337, R368). -/
def gangAtBar (s : State) (g : Gang) : Bool := atSameBar s g && g.others.all fun m => m.ended || m.dbars == g.phase + 1

/-- A gang that has not formed ends: its members here fail (R336). -/
def unformed (s : State) (g : Gang) : State :=
  let s := s.modGang g fun g => { g with state := .ended, final := true }
  g.members.foldl (fun s m => taskFail s m.uid .domainConflict 3) s

/-- A gang is switched out as a whole (R337): the switch request is taken on the core of every member that has not ended, and waits there
for the end of a switch in progress (R252). No member comes in again before every member has a bank (R13). -/
def preemptGang (s : State) (g : Gang) : State :=
  let ms := g.members.filter fun m => !m.ended
  let at_ := ((ms.filterMap Member.bank).map (·.1)).eraseDups
  let asks := at_.filter fun n => (s.core? n).any fun c => c.switchTo.isSome || ms.any fun m => c.active == some m.uid
  let s := s.modGang g fun g => { g with
    state := .suspended, age := 0, quantum := false, members := g.members.map fun m => { m with bank := none } }
  asks.foldl requestSwitch s

end Sys2Proof.Machine
end

