-- ==== Sys2Proof/Machine/Vds.lean ====
section
/-!
DEFINITION. Virtual devices: their descriptors, creation and destruction (R303, R365, R366), dormancy (R367 to R373), and the registers that a
host reaches through the control page (R380, R382).
-/

namespace Sys2Proof.Machine

/-! Descriptors (R365). -/

/-- A VD as its descriptor gives it, with NPEER and the address of the peer list. -/
structure VdDesc where
  vd    : Vd
  peers : Nat
  npeer : Nat
  bad   : Bool                -- a reserved or out-of-range field

/-- The bytes of a descriptor: they are read once, when its creation begins (R365). -/
def descBytes (s : State) (part pa : Nat) : List Byte := ((s.part? part).bind Partition.vdmDesc).getD (memGetN s.mem pa 128)

/-- The 16 words of a descriptor. -/
def vdDesc (s : State) (part pa : Nat) : VdDesc :=
  let bs := descBytes s part pa
  let w := fun i => leNat ((bs.drop (8 * i)).take 8)
  let w0 := w 0
  let w12 := w 12
  let mirror := bits w0 18 18 = 1
  let v : Vd := { Vd.new (bits w0 8 0) part with
    nq := bits w0 43 31, buddy := bits w0 30 20, atgt := bits w0 19 19 = 1, mirror := mirror
    rdepth := if bits w0 17 13 = 0 then 6 else bits w0 17 13
    det := bits w0 12 12 = 1, rclass := bits w0 11 9, s1root := w 1, qcbs := w 2, dtpool := w 3, dtlen := w 4
    drn := bits (w 5) 17 10, dr0 := bits (w 5) 9 0, shelf := w 6, shlen := w 7, apool := w 10, aplen := w 11
    mpri := bits w12 12 12 = 1, mpeer := bits w12 10 0 }
  let reserved := bits w0 63 44 ≠ 0 || bits (w 5) 63 18 ≠ 0 || bits (w 9) 63 16 ≠ 0 || bits w12 63 13 ≠ 0 || bits w12 11 11 ≠ 0 ||
    w 13 ≠ 0 || w 14 ≠ 0 || w 15 ≠ 0
  let range := v.nq = 0 || v.nq > 4096 || v.rclass > 3 || v.s1root % 4096 ≠ 0 || v.s1root ≥ 2 ^ 48 || v.qcbs % 256 ≠ 0 ||
    v.dtlen % 4096 ≠ 0 || v.dtpool % 4096 ≠ 0 || v.drn > 64 || (v.drn ≠ 0 && v.dr0 + v.drn > 768) || v.shlen % 4096 ≠ 0 ||
    bits (w 9) 15 0 > 2047 || v.aplen % 4096 ≠ 0 || (!mirror && (v.mpri || v.mpeer ≠ 0)) || (mirror && v.mpeer > 2046)
  ⟨v, w 8, bits (w 9) 15 0, reserved || range⟩

/-- What a page of a VD's space is, before the VD exists. -/
inductive PoolPage where
  | bad                       -- RESULT 1
  | foreign (pa : Nat)        -- RESULT 4
  | ok (pa : Nat)
deriving DecidableEq, Repr

/-- A page of a durable tile pool (R303). -/
def poolPage (s : State) (p : Partition) (v : Vd) (va : Nat) : PoolPage :=
  match walk1 s p va 4 v.s1root with
  | .error _ => .bad
  | .ok g => match walk2 s p g.out 3 p.fence.s2root with
    | .error _ => .bad
    | .ok h =>
      if memType (bits g.entry 8 6) != some .tile || bits g.entry 9 9 = 0 || bits h.entry 9 9 = 0 || !isDur h.out then .bad
      else if !inFences s p h.out then .foreign h.out else .ok h.out

/-- The runs of consecutive pages on one site (R303): physical address, offset and pages. -/
def runsOf : List Nat → Nat → List (Nat × Nat × Nat)
  | [], _ => []
  | pa :: l, off => match runsOf l (off + 4096) with
    | (q, o, n) :: rs => if q = pa + 4096 && siteNo q == siteNo pa then (pa, off, n + 1) :: rs else (pa, off, 1) :: (q, o, n) :: rs
    | [] => [(pa, off, 1)]

/-- Another VD's pool descriptor names a page. -/
def ownedPage (s : State) (vd pa : Nat) : Bool :=
  s.sites.toList.any fun x => x.descs.any fun d => d.1 != vd && d.2.1 ≤ pa && pa < d.2.1 + 4096 * d.2.2.2

/-- QCBs on pages that are mapped outside the supervisor region: without S (R282, R365; log 66). -/
def qcbsBad (s : State) (p : Partition) (v : Vd) : Bool :=
  (pieces v.qcbs (256 * v.nq)).any fun q => match walk1 s p (localVa q.1) 4 v.s1root with
    | .error _ => false
    | .ok g => bits g.entry 11 11 = 0

/-- Pages of an anchor pool on a part without a reserve: HBM of the partition (R312, R366). -/
def apoolBad (s : State) (p : Partition) (v : Vd) : Bool :=
  s.pkg.nores && v.apool ≠ 0 && (pieces v.apool v.aplen).any fun q => match walk1 s p (localVa q.1) 4 v.s1root with
    | .error _ => true
    | .ok g => match stage2 s p g.out false false with
      | .error _ => true
      | .ok pa => match target pa with
        | .hbm _ _ => false
        | _ => true

/-- The pages of a pool, in order. -/
def poolPages (s : State) (p : Partition) (v : Vd) : List PoolPage :=
  if v.dtpool = 0 then [] else (List.range (v.dtlen / 4096)).map fun i => poolPage s p v (v.dtpool + 4096 * i)

def PoolPage.pa : PoolPage → Nat
  | .ok a | .foreign a => a
  | .bad => 0

def PoolPage.isForeign : PoolPage → Bool
  | .foreign _ => true
  | _ => false

/-- What the partner of a pair has claimed of its creation, once it has said so (R358). -/
def pairClaim (s : State) (v : Vd) : Option Bool := s.pairs.findSome? fun m => match m.what with
  | .create mpri => if m.vd = v.num && m.pkg = v.mpeer then some mpri else none
  | _ => none

/-- RESULT of a creation (R366), and the runs of its pool. -/
def createResult (s : State) (p : Partition) (pa : Nat) (d : VdDesc) : Nat × List (Nat × Nat × Nat) :=
  let v := d.vd
  let pages := poolPages s p v
  let runs := runsOf (pages.map PoolPage.pa) 0
  let home := match target pa with
    | .hbm _ _ => inFences s p pa
    | .dur _ _ => s.pkg.phase == .reduced && inFences s p pa
    | _ => false
  let home := home && !retiredPa s pa
  let left := poolRuns s v.num
  let one := pa % 128 ≠ 0 || !home || d.bad || (v.mirror && !v.det) || (v.rclass ≥ 1 && v.drn = 0) || (!v.atgt && v.apool = 0) ||
    apoolBad s p v || qcbsBad s p v || (v.mirror && (v.mpeer = s.pkg.num || pairClaim s v == some v.mpri)) || runs.length > 64 || (v.dtpool ≠ 0 && v.dtlen < 8192) || pages.contains .bad
  let full := fun (n : Fin 4) =>
    v.dtpool ≠ 0 && left.isEmpty && s.sites[n].descs.length + (runs.filter fun r => siteNo r.1 == some n).length > 4096
  let three := s.queues.length + v.nq > 4096 || s.vds.length ≥ (if s.pkg.phase == .reduced then 1 else 512) || (List.finRange 4).any full
  let chans := (List.range v.drn).map fun i => v.dr0 + i
  let four := chans.any (fun c => !p.fence.pch.getLsbD c) ||
    s.vds.any (fun w => chans.any fun c => w.dr0 ≤ c && c < w.dr0 + w.drn) ||
    (!left.isEmpty && left != runs) || pages.any PoolPage.isForeign || pages.any (fun q => ownedPage s v.num q.pa)
  (if one then 1 else if (s.vd? v.num).isSome then 2 else if three then 3 else if four then 4 else 0, runs)

/-- The queues of a new VD (R365). -/
def newQueues (v : Vd) : List Queue :=
  (List.range v.nq).map fun i =>
    { vd := v.num, qidx := i, qcb := v.qcbs + 256 * i, base := 0, supq := false, lsize := 12, prio := 0, state := .disabled, head := 0
      tail := 0, progress := 0, age := 0, kpend := false, pseq := 0, dseq := 0, reca := 0, shadow := Vector.replicate 32 0
      journal := [], since := 0, held := false, back := false }

/-- A pool that no scan has left: its one free block (R438). -/
def firstBlock (s : State) (v : Vd) : State :=
  acceptAll (writeSeal s v.num (v.dtpool + 4096) ⟨0, 0, v.dtlen - 4096 - 512, 0⟩)

/-- The shadow registers of a new queue are zero, in its control block too (R315). -/
def zeroShadows (s : State) (v : Vd) : State :=
  (List.range v.nq).foldl (fun s i => hwWrite s v.num (v.qcbs + 256 * i + 0x80) (List.replicate 128 0)) s

/-- The packages of a new VD's peer set learn whether they are its buddy here (R343, R350). -/
def tellBuddy (s : State) (v : Vd) : State :=
  (v.peers.filter (· != s.pkg.num)).foldl (fun s p => sendPeer s p v.num .replica 0 [16, b2n (p == v.buddy)] []) s

/-- A VD comes to be, with its queues and its pool (R365). A scanned pool with the same runs is adopted with its versions (R303). -/
def newVd (s : State) (d : VdDesc) (runs : List (Nat × Nat × Nat)) : State :=
  let v := d.vd
  let s := zeroShadows { s with vds := s.vds ++ [v], queues := s.queues ++ newQueues v } v
  let peers := if d.peers = 0 then [] else (List.range d.npeer).map fun i => hwWord s v.num (d.peers + 2 * i) 2
  let v := { v with peers := peers }
  let s := tellBuddy (s.modVd v.num fun w => { w with peers := peers }) v
  if v.dtpool = 0 then s
  else if (poolRuns s v.num).isEmpty then
    let put := fun (s : State) (r : Nat × Nat × Nat) => match siteNo r.1 with
      | some n => modSite s n fun x => { x with descs := x.descs ++ [(v.num, r)] }
      | none => s
    firstBlock (runs.foldl put s) v
  else
    let s := { s with tiles := mapIf (fun t => t.vd == v.num) (fun t => { t with va := v.dtpool + t.va }) s.tiles }
    (s.recs.filter fun r => tileVd r.name == v.num).foldl (fun s r => shareRec (placeRec s r.name) r.name) s

/-- Whether this package has told the partner of its creation. -/
def pairTold (s : State) (v : Vd) : Bool := s.pairs.any fun m => m.vd == v.num && m.pkg == s.pkg.num

/-- This package's claim goes to the partner, once (R358). -/
def claimPair (s : State) (v : Vd) : State :=
  if pairTold s v then s
  else sendPair { s with pairs := ⟨v.num, s.pkg.num, .create v.mpri⟩ :: s.pairs } v.mpeer v.num (.create v.mpri)

/-- One try of the creation of a VD (R365, R366), and whether that is its end. A mirrored one waits for what the partner claims (R358); one that
fails for another reason tells the partner nothing (log 56). -/
def createTry (s : State) (part pa : Nat) : State × Bool :=
  match s.part? part with
  | none => (s, true)
  | some p =>
    let d := vdDesc s part pa
    let (res, runs) := createResult s p pa d
    let claim := pairClaim s d.vd
    let s := if d.vd.mirror && (res = 0 || claim == some d.vd.mpri) then claimPair s d.vd else s
    if d.vd.mirror && res = 0 && claim.isNone then
      let bs := descBytes s part pa
      (s.modPart part fun p => { p with vdmDesc := some bs }, false)
    else
      let s := if d.vd.mirror then { s with pairs := s.pairs.filter fun m => m.vd != d.vd.num } else s
      let s := s.modPart part fun p => { p with vdmResult := res, vdmDesc := none }
      (if res ≠ 0 then s else newVd s d runs, true)

/-- A write of the VD management page that waits for those before it (R366: BUSY). -/
def vdmQueue (s : State) (part : Nat) (op : Bool × Nat) : State := s.modPart part fun p => { p with vdmOps := p.vdmOps ++ [op] }

/-- Whether an operation of a partition's management page is in progress. -/
def vdmBusy (s : State) (part : Nat) : Bool := (s.part? part).any fun p => !p.vdmOps.isEmpty

/-- Creation of a VD: one that cannot end yet is the partition's next operation (R366: BUSY). -/
def vdmCreate (s : State) (part pa : Nat) : State :=
  match createTry s part pa with
  | (t, true) => t
  | (t, false) => vdmQueue t part (true, pa)

/-- Everything of a VD is freed (R366). -/
def dropVd (s : State) (vd : Nat) : State :=
  { s with
    vds := s.vds.filter fun v => v.num != vd
    queues := s.queues.filter fun x => x.vd != vd
    tasks := s.tasks.filter fun k => k.vd != vd
    gangs := s.gangs.filter fun g => g.vd != vd
    tiles := s.tiles.filter fun t => t.vd != vd
    recs := s.recs.filter fun r => tileVd r.name != vd
    kept := s.kept.filter fun r => tileVd r.name != vd
    keeps := s.keeps.filter fun k => k.vd != vd
    rests := s.rests.filter fun r => tileVd r.name != vd
    pairs := s.pairs.filter fun m => m.vd != vd
    asked := s.asked.filter fun f => f.vd != vd
    sites := s.sites.map fun x => { x with descs := x.descs.filter fun d => d.1 != vd } }

/-- Destruction of a VD; of a number that names none, its pool descriptors are cleared (R303, R366). -/
def vdmDestroy (s : State) (part vd : Nat) : State :=
  let idle := (s.vd? vd).all fun v => v.part == part &&
    (s.queues.all fun x => x.vd != vd || x.state == .disabled) && s.tasks.all fun k => k.vd != vd || !k.alive
  let s := s.modPart part fun p => { p with vdmResult := if idle then 0 else 5 }
  if idle then dropVd (acceptAll s) vd else s

/-- The oldest operation of a partition's management page is over (R366). -/
def vdmNext (s : State) (create : Bool) : State :=
  match s.parts.find? fun p => p.vdmOps.head?.any fun o => o.1 == create with
  | none => s
  | some p => match p.vdmOps with
    | [] => s
    | (c, x) :: l =>
      if c then match createTry s p.num x with
        | (t, true) => t.modPart p.num fun p => { p with vdmOps := l }
        | (t, false) => t
      else vdmDestroy (s.modPart p.num fun p => { p with vdmOps := l }) p.num x

/-- VDM_CREATE (R366): the creation at the inputs, or the oldest one that a write has asked for. -/
def execVdmCreate (s : State) : Out :=
  match s.input with
  | .pa part pa => .next (if vdmBusy s part then vdmQueue s part (true, pa) else vdmCreate s part pa)
  | _ => .next (vdmNext s true)

/-- VDM_DESTROY (R366). -/
def execVdmDestroy (s : State) : Out :=
  match s.input with
  | .pa part vd => .next (if vdmBusy s part then vdmQueue s part (false, vd % 512) else vdmDestroy s part (vd % 512))
  | _ => .next (vdmNext s false)

/-! Dormancy (R367 to R371). -/

/-- The physical stretches behind an intermediate one: by pages of stage 2. -/
def spanPas (s : State) (p : Partition) : Nat → Nat → Nat → List (Nat × Nat)
  | 0, _, _ => []
  | fuel + 1, ipa, len =>
    if len = 0 then [] else
    match walk2 s p ipa 3 p.fence.s2root with
    | .error _ => spanPas s p fuel (ipa + 4096) (len - 4096)
    | .ok g =>
      let n := min len (g.size - g.out % g.size)
      (g.out, n) :: spanPas s p fuel (ipa + n) (len - n)

/-- The physical stretches that a table of stage 1 maps, with every table below it. -/
def tablePas (s : State) (p : Partition) : Nat → Nat → List (Nat × Nat)
  | level, table => match stage2 s p table false false with
    | .error _ => []
    | .ok pa => (List.range 512).flatMap fun i =>
      let e := memWord s.mem (pa + 8 * i) 8
      if e % 2 = 0 then [] else
      match readEntry true level 0 e with
      | none => []
      | some (.inr g) => spanPas s p (g.size / 4096 + 1) g.out g.size
      | some (.inl t) => match level with
        | 0 => []
        | l + 1 => tablePas s p l t

/-- The pages that a VD's tables map. -/
def mappedPages (s : State) (v : Vd) : List Nat := match s.part? v.part with
  | none => []
  | some p => ((tablePas s p 4 v.s1root).flatMap fun r => (List.range ((r.2 + 4095) / 4096)).map fun i => r.1 / 4096 + i).eraseDups

/-- The pseudo-channels that other VDs use: they stay on, and keep what they hold (R369). -/
def usedByOthers (s : State) (v : Vd) : List Nat :=
  ((s.vds.filter fun w => w.num != v.num).flatMap fun w => (mappedPages s w).filterMap fun n => chanOf (4096 * n)).eraseDups

/-- Whether a byte goes with the power of a VD's dormancy region. -/
def goesOff (v : Vd) (used : List Nat) (pa : Nat) : Bool := inDorm v pa && (chanOf pa).all fun c => !used.contains c

/-- The pages of the versions of a VD that are roots or anchors, or of the others. -/
def tilePages (s : State) (v : Vd) (keep : Bool) : List Nat :=
  (s.tiles.filter fun t => t.vd == v.num && (s.rec? t.name).any (fun r => r.root || r.anchor) == keep).flatMap fun t =>
    (pieces t.va t.size).filterMap fun q => (hwTranslate s v.num q.1).map (· / 4096)

/-- The pages of a VD's dormancy region that its tables map, those apart that only versions stand on that are neither roots nor anchors
(R369). -/
def shelfPages (s : State) (v : Vd) : List Nat :=
  let used := usedByOthers s v
  let keep := tilePages s v true
  let skip := (tilePages s v false).filter fun n => !keep.contains n
  ((mappedPages s v).filter fun n => goesOff v used (4096 * n) && !skip.contains n).mergeSort (· ≤ ·)

/-- The depth that a collapse aims at (R369). -/
def dormTarget (s : State) (v : Vd) : Nat :=
  if v.rclass < 3 then v.rclass
  else if v.shelf ≠ 0 && !s.pkg.nores && 4096 * (shelfPages s v).length ≤ v.shlen then 3 else 2

/-- A collapse begins (R368): fetching and staging stop with the state of the VD. -/
def beginCollapse (s : State) (vd : Nat) : State :=
  match s.vd? vd with
  | none => s
  | some v => if v.dorm != .active then s else
      s.modVd vd fun w => { w with dorm := .collapsing, target := dormTarget s v, stopFetch := true }

/-- Contexts of a VD in the banks, handled ones apart. -/
def bankCtxs (s : State) (vd : Nat) : List Context :=
  ((if s.live then [s.ctx] else []) ++ s.parked).filter fun x => x.vd == vd && x.phase != .saved && x.phase != .handled

/-- A level-3 gang is cut at a `dbar` only (R368). -/
def mayCut (s : State) (x : Context) : Bool := (gangOf s x.uid).all fun g => g.level < 3 || gangAtBar s g

/-- A context is cut where it stands: it stays in its bank, SHADOWED. -/
def cutInPlace (s : State) (x : Context) : State :=
  if (x.phase == .running || x.phase == .cut) && mayCut s x then
    let s := onContext s x.uid cutNow
    if (bankCtx? s x.uid).any fun x => x.phase == .cut then s
    else (modBank s x.uid fun x => if x.phase == .stopped then { x with phase := .shadowed } else x).modTask x.uid fun k => { k with state := .shadowed }
  else s

/-- Contexts leave their banks for their save areas, and every section is written, also of those that had left before; their gangs are out as a
whole, until every member has a bank again (R13, R369, cold). -/
def spillAll (s : State) (vd : Nat) : State :=
  let s := (bankCtxs s vd).foldl (fun s x =>
    let s := (writeOut s x).modTask x.uid fun k => { k with state := .suspended, saved := true }
    let s := modBank s x.uid fun x => { x with phase := .saved }
    let s := if s.live && s.ctx.uid == x.uid then { s with live := false, parked := s.ctx :: s.parked } else s
    { s with cores := s.cores.map fun c => { c with
        active := if c.active == some x.uid then none else c.active
        shadow := if c.shadow == some x.uid then none else c.shadow
        leaving := if c.leaving == some x.uid then none else c.leaving } }) s
  let s := (s.parked.filter fun x => x.vd == vd && x.phase == .saved && x.onCore).foldl bulkOut s
  (s.gangs.filter fun g => g.vd == vd && g.state == .running).foldl (fun s g => releaseBanks s g .suspended) s

/-- Bytes of pages of the dormancy region, onto the shelf and lost (R369). -/
def shelve (s : State) (v : Vd) : State :=
  let used := usedByOthers s v
  let pages := shelfPages s v
  let places := (pages.mapIdx fun i n => (n, hwTranslate s v.num (v.shelf + 4096 * i))).filterMap fun e => e.2.map fun q => (e.1, q)
  let s := places.foldl (fun s e => performRun s 0 0 e.2 (memGetN s.mem (4096 * e.1) 4096)) s
  let s := acceptAll s
  let gone := s.tiles.filter fun t => t.vd == v.num && !(s.rec? t.name).any (fun r => r.root || r.anchor) &&
    (pieces t.va t.size).any fun q => (hwTranslate s v.num q.1).any (goesOff v used)
  let s := gone.foldl (fun s t => loseTile s v.num t.name) s
  let weights := v.staged.filter fun t => (s.tile? v.num t.name).any fun u => (hwTranslate s v.num u.va).any (goesOff v used)
  let s := weights.foldl (fun s t => (modStaged s v.num t fun t => { t with resident := false }).modTile v.num t.name fun u => { u with resident := false }) s
  { s with mem := s.mem.filter fun c => !goesOff v used c.1 }.modVd v.num fun v => { v with shelved := places }

/-- The slot state of a mapped queue is written back: it is IDLE where it has nothing left to start, else PENDING (R321, R369). -/
def slotBack (s : State) (x : Queue) : State :=
  if idleQueue x then setQueue s x.vd x.qidx fun x => { x with state := .idle, kpend := false } else toPending s x.vd x.qidx

/-- The steps of a depth, once the contexts are out (R369). -/
def collapseTo (s : State) (v : Vd) : State :=
  let s := (s.gangs.filter fun g => g.vd == v.num && g.state == .reserving).foldl (fun s g => releaseBanks s g .queued) s
  let s := if v.target ≥ 2 then spillAll s v.num else s
  let s := if v.target ≥ 2 then (s.queues.filter fun x => x.vd == v.num && x.state == .mapped).foldl slotBack s else s
  if v.target = 3 then shelve s v else s

/-- COLLAPSE_COMPLETE (R367 to R369): contexts are cut, then, once none runs and every DUR store of the VD has been accepted, the steps of the
target depth are done. A queue with TAIL above HEAD begins a reheat at once (R371). -/
def execCollapseComplete (s : State) : Out :=
  let pick : Option Vd := match s.input with
    | .vd n => (s.vd? n).bind fun v => if v.dorm == .collapsing then some v else none
    | _ => s.vds.find? fun v => v.dorm == .collapsing
  match pick with
  | none => .next s
  | some v => match s.part? v.part with
    | none => .next s
    | some _ =>
      let s := (bankCtxs s v.num).foldl cutInPlace s
      let out := (bankCtxs s v.num).all fun x => x.phase == .shadowed || x.phase == .stopped
      let dur := s.durPend.all fun d => !s.tasks.any fun k => k.uid == d.uid && k.vd == v.num
      if !out || !dur then .next s else
      let s := (collapseTo s v).modVd v.num fun v => { v with dorm := .dormant, depth := v.target }
      .next (if s.queues.any fun x => x.vd == v.num && x.tail > x.head then reheatTrigger s v.num else s)

/-- Quiescence of a VD (R368). -/
def quiescent (s : State) (v : Vd) : Bool :=
  (s.queues.all fun x => x.vd != v.num || ((x.state == .idle || x.state == .disabled || x.state == .frozen) && x.journal.all (·.complete))) &&
    (s.tasks.all fun k => k.vd != v.num || !k.alive) && !(v.staged.any fun t => t.asked || t.flight) &&
    s.recs.all fun r => tileVd r.name != v.num || (!r.rbld && !r.apend)

/-- IMPLICIT_COLLAPSE (R368): a VD has been quiescent for DIDLE cc. -/
def execImplicitCollapse (s : State) : Out :=
  let ok := fun (v : Vd) => v.didle ≠ 0 && v.dorm == .active && quiescent s v
  let pick : Option Vd := match s.input with
    | .vd n => (s.vd? n).bind fun v => if ok v then some v else none
    | _ => s.vds.find? ok
  match pick with
  | some v => .next (beginCollapse s v.num)
  | none => .next s

/-- VD_REHEAT (R370): a write of the register. -/
def execVdReheat (s : State) : Out :=
  match s.input with
  | .vd n => .next (reheatTrigger s n)
  | .word n _ => .next (reheatTrigger s n)
  | _ => .next s

/-- Contexts that stayed in their banks go on (R371). -/
def restoreBanks (s : State) (vd : Nat) : State :=
  (bankCtxs s vd).foldl (fun s x =>
    if x.phase == .shadowed && s.cores.any fun c => c.active == some x.uid then bringIn s x.uid else s) s

/-- A queue that becomes PENDING with its VD's reheat: one that is idle with work or a kick, or in FETCH_FAULT with a kick (R321, R371). -/
def wakes (x : Queue) : Bool := (x.state == .idle && (x.tail > x.head || x.kpend)) || (x.state == .fetchFault && x.kpend)

/-- REHEAT_COMPLETE (R371). -/
def execReheatComplete (s : State) : Out :=
  let pick : Option Vd := match s.input with
    | .vd n => (s.vd? n).bind fun v => if v.dorm == .reheating then some v else none
    | _ => s.vds.find? fun v => v.dorm == .reheating
  match pick with
  | none => .next s
  | some v =>
    let s := v.shelved.foldl (fun s e => performRun s 0 0 (4096 * e.1) (memGetN s.mem e.2 4096)) s
    let s := restoreBanks s v.num
    let s := s.modVd v.num fun v => { v with dorm := .active, reheats := v.reheats + 1, stopFetch := false, shelved := [] }
    .next ((s.queues.filter fun x => x.vd == v.num && wakes x).foldl (fun s x => toPending (endFetchFault s x) v.num x.qidx) s)

/-! Registers of the control page (R380, R382). -/

/-- VD_ERR as it reads. -/
def vdErr (v : Vd) : Word :=
  let base := v.nbad * 2 ^ 48 + b2n v.mdiv * 2 ^ 34 + b2n v.msolo * 2 ^ 33 + min v.errs.length 65535 * 2 ^ 16
  BitVec.ofNat 64 (match v.errs with
    | [] => base
    | e :: _ => base + e.qidx * 2 ^ 36 + b2n e.rlost * 2 ^ 35 + 2 ^ 32)

/-- A write of VD_ERR with VALID = 1 acknowledges the oldest record and frees the failed task's save area (R334, R380). It is also the owner's
reset of R321: a FROZEN queue of which no further record waits becomes IDLE (log 57). -/
def ackErr (s : State) (vd : Nat) (w : Word) : State :=
  if bits w.toNat 32 32 = 0 then s else
  match (s.vd? vd).bind fun v => v.errs.head? with
  | none => s
  | some e =>
    let s := s.modVd vd fun v => { v with errs := v.errs.drop 1, used := v.used.filter fun n => some n != e.save }
    let more := (s.vd? vd).any fun v => v.errs.any fun r => r.qidx == e.qidx
    if !more && (s.queue? vd e.qidx).any fun x => x.state == .frozen then queueReset s vd e.qidx else s

/-- VD_ERR_ACK (R380). -/
def execVdErrAck (s : State) : Out :=
  match s.input with
  | .word vd w => .next (ackErr s vd w)
  | .vd vd => .next (ackErr s vd (2 ^ 32))
  | _ => .next s

/-- A write of VD_CMPL by a host, given as a party (R380, R383). -/
def writeCmpl (s : State) (vd host : Nat) (w : Word) : State :=
  s.modVd vd fun v => { v with
    cmplEn := bits w.toNat 63 63 = 1, htag := bits w.toNat 47 0, cmplTo := if bits w.toNat 63 63 = 1 then host else v.cmplTo }

/-- VD_CMPL (R380): the write at the inputs, by a host of the VD. -/
def execVdCmpl (s : State) : Out :=
  match s.input with
  | .word vd w => .next (writeCmpl s vd ((s.vd? vd).elim 0 (·.cmplTo)) w)
  | _ => .next s

/-- A reading of a register of the control page: none for an offset that has none. -/
def pageRead (s : State) (v : Vd) (off : Nat) : Option Word :=
  if off = 0 || off = 8 then some 0
  else if off = 0x10 then some (vdErr v)
  else if off = 0x18 then some (BitVec.ofNat 64 (b2n v.cmplEn * 2 ^ 63 + v.htag))
  else if 0x8000 ≤ off && off < 0x8000 + 8 * v.nq && off % 8 = 0 then
    (s.queue? v.num ((off - 0x8000) / 8)).map fun x => BitVec.ofNat 64 x.progress
  else none

/-- A write of a register of the control page by a host. -/
def pageWrite (s : State) (v : Vd) (off host : Nat) (w : Word) : Option State :=
  match off with
  | 0 => some (applyKick s v.num w)
  | 8 => some (reheatTrigger s v.num)
  | 0x10 => some (ackErr s v.num w)
  | 0x18 => some (writeCmpl s v.num (hostParty host) w)
  | n => (pageRead s v n).map fun _ => s

end Sys2Proof.Machine
end

