-- ==== Sys2Proof/Machine/Dev.lean ====
section
/-!
DEFINITION. DEV registers (R8, R276, R279, R288, R293, R324, R348, R362, R366, R373, R381, R390): what a read gives and what a write does. An
offset at which the spec lays no register down answers none.
-/

namespace Sys2Proof.Machine

/-! Reads. -/

/-- BOOT_STAT (R390). -/
def bootStat (p : Pkg) : Nat :=
  let ph := match p.phase with
    | .reset => 0
    | .reduced => 1
    | .full => 2
  b2n p.nores * 2 ^ 36 + p.sret.toNat * 2 ^ 32 + p.hret.toNat * 2 ^ 16 + ph

/-- A register of a fence block (R362). -/
def fenceReg (s : State) (f : Fence) (off : Nat) : Option Nat :=
  if off < 0x18 then some ((f.cores.toNat >>> (8 * off)) % 2 ^ 64)
  else if off < 0x78 then some ((f.pch.toNat >>> (8 * (off - 0x18))) % 2 ^ 64)
  else if off < 0x98 then
    let r := f.dur[(off - 0x78) / 8 % 4]'(Nat.mod_lt _ (by decide))
    some (r.2 * 2 ^ 32 + r.1)
  else match off with
    | 0x98 => some (f.egress.toNat * 2 ^ 32 + f.ports.toNat)
    | 0xA0 => some (f.slots * 2 ^ 8 + f.seqr.val)
    | 0xA8 => some f.s2root
    | 0xB0 => some (bootStat s.pkg)
    | _ => none

/-- A register of a scheduling block (R324). -/
def schedReg (p : Partition) (off : Nat) : Option Nat :=
  match off with
  | 0x00 => some p.step
  | 0x08 => some p.rtmo
  | 0x10 => some p.idle
  | 0x18 => some p.quant
  | 0x20 => some (p.s2base + p.s2ln)
  | 0x28 => some 0
  | 0x30 => some p.fence.slots
  | 0x38 => some p.form
  | _ => none

def dormCode : DormState → Nat
  | .active => 0 | .collapsing => 1 | .dormant => 2 | .reheating => 3

/-- A register of a VD's control block (R293, R324, R348, R373, R381). -/
def vdReg (s : State) (v : Vd) (off : Nat) : Option Nat :=
  match off with
  | 0x000 => some v.stgTbl.toNat
  | 0x008 => some (v.nlayer * 2 ^ 18 + b2n v.wrap * 2 ^ 17 + b2n v.stgEn * 2 ^ 16 + v.win)
  | 0x010 => some v.cur
  | 0x018 => some v.rstall.toNat
  | 0x040 => some v.vsave
  | 0x048 => some (v.nslot * 2 ^ 16 + v.slotpg)
  | 0x080 => some 0
  | 0x088 => some (b2n v.atgt * 2 ^ 11 + v.buddy)
  | 0x090 => some (v.rgcnt.toNat * 2 ^ 32 + anpend s v.num % 2 ^ 16 * 2 ^ 16 + v.lostv)
  | 0x0C0 => some v.didle
  | 0x0C8 => some (v.reheats.toNat * 2 ^ 32 + v.depth * 2 ^ 4 + dormCode v.dorm)
  | _ =>
    if 0x100 ≤ off && off < 0x120 then
      some (v.hosts[(off - 0x100) / 8 % 4]'(Nat.mod_lt _ (by decide)))
    else none

/-- The 64-bit register of a block at an 8-byte offset. -/
def devReg (s : State) (b : DevBlock) (off : Nat) : Option Nat :=
  match b with
  | .none => none
  | .xlate n => (s.part? n).bind fun p => match off with
    | 0 => some 0
    | 8 => some (b2n (!p.xinv.isEmpty))
    | _ => none
  | .sched n => (s.part? n).bind fun p => schedReg p off
  | .mgmt n => (s.part? n).bind fun p => match off with
    | 0 => some 0
    | 8 => some 0
    | 0x10 => some (b2n (!p.vdmOps.isEmpty) * 2 ^ 8 + p.vdmResult)
    | _ => none
  | .vdCtl n => (s.vd? n).bind fun v => vdReg s v off
  | .fence n => if n < 48 then fenceReg s ((s.part? n).elim Fence.none Partition.fence) off else none

/-! Writes. -/

/-- A write of XINV (R288): the invalidation is asked for; a later one waits for it. -/
def writeXinv (s : State) (part : Nat) (w : Word) : State :=
  let x := w.toNat
  s.modPart part fun p => { p with xinv := p.xinv ++ [(bits x 63 12, bits x 10 10 == 1, bits x 9 9 == 1, bits x 8 0)] }

/-- TFREE (R348): the owner releases a version, at its home. During a rebuild it takes effect after it (R354). -/
def tfree (s : State) (vd : Nat) (name : Word) : State :=
  if tileVd name ≠ vd then s else
  match awayHome s name with
  | some h => askTile s h vd 0 0 .free name []
  | none => match openRec s name with
    | none => s
    | some r =>
      if r.freed then s
      else if r.rbld then s.modRec name fun r => { r with tfree := true }
      else trim ((s.tile? vd name).elim (modShared s name fun r => { r with freed := true }) (freeSeal (modShared s name fun r => { r with freed := true })))

/-- A write of a scheduling register (R324). -/
def writeSched (s : State) (n off : Nat) (w : Word) : State :=
  let x := bits w.toNat 31 0
  match off with
  | 0x00 => s.modPart n fun p => { p with step := if x = 0 then p.step else x }
  | 0x08 => s.modPart n fun p => { p with rtmo := x }
  | 0x10 => s.modPart n fun p => { p with idle := x }
  | 0x18 => s.modPart n fun p => { p with quant := x }
  | 0x20 => s.modPart n fun p => { p with s2base := bits w.toNat 51 6 * 64, s2ln := bits w.toNat 5 0 }
  | 0x28 =>
    let vd := bits w.toNat 20 12
    if vdPart s vd = n && (s.vd? vd).isSome then queueControl s vd (bits w.toNat 11 0) (bits w.toNat 49 48) else s
  | 0x38 => s.modPart n fun p => { p with form := x }
  | _ => s

/-- A write of a VD's control block (R293, R324, R348, R373, R381). -/
def writeVdReg (s : State) (n off : Nat) (w : Word) : State :=
  let x := w.toNat
  match off with
  | 0x000 => writeStgTbl s n w
  | 0x008 => writeStgCtl s n w
  | 0x010 => s.modVd n fun v => { v with cur := if v.stgEn then v.cur else bits x 15 0 }
  | 0x040 => s.modVd n fun v => { v with vsave := bits x 63 12 * 4096 }
  | 0x048 => s.modVd n fun v => { v with nslot := bits x 47 16, slotpg := bits x 15 0 }
  | 0x080 => tfree s n w
  | 0x0C0 => s.modVd n fun v => { v with didle := bits x 31 0 }
  | _ =>
    if 0x100 ≤ off && off < 0x120 then
      s.modVd n fun v => { v with hosts := v.hosts.set ((off - 0x100) / 8 % 4) (bits x 63 63 * 2 ^ 63 + bits x 47 0) (Nat.mod_lt _ (by decide)) }
    else s

/-- A write of the 64-bit register of a block; a read-only one ignores it (R8). -/
def devPut (s : State) (b : DevBlock) (off : Nat) (w : Word) : State :=
  match b with
  | .xlate n => if off = 0 then writeXinv s n w else s
  | .sched n => writeSched s n off w
  | .mgmt n => match off with
    | 0 => s.modPart n fun p => { p with vdmOps := p.vdmOps ++ [(true, bits w.toNat 51 0)] }
    | 8 => s.modPart n fun p => { p with vdmOps := p.vdmOps ++ [(false, bits w.toNat 8 0)] }
    | _ => s
  | .vdCtl n => writeVdReg s n off w
  | _ => s

/-! Accesses of 4 and 8 bytes (R137). -/

/-- What a load of `n` bytes from a DEV address gives. -/
def devRead (s : State) (pa n : Nat) : Option Word :=
  let off := pa % 4096
  (devReg s (Config.devBlock (pa / 4096)) (off / 8 * 8)).map fun v =>
    if n = 8 then BitVec.ofNat 64 v else BitVec.ofInt 64 (sext 32 ((v >>> (8 * (off % 8))) % 2 ^ 32))

/-- What a store of `n` bytes to a DEV address does; four bytes leave the other half of the register as it reads. -/
def devWrite (s : State) (pa n : Nat) (v : Word) : Option State :=
  let off := pa % 4096
  let b := Config.devBlock (pa / 4096)
  (devReg s b (off / 8 * 8)).map fun old =>
    let half := v.toNat % 2 ^ 32
    let w := if n = 8 then v.toNat else if off % 8 = 0 then old / 2 ^ 32 * 2 ^ 32 + half else half * 2 ^ 32 + old % 2 ^ 32
    devPut s b (off / 8 * 8) (BitVec.ofNat 64 w)

/-! Events (R288, R321, R348). -/

def pageWord (page vd : Nat) (st2 all : Bool) : Word := BitVec.ofNat 64 (page * 4096 + b2n st2 * 1024 + b2n all * 512 + vd % 512)

/-- A write of XINV at the inputs. -/
def xinvEvent (s : State) (st2 all : Bool) : Out :=
  match s.input with
  | .page part vd page => .next (writeXinv s part (pageWord page vd st2 all))
  | _ => .next s

/-- XINV_STAGE1_PAGE (R288). -/
def execXinvStage1Page (s : State) : Out := xinvEvent s false false

/-- XINV_STAGE1_ALL (R288). -/
def execXinvStage1All (s : State) : Out := xinvEvent s false true

/-- XINV_STAGE2_PAGE (R288). -/
def execXinvStage2Page (s : State) : Out := xinvEvent s true false

/-- XINV_STAGE2_ALL (R288). -/
def execXinvStage2All (s : State) : Out := xinvEvent s true true

/-- XINV_COMPLETE (R288): the oldest invalidation of a partition is over. Nothing is cached in the model, so none has a further effect (R287). -/
def execXinvComplete (s : State) : Out :=
  let pick : Option Partition := match s.input with
    | .part n => s.part? n
    | _ => s.parts.find? fun p => !p.xinv.isEmpty
  match pick with
  | some p => .next (s.modPart p.num fun p => { p with xinv := p.xinv.drop 1 })
  | none => .next s

/-- TFREE (R348). -/
def execTfree (s : State) : Out :=
  match s.input with
  | .word vd w => .next (tfree s vd w)
  | _ => .next s

/-- REGISTER_WRITE (R8): a write of a register of a partition's blocks, or of a VD's control block. The offset counts the blocks in 4 KiB
steps: translation, scheduling, management, fence, VD control. -/
def execRegisterWrite (s : State) : Out :=
  match s.input with
  | .reg part vd off w =>
    let b : DevBlock := match off / 4096 with
      | 0 => .xlate part
      | 1 => .sched part
      | 2 => .mgmt part
      | 3 => .fence part
      | _ => .vdCtl vd
    .next (devPut s b (off % 4096 / 8 * 8) w)
  | _ => .next s

end Sys2Proof.Machine
end

