-- ==== Sys2Proof/Machine/Amem.lean ====
section
/-!
DEFINITION. The accesses of an A-slice instruction: the check, a fault, a hold by stage 2, a request to another home, and the effect
(R135 to R139, R234, R285, R289).
-/

namespace Sys2Proof.Machine

/-- An access as it ends: performed, with the bytes read, or not, with the state that the instruction leaves. -/
inductive Accessed where
  | got (s : State) (bytes : List Byte)
  | stop (s : State)

/-- What the access of an instruction has learnt from other homes is of no more use. -/
def forget (s : State) (tag : Nat) : State :=
  if s.ctx.m.answers.isEmpty then s else s.modM fun m => { m with answers := m.answers.filter fun r => r.tag != tag }

/-- A fault of an access. -/
def accFault (s : State) (c : Cause) (va : Nat) (write : Bool) : State :=
  raise { cause := c, faddr := BitVec.ofNat 64 va, write := write } (forget (forget s tagB) tagCheck)

/-- The version of a VD whose extent holds an address. -/
def tileAt (s : State) (vd va : Nat) : Option Tile := s.tiles.find? fun t => t.vd == vd && t.va ≤ va && va < t.va + t.size

/-- An uncorrectable error in TILE memory: a sealed version is lost and the access blocks, or ends the task where nothing brings the version back; the
producer of an extent that is not sealed is aborted (R139, R350). -/
def tileErr (s : State) (va : Nat) (write : Bool) : State :=
  match tileAt s s.ctx.vd va with
  | some t =>
    if t.sealed then
      if !t.resident then blockA s (.tileLostAccess t.name)
      else match extentLost s t with
        | some s => blockA s (.tileLostAccess t.name)
        | none => accFault s .tileLost va write
    else if t.owner = s.ctx.uid then taskAbort s t.owner
    else blockA s (.tileLostAccess t.name)
  | none => blockA s (.tileLostAccess 0)

/-- The version that an access meets and that is lost and not yet rebuilt (R350). -/
def lostPlace (s : State) (ps : List (Place × Nat)) : Option Tile :=
  ps.findSome? fun p => if p.1.mt == .tile then
      match tileAt s s.ctx.vd p.1.va with
      | some t => if !t.resident && (t.sealed || t.owner != s.ctx.uid) then some t else none
      | none => none
    else none

/-- An access to a lost version blocks until it has been rebuilt; one that cannot be ends the task (R139, R353). -/
def lostStop (s : State) (t : Tile) (va : Nat) (write : Bool) : State :=
  if tileGone s t.vd t.name then accFault s .tileLost va write else blockA s (.tileLostAccess t.name)

/-- The rights of an access of the context that moves, with the priority of its task, at which a lost version is rebuilt (R351). -/
def rightsOf (s : State) : Nat := askRights s.ctx.sup s.ctx.rebuild + 2 ^ 28 * (s.task? s.ctx.uid).elim 0 (·.prio)

/-- A load of ranges at another home by the context that moves. -/
def askRead (s : State) (home tag : Nat) (rs : List (Nat × Nat)) (rights : Nat) : State :=
  askLoad s home s.ctx.vd (asker s) tag rs rights (extentOk s.ctx.m false)

/-! Durable stores at other homes (R299). -/

/-- The persist epoch of a store, which another home holds back while earlier ones are outstanding. -/
def durWhen (s : State) (epoch : Nat) : DurWhen := ⟨epoch, durEarlier s s.ctx.uid epoch⟩

/-- A durable store of the task stands at another home from now on. -/
def noteAway (s : State) (home epoch : Nat) : State :=
  openDur { s with durAway := s.durAway ++ [⟨s.ctx.uid, s.ctx.vd, home, epoch, false⟩] }

/-- Whether some pages of another home are durable memory. -/
def farDur (ps : List RPage) : Bool := ps.any fun p => isDur p.pa

/-- A global access without an answer yet: asked once, then it waits; at a home that is lost a TILE access waits for its rebuild, any
other ends the task (R289). -/
def askHome (s : State) (home va len tag : Nat) (write : Bool) (ask : State → State) : State :=
  if peerLost s home then
    if extentOk s.ctx.m false va len then blockA s (.tileLostAccess 0) else accFault s .memUncorrectable va write
  else blockA (askOnce s home tag ask) .remote

/-- What a home's answer means for the task: its fault, at the address that the home names, or the answer itself (R135, R289). -/
def homeFault (s : State) (r : Answer) (va : Nat) (write : Bool) : Option State :=
  if r.status = 0 then none
  else some (accFault s (causeOf r.cause) (if r.data.isEmpty then va else leNat (r.data.take 8)) write)

/-- Bytes of another home with the task's own logged ones over them (R138). -/
def overlay (m : MemSide) (home : Nat) : List RPage → List Byte → List Byte
  | [], bs => bs
  | p :: ps, bs => ((bs.take p.n).mapIdx fun i b => (ownByte m (globalKey home (p.pa + i))).getD b) ++ overlay m home ps (bs.drop p.n)

/-- Types whose reads taint a task (R277). -/
def taints (mt : MemType) : Bool := mt == .shrd || mt == .sync

def taintPages (s : State) (ps : List RPage) : State :=
  if ps.any fun p => taints p.mt then s.modM fun m => { m with taint := true } else s

/-- The rights of a load or store by its kind. -/
def devRight (k : AKind) : Nat := if k == .devLoad || k == .devStore then rightDev else 0

/-- A load of `len` bytes (R137, R138). `pre` is what a precise fault does before it is taken (R143). -/
def loadMem (s : State) (k : AKind) (addr : Word) (align len : Nat) (pre : State → State := id) (tag : Nat := tagA) : Accessed :=
  let va := addr.toNat
  let c := checkAccess s k addr align (pieces va len)
  match if k == .load || k == .devLoad then objectToAsk s c (pieces va len) else none with
  | some (h, o) => .stop (blockA (askObject s h o) .remote)
  | none => match c with
  | .flt c a => .stop (accFault (pre s) c a false)
  | .held f a => .stop (heldA s f a false false)
  | .lostTile a => .stop (tileErr s a false)
  | .memErr a => .stop (accFault s .memUncorrectable a false)
  | .ok ps => match lostPlace s ps with
    | some t => .stop (lostStop s t va false)
    | none => .got (taintBy s ps) (readPlaces s ps)
  | .remote h =>
    match takeAnswer s tag with
    | (none, _) => .stop (askHome s h va len tag false fun s => askRead s h tag [(va, len)] (rightsOf s + devRight k))
    | (some r, t) => match homeFault (pre t) r va false with
      | some t => .stop t
      | none =>
        let p := reply r
        .got (taintPages t p.pages) (overlay t.ctx.m h p.pages p.data)

/-- The stretches of pages that hold bytes to be written: from the first to the last such byte of each page (R144). -/
def activeRanges (va : Nat) (bs : List (Byte × Bool)) : List (Nat × Nat) :=
  (pieces va bs.length).filterMap fun p =>
    let here := (bs.drop (p.1 - va)).take p.2
    match here.findIdx? (·.2), here.reverse.findIdx? (·.2) with
    | some i, some j => some (p.1 + i, p.2 - i - j)
    | _, _ => none

/-- The bytes that stand at the stretches. -/
def activeBytes (va : Nat) (bs : List (Byte × Bool)) (rs : List (Nat × Nat)) : List (Byte × Bool) :=
  rs.flatMap fun r => (bs.drop (r.1 - va)).take r.2

/-- A store whose bytes another home has checked: it has performed them, but for SHRD memory, which the task logs or holds (R267, R270). -/
def storeReply (s : State) (order home va : Nat) (p : Reply) (bs : List (Byte × Bool)) (skip : Nat := 0) : State :=
  let ps := replyPlaces home va p.pages
  let s := if farDur p.pages then noteAway s home s.ctx.m.epoch else s
  storeUnits (fun s p cells => if p.mt == .shrd then storeCells s order 0 p cells else s.modM fun m => stampCells m order cells)
    s order 0 (firstPa ps skip) (unitsOf ps bs)

/-- A global store of a task whose log can take no entry is first checked alone: its home writes none of it if some would have to be logged
(R273). Answers how it ends, if it does not go on. -/
def checkFirst (s : State) (h va : Nat) (rs : List (Nat × Nat)) (bs : List (Byte × Bool)) : Option State :=
  if !logStuck s then none else
  match answerOf s tagCheck with
  | none => some (askHome s h va bs.length tagCheck true fun s =>
      askLoad s h s.ctx.vd (asker s) tagCheck rs (rightsOf s + rightStore) (extentOk s.ctx.m true))
  | some r => (homeFault s r va true).or
      (if logFlt s (replyPlaces h (nth (0, 0) rs 0).1 (reply r).pages) (activeBytes va bs rs)
        then some (accFault s .pageFault va true) else none)

/-- A store of bytes under a mask (R137, R144). With no byte to write there is no access. -/
def storeMem (s : State) (k : AKind) (addr : Word) (align : Nat) (bs : List (Byte × Bool)) : Accessed :=
  let va := addr.toNat
  let rs := activeRanges va bs
  if rs.isEmpty then .got s [] else
  let act := activeBytes va bs rs
  let skip := (nth (0, 0) rs 0).1 - va
  let c := checkAccess s k addr align rs
  match objectToAsk s c rs with
  | some (h, o) => .stop (blockA (askObject s h o) .remote)
  | none => match c with
  | .flt c a => .stop (accFault s c a true)
  | .held f a => .stop (heldA s f a false true)
  | .lostTile a => .stop (tileErr s a true)
  | .memErr a => .stop (accFault s .memUncorrectable a true)
  | .ok ps => if logFlt s ps act then .stop (accFault s .pageFault va true) else .got (storePlaces s s.ctx.a.order 0 ps act skip) []
  | .remote h =>
    let r0 := nth (0, 0) rs 0
    let mine := bs.drop (r0.1 - va)
    match takeAnswer s tagA with
    | (none, _) => match checkFirst s h va rs bs with
      | some t => .stop t
      | none => .stop (askHome (forget s tagCheck) h va bs.length tagA true fun s =>
          askStore s h s.ctx.vd (asker s) tagA r0.1 (rightsOf s + devRight k) mine (rs.map fun r => extentOk s.ctx.m true r.1 r.2)
            (durWhen s s.ctx.m.epoch))
    | (some r, t) => match homeFault t r va true with
      | some t => .stop t
      | none => .got (storeReply t t.ctx.a.order h r0.1 (reply r) mine skip) []

/-- An instruction whose access is performed goes on with the bytes read. -/
def Accessed.run (a : Accessed) (k : State → List Byte → Out) : Out :=
  match a with
  | .got s bs => k s bs
  | .stop s => .next s

/-- The effective address of an AMEM instruction (R135). -/
def effAddr (s : State) (ga : Reg) (off : Word) : Word := gRead s ga + off

/-- Where an access lies in a DEV page: its physical address (R137). -/
def devPlace (s : State) (addr : Word) (len : Nat) (k : AKind) : Option Nat :=
  match checkAccess s k addr len [(addr.toNat, len)] with
  | .ok [(p, _)] => if p.mt == .dev then some p.pa else none
  | _ => none

/-- What a supervisor's access of a kind that DEV pages take finds of its page at another home: nothing to wait for, the question still to be
asked, or a DEV page, whose access waits for the task's earlier ones (R276). -/
inductive FarDev where
  | other
  | ask (home : Nat)
  | dev
deriving DecidableEq, Repr

def farDev (s : State) (addr : Word) (len : Nat) (k : AKind) : FarDev :=
  if !s.ctx.sup || devRight k = 0 || (s.ctx.m.answers.any fun r => r.tag == tagA) then .other
  else match checkAccess s k addr len [(addr.toNat, len)] with
    | .remote h => match answerOf s tagB with
      | some r => if r.status = 0 && (reply r).pages.any fun p => p.mt == .dev then .dev else .other
      | none => if peerLost s h then .other else .ask h
    | _ => .other

/-- Asks that home what the page is. -/
def askPage (s : State) (home : Nat) (addr : Word) (len : Nat) : State :=
  blockA (askOnce s home tagB fun s => askRead s home tagB [(addr.toNat, len)] (rightsOf s + rightDev + rightProbe)) .remote

end Sys2Proof.Machine
end

