-- ==== Sys2Proof/Machine/Streams.lean ====
section
/-!
DEFINITION. Streams: the walk of a descriptor (R147), its checks (R148), starts and port transfers (R149, R178).
-/

namespace Sys2Proof.Machine

/-! The walk (R147). -/

/-- Points of the nest. -/
def Desc.points (d : Desc) : Nat := d.loops.toList.foldl (fun n l => n * l.count.toNat) 1

/-- Bytes of a walk: BLEN × the product of the counts. -/
def Desc.length (d : Desc) : Nat := d.blen.toNat * d.points

/-- The offset of point `k`, counted innermost loop first. -/
def Desc.point (d : Desc) (k : Nat) : Int :=
  (d.loops.toList.foldl (fun (p : Nat × Int) l =>
    let c := max l.count.toNat 1
    (p.1 / c, p.2 + (p.1 % c : Nat) * l.stride.toInt)) (k, (d.base.toNat : Int))).2

/-- The runs of scratchpad bytes from walk position `pos`, `n` bytes in all: offset and length of each. -/
def walkRuns : Nat → Desc → Nat → Nat → List (Nat × Nat)
  | 0, _, _, _ => []
  | fuel + 1, d, pos, n =>
    if n = 0 then [] else
    let bl := max d.blen.toNat 1
    let o := pos % bl
    let l := min n (bl - o)
    ((d.point (pos / bl) + o).toNat, l) :: walkRuns fuel d (pos + l) (n - l)

/-- The runs of `n` bytes of a walk. -/
def Desc.runs (d : Desc) (pos n : Nat) : List (Nat × Nat) := walkRuns (n / max d.blen.toNat 1 + 2) d pos n

/-- Bytes of a walk, read from a scratchpad. -/
def walkRead (m : Memory) (d : Desc) (pos n : Nat) : List Byte := (d.runs pos n).flatMap fun r => memGetN m r.1 r.2

/-- The cells that bytes of a walk go to. -/
def runsCells : List (Nat × Nat) → List Byte → List Host.Cell
  | [], _ => []
  | r :: rs, bs => cellsAt r.1 (bs.take r.2) ++ runsCells rs (bs.drop r.2)

def walkCells (d : Desc) (pos : Nat) (bs : List Byte) : List Host.Cell := runsCells (d.runs pos bs.length) bs

/-- Code bytes of an MX block by MXW (R57). -/
def blockBytes (mxw : Nat) : Nat := 8 * (mxw + 1)

/-- Where block `b` of an MX walk has its scale byte (R147). -/
def Desc.scaleAt (d : Desc) (b : Nat) : Int :=
  let bpr := max d.bpr.toNat 1
  d.sbase.toNat + (b / bpr : Nat) * d.sstride.toInt + (b % bpr : Nat)

/-! The checks of sgo (R148). -/

/-- Element size in bytes by type code; MX: the code bytes of a block. -/
def Desc.unit (d : Desc) : Nat :=
  match d.etype.toNat with
  | 2 | 4 => 2
  | 3 | 5 => 4
  | 6 => blockBytes d.mxw.toNat
  | _ => 1

/-- The bounds of the code bytes. -/
def Desc.bounds (d : Desc) : Int × Int :=
  d.loops.toList.foldl (fun (p : Int × Int) l =>
    let x := ((l.count.toNat : Int) - 1) * l.stride.toInt
    (p.1 + min 0 x, p.2 + max 0 x)) (d.base.toNat, d.base.toNat + d.blen.toNat - 1)

/-- The bounds of the scale bytes that an MX walk uses: full rows, then one that may be shorter. -/
def Desc.scaleBounds (d : Desc) : Int × Int :=
  let n := d.length / d.unit
  let bpr := max d.bpr.toNat 1
  let rows := (n + bpr - 1) / bpr
  let row := fun (r : Nat) => (d.sbase.toNat : Int) + r * d.sstride.toInt
  let last := rows - 1
  let lastEnd := row last + (n - last * bpr : Nat) - 1
  if rows ≤ 1 then (row 0, lastEnd)
  else (min (row 0) (row last), max lastEnd (max (row 0) (row (last - 1)) + bpr - 1))

def inPad (spad : Nat) (b : Int × Int) : Bool := 0 ≤ b.1 && b.2 < spad

/-- R148: whether sgo refuses a snapshot. -/
def Desc.bad (d : Desc) (spad : Nat) : Bool :=
  let mx := d.mxw != 0
  d.etype.toNat ≥ 7 || mx != (d.etype.toNat == 6) || d.blen.toNat = 0 || d.blen.toNat > 512 || d.blen.toNat % d.unit ≠ 0 ||
    (d.bpr = 0 && mx) || d.loops.toList.any (fun l => l.count = 0) || !inPad spad d.bounds || (mx && !inPad spad d.scaleBounds)

/-- The extents that the overlap checker takes for a stream: its code bytes and, on an MX walk, its scale bytes (R227, R228). -/
def Desc.extents (d : Desc) (write : Bool) : List Extent :=
  let e := fun (b : Int × Int) (w : Bool) => (⟨.spad, b.1.toNat, b.2.toNat, w⟩ : Extent)
  e d.bounds write :: if d.mxw = 0 then [] else [e d.scaleBounds write]

/-! Starts (R149). -/

/-- The greatest push number popped by an instruction before a place in program order. -/
def poppedBefore (c : CSide) (seq : Nat) : Nat := c.pops.foldl (fun n p => if p.1 < seq then max n p.2 else n) 0

/-- A start: the newest eligible snapshot is installed, the older ones are discarded; nothing where none was ever installed. -/
def Stream.start (st : Stream) (popped : Nat) : Option Stream :=
  let keep := st.armed.filter fun a => a.after ≥ popped
  match (st.armed.filter fun a => a.after < popped).getLast? with
  | some a => some { st with live := a.desc, installed := true, walking := true, pos := 0, armed := keep }
  | none => if st.installed then some { st with walking := true, pos := 0 } else none

def State.setStream (s : State) (n : Fin 16) (st : Stream) : State := s.modM fun m => { m with streams := m.streams.set n st }

/-- A start by the C-slice's instruction; none raises STREAM_INVALID. -/
def startStream (s : State) (n : Fin 16) : Option (State × Desc) :=
  (s.ctx.m.streams[n].start (poppedBefore s.ctx.c s.ctx.c.cur.seq)).map fun st => (s.setStream n st, st.live)

/-- The end of a walk by an engine command (R147). -/
def endWalk (s : State) (n : Fin 16) : State := s.setStream n { s.ctx.m.streams[n] with walking := false }

/-- Whether a vector port use is a start. -/
def portStarts (s : State) (n : Fin 16) : Bool := !s.ctx.m.streams[n].walking

/-- Takes the next 512 bytes of a walk through a vector port: the descriptor, the position, and how many bytes are left of it there. -/
def portTake (s : State) (n : Fin 16) : Option (State × Desc × Nat × Nat) :=
  let r := if portStarts s n then startStream s n else some (s, s.ctx.m.streams[n].live)
  r.map fun (s, d) =>
    let st := s.ctx.m.streams[n]
    let k := min 512 (d.length - st.pos)
    (s.setStream n { st with pos := st.pos + k, walking := st.pos + k < d.length }, d, st.pos, k)

/-- A vector read of a port: missing bytes are zero (R178). -/
def portRead (s : State) (d : Desc) (pos k : Nat) : List Byte :=
  walkRead s.ctx.m.spad d pos k ++ List.replicate (512 - k) 0

/-- The vector sources that an instruction names. -/
def srcsOf : Instr → List VSrc
  | .vadd _ va vb _ _ => [va, vb]
  | .vsub _ va vb _ _ => [va, vb]
  | .vmul _ va vb _ _ => [va, vb]
  | .vmulz _ va vb _ _ => [va, vb]
  | .vfma _ va vb vc _ _ => [va, vb, vc]
  | .vfms _ va vb vc _ _ => [va, vb, vc]
  | .vfnma _ va vb vc _ _ => [va, vb, vc]
  | .vmulh _ va vb _ _ => [va, vb]
  | .vmulhn _ va vb _ _ => [va, vb]
  | .vmin _ va vb _ _ => [va, vb]
  | .vmax _ va vb _ _ => [va, vb]
  | .vminn _ va vb _ _ => [va, vb]
  | .vmaxn _ va vb _ _ => [va, vb]
  | .vabs _ va _ _ => [va]
  | .vneg _ va _ _ => [va]
  | .vand _ va vb _ _ => [va, vb]
  | .vor _ va vb _ _ => [va, vb]
  | .vxor _ va vb _ _ => [va, vb]
  | .vandn _ va vb _ _ => [va, vb]
  | .vnot _ va _ _ => [va]
  | .vshl _ va vb _ _ => [va, vb]
  | .vshr _ va vb _ _ => [va, vb]
  | .vsra _ va vb _ _ => [va, vb]
  | .vshli _ va _ _ _ => [va]
  | .vshri _ va _ _ _ => [va]
  | .vsrai _ va _ _ _ => [va]
  | .vfshl _ va vb vc _ _ => [va, vb, vc]
  | .vfshr _ va vb vc _ _ => [va, vb, vc]
  | .vpopc _ va _ _ => [va]
  | .vclz _ va _ _ => [va]
  | .vctz _ va _ _ => [va]
  | .vceq _ va vb _ _ => [va, vb]
  | .vcne _ va vb _ _ => [va, vb]
  | .vclt _ va vb _ _ => [va, vb]
  | .vcle _ va vb _ _ => [va, vb]
  | .vcltn _ va vb _ _ => [va, vb]
  | .vclen _ va vb _ _ => [va, vb]
  | .vcun _ va vb _ _ => [va, vb]
  | .vcvt _ va _ _ _ => [va]
  | .vqnt _ va vb _ _ => [va, vb]
  | .vdqnt _ va vb _ _ => [va, vb]
  | .vpack4 _ va vb _ _ => [va, vb]
  | .vunpk4 _ va _ _ => [va]
  | .vwid2 _ va _ _ => [va]
  | .vwid4 _ va _ _ => [va]
  | .vwmul2 _ va vb _ _ => [va, vb]
  | .vperm _ va vb _ _ => [va, vb]
  | .vperm2 _ va vb vc _ _ => [va, vb, vc]
  | .vcomp _ va _ _ => [va]
  | .vexpd _ va _ _ => [va]
  | .vslup _ va _ vc _ _ => [va, vc]
  | .vsldn _ va _ vc _ _ => [va, vc]
  | .vbcast _ va _ _ _ => [va]
  | .vmov _ va _ => [va]
  | .vext _ va _ _ _ => [va]
  | .vrsum _ va _ _ => [va]
  | .vrmax _ va _ _ => [va]
  | .vrmin _ va _ _ => [va]
  | .vgmax _ va _ _ _ => [va]
  | .vscan _ va _ _ => [va]
  | .vrcpe _ va _ _ => [va]
  | .vrsqe _ va _ _ => [va]
  | .vrcps _ va vb _ _ => [va, vb]
  | .vrsqs _ va vb _ _ => [va, vb]
  | .vexp2F _ va _ _ => [va]
  | .vlog2F _ va _ _ => [va]
  | .vtanhF _ va _ _ => [va]
  | .vexp2X _ va _ _ => [va]
  | .vlog2X _ va _ _ => [va]
  | .vtanhX _ va _ _ => [va]
  | .vspill _ va _ => [va]
  | _ => []

/-- An instruction that pops lq0 to lq3 or xq (R149). -/
def popsToC (w0 w1 : Nat) : Bool :=
  match decodeCode w0 w1 with
  | .ok (.instr i) => isPop i || (srcsOf i).any fun v => match v with
    | .lq _ => true
    | _ => false
  | _ => false
where
  isPop : Instr → Bool
    | .qpopXq _ => true
    | _ => false

/-- Whether an earlier instruction that pops has been dispatched and has not issued: a start waits for it (R149; DEDUCED: it may be
the one that makes the start's snapshot eligible). -/
def startWaits (c : CSide) : Bool :=
  c.queues.toList.any fun l => l.any fun d => d.seq < c.cur.seq && popsToC d.w0 d.w1

end Sys2Proof.Machine
end

