-- ==== Sys2Proof/Machine/Overlap.lean ====
section
/-!
DEFINITION. The overlap checker (R227 to R230): extents, epochs, copy records, and the conflicts that raise OVERLAP.
-/

namespace Sys2Proof.Machine

/-- Two extents of one space that share a byte, one of them written (R228). -/
def Extent.hits (a b : Extent) : Bool := a.space == b.space && a.lo ≤ b.hi && b.lo ≤ a.hi && (a.write || b.write)

/-- An extent in a record: bit 31 of a start is the weight buffer (R238). -/
def Extent.words (e : Extent) : List Nat := [e.lo + (if e.space == .wb then 2 ^ 31 else 0), e.hi]

/-- The OVERLAP fault of two accesses (R230, R238, R240): the reported one's extent first. -/
def overlapFlt (mine other : Extent) (pc : Word) (slot : Nat) : Flt :=
  { cause := .overlap, info := BitVec.ofNat 64 slot, faddr := pc, xtnt := mine.words ++ other.words }

/-- A pair of extents that hit. -/
def hitPair (xs ys : List Extent) : Option (Extent × Extent) :=
  xs.findSome? fun x => (ys.find? fun y => x.hits y).map fun y => (x, y)

/-- A copy that is ordered before the C-side accesses to come (R228, rule 2). -/
def orderedForC (c : CSide) (r : CopyRec) : Bool := r.waited && c.pops.any fun p => p.2 > r.tag

/-- The check of a C-side access at its issue: extents with their intervals (R230). DESIGN CHOICE (log 68): of several records it conflicts
with, the one named is an open copy record before a C-side access, and the oldest of its kind. -/
def checkC (s : State) (accs : List (Extent × Nat × Nat)) : Option Flt :=
  if !s.ctx.det then none else
  accs.findSome? fun (e, lo, hi) =>
    match (s.ctx.m.copyRecs.filter fun r => !orderedForC s.ctx.c r).findSome? fun r => (hitPair [e] r.exts).map fun p => (p, r) with
    | some (p, r) => some (overlapFlt p.1 p.2 r.pc r.slot)
    | none =>
      (s.ctx.m.running.find? fun a =>
        lo ≤ a.hi && a.lo ≤ hi && e.hits a.ext && !(lo == hi && a.lo == a.hi && lo == a.lo && e.write && a.ext.write)).map
        fun a => overlapFlt e a.ext a.pc 63

/-- The accesses of an instruction that issues start to run. -/
def addC (s : State) (accs : List (Extent × Nat × Nat)) : State :=
  if !s.ctx.det || accs.isEmpty then s else
  let cur := s.ctx.c.cur
  s.modM fun m => { m with running := m.running ++ accs.map fun (e, lo, hi) => ⟨cur.seq, cur.pc, lo, hi, e, false⟩ }

/-- Joins an epoch: sixteen extents exactly, the later ones in one bounding range for each space (R229). DESIGN CHOICE (log 68): the
range keeps the instruction address of the first access merged into it. -/
def joinAcc (l : List CAccess) (a : CAccess) : List CAccess :=
  if (l.filter fun x => !x.merged).length < 16 then l ++ [a]
  else if l.any fun x => x.merged && x.ext.space == a.ext.space then
    mapIf (fun x => x.merged && x.ext.space == a.ext.space)
      (fun x => { x with ext := { x.ext with lo := min x.ext.lo a.ext.lo, hi := max x.ext.hi a.ext.hi, write := x.ext.write || a.ext.write } }) l
  else l ++ [{ a with merged := true }]

/-- The end of a C-cycle: the accesses whose interval ends join the current epoch, and a push made in this C-cycle closes it (R228,
R229). Epochs whose push has been popped are closed for good, and so are copy records ordered before both slices. -/
def endEpoch (s : State) : State :=
  if !s.ctx.det then s else
  let c := s.ctx.c
  let q := s.ctx.q
  let m := s.ctx.m
  let gone := m.running.filter fun a => a.hi ≤ c.cc
  let cur : Epoch := m.epochs.getLast?.getD ⟨none, 0, []⟩
  let cur := { cur with accs := gone.foldl joinAcc cur.accs }
  let olds := m.epochs.dropLast.filter fun e => match e.push with
    | some n => n > q.nPopC
    | none => true
  let es := if q.nPushC > cur.after
    then olds ++ [{ cur with push := some (cur.after + 1) }, ⟨none, q.nPushC, []⟩] else olds ++ [cur]
  s.modM fun m => { m with
    running := m.running.filter fun a => a.hi > c.cc
    epochs := es
    copyRecs := m.copyRecs.filter fun r => !orderedForC c r }

/-- The C-side accesses that a copy may be unordered against: those whose closing push the A-slice has not popped (R228, rule 3). -/
def openAccs (s : State) : List CAccess :=
  let q := s.ctx.q
  let m := s.ctx.m
  let olds := (m.epochs.dropLast.filter fun e => match e.push with
    | some n => n > q.nPopC
    | none => true).flatMap Epoch.accs
  match m.epochs.getLast? with
  | none => olds ++ m.running.filter fun a => !(q.nPopC > 0 && a.hi ≤ s.ctx.c.cc)
  | some e =>
    let popped := q.nPopC > e.after
    olds ++ (if popped then [] else e.accs) ++ m.running.filter fun a => !(popped && a.hi ≤ s.ctx.c.cc)

/-- The check of a copy into a slot at its issue (R230, R240). -/
def checkCopy (s : State) (slot : Fin 48) (exts : List Extent) : Option Flt :=
  if !s.ctx.det then none else
  match (s.ctx.m.copyRecs.filter fun r => !r.waited).findSome? fun r => (hitPair exts r.exts).map fun p => (p, r) with
  | some (p, r) => some (overlapFlt p.1 p.2 r.pc r.slot)
  | none => (openAccs s).findSome? fun a => (hitPair exts [a.ext]).map fun p => overlapFlt p.1 p.2 a.pc slot

/-- Whether a copy waits for a place among the 128 copy records (R229). -/
def recordsFull (s : State) : Bool := s.ctx.det && (s.ctx.m.copyRecs.filter fun r => !orderedForC s.ctx.c r).length ≥ 128

/-- A copy that issues opens its record. -/
def addCopyRec (s : State) (slot : Fin 48) (exts : List Extent) (b : Fin 8) : State :=
  if !s.ctx.det then s else
  s.modM fun m => { m with copyRecs := m.copyRecs ++ [⟨slot, s.ctx.a.pc, exts, s.ctx.a.order, b, false, 0⟩] }

/-- Every chunk of a copy has landed: its slot no longer holds it. -/
def recLanded (m : MemSide) (r : CopyRec) : Bool := m.slots[r.slot].state == .free || m.slots[r.slot].order != r.order

/-- A `bwait` that completes orders the landed copies counted into its barrier before what follows (R228, rules 2 and 4). -/
def waitCopies (s : State) (b : Fin 8) : State :=
  s.modM fun m => { m with
    copyRecs := mapIf (fun r => r.bar == b && !r.waited && recLanded m r) (fun r => { r with waited := true, tag := s.ctx.q.nPushA }) m.copyRecs }

end Sys2Proof.Machine
end

