-- ==== Sys2Proof/Machine/Copies.lean ====
section
/-!
DEFINITION. The copy engine: copies and chains at their issue (R151 to R154), chunks as they land, chain entries with their waits and
posts, and faults found in flight (R155).
-/

namespace Sys2Proof.Machine

/-! What a copy moves (R152). -/

def rowBytes (gb : Word) : Nat := bits gb.toNat 15 0
def rowCount (gb : Word) : Nat := bits gb.toNat 31 16
def rowPitch (gb : Word) : Word := BitVec.ofInt 64 (sext 32 (bits gb.toNat 63 32))

def is2d (k : Fin 8) : Bool := k == 2 || k == 3

/-- Kinds that write memory. -/
def toMem (k : Fin 8) : Bool := k == 1 || k == 3

def memSide (k : Fin 8) (gd ga : Word) : Word := if toMem k then gd else ga
def ownSide (k : Fin 8) (gd ga : Word) : Nat := (if toMem k then ga else gd).toNat

/-- Bytes of a copy other than a gather. -/
def copyBytes (k : Fin 8) (gb : Word) : Nat := if is2d k then rowBytes gb * rowCount gb else gb.toNat

/-- Address of a row. -/
def rowAddr (base gb : Word) (r : Nat) : Word := base + BitVec.ofNat 64 r * rowPitch gb

/-- The ranges of memory that the operands name: rows, a linear range, a gather list, a chain entry. -/
def memRanges (k : Fin 8) (gd ga gb : Word) : List (Word × Nat) :=
  let a := memSide k gd ga
  if is2d k then (List.range (rowCount gb)).map fun r => (rowAddr a gb r, rowBytes gb)
  else if k = 4 then [(a, 16 * gb.toNat)]
  else if k = 6 then [(a, 64)]
  else [(a, gb.toNat)]

/-- Whether R135 refuses an address: bits above 55, or a home outside the VD's peer set (R152, R289). -/
def badAddr (s : State) (a : Word) : Bool :=
  a.toNat ≥ 2 ^ 56 || homeBad s s.ctx.vd a.toNat

/-- The first address of some ranges that R135 refuses, of their first and last bytes. -/
def rangesFlt (s : State) (l : List (Word × Nat)) : Option Word :=
  l.findSome? fun r =>
    let z := r.1 + BitVec.ofNat 64 (max r.2 1 - 1)
    if badAddr s r.1 then some r.1 else if badAddr s z then some z else none

/-- What R152 and R154 ask of the address of a gather list, and of the head of a chain (R136). -/
def listAlign (k : Fin 8) : Nat := if k = 4 then 16 else if k = 6 then 64 else 1

/-- The length of a copy, or the entries of a gather list, lie in their range (R152). -/
def copyLenOk (k : Fin 8) (gb : Word) : Bool :=
  if k = 4 then 1 ≤ gb.toNat && gb.toNat ≤ 4096
  else 1 ≤ copyBytes k gb && copyBytes k gb ≤ (if k = 5 then 2 ^ 20 else 2 ^ 24)

/-- The operands of a kind lie in their ranges, and the extent in the scratchpad or the weight buffer (R152). -/
def copyOk (spad : Nat) (k : Fin 8) (gd ga gb : Word) : Bool :=
  let own := ownSide k gd ga
  copyLenOk k gb &&
    if k = 4 then own < spad
    else own + copyBytes k gb ≤ if k = 5 then 2 ^ 20 else spad

/-- The ranges whose addresses R135 tests at issue: those that the operands name, or the first address alone where a length out of its range
names none (R404; log 60). -/
def issueRanges (k : Fin 8) (gd ga gb : Word) : List (Word × Nat) :=
  if copyLenOk k gb then memRanges k gd ga gb else [(memSide k gd ga, 1)]

/-- The extents of a copy (R227). -/
def copyExtents (spad : Nat) (k : Fin 8) (gd ga gb : Word) : List Extent :=
  let own := ownSide k gd ga
  if k = 5 then [⟨.wb, own, own + copyBytes k gb - 1, true⟩]
  else [⟨.spad, own, if k = 4 then spad - 1 else own + copyBytes k gb - 1, !toMem k⟩]

def chainExtents (spad : Nat) : List Extent :=
  (if spad = 0 then [] else [⟨.spad, 0, spad - 1, true⟩]) ++ [⟨.wb, 0, 2 ^ 20 - 1, true⟩]

def setSlot (s : State) (i : Fin 48) (c : Slot) : State := s.modM fun m => { m with slots := m.slots.set i c }

/-! Issue (R151, R154). -/

/-- The overlap checker's place and verdict for a copy that issues, and then the copy (R229, R230). -/
def issueCopy (s : State) (i : Fin 48) (exts : List Extent) (c : Slot) (n : Nat) : Out :=
  if recordsFull s then .next (blockA s .checkerRecord)
  else match checkCopy s i exts with
    | some f => .next (raise f s)
    | none => .next (finish (setSlot (addCopyRec s i exts c.b) i
        { c with state := .active, order := s.ctx.a.order, epoch := s.ctx.m.epoch, phase := s.ctx.m.phase, binds := s.ctx.m.bindings }) n)

/-- A copy of a kind (R151, R152, R435). -/
def copyOp (k : Fin 8) (o : CpyOps) (s : State) : Out :=
  checked s (some .a) [.g o.gd, .g o.ga, .g o.gb, .bar o.b]
    (let gd := gRead s o.gd
     let ga := gRead s o.ga
     let gb := gRead s o.gb
     let spad := s.ctx.decl.spad
     if s.ctx.m.slots[o.slot].state != .free then .next (blockA s .ownCopies)
     else match rangesFlt s (issueRanges k gd ga gb) with
       | some a => .next (raise { cause := .address, faddr := a, write := toMem k } s)
       | none =>
         if ga.toNat % listAlign k ≠ 0 then .next (raise { cause := .misaligned, faddr := ga } s)
         else if !copyOk spad k gd ga gb then .next (raise { cause := .copyInvalid, info := BitVec.ofNat 64 o.slot.val } s)
         else issueCopy s o.slot (copyExtents spad k gd ga gb) { Slot.free with kind := k, gd := gd, ga := ga, gb := gb, b := o.b } 8)

/-- cpy.in (R152). -/
def execCpyIn (o : CpyOps) (s : State) : Out := copyOp 0 o s

/-- cpy.out (R152). -/
def execCpyOut (o : CpyOps) (s : State) : Out := copyOp 1 o s

/-- cpy.2d.in (R152). -/
def execCpy2dIn (o : CpyOps) (s : State) : Out := copyOp 2 o s

/-- cpy.2d.out (R152). -/
def execCpy2dOut (o : CpyOps) (s : State) : Out := copyOp 3 o s

/-- cpy.gth (R152). -/
def execCpyGth (o : CpyOps) (s : State) : Out := copyOp 4 o s

/-- cpy.wb (R152, R153). -/
def execCpyWb (o : CpyOps) (s : State) : Out := copyOp 5 o s

/-- cpy.link (R154). -/
def execCpyLink (ga : Reg) (b : Fin 8) (slot : Fin 48) (s : State) : Out :=
  checked s (some .a) [.g ga, .bar b]
    (let head := gRead s ga
     if s.ctx.m.slots[slot].state != .free then .next (blockA s .ownCopies)
     else match rangesFlt s (memRanges 6 0 head 0) with
       | some a => .next (raise { cause := .address, faddr := a } s)
       | none => if head.toNat % listAlign 6 ≠ 0 then .next (raise { cause := .misaligned, faddr := head } s) else
         .next (finish (setSlot s slot
           { Slot.free with state := .linked, kind := 6, ga := head, b := b, chain := true, entry := head }) 8))

/-- cpy.kick (R154): of a slot that is not LINKED it has no effect. -/
def execCpyKick (slot : Fin 48) (s : State) : Out :=
  checked s (some .a) []
    (let c := s.ctx.m.slots[slot]
     if c.state != .linked then .next (finish s 8)
     else issueCopy s slot (chainExtents s.ctx.decl.spad) c 8)

/-! The engine's accesses. -/

/-- How an access of the engine ends. A fault is the copy's (R155), or ends the task. -/
inductive Got (α : Type) where
  | ok (s : State) (x : α)
  | wait (s : State)                                   -- held, asked, or waiting for a rebuilt tile
  | flt (s : State) (c : Cause) (va : Nat) (write ends : Bool)

/-- Goes on with what an access gives. -/
def Got.bind {α β : Type} (g : Got α) (k : State → α → Got β) : Got β :=
  match g with
  | .ok s x => k s x
  | .wait s => .wait s
  | .flt s c a w e => .flt s c a w e

/-- The tag of the answer to what a slot asks about an address; tags below 64 are others' (Net.lean). -/
def slotTag (i : Fin 48) (key : Nat) : Nat := i.val + 64 * (key + 1)

/-- What a slot asks of a home for a whole chunk, and the writes of a chunk that it has sent there: above every address. -/
def chunkKey (home : Nat) : Nat := 2 ^ 56 + home
def writeKey (home : Nat) : Nat := 2 ^ 57 + home

/-- What stands of a slot's answers goes. -/
def dropAnswers (s : State) (i : Fin 48) : State :=
  let c := s.ctx.m.slots[i]
  if c.asked.isEmpty then s
  else setSlot (s.modM fun m => { m with answers := m.answers.filter fun r => r.tag < 64 || r.tag % 64 != i.val }) i { c with asked := [] }

/-- The answer to what a slot has asked. -/
def slotAnswer (s : State) (i : Fin 48) (key : Nat) : Option Answer := s.ctx.m.answers.find? fun r => r.tag == slotTag i key

/-- A global access of the engine: asked once, then answered; at a lost home a TILE access waits, any other ends the task (R289). -/
def engineAsk (s : State) (i : Fin 48) (home key va len : Nat) (write : Bool) (ask : State → State) : Got Reply :=
  let c := s.ctx.m.slots[i]
  if peerLost s home then
    if extentOk s.ctx.m false va len then .wait (dropAnswers s i) else .flt s .memUncorrectable va write true
  else match slotAnswer s i key with
    | some r => if r.status ≠ 0 then .flt s (causeOf r.cause) (if r.data.isEmpty then va else leNat (r.data.take 8)) write false else .ok s (reply r)
    | none => if c.asked.contains key then .wait s else .wait (setSlot (ask s) i { c with asked := key :: c.asked })

/-- A held access of the engine (R285). -/
def heldSlot (s : State) (i : Fin 48) (f : S2Flt) (va : Nat) (write : Bool) : State :=
  let x := s.ctx
  (holdAccess s x.part x.vd x.core f (BitVec.ofNat 64 va) 1 false write (.copySlot x.uid i.val)).1

/-- What an engine's read finds: the bytes, and whether any came from SHRD or SYNC memory (R277). -/
abbrev ReadBytes := List Byte × Bool

/-- The first page of a range that is not of the one type accepted: it is refused before anything else about its type is asked. -/
def wrongType (s : State) (want : MemType) (va len : Nat) : Option Nat :=
  match findPages s s.ctx.vd (pieces va len) with
  | .ok fs => (fs.find? fun f => f.1.mt != want).map fun f => f.1.va
  | .error _ => none

/-- The version that the slot's chunk waits for, or that it waits for none. -/
def slotLost (s : State) (i : Fin 48) (name : Word) : State :=
  let c := s.ctx.m.slots[i]
  if c.lost == name then s else setSlot s i { c with lost := name }

/-- A read by the engine at this home; none where another home must be asked. -/
def readHere (s : State) (i : Fin 48) (va len : Nat) : Got (ReadBytes ⊕ Nat) :=
  let c := checkAccess s .load (BitVec.ofNat 64 va) 1 (pieces va len)
  match objectToAsk s c (pieces va len) with
  | some (h, o) => .wait (askObject s h o)
  | none => match c with
  | .flt c a => .flt s c a false false
  | .held f a => .wait (heldSlot s i f a false)
  | .lostTile a => match tileAt s s.ctx.vd a with
      | some t => if t.sealed then
            if !t.resident then .wait (slotLost s i t.name)
            else match extentLost s t with
              | some s => .wait (slotLost s i t.name)
              | none => .flt s .tileLost a false true
          else .wait (if t.owner = s.ctx.uid then taskAbort s t.owner else s)
      | none => .wait s
  | .memErr a => .flt s .memUncorrectable a false false
  | .ok ps => match lostPlace s ps with
    | some t => if tileGone s t.vd t.name then .flt s .tileLost va false true else .wait (slotLost s i t.name)
    | none => .ok (slotLost s i 0) (.inl (readPlaces s ps, ps.any fun p => taints p.1.mt))
  | .remote h => .ok s (.inr h)

/-- A read of one range by the engine, in pages of one type alone: a list entry, a chain entry or a counter (R152, R154). -/
def engineRead (s : State) (i : Fin 48) (only : MemType) (va len : Nat) : Got ReadBytes :=
  match if va + len ≤ 2 ^ 56 then wrongType s only va len else none with
  | some a => .flt s .access a false false
  | none => (readHere s i va len).bind fun s r => match r with
    | .inl x => .ok s x
    | .inr h => (engineAsk s i h va va len false fun s =>
        askRead s h (slotTag i va) [(va, len)] (rightsOf s + rightOnly only)).bind fun s r =>
          .ok s (overlay s.ctx.m h r.pages r.data, r.pages.any fun p => taints p.mt)

/-- A range of a chunk: what it holds at this home, or the home to ask. -/
structure Stretch (α : Type) where
  va   : Nat
  len  : Nat
  here : α ⊕ Nat

def Stretch.home {α : Type} (x : Stretch α) : Option Nat :=
  match x.here with
  | .inl _ => none
  | .inr h => some h

/-- The ranges of a chunk at one home. -/
def stretchesAt {α : Type} (l : List (Stretch α)) (home : Nat) : List (Nat × Nat) :=
  (l.filter fun x => x.home == some home).map fun x => (x.va, x.len)

/-- Asks each home of a chunk once for all of its ranges there, so that what one home holds of the chunk is read, or checked, as one (R260). -/
def askHomes {α : Type} (s : State) (i : Fin 48) (rights : Nat) (write : Bool) (l : List (Stretch α)) :
    List Nat → Got (List (Nat × Reply))
  | [] => .ok s []
  | h :: hs =>
    let rs := stretchesAt l h
    let r0 := nth (0, 0) rs 0
    (engineAsk s i h (chunkKey h) r0.1 r0.2 write fun s =>
        askLoad s h s.ctx.vd (asker s) (slotTag i (chunkKey h)) rs rights (extentOk s.ctx.m write)).bind fun s r =>
      (askHomes s i rights write l hs).bind fun s rs => .ok s ((h, r) :: rs)

def homesIn {α : Type} (l : List (Stretch α)) : List Nat := (l.filterMap Stretch.home).eraseDups

/-- The ranges of a chunk that it reads, each at this home or with the home to ask. -/
def readStretches (s : State) (i : Fin 48) : List (Nat × Nat) → Got (List (Stretch ReadBytes))
  | [] => .ok s []
  | (va, n) :: l => (readHere s i va n).bind fun s r => (readStretches s i l).bind fun s rs => .ok s (⟨va, n, r⟩ :: rs)

/-- The bytes of a chunk in order, those of other homes taken from their answers. -/
def chunkBytes : List (Nat × List Byte) → List (Stretch ReadBytes) → List Byte
  | _, [] => []
  | got, x :: l => match x.here with
    | .inl bs => bs.1 ++ chunkBytes got l
    | .inr h =>
      ((got.find? fun g => g.1 == h).elim [] fun g => g.2.take x.len) ++
        chunkBytes (mapIf (fun g => g.1 == h) (fun g => (g.1, g.2.drop x.len)) got) l

/-- Reads of the ranges of a chunk. -/
def engineReads (s : State) (i : Fin 48) (rs : List (Nat × Nat)) : Got ReadBytes :=
  (readStretches s i rs).bind fun s l =>
    (askHomes s i (rightsOf s) false l (homesIn l)).bind fun s got =>
      .ok s (chunkBytes (got.map fun g => (g.1, overlay s.ctx.m g.1 g.2.pages g.2.data)) l,
        l.any (fun x => match x.here with
          | .inl bs => bs.2
          | .inr _ => false) || got.any fun g => g.2.pages.any fun p => taints p.mt)

/-- The ranges that a chunk writes, checked at this home, or with the home that checks them. -/
def putStretches (s : State) (i : Fin 48) : List (Nat × Nat) → Got (List (Stretch (List (Place × Nat))))
  | [] => .ok s []
  | (va, n) :: l =>
    let c := checkAccess s .store (BitVec.ofNat 64 va) 1 (pieces va n)
    let one : Got (List (Place × Nat) ⊕ Nat) := match objectToAsk s c (pieces va n) with
      | some (h, o) => .wait (askObject s h o)
      | none => match c with
      | .flt c a => .flt s c a true false
      | .held f a => .wait (heldSlot s i f a true)
      | .lostTile _ => .wait s
      | .memErr a => .flt s .memUncorrectable a true false
      | .ok ps => .ok s (.inl ps)
      | .remote h => .ok s (.inr h)
    one.bind fun s r => (putStretches s i l).bind fun s rs => .ok s (⟨va, n, r⟩ :: rs)

/-- The places of a chunk's ranges in order, those of other homes as keys of their memory. -/
def chunkPlaces : List (Nat × List RPage) → List (Stretch (List (Place × Nat))) → List (Place × Nat)
  | _, [] => []
  | got, x :: l => match x.here with
    | .inl ps => ps ++ chunkPlaces got l
    | .inr h =>
      let k := (pieces x.va x.len).length
      ((got.find? fun g => g.1 == h).elim [] fun g => replyPlaces h x.va (g.2.take k)) ++
        chunkPlaces (mapIf (fun g => g.1 == h) (fun g => (g.1, g.2.drop k)) got) l

/-- The checks of the ranges that a chunk writes, at every home: none is written before all have passed (R155). -/
def enginePuts (s : State) (i : Fin 48) (rs : List (Nat × Nat)) : Got (List (Place × Nat)) :=
  (putStretches s i rs).bind fun s l =>
    (askHomes s i (rightsOf s + rightStore) true l (homesIn l)).bind fun s got =>
      .ok s (chunkPlaces (got.map fun g => (g.1, g.2.pages)) l)

/-- The bytes of a chunk by the 64-byte units of its destination, each unit's bytes together whichever rows they come from (R260). -/
def chunkUnits (ps : List (Place × Nat)) (bs : List Byte) : List (Place × List Host.Cell) :=
  let us := unitsOf ps (bs.map fun b => (b, true))
  ((us.map fun u => (u.1.va / 64, u.1.pa / 64)).eraseDups).filterMap fun k =>
    let mine := us.filter fun u => (u.1.va / 64, u.1.pa / 64) == k
    mine.head?.map fun u => (u.1, mine.flatMap (·.2))

/-- Bytes of a landing chunk in one unit: performed, but for those that a newer store of the task has written since the copy's issue (R263,
R267); those of another home are answered, to be written there. -/
def chunkCells (s : State) (c : Slot) (p : Place) (cells : List Host.Cell) : State × List Host.Cell :=
  let cells := notStamped s.ctx.m c.order cells
  let write := fun (s : State) => if isGlobalKey p.pa then (s, cells) else (perform s cells, [])
  match p.mt with
  | .shrd => write (s.modM fun m => pastStore m c.order cells)
  | .sync => if s.ctx.rebuild then (s, []) else write s
  | _ => write s

/-- A chunk's bytes land, in the regime and the persist epoch of the copy's issue (R267, R299); those of unbound SHRD memory are one entry of
the commit log, at the place of that issue (R270). Answers what other homes must write. -/
def landUnits (s : State) (c : Slot) (us : List (Place × List Host.Cell)) : State × List Host.Cell :=
  let m := s.ctx.m
  let t := s.modM fun m => { m with bindings := c.binds, epoch := c.epoch }
  let (log, now) := us.partition fun u => logged t u.1
  let (t, away) := now.foldl (fun (t, away) u =>
    let (t, l) := chunkCells t c u.1 u.2
    (t, away ++ l)) (t, [])
  let cells := log.flatMap (·.2)
  let t := logStore t c.order c.landed.toNat (nth (0, 0) cells 0).1 cells
  (t.modM fun n => { n with bindings := m.bindings, epoch := m.epoch }, away)

/-! Chunks (R151, R152). -/

/-- The stretches of memory of the chunk bytes [off, off + n) of a copy, with where each lies in the byte sequence. -/
def chunkRows (a gb : Word) : Nat → Nat → Nat → List (Nat × Nat)
  | 0, _, _ => []
  | fuel + 1, off, n =>
    if n = 0 then [] else
    let w := rowBytes gb
    let k := min n (w - off % w)
    ((rowAddr a gb (off / w) + BitVec.ofNat 64 (off % w)).toNat, k) :: chunkRows a gb fuel (off + k) (n - k)

def chunkRanges (k : Fin 8) (gd ga gb : Word) (off n : Nat) : List (Nat × Nat) :=
  let a := memSide k gd ga
  if is2d k then chunkRows a gb 256 off n else [((a + BitVec.ofNat 64 off).toNat, n)]

/-- What a gather chunk takes: its stretches, and where the copy stands after it (list entry, bytes of the piece, the piece). -/
structure Gather where
  rs   : List (Nat × Nat)
  idx  : Nat
  off  : Nat
  src  : Nat
  len  : Nat

/-- A list entry refused (R152): RsvdZ bits, a length out of range, the running total, or the scratchpad's end. -/
def badEntry (spad gd total src len : Nat) : Bool :=
  src ≥ 2 ^ 56 || len = 0 || len > 2 ^ 24 || total + len > 2 ^ 24 || gd + total + len > spad

/-- The stretches of a gather chunk, entry by entry. `want` bytes are still to be found, `total` have been before them.
The list is 16-byte aligned: a misaligned one is refused at issue (log 18). -/
def gatherRanges (s : State) (i : Fin 48) (c : Slot) : Nat → Gather → Nat → Nat → Got Gather
  | 0, g, _, _ => .ok s g
  | fuel + 1, g, want, total =>
    if want = 0 || g.idx ≥ c.gb.toNat then .ok s g else
    let take := fun (s : State) (src len : Nat) =>
      let n := min want (len - g.off)
      let whole := g.off + n = len
      gatherRanges s i c fuel
        ⟨g.rs ++ [((src + g.off) % 2 ^ 64, n)], if whole then g.idx + 1 else g.idx, if whole then 0 else g.off + n, src, len⟩ (want - n) (total + n)
    if g.off ≠ 0 then take s g.src g.len else
    let ea := c.ga.toNat + 16 * g.idx
    match engineRead s i .priv ea 16 with
    | .wait s => .wait s
    | .flt s e a w x => .flt s e a w x
    | .ok s (bs, _) =>
      let src := leNat (bs.take 8)
      let len := leNat (bs.drop 8)
      if badEntry s.ctx.decl.spad c.gd.toNat total src len then .flt s .copyInvalid ea false false
      else if badAddr s (BitVec.ofNat 64 src) then .flt s .address src false false
      else take s src len

/-- A chunk in memory-to-core direction: what it puts where. -/
def landIn (s : State) (c : Slot) (off : Nat) (bs : List Byte) (tainted : Bool) : State :=
  s.modM fun m =>
    let at_ := ownSide c.kind c.gd c.ga + off
    let m := { m with taint := m.taint || tainted }
    if c.kind = 5 then { m with wb := memSetN m.wb at_ bs } else { m with spad := memSetN m.spad at_ bs }

/-- The end of a chunk of `n` bytes: it is counted into its byte barrier and its slot (R150, R238). -/
def chunkDone (s : State) (i : Fin 48) (c : Slot) (n : Nat) : State :=
  let s := dropAnswers s i
  (setSlot s i { c with resume := c.resume + n, landed := c.landed + 1, asked := [], lost := 0 }).modM fun m =>
    { m with bars := m.bars.set c.b (m.bars[c.b] - BitVec.ofNat 32 n) }

/-- A copy whose last chunk has landed. -/
def copyOver (c : Slot) : Bool := if c.kind = 4 then c.glist ≥ c.gb.toNat else c.resume ≥ copyBytes c.kind c.gb

/-- A fault in flight: the chunk and all after it are untouched (R155). A source that cannot be rebuilt, or a lost home, ends the task
(R289, R353). -/
def slotFault (s : State) (i : Fin 48) (cause : Cause) (va : Nat) (write ends : Bool) : State :=
  let s := dropAnswers s i
  if ends then accFault { s with slice := .a } cause va write else
  let c := s.ctx.m.slots[i]
  setSlot s i { c with state := .faulted, cause := some cause, faddr := BitVec.ofNat 64 va, fwrite := write }

/-- What follows an access of the engine. -/
def Got.run {α : Type} (g : Got α) (i : Fin 48) (k : State → α → State) : State :=
  match g with
  | .ok s x => k s x
  | .wait s => s
  | .flt s c a w e => slotFault s i c a w e

/-- The bytes of a chunk that other homes hold are written there, one request to each home (R260, R289), in the persist epoch of the copy's
issue (R299). -/
def sendChunk (s : State) (i : Fin 48) (away : List Host.Cell) : State :=
  (homesOf away).foldl (fun s h =>
    let cells := away.filter fun x => keyHome x.1 == h
    let c := s.ctx.m.slots[i]
    let s := sendCommit s h s.ctx.vd (asker s) (slotTag i (writeKey h)) [.store c.order 0 (nth (0, 0) cells 0).1 cells] (durWhen s c.epoch)
    let s := if cells.any fun x => isDur (keyPa x.1) then noteAway s h c.epoch else s
    setSlot s i { c with asked := writeKey h :: c.asked }) s

/-- A chunk of `n` bytes that a copy stores to memory: its homes check it, then it lands at all of them (R155, R299). -/
def landOut (s : State) (i : Fin 48) (c : Slot) (n : Nat) (rs : List (Nat × Nat)) : State :=
  let sent := writesSent c
  if !sent.isEmpty then
    if sent.any (peerLost s) then slotFault s i .memUncorrectable (nth (0, 0) rs 0).1 true true
    else if sent.all fun h => (slotAnswer s i (writeKey h)).isSome then chunkDone s i c n else s
  else (enginePuts s i rs).run i fun s ps =>
    let us := chunkUnits ps (memGetN s.ctx.m.spad (ownSide c.kind c.gd c.ga + c.resume) n)
    let va := (nth (0, 0) rs 0).1
    if logStuck s && us.any (fun u => logged (s.modM fun m => { m with bindings := c.binds }) u.1) then
      slotFault s i .pageFault va true false
    else
      let (s, away) := landUnits s c us
      if away.isEmpty then chunkDone s i c n else sendChunk s i away

/-- The next chunk of a copy lands; of a gather that a resume has re-armed, the list entries of the bytes landed before are read first. -/
def landChunk (s : State) (i : Fin 48) (c : Slot) : State :=
  if c.kind = 4 then
    (gatherRanges s i c 257 ⟨[], c.glist, c.goff, c.gsrc, c.glen⟩ (if c.gskip = 0 then 256 else min 256 c.gskip)
        (c.resume - c.gskip)).run i fun s g =>
      if c.gskip ≠ 0 then
        setSlot (dropAnswers s i) i { c with
          glist := g.idx, goff := g.off, gsrc := g.src, glen := g.len, asked := []
          gskip := c.gskip - g.rs.foldl (fun n r => n + r.2) 0 }
      else (engineReads s i g.rs).run i fun s (bs, t) =>
        chunkDone (landIn s c c.resume bs t) i { c with glist := g.idx, goff := g.off, gsrc := g.src, glen := g.len } bs.length
  else
    let n := min 256 (copyBytes c.kind c.gb - c.resume)
    let rs := chunkRanges c.kind c.gd c.ga c.gb c.resume n
    if toMem c.kind then landOut s i c n rs
    else (engineReads s i rs).run i fun s (bs, t) => chunkDone (landIn s c c.resume bs t) i c n

/-! Chains (R154). -/

/-- A chain entry as read: its copy, wait and post; none for a bad one. An entry that a resume reads again keeps the copy and the progress that
its record holds (R418), and has not waited unless a chunk of it has landed. -/
def chainEntry (spad : Nat) (c : Slot) (bs : List Byte) : Option Slot :=
  let w := fun i => BitVec.ofNat 64 (leNat ((bs.drop (8 * i)).take 8))
  let w0 := (w 0).toNat
  let k : Fin 8 := ⟨bits w0 63 61 % 8, Nat.mod_lt _ (by decide)⟩
  if k.val = 4 || k.val > 5 || bits w0 60 56 ≠ 0 || w 7 ≠ 0 || !copyOk spad k (w 1) (w 2) (w 3) then none
  else
    let c := if c.kind = 6 then { c with kind := k, gd := w 1, ga := w 2, gb := w 3 } else c
    some { c with
      loaded := true, next := BitVec.ofNat 64 (bits w0 55 0)
      waitA := w 4, waitV := w 5, postA := w 6, waited := w 4 = 0 || c.resume ≠ 0 }

/-- The engine reads the chain's current entry. A NEXT that is not 64-byte aligned is a bad entry there (log 18). -/
def readEntryOf (s : State) (i : Fin 48) (c : Slot) : State :=
  let va := c.entry.toNat
  if va % 64 ≠ 0 then slotFault s i .copyInvalid va false false else
  (engineRead s i .priv va 64).run i fun s (bs, _) => match chainEntry s.ctx.decl.spad { c with asked := [] } bs with
    | none => slotFault s i .copyInvalid va false false
    | some d => match rangesFlt s (memRanges d.kind d.gd d.ga d.gb) with
      | some a => slotFault s i .address a.toNat (toMem d.kind) false
      | none => setSlot (dropAnswers s i) i d

/-- The engine goes on to the next entry of a chain, or the slot becomes free. -/
def nextEntry (s : State) (i : Fin 48) (c : Slot) : State :=
  setSlot (dropAnswers s i) i
    (if c.next = 0 then Slot.free else { c with
      kind := 6, gd := 0, ga := c.next, gb := 0, entry := c.next, loaded := false, waited := false, resume := 0, asked := [] })

/-- The post of an entry whose last chunk has landed: 1 is added atomically to its counter; a rebuild task's has no effect (R352). -/
def postEntry (s : State) (i : Fin 48) (c : Slot) : State :=
  let va := c.postA.toNat
  if va = 0 then nextEntry s i c else
  match checkAccess s .amo c.postA 8 [(va, 8)] with
  | .flt e a => slotFault s i e a true false
  | .held f a => heldSlot s i f a true
  | .lostTile a | .memErr a => slotFault s i .memUncorrectable a true false
  | .ok ps =>
    let s := if s.ctx.rebuild then s else ps.foldl (fun s p => (amoAt s p.1.pa .add .i64 1 0).1) s
    nextEntry s i c
  | .remote h =>
    (engineAsk s i h va va 8 true fun s =>
        askAmo s h s.ctx.vd (asker s) (slotTag i va) va (rightsOf s) false .add .i64 1 0).run i fun s _ => nextEntry s i c

/-- An access of the slot waits for the partition supervisor (R285). -/
def slotHeld (s : State) (i : Fin 48) : Bool :=
  (s.part? s.ctx.part).elim false fun p => p.recs.any fun r => r.holder == .copySlot s.ctx.uid i.val

/-- Whether the engine may go on with a slot: it neither waits nor is faulted, and the context has not been cut, or the slot's chunk has begun
its write (R155, R236). -/
def slotMoves (s : State) (i : Fin 48) : Bool :=
  let c := s.ctx.m.slots[i]
  s.live && (s.ctx.phase == .running || (s.ctx.phase == .cut && writeBegun c)) && c.state == .active && !slotHeld s i

def slotWaits (c : Slot) : Bool := c.chain && c.loaded && !c.waited

/-- One step of the engine for a slot. -/
def slotStep (s : State) (i : Fin 48) : State :=
  let c := s.ctx.m.slots[i]
  if c.chain && !c.loaded then readEntryOf s i c
  else if slotWaits c then s
  else if c.chain && copyOver c then postEntry s i c
  else
    let s := landChunk s i c
    let d := s.ctx.m.slots[i]
    if !d.chain && d.state == .active && copyOver d then setSlot s i Slot.free else s

/-- The slot that an event concerns: the one at the inputs, else the first that qualifies. -/
def slotOf (s : State) (ok : Fin 48 → Bool) : Option (Fin 48) :=
  match s.input with
  | .pick n => if h : n < 48 then (if ok ⟨n, h⟩ then some ⟨n, h⟩ else none) else none
  | _ => (List.finRange 48).find? ok

/-- CHUNK_LANDING (R151, R154): the next chunk of a copy lands; or a chain's engine reads its next entry, or posts. -/
def execChunkLanding (s : State) : Out :=
  match slotOf s fun i => slotMoves s i && !slotWaits s.ctx.m.slots[i] with
  | some i => .next (slotStep s i)
  | none => .next s

/-- CHAIN_WAIT_RELEASE (R154): the engine reads the counter of a chain entry that waits; once it has reached WAITV the entry starts.
The wait taints the task (R277). -/
def execChainWaitRelease (s : State) : Out :=
  match slotOf s fun i => slotMoves s i && slotWaits s.ctx.m.slots[i] with
  | none => .next s
  | some i =>
    let c := s.ctx.m.slots[i]
    let va := c.waitA.toNat
    if va < 2 ^ 56 && va % 8 ≠ 0 then .next (slotFault s i .misaligned va false false)
    else .next ((engineRead s i .sync va 8).run i fun s (bs, _) =>
      let s := (dropAnswers s i).modM fun m => { m with taint := true }
      if leNat bs < c.waitV.toNat then s else setSlot s i { c with waited := true, asked := [] })

/-- COPY_FAULT (R155, R241): a fault found in flight is raised at the A-slice's instruction boundary. -/
def execCopyFault (s : State) : Out :=
  if !s.live || s.ctx.phase != .running || s.ctx.a.stop.isSome then .next s else
  match slotOf s fun i => s.ctx.m.slots[i].cause.isSome with
  | none => .next s
  | some i =>
    let c := s.ctx.m.slots[i]
    match c.cause with
    | none => .next s
    | some e => .next (raise
        { cause := .copyFault, sub := BitVec.ofNat 8 (causeCode e), info := BitVec.ofNat 64 (i.val + c.resume % 2 ^ 24 * 2 ^ 32)
          faddr := c.faddr, write := c.fwrite }
        ({ setSlot s i { c with cause := none } with slice := .a }))

/-! Waits for the task's own copies (R140). -/

/-- A copy, or a chain that has been kicked, is in flight. -/
def copying (c : Slot) : Bool := c.state == .active || c.state == .faulted

def ownCopies (m : MemSide) : Bool := m.slots.toList.any copying

/-- A copy that may yet write memory in a range, given by its local address (R278); a kicked chain's later entries may. -/
def copiesInto (s : State) (va len : Nat) : Bool :=
  s.ctx.m.slots.toList.any fun c => copying c && (c.chain ||
    (toMem c.kind && (memRanges c.kind c.gd c.ga c.gb).any fun r =>
      let a := canonVa s s.ctx.vd r.1.toNat
      a < va + len && va < a + r.2))

/-- Runs an instruction once the task's copies have landed (R140). -/
def afterCopies (s : State) (k : Out) : Out := if ownCopies s.ctx.m then .next (blockA s .ownCopies) else k

/-- Performs held stores of the task at their homes (R267). -/
def releaseWhere (s : State) (p : HeldStore → Bool) : State :=
  let mine := s.ctx.m.held.filter p
  if mine.isEmpty then s else
  let (t, n) := applyHeld s s.ctx.vd (asker s) tagRel mine
  t.modM fun m =>
    let m := mine.foldl (fun m h => pastStore m h.order h.cells) { m with held := m.held.filter fun h => !p h }
    { m with asks := m.asks + n }

/-- Runs an instruction once the task's bound stores stand at their homes. -/
def afterBound (s : State) (k : State → Out) : Out :=
  let t := releaseWhere s fun _ => true
  if t.ctx.m.asks ≠ 0 then .next (blockA t .relBound) else k t

/-- Runs an instruction once every earlier access of the task has been performed, unbound SHRD stores apart: its copies have landed, and
its bound stores stand at their homes (R162, R262, R275, R276). -/
def afterEarlier (s : State) (k : State → Out) : Out :=
  afterCopies s (afterBound s k)

end Sys2Proof.Machine
end

