-- ==== Sys2Proof/Machine/LoadStore.lean ====
section
/-!
DEFINITION. Loads, stores and queue transfers (R135 to R144).
-/

namespace Sys2Proof.Machine

/-- Runs an access of a kind that DEV pages take, one of a DEV page after the task's earlier accesses, wherever the page lies (R276). -/
def inOrder (addr : Word) (n : Nat) (k : AKind) (s : State) (go : State → Out) : Out :=
  match farDev s addr n k with
  | .other => if (devPlace s addr n k).isSome then afterEarlier s go else go s
  | .ask h => .next (askPage s h addr n)
  | .dev => afterEarlier s go

/-- A scalar load of `n` bytes by an instruction of `len` bytes: sign- or zero-extended (R141); from a DEV page it reads a register. -/
def scalarLoad (gd ga : Reg) (off : Word) (k : AKind) (n len : Nat) (signed : Bool) (s : State) : Out :=
  checked s (some .a) [.g gd, .g ga]
    (let addr := effAddr s ga off
     inOrder addr n k s fun s => match devPlace s addr n k with
     | some pa => match devRead s pa n with
       | some v => .next (finish (aWrite s gd v) len)
       | none => .fault .devWindow
     | none => (loadMem s k addr n n).run fun t bs =>
         let v := leNat bs
         .next (finish (aWrite (forget t tagB) gd (if signed then BitVec.ofInt 64 (sext (8 * n) v) else BitVec.ofNat 64 v)) len))

/-- A scalar store of the low `n` bytes (R141). -/
def scalarStore (gb ga : Reg) (off : Word) (k : AKind) (n len : Nat) (s : State) : Out :=
  checked s (some .a) [.g gb, .g ga]
    (let addr := effAddr s ga off
     let v := gRead s gb
     inOrder addr n k s fun s => match devPlace s addr n k with
     | some pa => match devWrite s pa n v with
       | some t => .next (finish t len)
       | none => .fault .devWindow
     | none => (storeMem s k addr n ((leBytes n v.toNat).map fun b => (b, true))).run fun t _ => .next (finish (forget t tagB) len))

/-- A load into an A-to-C queue: the entry is reserved, then the bytes are read; a fault leaves a poison entry (R142, R143). -/
def queueLoad (q : Fin 5) (ga : Reg) (off : Word) (align n len : Nat) (s : State) : Out :=
  checked s (some .a) [.g ga]
    (match pushBlock s q with
     | some b => .next (blockA s b)
     | none => (loadMem s .load (effAddr s ga off) align n fun s => pushToC s q 0 true false).run fun t bs =>
         .next (finish (pushToC t q (BitVec.ofNat 4096 (leNat bs)) false false) len))

/-- vst: the entry at the head of sq is popped once its active bytes are written (R144). -/
def queueStore (q : Fin 2) (ga : Reg) (off : Word) (len : Nat) (s : State) : Out :=
  checked s (some .a) [.g ga]
    (match headSq s q with
     | none => .next (blockA s (.popSq q))
     | some e =>
       (storeMem s .store (effAddr s ga off) 1 ((vecBytes e.data).mapIdx fun i b => (b, e.mask.getLsbD i))).run fun t _ =>
         .next (finish (popSq t q) len))

/-- stx (R144). -/
def queueStoreX (ga : Reg) (off : Word) (len : Nat) (s : State) : Out :=
  checked s (some .a) [.g ga]
    (match headYq s with
     | none => .next (blockA s .popYq)
     | some e =>
       (storeMem s .store (effAddr s ga off) 8 ((leBytes 8 e.val.toNat).map fun b => (b, true))).run fun t _ =>
         .next (finish (popYq t) len))

/-- Offsets of 12 and 32 bits (R82, R135). -/
def off12 (o : BitVec 12) : Word := o.signExtend 64
def off32 (o : BitVec 32) : Word := o.signExtend 64

/-- ld.b (R141). -/
def execLdB (gd ga : Reg) (off : BitVec 12) (s : State) : Out := scalarLoad gd ga (off12 off) .load 1 4 true s

/-- ld.h (R141). -/
def execLdH (gd ga : Reg) (off : BitVec 12) (s : State) : Out := scalarLoad gd ga (off12 off) .load 2 4 true s

/-- ld.w (R141). -/
def execLdW (gd ga : Reg) (off : BitVec 12) (s : State) : Out := scalarLoad gd ga (off12 off) .devLoad 4 4 true s

/-- ld.d (R141). -/
def execLdD (gd ga : Reg) (off : BitVec 12) (s : State) : Out := scalarLoad gd ga (off12 off) .devLoad 8 4 true s

/-- ld.bn (R141). -/
def execLdBn (gd ga : Reg) (off : BitVec 12) (s : State) : Out := scalarLoad gd ga (off12 off) .load 1 4 false s

/-- ld.hn (R141). -/
def execLdHn (gd ga : Reg) (off : BitVec 12) (s : State) : Out := scalarLoad gd ga (off12 off) .load 2 4 false s

/-- ld.wn (R141). -/
def execLdWn (gd ga : Reg) (off : BitVec 12) (s : State) : Out := scalarLoad gd ga (off12 off) .load 4 4 false s

/-- st.b (R141). -/
def execStB (gb ga : Reg) (off : BitVec 12) (s : State) : Out := scalarStore gb ga (off12 off) .store 1 4 s

/-- st.h (R141). -/
def execStH (gb ga : Reg) (off : BitVec 12) (s : State) : Out := scalarStore gb ga (off12 off) .store 2 4 s

/-- st.w (R141). -/
def execStW (gb ga : Reg) (off : BitVec 12) (s : State) : Out := scalarStore gb ga (off12 off) .devStore 4 4 s

/-- st.d (R141). -/
def execStD (gb ga : Reg) (off : BitVec 12) (s : State) : Out := scalarStore gb ga (off12 off) .devStore 8 4 s

/-- vld (R142, R143). -/
def execVld (n : Fin 4) (ga : Reg) (off : BitVec 12) (s : State) : Out := queueLoad (n.castLE (by decide)) ga (off12 off) 1 512 4 s

/-- ldx (R142, R143). -/
def execLdx (ga : Reg) (off : BitVec 12) (s : State) : Out := queueLoad 4 ga (off12 off) 8 8 4 s

/-- vst (R144). -/
def execVst (n : Fin 2) (ga : Reg) (off : BitVec 12) (s : State) : Out := queueStore n ga (off12 off) 4 s

/-- stx (R144). -/
def execStx (ga : Reg) (off : BitVec 12) (s : State) : Out := queueStoreX ga (off12 off) 4 s

/-- ld.b with an extension word (R141). -/
def execLdBExt (gd ga : Reg) (off : BitVec 32) (s : State) : Out := scalarLoad gd ga (off32 off) .load 1 8 true s

/-- ld.h with an extension word (R141). -/
def execLdHExt (gd ga : Reg) (off : BitVec 32) (s : State) : Out := scalarLoad gd ga (off32 off) .load 2 8 true s

/-- ld.w with an extension word (R141). -/
def execLdWExt (gd ga : Reg) (off : BitVec 32) (s : State) : Out := scalarLoad gd ga (off32 off) .devLoad 4 8 true s

/-- ld.d with an extension word (R141). -/
def execLdDExt (gd ga : Reg) (off : BitVec 32) (s : State) : Out := scalarLoad gd ga (off32 off) .devLoad 8 8 true s

/-- ld.bn with an extension word (R141). -/
def execLdBnExt (gd ga : Reg) (off : BitVec 32) (s : State) : Out := scalarLoad gd ga (off32 off) .load 1 8 false s

/-- ld.hn with an extension word (R141). -/
def execLdHnExt (gd ga : Reg) (off : BitVec 32) (s : State) : Out := scalarLoad gd ga (off32 off) .load 2 8 false s

/-- ld.wn with an extension word (R141). -/
def execLdWnExt (gd ga : Reg) (off : BitVec 32) (s : State) : Out := scalarLoad gd ga (off32 off) .load 4 8 false s

/-- st.b with an extension word (R141). -/
def execStBExt (gb ga : Reg) (off : BitVec 32) (s : State) : Out := scalarStore gb ga (off32 off) .store 1 8 s

/-- st.h with an extension word (R141). -/
def execStHExt (gb ga : Reg) (off : BitVec 32) (s : State) : Out := scalarStore gb ga (off32 off) .store 2 8 s

/-- st.w with an extension word (R141). -/
def execStWExt (gb ga : Reg) (off : BitVec 32) (s : State) : Out := scalarStore gb ga (off32 off) .devStore 4 8 s

/-- st.d with an extension word (R141). -/
def execStDExt (gb ga : Reg) (off : BitVec 32) (s : State) : Out := scalarStore gb ga (off32 off) .devStore 8 8 s

/-- vld with an extension word (R142, R143). -/
def execVldExt (n : Fin 4) (ga : Reg) (off : BitVec 32) (s : State) : Out := queueLoad (n.castLE (by decide)) ga (off32 off) 1 512 8 s

/-- ldx with an extension word (R142, R143). -/
def execLdxExt (ga : Reg) (off : BitVec 32) (s : State) : Out := queueLoad 4 ga (off32 off) 8 8 8 s

/-- vst with an extension word (R144). -/
def execVstExt (n : Fin 2) (ga : Reg) (off : BitVec 32) (s : State) : Out := queueStore n ga (off32 off) 8 s

/-- stx with an extension word (R144). -/
def execStxExt (ga : Reg) (off : BitVec 32) (s : State) : Out := queueStoreX ga (off32 off) 8 s

/-- LOAD_DATA_ARRIVAL: the data of the oldest load that awaits it arrives, and its entry becomes poppable (R142, R234): in the context that
moves, or in the one at the inputs, also after it has left the active bank (R235). -/
def execLoadDataArrival (s : State) : Out :=
  match s.input with
  | .task uid => .next (modBank s uid fun x => { x with c := wakenC x.c, q := { x.q with toC := arrive x.q.toC } })
  | _ => .next ((wakeC s).modQ fun q => { q with toC := arrive q.toC })
where
  arrive : List AEntry → List AEntry
    | [] => []
    | e :: l => if e.ready || e.poison then e :: arrive l else { e with ready := true } :: l

end Sys2Proof.Machine
end

