-- ==== Sys2Proof/Machine/TileOps.lean ====
section
/-!
DEFINITION. The tile-handle instructions (R156 to R159, R169, R302, R305, R352, R353, R359).
-/

namespace Sys2Proof.Machine

def setHandle (s : State) (n : Fin 16) (h : Handle) : State := s.modM fun m => { m with handles := m.handles.set n h }

/-- An answer word: 64 bits of an answer's data. -/
def answerWord (a : Answer) (i : Nat) : Nat := leNat ((a.data.drop (8 * i)).take 8)

/-- A request of the A-slice to another home, and what its answer leads to (R289). -/
def askThen (s : State) (home : Nat) (ask : State → State) (k : State → Answer → Out) : Out :=
  match takeAnswer s tagA with
  | (some r, t) => k t r
  | (none, _) =>
    if peerLost s home then .next (blockA s (.tileLostAccess 0))
    else .next (blockA (askOnce s home tagA ask) .remote)

/-- The global address of a version of another home (R278). -/
def globalVa (home va : Nat) : Nat := 2 ^ 55 + home * 2 ^ 44 + va % 2 ^ 44

/-! tacq (R157). -/

/-- A handle takes a version. -/
def takeTile (s : State) (n : Fin 16) (name : Word) (va size : Nat) : State :=
  (setHandle s n ⟨.acquired, name, va, size, false, 0⟩).modM fun m =>
    { m with acquired := if m.acquired.contains name then m.acquired else m.acquired ++ [name] }

/-- A restored durable version whose bytes fail, or whose digest differs, is lost at its first acquire (R309, R310). -/
def firstCheck (s : State) (t : Tile) : State :=
  if !t.check then s
  else if rangeGood s t.vd t.va t.size && (s.rec? t.name).any fun r => r.digest == tileDigest s t.vd t.va t.size
    then s.modTile t.vd t.name fun t => { t with check := false }
  else loseTile s t.vd t.name

/-- tacq of a version of this home. -/
def acquireHere (s : State) (n : Fin 16) (name : Word) : Out :=
  match s.task? s.ctx.uid with
  | none => .next (blockA s (.tileAcquire name))
  | some k =>
    if neverReady s k name then fault .tileLost s
    else if !operandReady s k name then .next (blockA s (.tileAcquire name))
    else match keptAccess s k name <|> s.tile? k.vd name with
      | none => .next (blockA s (.tileAcquire name))
      | some t =>
        let s := if t.stale then s else firstCheck s t
        if !t.stale && !tileReady s k.vd name then .next (blockA s (.tileAcquire name))
        else .next (finish ((takeTile s n name t.va t.size).modExtent k.vd t.va fun t => { t with claims := t.claims + 1 }) 4)

/-- tacq (R157). -/
def execTacq (tn : Fin 16) (ga : Reg) (s : State) : Out :=
  checked s (some .a) [.g ga]
    (let name := gRead s ga
     let acq := s.ctx.m.acquired
     if s.ctx.m.handles[tn].state != .empty then fault .handleState s
     else if !acq.contains name && acq.length ≥ 8 then fault .tileLimit s
     else if tileVd name != s.ctx.vd then fault .tileAccess s
     else match awayHome s name with
       | none => acquireHere s tn name
       | some h => askThen s h (fun s => askTile s h s.ctx.vd (asker s) tagA .acquire name
           [(s.task? s.ctx.uid).elim 0 (·.prio)]) fun t r =>
           if r.status = 2 then fault (causeOf r.cause) t
           else if r.status ≠ 0 then .next (blockA t (.tileAcquire name))
           else .next (finish (takeTile t tn name (globalVa h (answerWord r 0)) (answerWord r 1)) 4))

/-! talloc (R158, R305, R352). -/

/-- A task that runs again: a rebuild, the replacement of an aborted task, or one of a mirrored VD after a mismatch (R256, R352, R361). -/
def runsAgain (s : State) : Bool := (s.task? s.ctx.uid).any fun k => k.rgth || k.rerun

/-- The version that the task has begun to allocate and that its handle does not hold yet (R305). -/
def begunTile (s : State) (name : Word) : Option Tile :=
  s.tiles.find? fun t => t.vd == s.ctx.vd && t.name == name && t.owner == s.ctx.uid && !t.sealed

/-- Allocates a version: a lost one again under its name and home, where its memory was if the size is the same (R352); beside one that still
exists a private shadow; beside FREED memory that is still held, elsewhere (R348); or anew. A durable one finds no space on a part without a reserve (R312). DESIGN CHOICE (log 55): the free blocks
that a vain search has merged (R438) are as before it, since the fault leaves no effect. -/
def allocTile (s : State) (v : Vd) (uid : Nat) (rebuild : Bool) (name : Word) (size : Nat) : Except Cause (State × Tile) :=
  let fresh := fun (s : State) (shadow : Bool) => match placeTile s v name size with
    | (_, none) => .error .tileNospace
    | (s, some va) =>
      let t : Tile := ⟨name, v.num, va, size, false, false, uid, shadow, false, !v.pairs, 0, false⟩
      .ok ({ s with tiles := t :: s.tiles }, t)
  match s.tile? v.num name with
  | some t =>
    if !rebuild then .error .tileAccess
    else if tileDur name && s.pkg.nores then .error .tileNospace
    else if t.sealed && !t.resident then
      if t.size = size then
        let s := if tileDur name then writeSeal s v.num (t.va - 512) ⟨name, 0, size, 1⟩ else s
        let t := { t with sealed := false, owner := uid }
        .ok (s.modTile v.num name fun u => { u with sealed := false, owner := uid }, t)
      else fresh { freeSeal s t with tiles := s.tiles.filter fun u => u != t } false
    else if t.sealed && (s.rec? name).any LinRec.lost then
      fresh { s with tiles := mapIf (fun u => u == t) (fun u => { u with stale := true }) s.tiles } false
    else fresh s true
  | none => if !rebuild && (openRec s name).isSome then .error .tileAccess else fresh s false

/-- The allocation is complete: zero bytes fill the extent, in the task's persist epoch, and the handle holds the version. -/
def allocDone (s : State) (n : Fin 16) (t : Tile) : State :=
  let s := zeroFill s s.ctx.uid s.ctx.m.epoch t.vd t.va t.size
  let s := s.modTask s.ctx.uid fun k => { k with alloced := t.name :: k.alloced }
  (setHandle s n ⟨.allocated, t.name, t.va, t.size, t.shadow, 0⟩).modM fun m => { m with named := t.name :: m.named }

/-- talloc waits until the seal entry of a durable allocation has been accepted (R305). -/
def allocWait (s : State) (n : Fin 16) (t : Tile) : Out :=
  if tileDur t.name && rangePending s t.vd (t.va - 512) 512 then .next (blockA s .tallocSeal) else .next (finish (allocDone s n t) 4)

/-- talloc (R158). -/
def execTalloc (tn : Fin 16) (ga gb : Reg) (s : State) : Out :=
  checked s (some .a) [.g ga, .g gb]
    (let name := gRead s ga
     let size := (gRead s gb).toNat
     let outs := (s.task? s.ctx.uid).elim [] fun k => outputs k.desc
     if s.ctx.m.handles[tn].state != .empty then fault .handleState s
     else if !outs.contains name || s.ctx.m.named.contains name then fault .tileAccess s
     else if !tileSizeOk size then fault .tileSize s
     else match s.vd? s.ctx.vd with
       | none => fault .tileNospace s
       | some v => if s.pkg.phase == .reduced then fault .tileNospace s else match awayHome s name with
         | none => match begunTile s name with
           | some t => allocWait s tn t
           | none => match allocTile s v s.ctx.uid (runsAgain s) name size with
             | .error c => fault c s
             | .ok (s, t) => allocWait s tn t
         | some h =>
           if !v.peers.contains h then fault .tileNospace s else
           askThen s h (fun s => askTile s h v.num (asker s) tagA .alloc name
               [size, b2n (runsAgain s), s.ctx.m.epoch, b2n (durWhen s s.ctx.m.epoch).hold]) fun t r =>
             if r.status ≠ 0 then fault (causeOf r.cause) t
             else
               let t := if tileDur name then noteAway t h t.ctx.m.epoch else t
               let t := t.modTask t.ctx.uid fun k => { k with alloced := name :: k.alloced }
               .next (finish ((setHandle t tn ⟨.allocated, name, globalVa h (answerWord r 0), size, answerWord r 1 = 1, 0⟩).modM fun m =>
                 { m with named := name :: m.named }) 4))

/-! tseal and pseal (R159, R169, R352, R353). -/

/-- What the task gives to the lineage record of a version that it seals (R342, R345). -/
def taskSealing (s : State) (name : Word) (durs : Bool) (ds : List (Option Nat)) : Sealing :=
  match s.task? s.ctx.uid with
  | none => { taint := s.ctx.m.taint, durs := durs, acq := s.ctx.m.acquired, depths := ds }
  | some k =>
    { taint := s.ctx.m.taint, member := descDval k.desc, durs := durs, kcopy := k.kcopy, ord := (outputs k.desc).idxOf name
      tqidx := k.qidx, tpseq := k.pseq, acq := s.ctx.m.acquired, depths := ds }

/-- The acquired versions of other homes, with their tags. -/
def awayAcq (s : State) : List (Nat × Nat × Word) :=
  (s.ctx.m.acquired.mapIdx fun i n => (i, n)).filterMap fun p => (awayHome s p.2).map fun h => (h, tagDepth p.1, p.2)

/-- The depths of the acquired versions: those of other homes are asked first (R345). -/
def withDepths (s : State) (k : State → List (Option Nat) → Out) : Out :=
  let away := awayAcq s
  let got := answerOf s
  if away.all fun p => peerLost s p.1 || (got p.2.1).isSome then
    let ds := (s.ctx.m.acquired.mapIdx fun i n => (i, n)).map fun p => match awayHome s p.2 with
      | none => (openRec s p.2).map LinRec.depth
      | some _ => (got (tagDepth p.1)).bind fun r => if r.status = 0 && answerWord r 0 = 1 then some (answerWord r 1) else none
    k (s.modM fun m => { m with answers := m.answers.filter fun r => !(away.any fun p => p.2.1 == r.tag) }) ds
  else .next (blockA (away.foldl (fun s p => askOnce s p.1 p.2.1 fun s => askTile s p.1 s.ctx.vd (asker s) p.2.1 .depth p.2.2 []) s) .remote)

/-- The record of a seal at this home: a rebuild leaves the one that there is (R352). -/
def sealRecord (s : State) (v : Vd) (n : Fin 16) (w : Sealing) : State :=
  let h := s.ctx.m.handles[n]
  if h.shadow || (s.rec? h.name).isSome || s.ctx.rebuild then s else
  match s.tile? v.num h.name with
  | none => s
  | some t => writeRec s v t (tileDigest s v.num h.va h.size) w

/-- A private shadow is compared and discarded (R352): a digest that differs is reported, and the version stands (R353). -/
def shadowDone (s : State) (vd owner : Nat) (name : Word) (dg : Word) (bad : Bool) : State :=
  let s := match s.rec? name with
    | some r => if dg == r.digest && !bad then s else logMgmt s 5 7 vd [name.toNat, r.digest.toNat, dg.toNat]
    | none => s
  match s.tiles.find? fun t => t.vd == vd && t.name == name && t.shadow && t.owner == owner with
  | some t => releaseTile s t
  | none => s

/-- The seal itself, once both copies of the record are written; in a rebuild the comparison of the digest. -/
def sealEnd (s : State) (v : Vd) (n : Fin 16) : State :=
  let h := s.ctx.m.handles[n]
  let dg := tileDigest s v.num h.va h.size
  let bad := s.ctx.rebuild && s.ctx.m.taint
  let s := setHandle s n { h with state := .sealed, step := 0 }
  if h.shadow then shadowDone s v.num s.ctx.uid h.name dg bad
  else
    let s := s.modTile v.num h.name fun t => { t with claims := t.claims + 1 }
    let s := s.modTask s.ctx.uid fun k => { k with sealed := h.name :: k.sealed }
    match s.rec? h.name with
    | some r => if runsAgain s then reseal s v r dg bad else setSealed s v h.name
    | none => setSealed s v h.name

/-- A seal at this home: the record, then the seal. -/
def sealHere (s : State) (v : Vd) (n : Fin 16) (w : Sealing) : Out :=
  let h := s.ctx.m.handles[n]
  let t := if h.step = 3 then s else setHandle (sealRecord s v n w) n { h with step := 3 }
  if copiesWait t h.name then .next (blockA t .sealCopies) else .next (finish (sealEnd t v n) 4)

/-- The seal at another home: it computes the digest and writes the record there, with the producer's kept copy (R344). -/
def sealAway (s : State) (home : Nat) (n : Fin 16) (w : Sealing) : Out :=
  let h := s.ctx.m.handles[n]
  askThen s home (fun s => askTile s home s.ctx.vd (asker s) tagA .seal h.name
      ([b2n w.taint, b2n w.member, b2n w.durs, b2n (runsAgain s), b2n h.shadow, w.kcopy, w.ord, w.tqidx, w.tpseq, w.acq.length] ++
        w.acq.map (·.toNat) ++ w.depths.map fun d => d.elim 0 (· + 1)) (memGetN s.mem w.kcopy 256)) fun t r =>
    if r.status = 2 then fault (causeOf r.cause) t
    else .next (finish ((setHandle t n { h with state := .sealed }).modTask t.ctx.uid fun k => { k with sealed := h.name :: k.sealed }) 4)

/-- Runs a seal: the depths, then the home of the version. -/
def sealThen (s : State) (n : Fin 16) (durs : Bool) (here : State → Vd → Sealing → Out) : Out :=
  let h := s.ctx.m.handles[n]
  match s.vd? s.ctx.vd with
  | none => .next s
  | some v =>
    if h.step = 3 then here s v {}
    else if s.ctx.m.answers.any fun r => r.tag == tagA then
      -- The seal itself has been asked of another home.
      match awayHome s h.name with
      | some home => sealAway s home n (taskSealing s h.name durs [])
      | none => here s v (taskSealing s h.name durs (acqDepths s s.ctx.m.acquired))
    else withDepths s fun s ds => match awayHome s h.name with
      | none => here s v (taskSealing s h.name durs ds)
      | some home => sealAway s home n (taskSealing s h.name durs ds)

/-- tseal (R159). -/
def execTseal (tn : Fin 16) (s : State) : Out :=
  checked s (some .a) []
    (let h := s.ctx.m.handles[tn]
     if h.state != .allocated then fault .handleState s
     else if copiesInto s h.va h.size then .next (blockA s .ownCopies)
     else sealThen s tn false fun s v w => sealHere s v tn w)

/-- The steps of pseal at this home: the extent, the record, the seal entry, each accepted before the next (R169, R305). -/
def psealHere (s : State) (v : Vd) (n : Fin 16) (w : Sealing) : Out :=
  let h := s.ctx.m.handles[n]
  let hdr := h.va - 512
  let next := fun (s : State) (k : Nat) => .next (blockA (setHandle s n { h with step := k }) .psealStep)
  if h.shadow || h.step = 3 then sealHere s v n w
  else if h.step = 0 then
    if rangePending s v.num h.va h.size then .next (blockA s .psealStep) else
    let r := match s.rec? h.name with
      | some r => if runsAgain s then r else sealedRec v h.name h.size (tileDigest s v.num h.va h.size) w
      | none => sealedRec v h.name h.size (tileDigest s v.num h.va h.size) w
    next (ordWrite s v.num hdr (lrecBytes r)) 1
  else if rangePending s v.num hdr 512 then .next (blockA s .psealStep)
  else if h.step = 1 then next (writeSeal s v.num hdr ⟨h.name, tileDigest s v.num h.va h.size, h.size, 2⟩) 2
  else sealHere s v n w

/-- pseal (R169). -/
def execPseal (tn : Fin 16) (s : State) : Out :=
  checked s (some .a) []
    (let h := s.ctx.m.handles[tn]
     if h.state != .allocated then fault .handleState s
     else if !tileDur h.name then fault .psealType s
     else if copiesInto s h.va h.size then .next (blockA s .ownCopies)
     else sealThen s tn true fun s v w => psealHere s v tn w)

/-! trel and taddr (R159). -/

/-- A claim on a version ends. -/
def unclaim (s : State) (h : Handle) : State :=
  if h.shadow then match s.tiles.find? fun t => t.vd == s.ctx.vd && t.name == h.name && t.shadow && t.owner == s.ctx.uid with
    | some t => releaseTile s t
    | none => s
  else match awayHome s h.name with
    | some home => askTile s home s.ctx.vd s.ctx.uid 0 .release h.name [h.va % 2 ^ 44]
    | none => releaseAll (s.modExtent s.ctx.vd h.va fun t => { t with claims := t.claims - 1 })

/-- trel (R159). -/
def execTrel (tn : Fin 16) (s : State) : Out :=
  checked s (some .a) []
    (let h := s.ctx.m.handles[tn]
     if h.state != .acquired && h.state != .sealed then fault .handleState s
     else .next (finish (setHandle (unclaim s h) tn Handle.free) 4))

/-- taddr (R159). -/
def execTaddr (gd : Reg) (tn : Fin 16) (s : State) : Out :=
  checked s (some .a) [.g gd]
    (let h := s.ctx.m.handles[tn]
     if h.state == .empty then fault .handleState s
     else .next (finish (aWrite s gd (BitVec.ofNat 64 h.va)) 4))

end Sys2Proof.Machine
end

