-- ==== Sys2Proof/Machine/SyncOps.lean ====
section
/-!
DEFINITION. Atomics, sync objects, fences, barriers, persistence and the task instructions of the A-slice (R160 to R168, R170 to R172).
-/

namespace Sys2Proof.Machine

/-! Atomics (R163 to R165, R352). -/

/-- Whether the program sees the result of an `amo` (R164). -/
def amoUsed (op : AmoOp) (gd : Reg) : Bool := gd != 0 || op == .cas

/-- The end of an `amo`: gd, and the taint of a result that is used. -/
def amoEnd (s : State) (op : AmoOp) (gd : Reg) (t : AmoType) (old : Nat) : Out :=
  let s := if amoUsed op gd then s.modM fun m => { m with taint := true } else s
  .next (finish (aWrite s gd (amoExtend t old)) 4)

/-- amo (R163, R164, R435). -/
def amoOp (op : AmoOp) (gd ga gb : Reg) (t : AmoType) (s : State) : Out :=
  checked s (some .a) [.g gd, .g ga, .g gb]
    (let addr := gRead s ga
     let va := addr.toNat
     let n := amoWidth t / 8
     let used := amoUsed op gd
     if s.ctx.det && used then .next (raise { cause := .detViolation, sub := 1 } s)
     else match checkAccess s .amo addr n [(va, n)] with
       | .flt c a => .next (accFault s c a true)
       | .held f a => .next (heldA s f a false true)
       | .lostTile a => .next (tileErr s a true)
       | .memErr a => .next (accFault s .memUncorrectable a true)
       | .ok [(p, _)] =>
         if s.ctx.rebuild && gd == 0 then amoEnd s op gd t 0
         else
           let (s, old) := amoAt s p.pa op t (gRead s gb) (gRead s gd)
           amoEnd (s.modM fun m => stampCells m s.ctx.a.order (cellsAt p.pa (List.replicate n 0))) op gd t old
       | .ok _ => .next s
       | .remote h => match takeAnswer s tagA with
         | (none, _) =>
           let r := askRights s.ctx.sup (s.ctx.rebuild && gd == 0)
           .next (askHome s h va n tagA true fun s => askAmo s h s.ctx.vd (asker s) tagA va r false op t (gRead s gb) (gRead s gd))
         | (some r, u) => match homeFault u r va true with
           | some u => .next u
           | none => amoEnd u op gd t (leNat ((reply r).data.take n)))

/-- A deferred update stands in the task's log at the place of its instruction (R165, R270). -/
def logUpdate (s : State) (pa : Nat) (op : AmoOp) (t : AmoType) (b : Word) : State :=
  let o := s.ctx.a.order
  s.modM fun m => { m with log := insLog o 0 (.update o pa op t b) m.log }

/-- damo (R165). -/
def damoOp (op : AmoOp) (ga gb : Reg) (t : AmoType) (s : State) : Out :=
  checked s (some .a) [.g ga, .g gb]
    (let addr := gRead s ga
     let va := addr.toNat
     let n := amoWidth t / 8
     let b := gRead s gb
     match checkAccess s .damo addr n [(va, n)] with
     | .flt c a => .next (accFault s c a true)
     | .held f a => .next (heldA s f a false true)
     | .lostTile a => .next (tileErr s a true)
     | .memErr a => .next (accFault s .memUncorrectable a true)
     | .ok [(p, _)] => if logStuck s then .next (accFault s .pageFault va true) else .next (finish (logUpdate s p.pa op t b) 4)
     | .ok _ => .next s
     | .remote h => match takeAnswer s tagA with
       | (none, _) =>
         .next (askHome s h va n tagA true fun s => askAmo s h s.ctx.vd (asker s) tagA va (askRights s.ctx.sup false) true op t b 0)
       | (some r, u) => match homeFault u r va true with
         | some u => .next u
         | none => if logStuck u then .next (accFault u .pageFault va true)
             else .next (finish (logUpdate u (globalKey h (((reply r).pages.head?).elim 0 RPage.pa)) op t b) 4))

/-- amo.add (R163). -/
def execAmoAdd (gd ga gb : Reg) (t : AmoType) (s : State) : Out := amoOp .add gd ga gb t s

/-- amo.min (R163). -/
def execAmoMin (gd ga gb : Reg) (t : AmoType) (s : State) : Out := amoOp .min gd ga gb t s

/-- amo.max (R163). -/
def execAmoMax (gd ga gb : Reg) (t : AmoType) (s : State) : Out := amoOp .max gd ga gb t s

/-- amo.or (R163). -/
def execAmoOr (gd ga gb : Reg) (t : AmoType) (s : State) : Out := amoOp .or gd ga gb t s

/-- amo.and (R163). -/
def execAmoAnd (gd ga gb : Reg) (t : AmoType) (s : State) : Out := amoOp .and gd ga gb t s

/-- amo.xor (R163). -/
def execAmoXor (gd ga gb : Reg) (t : AmoType) (s : State) : Out := amoOp .xor gd ga gb t s

/-- amo.swap (R163). -/
def execAmoSwap (gd ga gb : Reg) (t : AmoType) (s : State) : Out := amoOp .swap gd ga gb t s

/-- amo.cas (R163). -/
def execAmoCas (gd ga gb : Reg) (t : AmoType) (s : State) : Out := amoOp .cas gd ga gb t s

/-- damo.add (R165). -/
def execDamoAdd (ga gb : Reg) (t : AmoType) (s : State) : Out := damoOp .add ga gb t s

/-- damo.min (R165). -/
def execDamoMin (ga gb : Reg) (t : AmoType) (s : State) : Out := damoOp .min ga gb t s

/-- damo.max (R165). -/
def execDamoMax (ga gb : Reg) (t : AmoType) (s : State) : Out := damoOp .max ga gb t s

/-- damo.or (R165). -/
def execDamoOr (ga gb : Reg) (t : AmoType) (s : State) : Out := damoOp .or ga gb t s

/-! What a range of pages is (R160, R161, R168). -/

/-- A range whose pages must all have one type: its places, or why not, in the order of R435. -/
def typedPages (s : State) (want : MemType) (va len : Nat) : Except Check (List (Place × Nat)) :=
  typedAt s s.ctx.vd s.ctx.sup want (pieces va len)

/-- The check of a range by its type, local or at its home. -/
def typedRange (s : State) (want : MemType) (addr : Word) (align len tag rights : Nat) (nonzero : Bool) (k : State → List (Place × Nat) → Out) : Out :=
  let va := addr.toNat
  if va ≥ 2 ^ 56 || va + len > 2 ^ 56 || homeBad s s.ctx.vd va then .next (accFault s .address va false)
  else if (nonzero && (va = 0 || len = 0)) || va % align ≠ 0 || len % align ≠ 0 then .next (accFault s .misaligned va false)
  else match typedPages s want va len with
    | .ok ps => k s ps
    | .error (.flt c a) => .next (accFault s c a false)
    | .error (.held f a) => .next (heldA s f a false false)
    | .error (.remote h) => match takeAnswer s tag with
      | (none, _) => .next (askHome s h va 0 tag false fun s =>
          askLoad s h s.ctx.vd (asker s) tag [(va, len)] (rights + rightOnly want + askRights s.ctx.sup s.ctx.rebuild)
            (w := durWhen s s.ctx.m.epoch))
      | (some r, t) => match homeFault t r va false with
        | some t => .next t
        | none => k (if rights == rightProbe then t else noteAway t h t.ctx.m.epoch) []
    | .error _ => .next s

/-- bind (R160). A bound region is removed whole where the new one meets it. -/
def execBind (gd ga gb : Reg) (s : State) : Out :=
  checked s (some .a) [.g gd, .g ga, .g gb]
    (let b := gRead s gb
     let base := canonVa s s.ctx.vd (gRead s ga).toNat
     let left := s.ctx.m.bindings.filter fun x => !(x.base < base + b.toNat && base < x.base + x.len)
     if left.length ≥ 16 then fault .bindLimit s
     else typedRange s .shrd (gRead s ga) 64 b.toNat tagA rightProbe true fun s _ =>
       typedRange s .sync (gRead s gd) 8 8 tagB rightProbe false fun s _ =>
         .next (finish (s.modM fun m => { m with bindings := left ++ [⟨base, b.toNat, canonVa s s.ctx.vd (gRead s gd).toNat⟩] }) 4))

/-- A non-SYNC object raises ACCESS (R161). -/
def objectFault (s : State) (c : Cause) (va : Nat) (write : Bool) : Out :=
  .next (accFault s (if c == .atomicType || c == .tileAccess then .access else c) va write)

/-- A sync object's page of another type: ACCESS, before anything else that its type could raise (R161, R435). -/
def objectWrong (s : State) (va : Nat) : Bool :=
  va + 8 ≤ 2 ^ 56 && !homeBad s s.ctx.vd va && va % 8 == 0 && (wrongType s .sync va 8).isSome

/-- acq (R161, R268, R277): nothing stands in a read cache, so it acquires by its taint alone. -/
def execAcq (ga : Reg) (s : State) : Out :=
  checked s (some .a) [.g ga]
    (let addr := gRead s ga
     let va := addr.toNat
     if objectWrong s va then .next (accFault s .access va false) else
     match checkAccess s .load addr 8 [(va, 8)] with
     | .flt c a => objectFault s c a false
     | .held f a => .next (heldA s f a false false)
     | .lostTile a => .next (accFault s .access a false)
     | .memErr a => .next (accFault s .memUncorrectable a false)
     | .ok ps => .next (finish (taintBy s ps) 4)
     | .remote h => match takeAnswer s tagA with
       | (none, _) => .next (askHome s h va 8 tagA false fun s =>
           askRead s h tagA [(va, 8)] (rightsOf s + rightOnly .sync))
       | (some r, t) => match homeFault t r va false with
         | some t => .next t
         | none => .next (finish (taintPages t (reply r).pages) 4))

/-- The addresses of a range, one in each 64-byte unit: a binding is made of whole units (R160). -/
def unitVas (va len : Nat) : List Nat :=
  va :: ((List.range (len / 64 + 1)).map fun i => (va / 64 + 1 + i) * 64).filter fun a => a < va + len

/-- Whether a copy may still store bytes bound to an object (R267): a copy to memory by the places of its bytes, those at another home in any
case, whose pages only that home knows; a kicked chain if its task or its VD binds anything to the object. -/
def copyBound (s : State) (obj : Nat) (c : Slot) : Bool :=
  let t := s.modM fun m => { m with bindings := c.binds }
  copying c && if c.chain then
      c.binds.any (fun b => b.obj == obj) || (s.vd? s.ctx.vd).any fun v => v.sot.any fun o => o != 0 && canonVa s s.ctx.vd o == obj
    else toMem c.kind && (memRanges c.kind c.gd c.ga c.gb).any fun r =>
      (pieces r.1.toNat r.2).any fun p => match translate s s.ctx.vd p.1 .load true with
        | .ok q => q.mt == .shrd && (unitVas p.1 p.2).any fun a => boundTo t q a == some obj
        | .error (.remote _) => true
        | .error _ => false

/-- Performs what is held for an object (R267). -/
def releaseBound (s : State) (obj : Nat) : State := releaseWhere s fun h => h.obj == obj

/-- rel (R161, R267, R352). -/
def execRel (ga : Reg) (s : State) : Out :=
  checked s (some .a) [.g ga]
    (let addr := gRead s ga
     let va := addr.toNat
     let obj := canonVa s s.ctx.vd va
     let release := fun (k : State → Out) =>
       if s.ctx.rebuild then .next (finish s 4)
       else if s.ctx.m.slots.toList.any (copyBound s obj) then .next (blockA s .ownCopies)
       else
         let t := releaseBound s obj
         if t.ctx.m.asks ≠ 0 then .next (blockA t .relBound) else k t
     match checkAccess s .amo addr 8 [(va, 8)] with
     | .flt c a => objectFault s c a true
     | .held f a => .next (heldA s f a false true)
     | .lostTile a => .next (accFault s .access a true)
     | .memErr a => .next (accFault s .memUncorrectable a true)
     | .ok ps => release fun s => .next (finish (ps.foldl (fun s p => (amoAt s p.1.pa .add .i64 1 0).1) s) 4)
     | .remote h => match takeAnswer s tagA with
       | (some r, t) => if r.status = 0 then .next (finish t 4) else objectFault t (causeOf r.cause) va true
       | (none, _) => release fun s =>
           .next (askHome s h va 8 tagA true fun s => askAmo s h s.ctx.vd (asker s) tagA va (askRights s.ctx.sup false) false .add .i64 1 0))

/-! Fences and barriers (R162, R166 to R168, R275, R299). Stores are performed as they are made, bound SHRD ones apart: a fence waits for
the copies, and performs what is held. -/

/-- A fence: the task's copies have landed, and its bound stores stand at their homes. -/
def fenceOp (s : State) : Out := checked s (some .a) [] (afterEarlier s fun s => .next (finish s 4))

/-- fence.t (R162). -/
def execFenceT (s : State) : Out := fenceOp s

/-- fence.d (R162). -/
def execFenceD (s : State) : Out := fenceOp s

/-- fence.p (R162). -/
def execFenceP (s : State) : Out := fenceOp s

/-- fence.s (R162). -/
def execFenceS (s : State) : Out := fenceOp s

/-- fence.dur (R162, R299): a new persist epoch. -/
def execFenceDur (s : State) : Out :=
  checked s (some .a) [] (afterEarlier s fun s => .next (finish (s.modM fun m => { m with epoch := m.epoch + 1 }) 4))

/-- pbar (R167, R299). -/
def execPbar (s : State) : Out :=
  checked s (some .a) []
    (afterCopies s
      (if (s.durPend.any fun d => d.uid == s.ctx.uid) || s.durAway.any fun d => d.uid == s.ctx.uid then .next (blockA s .pbar)
       else .next (finish (s.modM fun m => { m with epoch := m.epoch + 1 }) 4)))

/-- The pending durable stores of a run of bytes stand again, unit by unit, in the epoch of the task that flushes (R168). -/
def flushAs (s : State) (uid epoch pa len : Nat) : State :=
  let mine := s.durPend.flatMap fun d => (d.cells.filter fun c => pa ≤ c.1 && c.1 < pa + len).map (·.1)
  let units := (mine.map (· / 64)).eraseDups
  { s with durPend := s.durPend ++ units.map fun u =>
      ⟨uid, epoch, ((mine.filter fun a => a / 64 == u).eraseDups).map fun a => (a, memGet s.mem a)⟩ }

def flushRun (s : State) (pa len : Nat) : State := flushAs s s.ctx.uid s.ctx.m.epoch pa len

/-- pflush (R168). -/
def execPflush (ga gb : Reg) (s : State) : Out :=
  checked s (some .a) [.g ga, .g gb]
    (let b := (gRead s gb).toNat
     if b = 0 then .next (finish s 4)
     else typedRange s .dur (gRead s ga) 1 b tagA (rightProbe + rightFlush) false fun s ps =>
       .next (finish (ps.foldl (fun s p => flushRun s p.1.pa p.2) s) 4))

/-- Changes the member record of a task. -/
def modMember (s : State) (uid : Nat) (f : Member → Member) : State :=
  { s with gangs := s.gangs.map fun g => if g.final then g else { g with members := mapIf (fun m => m.uid == uid) f g.members } }

/-- dbar (R166, R270): the log of the phase is handed over, then the slice waits for its commit. -/
def execDbar (s : State) : Out :=
  checked s (some .a) []
    (let uid := s.ctx.uid
     match gangOf s uid with
     | none => fault .domainNone s
     | some g => match g.members.find? fun m => m.uid == uid with
       | none => fault .domainNone s
       | some m =>
         if m.atBar then
           if g.phase ≥ m.dbars then .next (finish (modMember s uid fun m => { m with atBar := false }) 4) else .next (blockA s .dbar)
         else afterCopies s
           (let log := s.ctx.m.log
            let t := modMember s uid fun m => { m with atBar := true, dbars := m.dbars + 1, log := log }
            let t := t.modM fun m => { m with log := [], held := unholdLogged m, past := [], phase := m.phase + 1 }
            .next (blockA (reportGang t g .arrived m.idx (m.dbars + 1)) .dbar)))

/-! Tasks (R170 to R172). -/

/-- The child of a `spawn` exists: it stands at the tail of the core's deque, a domain member in its gang alone (R170, R331). -/
def bearChild (s : State) (k : Task) (d : Vector Word 16) (params : List Word) : State :=
  let child := s.nextUid
  let s := admitTask s (newTask k.vd k.part (markDesc d true false) params k.qidx k.pseq (some k.uid))
  if descDval d || !(s.task? child).any Task.alive then s
  else s.modCore s.ctx.core fun c => { c with deque := c.deque ++ [child] }

/-- A `spawn` that has taken effect, with a child or without one. -/
def spawnEnd (s : State) : Out :=
  let s := s.modTask s.ctx.uid fun k => { k with spawned := k.spawned + 1 }
  .next (finish (s.modCtx fun x => { x with spawned := x.spawned + 1 }) 4)

/-- The task is suspended at its `spawn` until the page of the overflow area is resident. -/
def spawnHold (s : State) : Out :=
  let s := blockA (s.modM fun m => { m with spawnHeld := true }) .spawnOverflow
  .next (if bound s s.ctx.uid then s else requestSwitch s s.ctx.core)

/-- The descriptor and its parameters have been read: the checks, the place in the deque, and the child. -/
def spawnWith (s : State) (bs ps : List Byte) : Out :=
  let d : Vector Word 16 := Vector.ofFn fun i => BitVec.ofNat 64 (leNat ((bs.drop (8 * i.val)).take 8))
  let params := (List.range (min (descNparam d) 16)).map fun i => BitVec.ofNat 64 (leNat ((ps.drop (8 * i)).take 8))
  match s.task? s.ctx.uid with
  | none => .next s
  | some k =>
    if descInvalid s k.vd k.part d then fault .descInvalid s
    else if k.rebuild || s.ctx.spawned + 1 ≤ k.skipSpawn then spawnEnd s
    else if descDval d || ((s.core? s.ctx.core).elim 0 fun c => c.deque.length) < 64 then spawnEnd (bearChild s k d params)
    else match spillHead s s.ctx.core k with
      | .done t => spawnEnd (bearChild t k d params)
      | .full => fault .overflowFull s
      | .fault (.flt .pageFault _) => spawnHold s
      | .fault (.flt c a) => .next (accFault s c a true)
      | .fault (.s2 f a) => .next (heldA s f a false true)
      | .fault (.remote _) => fault .address s

/-- The reads of a `spawn`, as loads of the task: the descriptor and the parameters. -/
def spawnReads (ga : Reg) (s : State) : Out :=
  let again := s.ctx.m.answers
  (loadMem s .load (gRead s ga) 1 128).run fun t bs =>
    let w1 := leNat ((bs.drop 8).take 8)
    let n := min (bits w1 60 56) 16
    if n = 0 then spawnWith t bs []
    else match loadMem t .load (BitVec.ofNat 64 (bits w1 55 0)) 1 (8 * n) id tagB with
      | .got u ps => spawnWith u bs ps
      | .stop u => .next (if u.ctx.a.block == some .remote then u.modM fun m =>
          { m with answers := m.answers ++ again.filter fun r => r.tag == tagA && r.status != askedMark } else u)

/-- spawn (R170): it first releases every earlier store of the task (R262). -/
def execSpawn (ga : Reg) (s : State) : Out := checked s (some .a) [.g ga] (afterBound s (spawnReads ga))

/-- yield (R171). -/
def execYield (s : State) : Out :=
  checked s (some .a) []
    (afterCopies s
      (if (s.task? s.ctx.uid).any fun k => descDval k.desc then .next (finish s 4)
       else match s.core? s.ctx.core with
         | none => .next (finish s 4)
         | some c =>
           if c.switchTo.isSome || (c.shadow.bind fun u => bankCtx? s u).any awaitsSpill then .next (wakeA s)
           else .next (requestSwitch (blockA (finish s 4) .yieldWait) s.ctx.core)))

/-- xlpf (R172): nothing that the program can read changes; retirement waits for it (R17). -/
def execXlpf (ga gb : Reg) (s : State) : Out :=
  checked s (some .a) [.g ga, .g gb] (.next (finish (s.modM fun m => { m with xlpf := m.xlpf + 1 }) 4))

end Sys2Proof.Machine
end

