-- ==== Sys2Proof/Machine/Commit.lean ====
section
/-!
DEFINITION. Commits and the end of tasks: a phase's commit and the final commit of a domain (R166, R270, R273, R355), retirement (R17,
R271, R352), and the staged commits of mirrored VDs (R360, R361).
-/

namespace Sys2Proof.Machine

/-! A domain's commit. -/

/-- Acts on the gang at a place of the list. -/
def modGangAt (s : State) (i : Nat) (f : Gang → Gang) : State := { s with gangs := s.gangs.modify i f }

/-- Every member, here and on other packages, has ended. -/
def Gang.allEnded (g : Gang) : Bool := g.members.all (·.ended) && g.others.all (·.ended)

/-- Every member that has not ended has reached the barrier of the current phase (R166). -/
def Gang.allAtBar (g : Gang) : Bool :=
  g.state != .forming && g.state != .waiting && !g.final && !g.allEnded &&
    (g.members.all fun m => m.ended || (m.atBar && m.dbars == g.phase + 1)) &&
    g.others.all fun m => m.ended || m.dbars ≥ g.phase + 1

/-- A gang whose final commit is due (R166). -/
def Gang.atEnd (g : Gang) : Bool := g.state == .ended && !g.final && g.allEnded

/-- A commit whose members' logs have begun to be applied. -/
def Gang.begun (g : Gang) : Bool := g.turn ≠ 0 || g.acks ≠ 0

/-- Applies the logs of a gang from the member whose turn it is, in ascending member index (R270). It stops at a member of another
package, and where another home has yet to acknowledge a write (R355). Answers whether the last log is applied. -/
def commitGo : Nat → State → Nat → State × Bool
  | 0, s, _ => (s, false)
  | fuel + 1, s, i => match s.gangs[i]? with
    | none => (s, false)
    | some g =>
      if g.acks ≠ 0 then (s, false)
      else if g.turn ≥ g.size then (s, true)
      else match g.members.find? fun m => m.idx == g.turn with
        | some m =>
          let (t, n) := if m.dead then (s, 0) else applyLog s g.vd m.uid tagGang m.log
          let t := modGangAt t i fun g => { g with acks := n, members := mapIf (fun x => x.idx == m.idx) (fun x => { x with log := [] }) g.members }
          if n ≠ 0 then (t, false)
          else commitGo fuel (reportGang (modGangAt t i fun g => { g with turn := g.turn + 1 }) g .turn g.phase (g.turn + 1)) i
        | none =>
          if g.others.any fun m => m.idx == g.turn && !m.dead then (s, false)
          else commitGo fuel (modGangAt s i fun g => { g with turn := g.turn + 1 }) i

def mirrored (s : State) (vd : Nat) : Bool := (s.vd? vd).any Vd.pairs

/-! The checkpoints of a mirrored VD (R360). -/

/-- The members of a gang that run: their contexts are what a checkpoint holds. -/
def gangCtxs (s : State) (g : Gang) : List Context := (g.members.filter fun m => !m.ended).filterMap fun m => s.context? m.uid

/-- Gives `n` slots of a VD's save-area pool, if there are so many. -/
def takeSlots (s : State) (vd : Nat) : Nat → List Nat → Option (State × List Nat)
  | 0, l => some (s, l)
  | n + 1, l => match freeSlot s vd with
    | none => none
    | some k => takeSlots (s.modVd vd fun v => { v with used := k :: v.used }) vd n (l ++ [k])

/-- Where a save-area slot lies. -/
def slotBase (v : Vd) (slot : Nat) : Nat := v.vsave + slot * v.slotpg * 4096

/-- A context written to a checkpoint slot. -/
def writeCheck (s : State) (v : Vd) (x : Context) (slot : Nat) : State :=
  let y := { x with save := some (slotBase v slot) }
  writeBulk (writeSave s y y.record) y

/-- The restart point of a gang moves to its members as they stand; the earlier checkpoint's slots are freed. None while the pool has
too few slots. -/
def checkpoint (s : State) (i : Nat) : Option State :=
  match s.gangs[i]? with
  | none => none
  | some g => match s.vd? g.vd with
    | none => none
    | some v =>
      let xs := gangCtxs s g
      (takeSlots s g.vd xs.length []).map fun r =>
        let t := (xs.zip r.2).foldl (fun t x => writeCheck t v x.1 x.2) r.1
        let t := t.modVd g.vd fun v => { v with used := v.used.filter fun n => !g.chk.contains n }
        modGangAt t i fun g => { g with restart := xs, chk := r.2, rerun := false }

/-- The commit of a gang, or as much of it as can be applied now; the phase, or the gang, is over with it. In a mirrored VD the members'
checkpoints are written before they are released, once the pool has the slots (R360). -/
def commitGang (s : State) (i : Nat) : State :=
  match s.gangs[i]? with
  | none => s
  | some g => match commitGo (g.size + 1) s i with
    | (t, false) => t
    | (t, true) =>
      if g.allEnded then modGangAt t i fun h => { h with final := true }
      else match if mirrored s g.vd then checkpoint t i else some t with
        | none => t
        | some t => modGangAt t i fun h => { h with phase := h.phase + 1, turn := 0 }

/-- The gang that an event concerns: the one at the inputs, else the first that qualifies. -/
def gangPick (s : State) (ok : Gang → Bool) : Option Nat :=
  match s.input with
  | .gang vd level did => s.gangs.findIdx? fun g => g.vd == vd && g.level == level && g.did == did && ok g
  | _ => s.gangs.findIdx? ok

/-- DBAR_COMMIT (R166, R270): once every member has arrived, the phase is committed. -/
def execDbarCommit (s : State) : Out :=
  match gangPick s fun g => g.allAtBar && (!mirrored s g.vd || g.begun) with
  | some i => .next (commitGang s i)
  | none => .next s

/-- FINAL_COMMIT (R166): the last phases of the members that retired. -/
def execFinalCommit (s : State) : Out :=
  match gangPick s fun g => g.atEnd && (!mirrored s g.vd || g.begun) with
  | some i => .next (trim (commitGang s i))
  | none => .next s

/-! Retirement (R17, R271). -/

/-- What is still in flight of a task whose slices are done (R17, condition 3). -/
def inFlight (x : Context) : Bool :=
  ownCopies x.m || x.c.queues.toList.any (fun q => !q.isEmpty) || !x.c.pend.isEmpty || x.m.xlpf ≠ 0 || x.m.spawnHeld

def couplingEmpty (q : Couple) : Bool := q.toC.isEmpty && q.sq.toList.all List.isEmpty && q.yq.isEmpty

/-- The task has retired: its handles, its context and its save area are given back. -/
def retire (s : State) (k : Task) : State :=
  let s := dropHandles s k.uid
  let s := s.modTask k.uid fun k => { k with state := .retired, save := none }
  let s := match k.save with
    | some n => s.modVd k.vd fun v => { v with used := v.used.filter (· != n) }
    | none => s
  trim (noteRelease (unplace (dropContext s k.uid) k.uid) k)

/-- What a task applies at its retirement: its log and what it holds, in the A-slice order; a domain member's log waits for the gang's commit,
and that of a rebuild task is discarded (R17, R267, R271, R352). -/
def finalLog (m : MemSide) (member rebuild : Bool) : List LogEntry :=
  if member || rebuild then logWithHeld { m with log := [] } else logWithHeld m

/-- The commit of another task that is no domain member is not yet acknowledged everywhere: commits are applied one at a time (R271). -/
def commitsBusy (s : State) (k : Task) : Bool := s.tasks.any fun j => j.uid != k.uid && j.acks ≠ 0 && !descDval j.desc

/-- The commit of a task at its retirement, and the retirement once every home has acknowledged it. -/
def retireGo (s : State) (k : Task) : State :=
  let m := s.ctx.m
  let member := (gangOf s k.uid).isSome
  let log := finalLog m member k.rebuild
  if !member && !log.isEmpty && commitsBusy s k then s else
  let (t, n) := applyLog s k.vd k.uid tagTask log
  let t := t.modM fun m => { m with held := [], log := if member then m.log else [] }
  let t := t.modTask k.uid fun k => { k with acks := k.acks + n }
  if k.acks + n ≠ 0 then t
  else retire (if member then memberEnd t k.uid false m.log else t) k

/-- TASK_RETIREMENT (R17): both slices are done. What is left in a queue, or not sealed, ends the task instead. -/
def execTaskRetirement (s : State) : Out :=
  let x := s.ctx
  if !s.live || x.phase != .running || x.sup || !x.a.stopped || !x.c.stopped then .next s
  else if x.m.xlpf ≠ 0 then .next (s.modM fun m => { m with xlpf := 0 })
  else if inFlight x then .next s
  else if !couplingEmpty x.q then .next (raiseWhole { cause := .queueResidue } x.c.pc s)
  else if x.m.handles.toList.any fun h => h.state == .allocated then .next (raiseWhole { cause := .outputUnsealed } x.c.pc s)
  else match s.task? x.uid with
    | none => .next s
    | some k =>
      if mirrored s k.vd && !k.rebuild && !descDval k.desc && !k.agreed then .next s else .next (retireGo s k)

/-! Mirrored VDs (R360, R361). -/

/-- The digest of a staged commit. -/
def commitDigest (head : List Byte) (logs : List (List LogEntry)) : Word := digest (head ++ logs.flatMap fun l => l.flatMap entryBytes)

/-- Logs of a gang in ascending member index, those of failed members apart. -/
def gangLogs (g : Gang) : List (List LogEntry) :=
  (List.range g.size).filterMap fun i => (g.members.find? fun m => m.idx == i && !m.dead).map Member.log

def gangDigest (g : Gang) : Word :=
  commitDigest (leBytes 8 (g.phase + if g.allEnded then 2 ^ 63 else 0)) (gangLogs g)

/-- The digests have diverged twice: every task of the VD halts and its queues freeze (R361). -/
def diverged (s : State) (vd : Nat) : State :=
  let ks := s.tasks.filter fun k => k.vd == vd && k.alive
  let s := ks.foldl (fun s k =>
    let s := (dropHandles s k.uid).modTask k.uid fun k => { k with state := .failed }
    unplace (dropContext (memberEnd s k.uid true []) k.uid) k.uid) s
  let s := (s.queues.filter fun x => x.vd == vd).foldl (fun s x => freezeQueue s vd x.qidx { qcause := 11, pseq := 0, poff := 0 }) s
  s.modVd vd fun v => { v with mdiv := true }

/-- A member starts again from its restart point, the checkpoint's bytes standing in its save area, or from its kept copy (R361). -/
def reload (g : Gang) (s : State) (m : Member) : State :=
  let s := dropContext (if g.phase = 0 then dropHandles s m.uid else s) m.uid
  match g.restart.find? fun x => x.uid == m.uid with
  | some x =>
    let s := match s.vd? g.vd, x.save, g.chk[g.restart.findIdx fun x => x.uid == m.uid]? with
      | some v, some base, some slot => hwWrite s g.vd base (hwRead s g.vd (slotBase v slot) (saveSize x.decl x.det))
      | _, _, _ => s
    ({ s with parked := { x with phase := .saved, onCore := false } :: s.parked }).modTask m.uid fun k =>
      { k with state := .suspended, saved := true, rerun := true }
  | none => s.modTask m.uid fun k => { k with state := .ready, saved := false, rerun := true, skipSpawn := max k.skipSpawn k.spawned, spawned := 0 }

/-- The staged commit of a domain is discarded, and its members run the phase again. -/
def rerunGang (s : State) (i : Nat) : State :=
  match s.gangs[i]? with
  | none => s
  | some g =>
    let back := fun (m : Member) => !m.dead && (!m.ended || m.dbars == g.phase)
    let s := (g.members.filter back).foldl (reload g) s
    modGangAt s i fun g => { g with
      state := .suspended, rerun := true, told := 0
      members := mapIf back (fun m => { m with ended := false, dbars := g.phase, atBar := g.phase ≠ 0, log := [], bank := none }) g.members }

/-- The exchange for a domain's commit. -/
def exchangeGang (s : State) (i : Nat) (other : Word) : State :=
  match s.gangs[i]? with
  | none => s
  | some g =>
    if g.begun then s
    else if gangDigest g == other then
      if g.allEnded then trim (commitGang s i) else commitGang s i
    else if g.rerun then diverged s g.vd
    else rerunGang s i

/-- A task whose retirement commit is staged: it is no domain member, and nothing of it is in flight (R17, R360). -/
def stagedTask (s : State) (k : Task) : Bool :=
  mirrored s k.vd && !k.rebuild && !descDval k.desc && k.alive && !k.agreed && (s.context? k.uid).any fun x =>
    x.phase == .running && !x.sup && x.a.stopped && x.c.stopped && !inFlight x && couplingEmpty x.q &&
      !x.m.handles.toList.any fun h => h.state == .allocated

def taskDigest (k : Task) (x : Context) : Word := commitDigest (k.desc.toList.flatMap fun w => leBytes 8 w.toNat) [x.m.log]

/-- The exchange for the retirement of such a task. -/
def exchangeTask (s : State) (k : Task) (other : Word) : State :=
  let x := s.ctx
  if k.acks ≠ 0 || taskDigest k x == other then
    let k := { k with agreed := true }
    retireGo (s.modTask k.uid fun k => { k with agreed := true }) k
  else if x.m.taint || k.rerun then diverged s k.vd
  else
    let s := dropHandles s k.uid
    let s := match k.save with
      | some n => s.modVd k.vd fun v => { v with used := v.used.filter (· != n) }
      | none => s
    let s := s.modTask k.uid fun k => { k with state := .aborted, save := none, rerun := true }
    match s.task? k.uid with
    | some k => reCreate (unplace (dropContext s k.uid) k.uid) k
    | none => s

def exchangeStaged (s : State) (k : Task) (other : Word) : State :=
  if stagedTask s k then onContext s k.uid fun s => exchangeTask s k other else s

/-- A domain's commit that is staged. -/
def stagedGang (s : State) (g : Gang) : Bool := mirrored s g.vd && (g.allAtBar || g.atEnd) && !g.begun

/-- A staged commit's number among those of its domain: the phase, the final one apart. -/
def gangKey (g : Gang) : Nat := 2 * g.phase + b2n g.allEnded + 1

def gangDesc (k : Task) : List Word := k.desc.toList

/-- The digests of commits that have been staged go to the partner, each once: domains first, then tasks in the order in which they were
staged (R360). -/
def tellGang (s : State) (i : Nat) : State :=
  match s.gangs[i]? with
  | none => s
  | some g => sendPair (modGangAt s i fun g => { g with told := gangKey g }) ((s.vd? g.vd).elim 0 (·.mpeer)) g.vd
      (.domain g.level g.did (gangKey g) (gangDigest g))

def tellTask (s : State) (k : Task) : State :=
  match s.context? k.uid with
  | none => s
  | some x =>
    let n := s.tasks.foldl (fun n j => max n j.told) 0
    sendPair (s.modTask k.uid fun k => { k with told := n + 1 }) ((s.vd? k.vd).elim 0 (·.mpeer)) k.vd (.task (gangDesc k) (taskDigest k x))

/-- Of the tasks with one descriptor whose commits have been told, the one told first (R360). -/
def firstTold (s : State) (vd : Nat) (desc : List Word) : Option Task :=
  (s.tasks.filter fun k => k.vd == vd && k.told ≠ 0 && gangDesc k == desc && stagedTask s k).foldl (fun b k => match b with
    | none => some k
    | some j => if k.told < j.told then some k else b) none

/-- What the partner has said of a commit that is staged here too: its exchange. -/
def pairCommit (s : State) (m : PairMsg) : Option State :=
  let t := { s with pairs := s.pairs.erase m }
  match m.what with
  | .domain level did key d => match s.gangs.findIdx? fun g => g.vd == m.vd && g.level == level && g.did == did && stagedGang s g && gangKey g == key with
    | none => none
    | some i => some (exchangeGang t i d)
  | .task desc d => (firstTold s m.vd desc).map fun k => exchangeStaged t k d
  | _ => none

/-- One step of the exchange of a pair: a digest that is due is sent; or one that has come is used. -/
def exchangeStep (s : State) : State :=
  match s.gangs.findIdx? fun g => stagedGang s g && g.told ≠ gangKey g with
  | some i => tellGang s i
  | none => match s.tasks.find? fun k => k.told == 0 && stagedTask s k with
    | some k => tellTask s k
    | none => (s.pairs.findSome? (pairCommit s)).getD s

/-- Whether such a step is due. -/
def exchangeDue (s : State) : Bool :=
  (s.gangs.any fun g => stagedGang s g && g.told ≠ gangKey g) || (s.tasks.any fun k => k.told == 0 && stagedTask s k) ||
    s.pairs.any fun m => (pairCommit s m).isSome

/-- COMMIT_DIGEST_EXCHANGE (R360, R361): the partner's digest of a staged commit stands at the inputs, or has come in a frame. -/
def execCommitDigestExchange (s : State) : Out :=
  match s.input with
  | .commit vd level did uid other =>
    if !mirrored s vd then .next s
    else if uid ≠ 0 then match s.task? uid with
      | some k => if k.vd ≠ vd then .next s else .next (exchangeStaged s k other)
      | none => .next s
    else match s.gangs.findIdx? fun g => g.vd == vd && g.level == level && g.did == did && (g.allAtBar || g.atEnd) with
      | some i => .next (exchangeGang s i other)
      | none => .next s
  | _ => .next (exchangeStep s)

end Sys2Proof.Machine
end

