-- ==== Sys2Proof/Machine/Control.lean ====
section
/-!
DEFINITION. The control instructions: branches and loops (R123, R124), jumps and calls (R125, R126).
-/

namespace Sys2Proof.Machine

/-- beq (R123). -/
def execBeq (ga gb : Reg) (off : BitVec 12) (s : State) : Out :=
  let a := gRead s ga
  let b := gRead s gb
  branch s ga gb (off.signExtend 64) 4 (a == b)

/-- bne (R123). -/
def execBne (ga gb : Reg) (off : BitVec 12) (s : State) : Out :=
  let a := gRead s ga
  let b := gRead s gb
  branch s ga gb (off.signExtend 64) 4 (a != b)

/-- blt (R123). -/
def execBlt (ga gb : Reg) (off : BitVec 12) (s : State) : Out :=
  let a := gRead s ga
  let b := gRead s gb
  branch s ga gb (off.signExtend 64) 4 (a.slt b)

/-- bge (R123). -/
def execBge (ga gb : Reg) (off : BitVec 12) (s : State) : Out :=
  let a := gRead s ga
  let b := gRead s gb
  branch s ga gb (off.signExtend 64) 4 (!a.slt b)

/-- bltn (R123). -/
def execBltn (ga gb : Reg) (off : BitVec 12) (s : State) : Out :=
  let a := gRead s ga
  let b := gRead s gb
  branch s ga gb (off.signExtend 64) 4 (decide (a < b))

/-- bgen (R123). -/
def execBgen (ga gb : Reg) (off : BitVec 12) (s : State) : Out :=
  let a := gRead s ga
  let b := gRead s gb
  branch s ga gb (off.signExtend 64) 4 (!decide (a < b))

/-- loop (R124). -/
def execLoop (ga : Reg) (off : BitVec 12) (s : State) : Out := loopOp s ga (off.signExtend 64) 4

/-- beq, with an extension word (R123). -/
def execBeqExt (ga gb : Reg) (off : BitVec 32) (s : State) : Out :=
  let a := gRead s ga
  let b := gRead s gb
  branch s ga gb (off.signExtend 64) 8 (a == b)

/-- bne, with an extension word (R123). -/
def execBneExt (ga gb : Reg) (off : BitVec 32) (s : State) : Out :=
  let a := gRead s ga
  let b := gRead s gb
  branch s ga gb (off.signExtend 64) 8 (a != b)

/-- blt, with an extension word (R123). -/
def execBltExt (ga gb : Reg) (off : BitVec 32) (s : State) : Out :=
  let a := gRead s ga
  let b := gRead s gb
  branch s ga gb (off.signExtend 64) 8 (a.slt b)

/-- bge, with an extension word (R123). -/
def execBgeExt (ga gb : Reg) (off : BitVec 32) (s : State) : Out :=
  let a := gRead s ga
  let b := gRead s gb
  branch s ga gb (off.signExtend 64) 8 (!a.slt b)

/-- bltn, with an extension word (R123). -/
def execBltnExt (ga gb : Reg) (off : BitVec 32) (s : State) : Out :=
  let a := gRead s ga
  let b := gRead s gb
  branch s ga gb (off.signExtend 64) 8 (decide (a < b))

/-- bgen, with an extension word (R123). -/
def execBgenExt (ga gb : Reg) (off : BitVec 32) (s : State) : Out :=
  let a := gRead s ga
  let b := gRead s gb
  branch s ga gb (off.signExtend 64) 8 (!decide (a < b))

/-- loop, with an extension word (R124). -/
def execLoopExt (ga : Reg) (off : BitVec 32) (s : State) : Out := loopOp s ga (off.signExtend 64) 8

/-- call (R125): the link is the next instruction; the offset counts from the call itself. -/
def execCall (gd : Reg) (off : BitVec 21) (s : State) : Out :=
  checked s none [.g gd] (.next (callTo s gd (instrPc s + 4 * off.signExtend 64)))

/-- jmp (R125): a call that keeps no link. -/
def execJmp (off : BitVec 21) (s : State) : Out := .next (jumpTo s (instrPc s + 4 * off.signExtend 64))

/-- callr (R125): the target is read before the link is written. -/
def execCallr (gd ga : Reg) (s : State) : Out := checked s none [.g gd, .g ga] (.next (callTo s gd (gRead s ga)))

/-- jr (R125). -/
def execJr (ga : Reg) (s : State) : Out := checked s none [.g ga] (.next (jumpTo s (gRead s ga)))

end Sys2Proof.Machine
end

