-- ==== Sys2Proof/Machine/Fabric.lean ====
section
/-!
DEFINITION. Borrun Transport on this package (R375 to R379, R384, R386): what is dropped, flows, acknowledgements and rates, and the
timers of links and paths.
-/

namespace Sys2Proof.Machine

/-! Arrival (R375 to R377). -/

def modPort (s : State) (n : Nat) (f : Port → Port) : State := { s with ports := s.ports.mapIdx fun i p => if i = n then f p else p }

/-- A frame that is dropped is counted in its port's counters; it is not acknowledged (R377). -/
def dropFrame (s : State) (f : Frame) : State := modPort s f.port fun p => { p with drops := p.drops + 1 }

/-- Frames reach a package in service, through a port that is up. -/
def listens (s : State) (n : Nat) : Bool :=
  s.pkg.powered && s.pkg.phase != .reset && (portOf s n).any fun p => p.up && p.role != .off

/-- The payload lengths of each type (R377). -/
def lenOk (f : Frame) : Bool :=
  let n := f.payload.length
  match f.ftype with
  | 0 | 2 | 4 | 9 | 11 => n == 8
  | 1 | 8 | 10 => n == 0
  | 3 => 1 ≤ n && n ≤ 8192
  | 6 => n == 32
  | _ => n ≤ 8192

/-- A header that the part takes (R376, R377). -/
def headOk (s : State) (f : Frame) : Bool := f.ver == 1 && f.ftype < 12 && !f.rsvd && f.dpkg == s.pkg.num && lenOk f

/-- A kind of frame that the port's role carries: from hosts register and memory frames, from other packages every frame (R375); and of a frame
of a VD, a port that its partition may use (R364). -/
def carries (s : State) (f : Frame) : Bool :=
  ((portOf s f.port).any fun p => match p.role with
    | .host => f.spkg == 2047 && (f.ftype < 6 || (8 ≤ f.ftype && f.ftype ≤ 10))
    | .peer => f.spkg < 2047
    | .off => false) &&
  (f.ftype > 9 || (s.vd? f.vd).all fun v => portAllowed s v f.port)

/-- A frame of an incarnation below INCMIN (R387). -/
def fenced (s : State) (f : Frame) : Bool := s.peers.any fun p => p.num == f.spkg && f.inc < p.incmin

/-- Who sends a frame, and the incarnation that belongs to its flow: a host has none (R378). -/
def senderOf (f : Frame) : Nat := if f.spkg = 2047 then hostParty f.mac else f.spkg
def flowInc (f : Frame) : Nat := if f.spkg = 2047 then 0 else f.inc

/-- A later incarnation of a package than the one heard before: the flows with that one are over (R378, R387). -/
def heard (s : State) (f : Frame) : State :=
  let new := s.peers.any fun p => p.num == f.spkg && p.inc ≠ 0 && p.inc < f.inc
  { s with
    peers := mapIf (fun p => p.num == f.spkg) (fun p => { p with inc := max p.inc f.inc }) s.peers
    flows := if new then s.flows.filter fun w => w.sender != f.spkg else s.flows }

/-- The event of one type of frame: what is dropped, and what becomes of the rest. -/
def onFrame (s : State) (ty : Nat) (act : State → Frame → State) : Out :=
  match arrived s with
  | some f =>
    if f.ftype ≠ ty || !listens s f.port then .next s
    else if !headOk s f || !carries s f then .next (dropFrame s f)
    else if fenced s f then .next s
    else .next (act (heard s f) f)
  | none => .next s

/-- FRAME_TYPE_UNALLOCATED (R376, R377): a frame of an unallocated type or of another version. -/
def execFrameTypeUnallocated (s : State) : Out :=
  match arrived s with
  | some f => if listens s f.port && (f.ver ≠ 1 || f.ftype ≥ 12) then .next (dropFrame s f) else .next s
  | none => .next s

/-! Flows (R378). -/

/-- The flow in which a frame arrives. -/
def inFlow (s : State) (f : Frame) : Flow :=
  (s.flows.find? (sameFlow (senderOf f) (flowInc f) f.flow)).getD (Flow.new (senderOf f) (flowInc f) f.flow f.eth)

/-- What performing a frame comes to: it is done, or has been taken and waits to be performed (log 38). -/
inductive Taken where
  | done (s : State)
  | wait (s : State) (w : HostWait)

/-- The mark that the next ACK of a frame's flow carries: of IPv6 frames alone (R379). -/
def marked (s : State) (f : Frame) : Bool := (inFlow s f).mark || (f.ce && !f.eth)

/-- A cumulative acknowledgement, with that mark, in the encapsulation of the frame (R376, R378, R379). -/
def ackFrame (s : State) (f : Frame) (last : Nat) : State :=
  let m := marked s f
  sendBare (putFlow s { inFlow s f with mark := m && f.eth }) (senderOf f) 8 f.vd last f.port f.flow (m && !f.eth) f.eth []

/-- A NACK; the mark of the frame that is dropped stays for the next ACK (R379). -/
def nackFrame (s : State) (f : Frame) (reason addr : Nat) : State :=
  sendBare (putFlow s { inFlow s f with mark := marked s f }) (senderOf f) 9 f.vd addr f.port f.flow false f.eth (leBytes 8 reason)

/-- A host that is heard has a path and flows of its own. -/
def greetHost (s : State) (f : Frame) : State :=
  if f.spkg ≠ 2047 then s else
  let p := hostParty f.mac
  { s with
    hosts := if s.hosts.contains f.mac then s.hosts else f.mac :: s.hosts
    paths := if s.paths.any (fun q => q.party == p && q.port == f.port) then s.paths else ⟨p, f.port, true, false, 800, false⟩ :: s.paths }

/-- A frame of the same flow waits to be performed: until then none behind it can be taken (log 38). -/
def flowWaits (s : State) (f : Frame) : Bool :=
  s.hostQ.any fun w => senderOf w.frame == senderOf f && flowInc w.frame == flowInc f && w.frame.flow == f.flow

/-- A frame that is taken takes its place in its flow, and is acknowledged. -/
def passFlow (s : State) (f : Frame) : State :=
  let w := inFlow s f
  ackFrame (putFlow s { w with expect := w.expect + 1, eth := f.eth }) f w.expect

/-- A frame meets its flow: in order it is performed, else it is answered (R378). -/
def deliver (s : State) (f : Frame) (perform : State → Taken) : State :=
  let s := greetHost s f
  let w := inFlow s f
  if f.psn < w.expect then ackFrame s f (w.expect - 1)
  else if f.psn > w.expect then nackFrame s f 2 w.expect
  else if f.noBuf || flowWaits s f then nackFrame s f 1 f.psn
  else match perform s with
    | .done t => passFlow t f
    | .wait t x => passFlow { t with hostQ := t.hostQ ++ [x] } f

/-- Answers a frame in the encapsulation in which it came (R376). -/
def respond (s : State) (f : Frame) (ftype status : Nat) (payload : List Byte) : State :=
  sendFrame (putFlow s { outFlow s (senderOf f) f.vd with eth := f.eth }) (senderOf f) ftype f.vd status f.addr payload

/-- The flow of this package that a frame of a receiver names. -/
def ownFlow (s : State) (f : Frame) : Option Flow := s.flows.find? (sameFlow (senderOf f) s.pkg.inc f.flow)

/-- Sends the frames of a flow again from a PSN, over the path that it has now. -/
def resend (s : State) (w : Flow) (psn : Nat) : State :=
  match pathOf s w with
  | none => s
  | some p =>
    let t := putFlow s { w with path := some p }
    { t with out := ((w.sent.filter fun f => f.psn ≥ psn).map fun f => { f with port := p }).reverse ++ t.out }

/-- The path on which a frame came. -/
def samePath (party port : Nat) (p : Path) : Bool := p.party == party && p.port == port

def modPath (s : State) (party port : Nat) (f : Path → Path) : State := { s with paths := mapIf (samePath party port) f s.paths }

/-- A mark, or a NACK for want of a buffer, lowers the rate of the path by one eighth, once per 8 us (R379). -/
def lowerRate (s : State) (party port : Nat) : State :=
  modPath s party port fun p => if p.cut then p else { p with rate := p.rate - p.rate / 8, cut := true }

/-- ACK (R378): what it acknowledges is kept no longer. -/
def execAck (s : State) : Out :=
  onFrame s 8 fun s f =>
    let s := match ownFlow s f with
      | some w => putFlow s { w with sent := w.sent.filter fun g => g.psn > f.addr }
      | none => s
    if f.ce && !f.eth then lowerRate s (senderOf f) f.port else s

/-- NACK (R378, R379). -/
def execNack (s : State) : Out :=
  onFrame s 9 fun s f =>
    let s := (ownFlow s f).elim s fun w => resend s w f.addr
    if leNat f.payload = 1 then lowerRate s (senderOf f) f.port else s

/-- HEARTBEAT (R386): it ends the silence of its path; one that was not live is heard again and may become live. -/
def execHeartbeat (s : State) : Out :=
  onFrame s 10 fun s f =>
    modPath s (senderOf f) f.port fun p => if p.live then p else { p with proving := true }

/-! Responses (R377, R383). -/

/-- A response: it takes its place in its flow. This package asks for none, so nothing else follows. -/
def takeResponse (s : State) (ty : Nat) : Out := onFrame s ty fun s f => deliver s f .done

/-- REGRSP (R377). -/
def execRegrsp (s : State) : Out := takeResponse s 2

/-- MEMRSP (R377). -/
def execMemrsp (s : State) : Out := takeResponse s 5

/-- CMPL (R383). -/
def execCmpl (s : State) : Out := takeResponse s 6

/-! Timers (R378, R379, R386). -/

/-- The party at the inputs, or the first that meets a condition. -/
def partyFlows (s : State) : List Flow :=
  match s.input with
  | .party n _ => s.flows.filter fun w => w.sender == n && !w.sent.isEmpty
  | _ => (s.flows.find? fun w => !w.sent.isEmpty).toList

/-- RESEND_TIMEOUT (R378): from the oldest frame that is not acknowledged. -/
def execResendTimeout (s : State) : Out := .next ((partyFlows s).foldl (fun s w => resend s w 0) s)

/-- The path at the inputs, or the first that meets a condition. -/
def pathPick (s : State) (ok : Path → Bool) : Option Path :=
  match s.input with
  | .party n port => s.paths.find? fun p => p.party == n && p.port == port && ok p
  | _ => s.paths.find? ok

/-- A path whose port sends (R386). -/
def Path.sends (s : State) (p : Path) : Bool := (portOf s p.port).any fun q => q.up && roleFits q.role p.party

/-- HEARTBEAT_TIMER (R386): each path whose port sends, live or not. -/
def execHeartbeatTimer (s : State) : Out :=
  match pathPick s (Path.sends s) with
  | some p => .next (sendBare s p.party 10 0 0 p.port 0 false false [])
  | none => .next s

/-- RATE_INCREASE (R379): 8 us have passed; the rate of a path rises by 1 per cent unless a mark came. How it bounds what is sent is timing
(log 42). -/
def execRateIncrease (s : State) : Out :=
  let up := fun (p : Path) => if p.cut then { p with cut := false } else { p with rate := min 800 (p.rate + 8) }
  match s.input with
  | .party n port => .next (modPath s n port up)
  | _ => .next { s with paths := s.paths.map up }

/-- The flows to a party whose path can carry them no longer move to the next live path, and send again from the oldest frame (R384). -/
def moveFlows (s : State) (party : Nat) : State :=
  (s.flows.filter fun w => w.sender == party && !w.sent.isEmpty && !w.path.any fun p => (usable s party w.flow).contains p).foldl
    (fun s w => resend s w 0) s

/-- A port stops sending: its paths are no longer live, and their flows move (R384, R386, R397). -/
def linkDown (s : State) (n : Nat) : State :=
  let gone := s.paths.filter fun p => p.port == n
  let s := modPort s n fun p => { p with up := false }
  let s := { s with paths := mapIf (fun p => p.port == n) (fun p => { p with live := false, proving := false }) s.paths }
  let s := gone.foldl (fun s p => moveFlows s p.party) s
  logMgmt s 11 4 n [n]

/-- LINK_DOWN (R386). -/
def execLinkDown (s : State) : Out :=
  match s.input with
  | .pick n => if (portOf s n).any fun p => p.up then .next (linkDown s n) else .next s
  | _ => .next s

/-- PATH_FAILED (R386): a live path with its link up. -/
def execPathFailed (s : State) : Out :=
  match s.input with
  | .party n port => match s.paths.find? fun p => p.party == n && p.port == port && p.live && (portOf s port).any Port.up with
    | some p =>
      let s := modPath s p.party p.port fun p => { p with live := false }
      .next (logMgmt (moveFlows s n) 12 4 port [port, n])
    | none => .next s
  | _ => .next s

/-- LINK_RECOVERY (R386): the link has block lock again; its paths carry heartbeats until they are live. -/
def execLinkRecovery (s : State) : Out :=
  match s.input with
  | .pick n =>
    if (portOf s n).any fun p => !p.up && p.role != .off then
      .next { modPort s n fun p => { p with up := true } with
        paths := mapIf (fun p => p.port == n && !p.live) (fun p => { p with proving := true }) s.paths }
    else .next s
  | _ => .next s

/-- The flow in which a package announces its incarnation: no VD has its number. -/
def fenceFlow : Nat := 512

def fenceFrame (s : State) (party : Nat) : Frame := { mkFrame s party 11 0 0 0 (leBytes 8 s.pkg.inc) with flow := fenceFlow }

/-- The incarnation of this package announced to a peer, in one flow and on every live path (R387). -/
def announce (s : State) (party : Nat) : State :=
  let s := pushFrame s party (fenceFrame s party)
  let more := (usable s party fenceFlow).filter fun p => some p ≠ (outFlow s party fenceFlow).path
  { s with out := more.map (fun p => { fenceFrame s party with port := p }) ++ s.out }

/-- PATH_LIVE (R386): 1 ms has passed without errors. It carries the announcement of this package (R387), and flows that found no other path go
on. -/
def execPathLive (s : State) : Out :=
  match pathPick s fun p => p.proving && Path.sends s p with
  | some p =>
    let s := modPath s p.party p.port fun p => { p with live := true, proving := false }
    let s := if p.party < 2047 then { s with out := { fenceFrame s p.party with port := p.port } :: s.out } else s
    .next ((s.flows.filter fun w => w.sender == p.party && !w.sent.isEmpty && pathOf s w == some p.port).foldl (fun s w => resend s w 0) s)
  | none => .next s

/-- SERDES_LANE_RECAL (R397): a lane, of the four of each port (R375). The port goes down, and management is told of the lane. -/
def execSerdesLaneRecal (s : State) : Out :=
  match s.input with
  | .pick lane => match portOf s (lane / 4) with
    | some p => if p.role == .off then .next s else
        let s := if p.up then linkDown s (lane / 4) else s
        .next (logMgmt s 15 4 (lane / 4) [lane])
    | none => .next s
  | _ => .next s

end Sys2Proof.Machine
end

