-- ==== Sys2Proof/Machine/Flags.lean ====
section
/-!
DEFINITION. The synchronization flags f0 to f15: the await and set flags of an instruction (R21, R29), fset and fwait (R225, R226).
-/

namespace Sys2Proof.Machine

/-- An instruction whose await flag is zero does not issue (R29); flag 0 as an await or set flag stands for none (R90). -/
def awaits (s : State) (af : Fin 16) : Bool := af != 0 && s.ctx.c.f[af] == 0

/-- The decrement of the await flag at issue (R29). -/
def takeFlag (s : State) (af : Fin 16) : State :=
  if af = 0 then s else s.modC fun c => { c with f := c.f.set af (c.f[af] - 1) }

/-- FLAG_OVERFLOW of an instruction that names a set flag: its value and the increments still due make 15 (R21). -/
def flagFull (s : State) (sf : Fin 16) : Bool := sf != 0 && s.ctx.c.f[sf].val + dueFlag s.ctx.c sf ≥ 15

/-- The flags that an instruction names. -/
def flagItems (sf af : Fin 16) : List Item := (if sf = 0 then [] else [.flag sf]) ++ if af = 0 then [] else [.flag af]

/-- fset (R225): executed at dispatch. -/
def execFset (f cnt : Fin 16) (s : State) : Out :=
  checked s (some .c) [.flag f]
    (if s.ctx.c.f[f].val + cnt.val + dueFlag s.ctx.c f > 15 then fault .flagOverflow s
     else .next (finish (s.modC fun c => { c with f := c.f.set f (c.f[f] + cnt) }) 8))

/-- fwait (R226): the front end waits while C-cycles pass. -/
def execFwait (f cnt : Fin 16) (s : State) : Out :=
  checked s (some .c) [.flag f]
    (if s.ctx.c.f[f] < cnt then .next (waitC s)
     else .next (finish (s.modC fun c => { c with f := c.f.set f (c.f[f] - cnt) }) 8))

end Sys2Proof.Machine
end

