-- ==== Sys2Proof/Machine/HostFrames.lean ====
section
/-!
DEFINITION. Frames of hosts (R364, R380, R382, R385): the registers of the control page and a VD's memory.
-/

namespace Sys2Proof.Machine

/-- Whether a register or memory frame is accepted (R380): from a host of the VD; of a pair the primary takes the hosts' frames, the other one
the writes that the primary forwards (R385). A frame to a VD that does not exist is answered. -/
def hostAllowed (s : State) (f : Frame) : Bool :=
  match s.vd? f.vd with
  | none => f.spkg == 2047
  | some v =>
    if f.spkg = 2047 then v.hosts.toList.contains (2 ^ 63 + f.mac) && (!v.pairs || v.mpri)
    else v.pairs && v.mpeer == f.spkg && (f.ftype == 0 || f.ftype == 3)

/-- A write of a host to a pair is performed once the partner has acknowledged its copy, and in the order of the copies (R385). -/
def viaPartner (s : State) (v : Vd) (w : HostWait) (k : State → Taken) : Taken :=
  let f := w.frame
  if !v.pairs || f.spkg ≠ 2047 then k s else
  match w.copy with
  | none =>
    .wait (pushFrame s v.mpeer { mkFrame s v.mpeer f.ftype v.num 0 f.addr f.payload with mac := f.mac })
      { w with copy := some (outFlow s v.mpeer v.num).nextPsn }
  | some n =>
    let first := (s.hostQ.takeWhile (· != w)).all fun x => x.frame.vd != f.vd || x.copy.isNone
    if first && (outFlow s v.mpeer v.num).sent.all fun g => g.psn != n then k s else .wait s w

/-- A try to perform a register or memory frame. -/
def hostTry (s : State) (rsp : Nat) (body : List Byte) (act : State → Vd → HostWait → Taken) (w : HostWait) : Taken :=
  match s.vd? w.frame.vd with
  | none => .done (respond s w.frame rsp 3 body)
  | some v => act s v w

/-- Frames of a type that wait try again, oldest first. -/
def retryHosts (s : State) (ty rsp : Nat) (body : List Byte) (act : State → Vd → HostWait → Taken) : State :=
  (s.hostQ.filter fun w => w.frame.ftype == ty).foldl (fun s w => match hostTry s rsp body act w with
    | .done t => { t with hostQ := t.hostQ.erase w }
    | .wait t x => { t with hostQ := mapIf (· == w) (fun _ => x) t.hostQ }) s

/-- The events of register and memory frames: one that arrives, or, without one at the inputs, another try of those that wait. -/
def hostFrame (s : State) (ty rsp : Nat) (body : List Byte) (act : State → Vd → HostWait → Taken) : Out :=
  match arrived s with
  | none => .next (retryHosts s ty rsp body act)
  | some _ => onFrame s ty fun s f =>
      if !hostAllowed s f then dropFrame s f else deliver s f fun s => hostTry s rsp body act ⟨f, none, none⟩

def noWord : List Byte := List.replicate 8 0

/-! Registers (R380). -/

def badRegister (s : State) (f : Frame) : Taken := .done (respond (countBad s f.vd) f 2 2 noWord)

/-- The offset of a register frame, if it is 8-byte-aligned. -/
def regOff (f : Frame) : Option Nat := if f.addr % 8 = 0 then some (f.addr % 65536) else none

/-- What the write of a REGWR does; none where there is no register. -/
def regWritten (s : State) (v : Vd) (f : Frame) : Option State :=
  (regOff f).bind fun off => pageWrite s v off f.mac (BitVec.ofNat 64 (leNat f.payload))

/-- REGWR (R380). -/
def execRegwr (s : State) : Out :=
  hostFrame s 0 2 noWord fun s v w =>
    if (regWritten s v w.frame).isNone then badRegister s w.frame
    else viaPartner s v w fun s => .done ((regWritten s v w.frame).getD s)

/-- REGRD (R380). -/
def execRegrd (s : State) : Out :=
  hostFrame s 1 2 noWord fun s v w =>
    match (regOff w.frame).bind fun off => pageRead s v off with
    | none => badRegister s w.frame
    | some x => .done (respond s w.frame 2 0 (leBytes 8 x.toNat))

/-! Memory (R382). -/

/-- The memory type of the page that stage 1 gives an address. -/
def pageType (s : State) (v : Vd) (va : Nat) : Option MemType :=
  (s.part? v.part).bind fun p => match walk1 s p (localVa va) 4 v.s1root with
    | .ok g => memType (bits g.entry 8 6)
    | .error _ => none

/-- What a host's access meets. -/
inductive HostAcc where
  | ok (ps : List (Place × Nat))
  | refused
  | fault (s : State)
  | held (f : S2Flt) (va : Nat)
  | asleep (s : State)        -- a dormancy region: a reheat has been triggered (R370)
  | away (home : Nat)         -- another home has the memory (R289)

/-- Whether sealed versions of a VD, resident and not lost, cover a range: none if some byte belongs to no sealed version. -/
def sealedCover (s : State) (vd : Nat) : Nat → Nat → Nat → Option Bool
  | 0, _, _ => some true
  | fuel + 1, va, len =>
    if len = 0 then some true else
    match s.tiles.find? fun t => t.vd == vd && t.va ≤ va && va < t.va + t.size with
    | none => none
    | some t =>
      if !t.sealed then none
      else
        let n := min len (t.va + t.size - va)
        (sealedCover s vd fuel (va + n) (len - n)).map fun b => b && tileReady s vd t.name

/-- One piece of a host's access: a user-level access of no task. -/
def hostPiece (s : State) (v : Vd) (write : Bool) (va len : Nat) : HostAcc :=
  match dormHold s v.num va len with
  | some t => .asleep t
  | none => match translate s v.num va (if write then .store else .load) false with
    | .error (.flt _ a) => if pageType s v a == some .dev then .refused else .fault s
    | .error (.s2 f a) => .held f a
    | .error (.remote h) => .away h
    | .ok p =>
      if p.mt == .tile then
        if write then .refused else
        match sealedCover s v.num (len / 512 + 2) p.va len with
        | none => .refused
        | some false => .fault s
        | some true => if placeBad s (p, len) then .fault ((s.tiles.find? fun t => t.vd == v.num && t.va ≤ p.va && p.va < t.va + t.size).elim s (tileHit s))
            else .ok [(p, len)]
      else if soixBad s v.num p || accessBad s (if write then .store else .load) (p, len) then .fault s
      else .ok [(p, len)]

/-- The pieces of a host's access, which lie on one package. -/
def hostPieces (s : State) (v : Vd) (write : Bool) : List (Nat × Nat) → HostAcc
  | [] => .ok []
  | p :: l => match hostPiece s v write p.1 p.2, hostPieces s v write l with
    | .ok x, .ok xs => .ok (x ++ xs)
    | .ok _, .away _ => .fault s
    | .ok _, e => e
    | .away h, .ok _ => if l.isEmpty then .away h else .fault s
    | .away h, .away k => if h = k then .away h else .fault s
    | .away _, e => e
    | e, _ => e

/-- An access of a host to memory of another home, which the home performs as its own host's; a home that is lost or outside the peer set
answers none (R289). -/
def hostAway (s : State) (v : Vd) (w : HostWait) (home len : Nat) (bs : Option (List Byte)) : Taken :=
  let f := w.frame
  let bad := fun (s : State) => Taken.done (respond s f 5 1 [])
  match w.who with
  | none =>
    if !v.peers.contains home || peerLost s home then bad s else
    .wait (askFar s home v.num (hostReader s.stamp) f.addr len rightHost bs).stamped { w with who := some s.stamp }
  | some n => match farAnswer s (hostReader n) f.addr with
    | none => if peerLost s home then bad (dropFar s (hostReader n)) else .wait s w
    | some r =>
      let s := dropFar s (hostReader n)
      if r.status = 0 then .done (if bs.isSome then s else respond s f 5 0 (reply r).data)
      else if r.status = 2 && r.cause = 0 then .done (respond s f 5 2 [])
      else bad s

/-- A host's access as it ends: refused and faulted ones are answered, a held one waits (R285, R382). -/
def hostAccess (s : State) (v : Vd) (w : HostWait) (len : Nat) (bs : Option (List Byte)) (k : List (Place × Nat) → Taken) : Taken :=
  let f := w.frame
  let write := bs.isSome
  if f.addr + len > 2 ^ 56 then .done (respond s f 5 1 []) else
  if heldIn s v.num 3 (pieces f.addr len) then .wait s w else
  match hostPieces s v write (pieces f.addr len) with
  | .ok ps => k ps
  | .refused => .done (respond s f 5 2 [])
  | .fault t => .done (respond t f 5 1 [])
  | .asleep t => .wait t w
  | .held g a => .wait (holdAccess s v.part v.num 255 g (BitVec.ofNat 64 a) 3 false write (.host f.flow)).1 w
  | .away h => hostAway s v w h len bs

/-- MEMWR (R382): every byte at once, SHRD ones too. -/
def execMemwr (s : State) : Out :=
  hostFrame s 3 5 [] fun s v w =>
    let bs := w.frame.payload
    hostAccess s v w bs.length (some bs) fun _ =>
      viaPartner s v w fun s =>
        hostAccess s v w bs.length (some bs) fun ps => .done (writePlaces s ps bs)

/-- MEMRD (R382). -/
def execMemrd (s : State) : Out :=
  hostFrame s 4 5 [] fun s v w =>
    let n := leNat w.frame.payload
    if n = 0 || n > 8192 then .done (respond s w.frame 5 2 []) else
    hostAccess s v w n none fun ps => .done (respond s w.frame 5 0 (placesBytes s ps))

end Sys2Proof.Machine
end

