-- ==== Sys2Proof/Machine/Landing.lean ====
section
/-!
DEFINITION. The landing of C-slice results (R43, R44, R254).
-/

namespace Sys2Proof.Machine

/-- RESULT_LANDING: the first of the pending operations that are due becomes visible (R43). Scoreboard mode ends when none issued
before the cut is left (R254). -/
def execResultLanding (s : State) : Out :=
  match s.ctx.c.pend with
  | [] => .next s
  | p :: l =>
    if p.due > s.ctx.c.cc then .next s else
    let x := land { s.ctx with c := { s.ctx.c with pend := l } } p
    let done := s.ctx.sbTill ≤ s.ctx.c.cc && l.all fun q => q.due > s.ctx.c.cc
    .next { s with ctx := { x with sb := s.ctx.sb && !done } }

end Sys2Proof.Machine
end

