-- ==== Sys2Proof/Machine/Matrix.lean ====
section
/-!
DEFINITION. The matrix engine: windows and their compressed images (R66, R210 to R212), products (R60 to R62, R213 to R215), accumulator
moves and status (R216, R217), drains (R63, R64, R218, R219) and the order of its commands (R220).
-/

namespace Sys2Proof.Machine

/-! Operands (R57, R60, R212). -/

/-- The format of a matrix operand: BF16, or MX codes of a width. -/
inductive OpFmt where
  | bf16
  | mx (w : Nat)
deriving DecidableEq, Repr

def OpFmt.width : OpFmt → Nat
  | .bf16 => 16
  | .mx w => w

/-- The A and B formats of a pair, and K per step (R60). -/
def pairFmt : Pair → OpFmt × OpFmt × Nat
  | .bf16bf16 => (.bf16, .bf16, 4)
  | .mx8mx8 => (.mx 8, .mx 8, 4)
  | .bf16mx8 => (.bf16, .mx 8, 4)
  | .mx6mx6 => (.mx 6, .mx 6, 8)
  | .mx8mx4 => (.mx 8, .mx 4, 8)
  | .mx4mx8 => (.mx 4, .mx 8, 8)
  | .bf16mx4 => (.bf16, .mx 4, 8)
  | .mx4mx4 => (.mx 4, .mx 4, 16)

/-- The value of a code under its block's scale byte (R57, R61). -/
def opVal (f : OpFmt) (scale code : Nat) : FVal :=
  match f with
  | .bf16 => fval Machine.bf16 code
  | .mx w => mxVal w code scale

/-- Rows of A, columns of B, and which row and column block a sub-array takes (R213). -/
def shapeDims : Shape → Nat × Nat
  | .s1x4 => (32, 128)
  | .s4x1 => (128, 32)
  | .s2x2 => (64, 64)
  | .ind => (32, 32)

def shapeRow : Shape → Nat → Nat
  | .s4x1, q => 32 * q
  | .s2x2, q => 32 * (q / 2)
  | _, _ => 0

def shapeCol : Shape → Nat → Nat
  | .s1x4, q => 32 * q
  | .s2x2, q => 32 * (q % 2)
  | _, _ => 0

/-! Windows (R211, R212). -/

def Window.field (w : Window) (hi lo : Nat) : Nat := bits w.reg.toNat hi lo
def Window.wbase (w : Window) : Nat := w.field 19 0
def Window.wbytes (w : Window) : Nat := w.field 40 20
def Window.wsbase (w : Window) : Nat := w.field 83 64
def Window.krows (w : Window) : Nat := w.field 99 84
def Window.ncol (w : Window) : Nat := 32 * 2 ^ w.field 101 100

/-- R211: whether wbsel refuses the register. -/
def Window.bad (w : Window) : Bool :=
  w.field 127 102 ≠ 0 || w.field 63 41 ≠ 0 || w.field 101 100 = 3 || w.krows = 0 || w.krows % 32 ≠ 0 ||
    w.wbytes % 4 ≠ 0 || w.wbytes < 8 || w.wbytes > 1048576 || w.wbase % 4 ≠ 0 || w.wbase + w.wbytes > 1048576

/-- The codes of a group from its presence mask and its packed codes (R66). -/
def unpackGroup : Nat → Nat → Nat → Nat → List Nat
  | 0, _, _, _ => []
  | n + 1, w, mask, packed =>
    if mask % 2 = 1 then packed % 2 ^ w :: unpackGroup n w (mask / 2) (packed / 2 ^ w)
    else 0 :: unpackGroup n w (mask / 2) packed

/-- The one bits of a mask. -/
def countOnes : Nat → Nat → Nat
  | 0, _ => 0
  | n + 1, m => m % 2 + countOnes n (m / 2)

/-- The codes of `n` groups from an offset; nothing where a group passes the image's end (R66, R215). -/
def unpackImage (wb : Memory) (w stop : Nat) : Nat → Nat → Option (List Nat)
  | 0, _ => some []
  | n + 1, off =>
    let mask := memWord wb off 8
    let len := 4 * ((countOnes 64 mask * w + 31) / 32)
    if off + 8 + len > stop then none
    else (unpackImage wb w stop n (off + 8 + len)).map fun l => unpackGroup 64 w mask (memWord wb (off + 8) len) ++ l

/-- A list cut in pieces of `n`. -/
def cutAll {α : Type} (n : Nat) : Nat → List α → List (List α)
  | 0, _ => []
  | k + 1, l => l.take n :: cutAll n k (l.drop n)

/-- The columns of the B blocks of `bands` bands of 32 rows from band `first`: for each band, a list of columns of 32 values (R212). -/
def windowBands (wb : Memory) (w : Window) (f : OpFmt) (first bands : Nat) : Option (List (List (List FVal))) :=
  let n := w.ncol
  (unpackImage wb f.width (w.wbase + w.wbytes) ((first + bands) * n / 2) w.wbase).map fun codes =>
    (cutAll (32 * n) bands (codes.drop (first * 32 * n))).mapIdx fun b band =>
      (cutAll 32 n band).mapIdx fun j col =>
        let sc := (memGet wb (w.wsbase + (first + b) * n + j)).toNat
        col.map (opVal f sc)

/-- The rows of the A blocks: for each band of 32 columns, a list of rows of 32 values, in the walk's block order (R214). -/
def streamBands (pad : Memory) (d : Desc) (f : OpFmt) (rows bands : Nat) : List (List (List FVal)) :=
  let bytes := walkRead pad d 0 (rows * bands * 4 * f.width)
  (cutAll (rows * 4 * f.width) bands bytes).mapIdx fun b band =>
    (cutAll (4 * f.width) rows band).mapIdx fun r row =>
      let sc := match f with
        | .bf16 => 127
        | .mx _ => (memGet pad (d.scaleAt (b * rows + r)).toNat).toNat
      (lanesOf f.width 32 (leNat row)).map (opVal f sc)

/-! Products (R61, R62). -/

/-- The sum of two exact values in a step: NaN absorbs, infinities of both signs make a NaN (R62). -/
def stepAdd (a b : FVal) : FVal :=
  match a, b with
  | .fin na ma ea, .fin nb mb eb =>
    let (v, e) := dySum (signed na ma) ea (signed nb mb) eb
    .fin (v < 0) v.natAbs e
  | .inf na, .inf nb => if na == nb then .inf na else .nan false
  | .inf na, .fin _ _ _ => .inf na
  | .fin _ _ _, .inf nb => .inf nb
  | _, _ => .nan false

/-- One term of a step. -/
def stepMul (a b : FVal) : FVal := if a.isNan || b.isNan then .nan false else (mulExact a b).getD (.nan false)

/-- The steps of one band into an accumulator element: K terms each, one rounding each (R61, R62). -/
def bandSteps (k : Nat) : Nat → List FVal → List FVal → Nat → Nat
  | 0, _, _, acc => acc
  | n + 1, a, b, acc =>
    let step := (List.zipWith stepMul (a.take k) (b.take k)).foldl stepAdd (.fin false 0 0)
    let acc := if step.isZero then acc else (addVal fp32 .rne false (fval fp32 acc) step).1
    bandSteps k n (a.drop k) (b.drop k) acc

/-- One element over all bands: the row of A and the column of B of each. -/
def dot (k : Nat) (row col : Nat) : List (List (List FVal)) → List (List (List FVal)) → Nat → Nat
  | a :: as, b :: bs, acc => dot k row col as bs (bandSteps k (32 / k) (nth [] a row) (nth [] b col) acc)
  | _, _, acc => acc

/-- The elements of an accumulator, row by row. -/
def accElems (m : Acc) : List Nat := lanesOf 32 1024 m.toNat

def accOf (l : List Nat) : Acc := BitVec.ofNat 32768 (packLanes 32 l)

/-- An accumulator after a product. -/
def product (k rowOff colOff : Nat) (as bs : List (List (List FVal))) (acc : Acc) : Acc :=
  accOf ((accElems acc).mapIdx fun n v => dot k (rowOff + n / 32) (colOff + n % 32) as bs v)

/-! Issue (R175, R220). -/

/-- A matrix or row command at issue: the checks of R102, the await flag, its readiness, the eligibility of its streams, the precise
faults, the accesses that the overlap checker sees, its effect. `after` is what its run meets once it has issued. -/
def engineOp (fm : FMods) (items : List Item) (starts ready : Bool) (lat : Nat)
    (body : State → Except Flt (State × List (Extent × Nat × Nat) × List Effect × Flags)) (s : State) (after : State → State := id) : Out :=
  checked s (some .c) (items ++ flagItems fm.sf fm.af)
    (if awaits s fm.af || !ready || (starts && startWaits s.ctx.c) then .next (waitC s)
    else if flagFull s fm.sf then fault .flagOverflow s
    else match body s with
    | .error f => .next (raise f s)
    | .ok (t, accs, effs, fl) =>
      match checkC s accs with
      | some f => .next (raise f s)
      | none => .next (after (finish (pend (takeFlag (addC t accs) fm.af) lat effs fm.sf fl) 8)))

/-- The accumulators of a bank. -/
def bankOf (md : Fin 8) : List (Fin 8) := (List.range 4).map fun q => md + Fin.ofNat 8 q

/-- Records that accumulators are written, to land at a C-cycle. -/
def accWrites (c : CSide) (ms : List (Fin 8)) (at_ : Nat) (move : Bool) : CSide :=
  ms.foldl (fun c (n : Fin 8) => { c with
    accLand := c.accLand.set n at_
    accMove := if move then c.accMove.set n at_ else c.accMove }) c

def landed (c : CSide) (n : Fin 8) : Bool := c.accLand[n] ≤ c.cc
def moved (c : CSide) (n : Fin 8) : Bool := c.accMove[n] ≤ c.cc
def drained (c : CSide) (n : Fin 8) : Bool := c.accDrain[n] ≤ c.cc

/-- wbsel (R211). -/
def execWbsel (w : Fin 4) (ca cb : Reg) (fm : FMods) (s : State) : Out :=
  engineOp fm [.g ca, .g cb] false true 2
    (fun s =>
      let win : Window := ⟨(gRead s cb) ++ (gRead s ca), 0⟩
      if win.bad then .error { cause := .matrixInvalid }
      else .ok (s.modC fun c => { c with w := c.w.set w win }, [], [], 0)) s

/-- mzero, mmov and mswap: accumulators written (R216). -/
def accMoves (fm : FMods) (lat : Nat) (names : List (Fin 8)) (writes : List (Fin 8 × Fin 8)) (zero : Bool) (s : State) : Out :=
  let c := s.ctx.c
  engineOp fm [] false (names.all (landed c) && writes.all fun w => drained c w.1) lat
    (fun s => .ok (s.modC fun c => accWrites c (writes.map (·.1)) (c.cc + lat) true, [],
      writes.map fun w => .acc w.1 (if zero then 0 else accSeen c w.2), 0)) s

/-- mzero (R216). -/
def execMzero (md : Fin 8) (fm : FMods) (s : State) : Out := accMoves fm 2 [md] [(md, md)] true s

/-- mmov (R216). -/
def execMmov (md ms : Fin 8) (fm : FMods) (s : State) : Out := accMoves fm 4 [md, ms] [(md, ms)] false s

/-- mswap (R216). -/
def execMswap (md ms : Fin 8) (fm : FMods) (s : State) : Out := accMoves fm 4 [md, ms] [(md, ms), (ms, md)] false s

/-- Where a descriptor does not supply an operand format (R215). -/
def badOperand (d : Desc) (f : OpFmt) : Bool :=
  match f with
  | .bf16 => d.etype != 4 || d.mxw != 0
  | .mx w => d.etype != 6 || d.mxw.toNat != w / 2 - 1

/-- The extents of a window (R227). -/
def Window.extents (w : Window) (f : OpFmt) : List Extent :=
  ⟨.wb, w.wbase, w.wbase + w.wbytes - 1, false⟩ :: match f with
    | .bf16 => []
    | .mx _ => [⟨.wb, w.wsbase, w.wsbase + w.krows / 32 * w.ncol - 1, false⟩]

/-- Starts a list of streams in turn (R149). -/
def startAll (s : State) : List (Fin 16) → Option (State × List Desc)
  | [] => some (s, [])
  | n :: l => match startStream s n with
    | none => none
    | some (s, d) => (startAll s l).map fun r => (r.1, d :: r.2)

/-- The accumulators of a product: one for each sub-array; nothing on WB_OVERRUN (R213 to R215). -/
def products (s : State) (md : Fin 8) (ds : List Desc) (ws : List Window) (shape : Shape) (pair : Pair) (ksteps : Nat) (zero : Bool) :
    Option (List (Fin 8 × Acc)) :=
  let (fa, fb, k) := pairFmt pair
  let bands := ksteps * k / 32
  let rows := (shapeDims shape).1
  let as := ds.map fun d => streamBands s.ctx.m.spad d fa rows bands
  (ws.mapM fun w => windowBands s.ctx.m.wb w fb (w.cursor / 32) bands).map fun bs =>
    (bankOf md).mapIdx fun q n =>
      (n, product k (shapeRow shape q) (shapeCol shape q) (if shape == .ind then nth [] as q else nth [] as 0)
        (if shape == .ind then nth [] bs q else nth [] bs 0) (if zero then 0 else accSeen s.ctx.c n))

/-- WB_OVERRUN, found while the command runs (R215): the accumulators of the bank are undefined in the record, free values (log 2), and the
cause is the whole context's (R239). -/
def wbOverrun (md : Fin 8) (s : State) : State :=
  let t := (s.tick).modC fun c => { c with m := (bankOf md).foldl (fun m (n : Fin 8) => m.set n (Config.freeAcc s.fresh n)) c.m }
  raiseWhole { cause := .wbOverrun } t.ctx.c.cur.pc t

/-- mma and mmaz (R213 to R215, R220). Reduced service has one pair only (R389). -/
def matrixProduct (zero : Bool) (md : Fin 8) (sa : Fin 16) (w : Fin 4) (shape : Shape) (pair : Pair) (ksteps : Fin 4096) (fm : FMods)
    (s : State) : Out :=
  let c := s.ctx.c
  let streams : List (Fin 16) := if shape == .ind then (List.range 4).map fun q => sa + Fin.ofNat 16 q else [sa]
  let wins : List (Fin 4) := if shape == .ind then [0, 1, 2, 3] else [w]
  let (fa, fb, k) := pairFmt pair
  let kr := ksteps.val * k
  let (rows, n) := shapeDims shape
  let lat := 36 + ksteps.val
  let started := startAll s streams
  let ws := wins.map fun w => c.w[w]
  let result := fun (_ : Unit) => products s md (started.elim [] (·.2)) ws shape pair ksteps.val zero
  engineOp fm (streams.map Item.strm) true
    (unitFree c .array && (bankOf md).all fun n => moved c n && drained c n) lat
    (fun s =>
      if (s.pkg.phase == .reduced && pair != .bf16bf16) || ws.any fun w => w.ncol ≠ n || w.wbytes = 0 || w.cursor + kr > w.krows ||
          (fb != .bf16 && w.wsbase + w.krows / 32 * n > 1048576) then .error { cause := .matrixInvalid }
      else match started with
      | none => .error { cause := .streamInvalid }
      | some (t, ds) =>
        if ds.any fun d => badOperand d fa || d.length < rows * kr * fa.width / 8 then .error { cause := .streamInvalid }
        else
          let cc := s.ctx.c.cc
          let accs := (ds.flatMap fun d => (d.extents false).map fun e => (e, cc, cc + ksteps.val - 1)) ++
            ws.flatMap fun w => (w.extents fb).map fun e => (e, cc, cc + ksteps.val - 1)
          let t := (streams.foldl endWalk t).modC fun c => accWrites (holdUnit { c with
            w := wins.foldl (fun v (w : Fin 4) => v.set w { v[w] with cursor := v[w].cursor + kr }) c.w } .array ksteps.val)
            (bankOf md) (cc + lat) false
          .ok (t, accs, ((result ()).getD []).map fun x => .acc x.1 x.2, 0)) s
    (fun t => if (result ()).isSome then t else wbOverrun md t)

/-- mma (R214). -/
def execMma (md : Fin 8) (sa : Fin 16) (w : Fin 4) (shape : Shape) (pair : Pair) (ksteps : Fin 4096) (fm : FMods) (s : State) : Out :=
  matrixProduct false md sa w shape pair ksteps fm s

/-- mmaz (R214). -/
def execMmaz (md : Fin 8) (sa : Fin 16) (w : Fin 4) (shape : Shape) (pair : Pair) (ksteps : Fin 4096) (fm : FMods) (s : State) : Out :=
  matrixProduct true md sa w shape pair ksteps fm s

/-! mdrain (R218, R219). -/

/-- The type code of a drain's output stream (R219). -/
def drainCode : DrainType → Nat
  | .f32 => 5 | .bf16 => 4 | .i8 => 1 | .i16 => 2 | .i32 => 3 | .i4 => 0

def drainFmt : DrainType → NFmt
  | .f32 => .fp fp32
  | .bf16 => .fp Machine.bf16
  | .i8 => .int 8
  | .i16 => .int 16
  | .i32 => .int 32
  | .i4 => .int 4

def NFmt.width : NFmt → Nat
  | .fp f => f.w
  | .int w => w

/-- FP32 values of the epilogue, in the order of R218. -/
def epiCount (dm : DrainMods) : Nat :=
  (if dm.rs then 32 else 0) + (if dm.cs then 32 else 0) + (if dm.bias then 32 else 0) +
    (if dm.act == .clamp then 2 else 0) + if dm.q then 32 else 0

/-- Takes a group of the epilogue if it is present. -/
def epiTake (present : Bool) (n : Nat) (l : List Nat) : Option (List Nat) × List Nat :=
  if present then (some (l.take n), l.drop n) else (none, l)

/-- The output elements of a drain, with their flags (R218). -/
def drainAll (dm : DrainMods) (acc : Acc) (epi : List Nat) : List FRes :=
  let (rs, l) := epiTake dm.rs 32 epi
  let (cs, l) := epiTake dm.cs 32 l
  let (bias, l) := epiTake dm.bias 32 l
  let (lim, l) := epiTake (dm.act == .clamp) 2 l
  let (qd, _) := epiTake dm.q 32 l
  let act : Activation := match dm.act with
    | .none => .none
    | .relu => .relu
    | .clamp => .clamp ((lim.map fun l => nth 0 l 0).getD 0) ((lim.map fun l => nth 0 l 1).getD 0)
  (accElems acc).mapIdx fun n a =>
    drainElem (rs.map fun l => nth 0 l (n / 32)) (cs.map fun l => nth 0 l (n % 32)) (bias.map fun l => nth 0 l (n % 32)) act
      (drainFmt dm.ot) dm.rnd.mode (qd.map fun l => nth 0 l (n % 32)) a

/-- mdrain (R218 to R220). -/
def execMdrain (md : Fin 8) (sa sx : Fin 16) (dm : DrainMods) (fm : FMods) (s : State) : Out :=
  let c := s.ctx.c
  let n := epiCount dm
  let w := (drainFmt dm.ot).width
  engineOp fm (.strm sa :: if n > 0 then [.strm sx] else []) true (unitFree c .drain && landed c md) 72
    (fun s =>
      match startAll s (sa :: if n > 0 then [sx] else []) with
      | some (t, d :: ds) =>
        let dx := nth Desc.zero ds 0
        if d.etype.toNat ≠ drainCode dm.ot || d.length < 128 * w || (n > 0 && (dx.etype != 5 || dx.length < 4 * n)) then
          .error { cause := .streamInvalid }
        else
          let cc := s.ctx.c.cc
          let epi := lanesOf 32 n (leNat (walkRead s.ctx.m.spad dx 0 (4 * n)))
          let out := drainAll dm s.ctx.c.m[md] epi
          let cells := walkCells d 0 (leBytes (128 * w) (packLanes w (out.map (·.1))))
          let accs := ((d.extents true).map fun e => (e, cc + 41, cc + 72)) ++
            if n > 0 then (dx.extents false).map fun e => (e, cc, cc + 31) else []
          let t := endWalk t sa
          let t := if n > 0 then endWalk t sx else t
          .ok (t.modC fun c => { holdUnit c .drain 32 with accDrain := c.accDrain.set md (cc + 32) }, accs, [.spad cells],
            out.foldl (fun f r => f ||| r.2) 0)
      | _ => .error { cause := .streamInvalid }) s

/-- The counts of mstat (R217). -/
def accStat (m : Acc) : Word :=
  let vs := (accElems m).map (fval fp32)
  let count := fun (p : FVal → Bool) => (vs.filter p).length
  BitVec.ofNat 64 (count FVal.isNan * 2 ^ 22 + count FVal.isInf * 2 ^ 11 +
    count fun v => !v.isNan && !v.isInf && !v.isZero)

/-- mstat (R217). -/
def execMstat (cd : Reg) (md : Fin 8) (fm : FMods) (s : State) : Out :=
  engineOp fm [.g cd] false (landed s.ctx.c md) 2 (fun s => .ok (s, [], [.cReg cd (accStat s.ctx.c.m[md])], 0)) s

end Sys2Proof.Machine
end

