-- ==== Sys2Proof/Machine/Peer.lean ====
section
/-!
DEFINITION. What this package does for others (R289, R290, R337, R343, R346, R348, R355): the requests of PEER frames as their home performs
them, and the answers to its own. The inside of a payload is the model's own (log 9).
-/

namespace Sys2Proof.Machine

/-! Payloads. -/

/-- The i-th word of a request, and its bytes after n words. -/
def reqWord (f : Frame) (i : Nat) : Nat := leNat ((f.payload.drop (8 * i)).take 8)
def reqBytes (f : Frame) (n : Nat) : List Byte := f.payload.drop (8 * n)

def reqName (f : Frame) (i : Nat) : Word := BitVec.ofNat 64 (reqWord f i)

/-- The answer to a request whose words 1 and 2 say who asks, in its encapsulation (R376). -/
def answerPeer (s : State) (f : Frame) (status cause : Nat) (data : List Byte) : State :=
  sendPeer (putFlow s { outFlow s f.spkg f.vd with eth := f.eth }) f.spkg f.vd .answer 0 [reqWord f 1, reqWord f 2, status, cause] data (min status 3)

/-- A fault found at this home, with the address at which it stands (R135). -/
def answerFault (s : State) (f : Frame) (c : Cause) (va : Nat) : State := answerPeer s f 1 (causeCode c) (leBytes 8 va)

/-- What a request comes to: it is over, or waits at this home. -/
abbrev Served := State × Bool

/-! Accesses (R289, R290). -/

/-- The one type of pages that a request takes, if it says so. -/
def onlyOf (rights : Nat) : Option MemType := if bits rights 15 8 = 0 then none else memType (bits rights 15 8 - 1)

/-- A page of another type than the one that a request takes. -/
def onlyFlt (s : State) (vd rights : Nat) (rs : List (Nat × Nat)) : Option Nat :=
  (onlyOf rights).bind fun want => match findPages s vd rs with
    | .ok fs => (fs.find? fun f => f.1.mt != want).map fun f => f.1.va
    | .error _ => none

/-- The loader's read of a code object that lies at this home, checked as the loader checks its own (R112). -/
def homeCode (s : State) (vd rights : Nat) (rs : List (Nat × Nat)) : Except Check (List (Place × Nat)) :=
  match rs.mapM fun r => (codePage s vd (rights % 2 == 1) (bits rights 17 17 == 1) r.1).map fun p => (p, r.2) with
  | .error (.remote _) => .error (.flt .address 0)
  | .error e => .error (xCheck e)
  | .ok ps => .ok ps

/-- A task's access at its home, checked as at its own package; `ext` are the pieces that a handle's extent covers (R137). The question what
pages are, for a `bind` or a `pflush`, reads none of their bytes (R160, R168). -/
def homePieces (s : State) (vd : Nat) (k : AKind) (rights : Nat) (ext rs : List (Nat × Nat)) : Except Check (List (Place × Nat)) :=
  if bits rights 17 16 ≠ 0 then homeCode s vd rights rs else
  match if bits rights 4 4 = 1 then onlyOf rights else none with
  | some want => match typedAt s vd (rights % 2 == 1) want rs with
    | .error (.remote _) => .error (.flt .address 0)
    | r => r
  | none => match onlyFlt s vd rights rs with
  | some a => .error (.flt .access a)
  | none => match checkPieces s ⟨vd, rights % 2 == 1, fun va n => ext.contains (va, n)⟩ k rs with
    | .error (.remote _) => .error (.flt .address 0)
    | .error e => .error e
    | .ok ps => match ps.find? (accessBad s k) with
      | some p => .error (if p.1.mt == .tile then .lostTile p.1.va else .memErr p.1.va)
      | none => .ok ps

/-- A request that meets a lost version waits for its rebuild, at its task's priority; one that is gone for good ends it (R139, R351, R353). -/
def waitTile (s : State) (f : Frame) (t : Tile) (prio : Nat) : Served :=
  if tileGone s t.vd t.name then (answerFault s f .tileLost f.addr, true) else (walkWanted s t.vd t.name prio, false)

/-- The version with lost bytes that an access meets. -/
def homeLost (s : State) (vd : Nat) (ps : List (Place × Nat)) : Option Tile :=
  ps.findSome? fun p => if p.1.mt == .tile then
      (s.tiles.find? fun t => t.vd == vd && t.va ≤ p.1.va && p.1.va < t.va + t.size && t.sealed && !t.resident)
    else none

/-- An access of another package's task, checked; a stage-2 fault holds it and goes to this home's supervisor alone (R290). -/
def homeAccess (s : State) (f : Frame) (k : AKind) (rights : Nat) (ext rs : List (Nat × Nat)) (go : List (Place × Nat) → Served) : Served :=
  if heldIn s f.vd 3 rs then (s, false) else
  match rs.findSome? fun r => dormHold s f.vd r.1 r.2 with
  | some t => (t, false)
  | none => match homePieces s f.vd k rights ext rs with
    | .error (.flt c a) => (answerFault s f c a, true)
    | .error (.held g a) =>
      ((holdAccess s (vdPart s f.vd) f.vd 255 g (BitVec.ofNat 64 a) 3 (k == .fetch) k.writes (.host f.flow)).1, false)
    | .error (.lostTile a) => match tileAt s f.vd a with
      | some t => if t.sealed && t.resident && (extentLost s t).isNone then (answerFault s f .tileLost a, true) else (tileHit s t, false)
      | none => (answerFault s f .memUncorrectable a, true)
    | .error (.memErr a) => (answerFault s f .memUncorrectable a, true)
    | .error (.remote _) | .error (.ok _) => (answerFault s f .memUncorrectable f.addr, true)
    | .ok ps => match homeLost s f.vd ps with
      | some t => waitTile s f t (bits rights 31 28)
      | none => go ps

/-- A place as an answer names it. -/
def replyPage (s : State) (p : Place) (pa n : Nat) : RPage := ⟨pa, n, p.mt, globalObj s.pkg.num (p.obj.getD 0)⟩

/-- The pages of an access as its answer names them. -/
def replyPages (s : State) (ps : List (Place × Nat)) : List RPage := ps.map fun p => replyPage s p.1 p.1.pa p.2

/-! Waits for the durable tier (R297, R299). -/

/-- The units of some cells that durable stores of this package still wait for. -/
def pendingUnits (s : State) (hit : Nat → Bool) : List Nat := ((s.durPend.filter fun d => d.cells.any fun c => hit c.1).map durUnit).eraseDups

def inPlaces (ps : List (Place × Nat)) (pa : Nat) : Bool := ps.any fun p => p.1.pa ≤ pa && pa < p.1.pa + p.2

def inRange (s : State) (vd va len pa : Nat) : Bool :=
  (pieces va len).any fun p => (hwTranslate s vd p.1).any fun q => q ≤ pa && pa < q + p.2

/-- The answer to a request whose durable bytes have been written: it is given once they have been accepted (R299, R305). -/
def answerLater (s : State) (f : Frame) (units : List Nat) (data : List Byte) : Served :=
  if units.isEmpty then (answerPeer s f 0 0 data, true)
  else
    let w := { f with payload := wordsBytes ([9, reqWord f 1, reqWord f 2, units.length] ++ units) ++ data }
    ({ s with asked := s.asked ++ [w] }, true)

/-- Such an answer, tried again. -/
def serveWait (s : State) (f : Frame) : Served :=
  let n := reqWord f 3
  let units := (List.range n).map fun i => reqWord f (4 + i)
  if s.durPend.any fun d => units.contains (durUnit d) then (s, false) else (answerPeer s f 0 0 (reqBytes f (4 + n)), true)

/-- The task of another package that asks, as the owner of its durable stores here; its handler's are its own (R299). -/
def farStorer (f : Frame) : Nat := farUid f.spkg (reqWord f 1 % handlerUid)

/-- A durable store of another package's task has been performed here in a persist epoch: it is held back if that package says so, and told to it
once it has been accepted (R297, R299). -/
def noteDur (s : State) (f : Frame) (epoch hold : Nat) : State :=
  let key := (farStorer f, epoch)
  { s with
    durHeld := if hold = 1 && !s.durHeld.contains key then key :: s.durHeld else s.durHeld
    asked := s.asked ++ [{ f with payload := wordsBytes [15, reqWord f 1 % handlerUid, epoch] }] }

/-- Such a notice, tried again. -/
def serveNotice (s : State) (f : Frame) : Served :=
  if s.durPend.any fun d => d.uid == farStorer f && d.epoch == reqWord f 2 then (s, false)
  else (sendPeer s f.spkg f.vd .answer 0 [reqWord f 1, tagDur, 0, reqWord f 2] [], true)

/-- A package says that its task's earlier persist epochs have been accepted. -/
def takeAccept (s : State) (f : Frame) : State :=
  { s with durHeld := s.durHeld.filter (· != (farUid f.spkg (reqWord f 1), reqWord f 2)) }

/-! Loads and stores. -/

/-- The kind with which a request is checked. -/
def loadKind (rights : Nat) : AKind :=
  if bits rights 6 6 = 1 then .store else if bits rights 7 7 = 1 then .fetch else if bits rights 5 5 = 1 then .devLoad else .load

/-- A host's access that its package has sent here, checked as this home checks its own hosts' (R289, R382). -/
def serveHost (s : State) (f : Frame) (write : Bool) (rs : List (Nat × Nat)) (go : List (Place × Nat) → State) : Served :=
  match s.vd? f.vd with
  | none => (answerPeer s f 3 (causeCode .address) [], true)
  | some v =>
    if heldIn s v.num 3 rs then (s, false) else
    match hostPieces s v write rs with
    | .ok ps => (go ps, true)
    | .refused => (answerPeer s f 2 0 [], true)
    | .fault t => (answerFault t f .access f.addr, true)
    | .asleep t => (t, false)
    | .held g a => ((holdAccess s v.part v.num 255 g (BitVec.ofNat 64 a) 3 false write (.host f.flow)).1, false)
    | .away _ => (answerFault s f .address f.addr, true)

/-- A load; or the question what ranges of pages are; with bit 3 a `pflush` of their bytes. A load at which the spec lays no register down has
no answer. -/
def serveLoad (s : State) (f : Frame) : Served :=
  let rights := reqWord f 3
  let all := (List.range (reqWord f 6)).map fun i => ((reqWord f (7 + 3 * i), reqWord f (8 + 3 * i)), reqWord f (9 + 3 * i) == 1)
  if bits rights 18 18 = 1 then
    serveHost s f false (all.map (·.1)) fun ps => answerPeer s f 0 0 (replyBytes ⟨replyPages s ps, placesBytes s ps⟩)
  else
  homeAccess s f (loadKind rights) rights ((all.filter (·.2)).map (·.1)) (all.map (·.1)) fun ps =>
    let say := fun (s : State) (data : List Byte) => (answerPeer s f 0 0 (replyBytes ⟨replyPages s ps, data⟩), true)
    if bits rights 3 3 = 1 then
      say (noteDur (ps.foldl (fun s p => flushAs s (farStorer f) (reqWord f 4) p.1.pa p.2) s) f (reqWord f 4) (reqWord f 5)) []
    else if bits rights 4 4 = 1 || bits rights 6 6 = 1 then say s []
    else match ps with
      | [(p, n)] => if p.mt == .dev then match devRead s p.pa n with
            | some v => say s (leBytes n v.toNat)
            | none => (s, false)
          else say s (placesBytes s ps)
      | _ => say s (placesBytes s ps)

/-- Where every byte of a store lies: a page without a byte to write has no place. -/
def storePages (s : State) (ps : List (Place × Nat)) (rs : List (Nat × Nat)) (va len : Nat) : List RPage :=
  (pieces va len).map fun p => match (rs.zip ps).find? fun r => p.1 ≤ r.1.1 && r.1.1 < p.1 + p.2 with
    | none => ⟨0, p.2, .priv, 0⟩
    | some r => replyPage s r.2.1 (r.2.1.pa - (r.1.1 - p.1)) p.2

/-- The Crucible asks: its SHRD stores are performed at once (R319). -/
def ringAsks (uid : Nat) : Bool := 2 ^ 40 ≤ uid && uid < 2 ^ 41

/-- A store: performed here; SHRD memory is left to the storing task's log, a SYNC store of a rebuild task has no effect (R270, R352). It is
answered at once, a durable one of a task before it is accepted (R298); the Crucible's own once it is. -/
def serveStore (s : State) (f : Frame) : Served :=
  let n := reqWord f 3
  let rights := reqWord f 4
  let k := reqWord f 7
  let bs := ((reqBytes f (8 + k)).take n).zip (((reqBytes f (8 + k)).drop n).map fun b => b != 0)
  let rs := activeRanges f.addr bs
  if bits rights 18 18 = 1 then
    serveHost s f true (pieces f.addr n) fun ps => answerPeer (writePlaces s ps (bs.map (·.1))) f 0 0 (replyBytes ⟨replyPages s ps, []⟩)
  else
  let ext := (rs.zipIdx.filter fun r => reqWord f (8 + r.2) = 1).map (·.1)
  homeAccess s f (if bits rights 5 5 = 1 then .devStore else .store) rights (if k = 0 then [] else ext) rs fun ps =>
    let pages := storePages s ps rs f.addr n
    let data := replyBytes ⟨pages, []⟩
    let ring := ringAsks (reqWord f 1)
    let put := fun (s : State) (p : Place) (cells : List Host.Cell) =>
      if (p.mt == .shrd && !ring) || (p.mt == .sync && bits rights 2 2 = 1) then s
      else if ring then performAt s 0 0 cells else performAt s (farStorer f) (reqWord f 5) cells
    let store := fun (s : State) =>
      let t := putPlaces put s ps (activeBytes f.addr bs rs)
      if ring then answerLater t f (pendingUnits t (inPlaces ps)) data
      else (answerPeer (if farDur pages then noteDur t f (reqWord f 5) (reqWord f 6) else t) f 0 0 data, true)
    match ps with
    | [(p, k)] => if p.mt == .dev then match devWrite s p.pa k (BitVec.ofNat 64 (leNat (bs.map (·.1)))) with
          | some t => (answerPeer t f 0 0 data, true)
          | none => (s, false)
        else store s
    | _ => store s

def amoOpOf : Nat → AmoOp
  | 0 => .add | 1 => .min | 2 => .max | 3 => .or | 4 => .and | 5 => .xor | 6 => .swap | _ => .cas

def amoTypeOf : Nat → AmoType
  | 0 => .i32 | 1 => .i64 | 2 => .n32 | 3 => .n64 | _ => .f32

/-- An atomic; a deferred one is only checked here (R163, R165). -/
def serveAmo (s : State) (f : Frame) : Served :=
  let rights := reqWord f 3
  let deferred := reqWord f 4 = 1
  let op := amoOpOf (reqWord f 5)
  let ty := amoTypeOf (reqWord f 6)
  homeAccess s f (if deferred then .damo else .amo) rights [] [(f.addr, amoWidth ty / 8)] fun ps => match ps with
    | (p, _) :: _ =>
      let say := fun (s : State) (old : Nat) => answerPeer s f 0 0 (replyBytes ⟨replyPages s ps, leBytes 8 old⟩)
      if deferred || bits rights 2 2 = 1 then (say s 0, true)
      else
        let (s, old) := amoAt s p.pa op ty (reqName f 7) (reqName f 8)
        (say s old, true)
    | [] => (s, true)

/-- The entries that a frame carries, in their order. -/
def readEntries : Nat → List Byte → List LogEntry
  | 0, _ => []
  | n + 1, bs =>
    let w := fun i => leNat ((bs.drop (8 * i)).take 8)
    if w 0 = 0 then
      let b := bs.drop 16
      let cells := (List.range (w 1)).map fun i => (leNat ((b.drop (9 * i)).take 8), nth 0 b (9 * i + 8))
      .store 0 0 (nth (0, 0) cells 0).1 cells :: readEntries n (b.drop (9 * w 1))
    else .update 0 (w 1) (amoOpOf (w 2)) (amoTypeOf (w 3)) (BitVec.ofNat 64 (w 4)) :: readEntries n (bs.drop 40)

/-- The bytes that some entries write. -/
def entryPas (l : List LogEntry) : List Nat := l.flatMap fun
  | .store _ _ _ cells => cells.map (·.1)
  | .update _ pa .. => [pa]

/-- Entries of a commit, bound stores, or the bytes of a chunk, at their places, whole (R155, R267, R270, R355): they never fault, and wait for a
dormancy region that sleeps (R370). -/
def serveCommit (s : State) (f : Frame) : Served :=
  let l := readEntries (reqWord f 5) (reqBytes f 6)
  match (entryPas l).findSome? (dormHoldPa s) with
  | some t => (t, false)
  | none =>
  let t := l.foldl (fun s e => match e with
    | .store _ _ _ cells => performAt s (farStorer f) (reqWord f 3) cells
    | _ => applyEntry s 0 e) s
  let t := if (entryPas l).any isDur then noteDur t f (reqWord f 3) (reqWord f 4) else t
  (answerPeer t f 0 0 [], true)

/-! Answers. -/

/-- Changes the context that asked: a task's own, or its handler's. -/
def modAsker (s : State) (uid : Nat) (f : Context → Context) : State :=
  let h := uid ≥ handlerUid
  let mine := fun (x : Context) => x.uid == (if h then uid - handlerUid else uid) && x.sup == h
  if s.live && mine s.ctx then s.modCtx f else { s with parked := mapIf mine f s.parked }

/-- What a home says of an operand of a task (R329). A WAITING task whose operand has been lost there rests on it anew, which wants it (R351). -/
def takeOperand (s : State) (uid home status : Nat) (name : Word) : State :=
  match s.task? uid with
  | none => s
  | some k =>
    let lost := status = 1 && k.away.contains name && k.state == .waiting
    let s := s.modTask uid fun k => match status with
      | 0 => { k with away := if k.away.contains name then k.away else name :: k.away }
      | 1 => { k with away := k.away.filter (· != name) }
      | _ => { k with away := k.away.filter (· != name), gone := if k.gone.contains name then k.gone else name :: k.gone }
    if lost then restOn s k name home else s

/-- An answer to a request of this package (R289). -/
def takeReply (s : State) (f : Frame) : State :=
  let uid := reqWord f 1
  let tag := reqWord f 2
  let a : Answer := ⟨tag, reqWord f 3, reqWord f 4, reqBytes f 5⟩
  if uid ≥ 2 ^ 43 then
    { s with far := mapIf (fun r => r.who == uid - 2 ^ 43 && r.va == tag) (fun r => { r with answer := some a }) s.far }
  else if uid ≥ 2 ^ 42 then stageAnswer s (uid - 2 ^ 42) a.status (reply a).data
  else if ringAsks uid then modEntry s f.vd (uid - 2 ^ 40) tag fun e => { e with answers := e.answers ++ [a] }
  else if tag = tagRel then modAsker s uid fun x => { x with m := { x.m with asks := x.m.asks - 1 } }
  else if tag = tagTask then s.modTask uid fun k => { k with acks := k.acks - 1 }
  else if tag = tagGang then
    { s with gangs := mapIf (fun g => !g.final && g.members.any fun m => m.uid == uid) (fun g => { g with acks := g.acks - 1 }) s.gangs }
  else if tag = tagDur then
    openDur { s with durAway := match s.durAway.find? fun d => d.uid == uid && d.home == f.spkg && d.epoch == reqWord f 4 with
      | some d => s.durAway.erase d
      | none => s.durAway }
  else if tag = tagOperand then
    takeOperand s uid f.spkg a.status (BitVec.ofNat 64 (leNat (a.data.take 8)))
  else modAsker s uid fun x => { x with
    m := { x.m with answers := a :: x.m.answers.filter fun r => r.tag != tag }
    c := if isCodeTag .c tag && x.c.block == some .wait then { x.c with block := none } else x.c }

/-! Gangs that span packages (R337, R355). -/

/-- The record of a gang that another package reports first. -/
def gangStub (s : State) (f : Frame) (level did size : Nat) : State :=
  if s.gangs.any fun g => g.vd == f.vd && g.level == level && g.did == did && g.state != .ended then s
  else { s with gangs := s.gangs ++ [⟨f.vd, level, did, size, vdPart s f.vd, .forming, [], 0, 0, false, [], [], 0, 0, [], [], false, false, 0, []⟩] }

/-- A report about a gang. -/
def takeGang (s : State) (f : Frame) : State :=
  let level := reqWord f 1
  let did := reqWord f 2
  let a := reqWord f 4
  let b := reqWord f 5
  let s := if reqWord f 3 = 0 then gangStub s f level did (b / 16) else s
  let act := fun (g : Gang) => match reqWord f 3 with
    | 0 =>
      if g.size ≠ b / 16 || g.others.any (fun m => m.idx == a) || g.members.any (fun m => m.idx == a) then g else
      let os := g.others ++ [⟨a, f.spkg, b % 16, 0, false, false⟩]
      { g with others := os, state := if g.state == .forming && g.members.length + os.length = g.size then .waiting else g.state }
    | 1 => { g with reported := if g.reported.contains a then g.reported else a :: g.reported }
    | 2 => if g.state == .reserving then { g with state := .queued, members := g.members.map (fun m => { m with bank := none }), reported := [] } else g
    | 3 => { g with others := mapIf (fun m => m.idx == a) (fun m => { m with dbars := b }) g.others }
    | 4 =>
      let os := mapIf (fun m => m.idx == a) (fun m => { m with ended := true, dbars := b }) g.others
      { g with others := os, state := if g.members.all (·.ended) && os.all (·.ended) && g.state != .forming then .ended else g.state }
    | 7 => { g with readied := g.readied.filter (· != f.spkg) ++ (if b = 1 then [f.spkg] else []) }
    | _ => if a = g.phase then { g with turn := max g.turn b } else g
  let mine := fun (g : Gang) => g.vd == f.vd && g.level == level && g.did == did && !g.final
  if reqWord f 3 = 6 then (s.gangs.filter fun g => mine g && g.state == .running).foldl preemptGang s
  else if reqWord f 3 = 8 then (s.gangs.filter fun g => mine g && g.state == .forming).foldl unformed s
  else { s with gangs := mapIf mine act s.gangs }

/-! Records and replicas (R343, R346, R350). -/

/-- A lineage record read from its 128 bytes (R342). -/
def parseRec (bs : List Byte) : LinRec :=
  let w := fun i => leNat ((bs.drop (8 * i)).take 8)
  let w3 := w 3
  { name := BitVec.ofNat 64 (w 0), kcopy := w 1, digest := BitVec.ofNat 64 (w 2), root := bits w3 63 63 = 1, taint := bits w3 62 62 = 1
    anchor := bits w3 61 61 = 1, apend := bits w3 60 60 = 1, durs := bits w3 59 59 = 1, lost := bits w3 58 58 = 1
    rbld := bits w3 57 57 = 1, freed := bits w3 56 56 = 1, depth := bits w3 51 47, ord := bits w3 46 45, size := bits w3 31 0
    replica := BitVec.ofNat 64 (w 4), need := w 5, tqidx := w 6, tpseq := w 7
    acq := (List.range (min (bits w3 55 52) 8)).map fun i => BitVec.ofNat 64 (w (8 + i)) }

/-- A kept copy that came with a record stands at a place of this package (R344). -/
def placeKept (s : State) (vd home kcopy g : Nat) (bs : List Byte) : State × Nat :=
  if kcopy = 0 then (s, 0) else addFarKept s vd g (globalKey home kcopy) false bs

/-- A record that another package sends, with its kept copy. -/
def recordOfFrame (s : State) (f : Frame) : State × LinRec :=
  let b := reqBytes f 3
  let r := parseRec (b.take 128)
  let (s, a) := placeKept s f.vd f.spkg r.kcopy (tileUnit r.name) ((b.drop 128).take 256)
  (s, { r with kcopy := a })

/-- The secondary copy of another home's record: at its place here (R343). -/
def keepRecord (s : State) (f : Frame) : State :=
  let (s, r) := recordOfFrame s f
  let old := s.kept.find? fun x => x.name == r.name
  let r := { r with place := ((old.map LinRec.place).filter (· ≠ 0)).getD (linePlace s f.vd (tileUnit r.name)) }
  lineWrite { s with kept := r :: s.kept.filter fun x => x.name != r.name } r.place (lrecBytes r)

/-- The bytes of another home's replica, in the anchor pool of this package's VD (R346): their address, or none without space. -/
def storeReplica (s : State) (v : Vd) (name : Word) (bs : List Byte) : State × Nat :=
  let n := bs.length + 512
  match [0, 1, 2, 3].findSome? fun d => poolFind s v n d with
  | none => (s, 0)
  | some va =>
    let s := s.modVd v.num fun v => { v with replicas := (va, n, name) :: v.replicas }
    (ordWrite s v.num va bs, va)

/-- An answer of one of Lehr's steps, given once the bytes have been accepted: it is one of the frames that wait here. -/
def sayLater (s : State) (f : Frame) (vd va len : Nat) (ws : List Nat) : State :=
  let w := { f with payload := wordsBytes ([11, va, len, ws.length] ++ ws) }
  if rangePending s vd va len then { s with asked := s.asked ++ [w] } else sendPeer s f.spkg vd .replica 0 ws []

/-- Such an answer, tried again. -/
def serveSay (s : State) (f : Frame) : Served :=
  if rangePending s f.vd (reqWord f 1) (reqWord f 2) then (s, false)
  else (sendPeer s f.spkg f.vd .replica 0 ((List.range (reqWord f 3)).map fun i => reqWord f (4 + i)) [], true)

/-- The buddy of a home learns that it is (R343, R350). -/
def takeBuddy (s : State) (f : Frame) : State :=
  if reqWord f 2 = 1 then s.modVd f.vd fun v => { v with serves := if v.serves.contains f.spkg then v.serves else f.spkg :: v.serves } else s

/-- A kept copy stands at a new place, which its records, in both copies, its tasks and their TDESC name from then on (R343, R344, R350). -/
def renameKept (s : State) (old new : Nat) : State :=
  let named := fun (x : Context) => if x.tdesc == BitVec.ofNat 64 old then { x with tdesc := BitVec.ofNat 64 new } else x
  let hit := (s.recs.filter fun r => r.kcopy == old).map LinRec.name
  let far := s.kept.filter fun r => r.kcopy == old
  let s := { s with
    recs := mapIf (fun r => r.kcopy == old) (fun r => { r with kcopy := new }) s.recs
    kept := mapIf (fun r => r.kcopy == old) (fun r => { r with kcopy := new }) s.kept
    tasks := mapIf (fun k => k.kcopy == old) (fun k => { k with kcopy := new }) s.tasks
    ctx := named s.ctx
    parked := s.parked.map named }
  far.foldl (fun s r => lineWrite s r.place (lrecBytes { r with kcopy := new })) (hit.foldl shareRec s)

/-! Copies in the lineage areas that a loss of memory takes (R343, R350). -/

/-- Whether a place has lost its memory; where a partition has no place, the base die of the unit stands for it. -/
def copyGone (s : State) (place g : Nat) : Bool := if place = 0 then s.pkg.basesOut.getLsbD g else badUnit s place || badUnit s (place + 64)

/-- What a loss of memory leaves of a record: its primary copy, and its secondary one, where that lies on this package. -/
def recAfter (s : State) (r : LinRec) : LinRec :=
  let g := tileUnit r.name
  let away := (secondaryAt s (tileVd r.name)).isSome
  { r with prim := r.prim && !copyGone s r.place g, second := r.second && (away || !copyGone s r.place2 ((g + 1) % 4)) }

/-- A version of whose record both copies are gone, and of which neither the bytes nor a replica survive (R350). -/
def recGone (s : State) (r : LinRec) : Bool :=
  !r.prim && !r.second && !(r.complete && r.replica ≠ 0) && !(s.tile? (tileVd r.name) r.name).any fun t => t.sealed && t.resident

/-- The base die after that of a place: where the other copy goes. -/
def nextUnit (pa : Nat) : Nat := (unitAt pa + 1) % 4

/-- One kept copy after a loss: its secondary copy is the primary one from now on, or is fetched from the buddy package; a secondary one that is
missing is written elsewhere. One held for another home is asked for there again. -/
def mendKept (s : State) (k : Kept) : State :=
  if k.src ≠ 0 then
    if k.second && keptBad s k.pa then
      sendPeer { s with keeps := s.keeps.erase k } (keyHome k.src) k.vd .replica 0 [19, keyPa k.src] []
    else s
  else if keptBad s k.pa then
    if k.pa2 ≠ 0 && !keptBad s k.pa2 then
      let a := linePlace s k.vd (nextUnit k.pa2)
      let s := lineWrite (renameKept s k.pa k.pa2) a (memGetN s.mem k.pa2 256)
      { s with keeps := mapIf (fun x => x == k) (fun x => { x with pa := k.pa2, pa2 := a }) s.keeps }
    else match secondaryAt s k.vd with
      | some b => sendPeer s b k.vd .replica 0 [10, k.pa] []
      | none => s
  else if (secondaryAt s k.vd).isNone && (k.pa2 = 0 || keptBad s k.pa2) then
    let a := linePlace s k.vd (nextUnit k.pa)
    let s := lineWrite s a (memGetN s.mem k.pa 256)
    { s with keeps := mapIf (fun x => x == k) (fun x => { x with pa2 := a }) s.keeps }
  else s

/-- What follows for the lineage areas once memory has gone. Records with a copy left are written anew by Lehr (R350). -/
def copiesLost (s : State) : State :=
  let s := { s with recs := s.recs.map (recAfter s) }
  let s := s.keeps.foldl mendKept s
  let s := (s.kept.filter fun r => copyGone s r.place (tileUnit r.name)).foldl (fun s r =>
    sendPeer { s with kept := mapIf (fun x => x.name == r.name) (fun x => { x with place := 0 }) s.kept } (tileHome r.name) (tileVd r.name) .replica 0 [18, r.name.toNat] []) s
  (s.recs.filter (recGone s)).foldl (fun s r => loseVersion s (tileVd r.name) r.name) s

/-- The bytes of a kept copy whose primary has been lost have come from the buddy package. -/
def keptMoved (s : State) (vd old : Nat) (bs : List Byte) : State :=
  match s.keeps.find? fun k => k.vd == vd && k.pa == old && k.src == 0 with
  | none => s
  | some k =>
    let (s, a) := addKept { s with keeps := s.keeps.erase k } vd (unitAt old) bs
    renameKept s old a

/-- A lineage or replica step of another package. -/
def takeReplica (s : State) (f : Frame) : State :=
  let name := reqName f 2
  match s.vd? f.vd with
  | none => s
  | some v => match reqWord f 1 with
    | 0 =>
      let va := localVa f.addr
      let size := reqWord f 3
      let ok := rangeGood s v.num va size
      sendPeer s f.spkg v.num .replica 0 [3, name.toNat, b2n ok] (if ok then hwRead s v.num va size else [])
    | 1 => match storeReplica s v name (reqBytes f 4) with
      | (s, 0) => sendPeer s f.spkg v.num .replica 0 [4, name.toNat, 0] []
      | (s, va) => sayLater s f v.num va (reqWord f 3) [4, name.toNat, va]
    | 2 => sendPeer (keepRecord s f) f.spkg v.num .replica 0 [8, name.toNat] []
    | 3 => match s.rec? name with
      | none => s
      | some r =>
        let bs := reqBytes f 4
        if !r.rbld then s
        else if reqWord f 3 = 1 && digest bs == r.digest then
          match tilePlace s v r with
          | (s, some va) => resealed (hwWrite s v.num va bs) v name
          | (s, none) => modShared s name fun r => { r with rbld := false }
        else walk (modShared s name fun r => { r with rbld := false, replica := 0 }) v name r.prio
    | 4 => match s.rec? name with
      | none => s
      | some r =>
        if reqWord f 3 = 0 then logMgmt (s.modRec name fun r => { r with lstep := 3 }) 6 7 v.num [v.num, anpend s v.num]
        else
          let s := s.modRec name fun r => { r with lstep := 2, lplace := BitVec.ofNat 64 (2 ^ 55 + f.spkg * 2 ^ 44 + reqWord f 3 % 2 ^ 44) }
          sendPeer s f.spkg v.num .replica 0 [13, name.toNat, reqWord f 3, r.size] (lrecBytes r)
    | 5 =>
      let (s, r) := recordOfFrame s f
      addRec s r
    | 6 =>
      let bs := reqBytes f 4
      if (s.tile? v.num name).isSome then s else
      match placeTile s v name bs.length with
      | (s, none) => modShared s name fun r => { r with lost := true }
      | (s, some va) => hwWrite { s with tiles := ⟨name, v.num, va, bs.length, true, true, 0, false, false, true, 0, false⟩ :: s.tiles } v.num va bs
    | 7 => freeKept ({ s with kept := s.kept.filter fun x => x.name != name }.modVd v.num fun v =>
        { v with replicas := v.replicas.filter fun x => x.2.2 != name })
    | 8 => putsDone (s.modRec name fun r => { r with unacked := r.unacked - 1 })
    | 9 => (addFarKept s v.num (reqWord f 3 % 4) (globalKey f.spkg name.toNat) true (reqBytes f 4)).1
    | 10 => match s.keeps.find? fun k => k.vd == v.num && k.src == globalKey f.spkg name.toNat with
      | some k => sendPeer s f.spkg v.num .replica 0 [15, name.toNat] (keptRead s k.pa)
      | none => s
    | 12 => freeKept { s with keeps := mapIf (fun k => k.vd == v.num && k.src == globalKey f.spkg name.toNat) (fun k => { k with second := false }) s.keeps }
    | 13 =>
      let va := reqWord f 3 + reqWord f 4
      sayLater (ordWrite s v.num va (reqBytes f 5)) f v.num va 128 [14, name.toNat]
    | 14 => (s.rec? name).elim s fun r => if r.lstep = 2 then anchorDone s name r.lplace else s
    | 15 => keptMoved s v.num name.toNat (reqBytes f 3)
    | 16 => sendPeer (takeBuddy s f) f.spkg v.num .replica 0 [17, b2n (v.buddy = f.spkg)] []
    | 17 => takeBuddy s f
    | 18 => shareRec s name
    | 19 => match s.keeps.find? fun k => k.vd == v.num && k.src == 0 && k.pa == name.toNat with
      | some k => sendPeer s f.spkg v.num .replica 0 [9, k.pa, unitAt k.pa] (keptRead s k.pa)
      | none => s
    | 20 => { s with recs := s.recs.filter fun r => r.name != name }
    | 21 => match storeReplica s v name (reqBytes f 4) with
      | (s, 0) => s
      | (s, va) => sayLater s f v.num va (reqBytes f 4).length [22, name.toNat, va]
    | 22 => sendPeer s f.spkg v.num .replica 0 [23, name.toNat, reqWord f 3] []
    | 23 => sendPeer (modShared s name fun r => { r with replica := reqName f 3 }) f.spkg v.num .replica 0 [24, name.toNat] []
    | 24 => s.modVd v.num fun v => { v with replicas := v.replicas.filter fun x => x.2.2 != name }
    | _ => s

/-! Requests about versions of this home (R157 to R159, R169, R329, R345, R347). -/

/-- The owner, as this home knows it, of a version that another package's task allocates. -/
def farOwner (f : Frame) : Nat := farUid f.spkg (reqWord f 1)

def farTile (s : State) (f : Frame) (name : Word) : Option Tile :=
  s.tiles.find? fun t => t.vd == f.vd && t.name == name && t.owner == farOwner f && (!t.sealed || t.shadow)

/-- The task of another package that a request comes from: handlers are tasks of their own. -/
def mineRest (f : Frame) (name : Word) (r : Rest) : Bool := r.name == name && r.pkg == f.spkg && r.uid == reqWord f 1

/-- A task rests on a version from now on; on one that is FREED only once that has been rebuilt (R348, R353). -/
def addRest (s : State) (f : Frame) (name : Word) (operand : Bool) : State :=
  if s.rests.any (mineRest f name) then
    { s with rests := mapIf (mineRest f name) (fun r => { r with operand := r.operand || operand }) s.rests }
  else
    let ok := match s.rec? name with
      | some r => !r.freed
      | none => !(s.tile? f.vd name).any Tile.sealed
    { s with rests := ⟨name, f.spkg, reqWord f 1, operand, ok⟩ :: s.rests }

/-- `tacq`. -/
def serveAcquire (s : State) (f : Frame) (v : Vd) (name : Word) : State :=
  let rest := s.rests.find? (mineRest f name)
  let may := rest.any Rest.ok || match s.rec? name with
    | some r => !r.freed
    | none => false
  let give := fun (s : State) (t : Tile) =>
    let s := { s with rests := s.rests.filter fun r => !(mineRest f name r && !r.operand) }
    answerPeer (s.modExtent v.num t.va fun t => { t with claims := t.claims + 1 }) f 0 0 (wordsBytes [t.va, t.size])
  match if rest.any Rest.ok then s.stale? v.num name else none with
  | some t => give s t
  | none =>
  if tileReady s v.num name && may then
    match s.tile? v.num name with
    | none => s
    | some t =>
      let s := firstCheck s t
      if !tileReady s v.num name then answerPeer s f 1 0 [] else give s t
  else
    let gone := tileGone s v.num name || ((s.rec? name).isNone && !rest.any Rest.ok && (s.tile? v.num name).any Tile.sealed)
    let s := if gone then s else walkWanted (addRest s f name false) v.num name (reqWord f 5)
    answerPeer s f (if gone then 2 else 1) (causeCode .tileLost) []

/-- A task of another package has been admitted with an operand of this home, or waits for it again: it is told how the version stands, and a
lost one is wanted (R329, R351). -/
def serveRest (s : State) (f : Frame) (v : Vd) (name : Word) : State :=
  let s := walkWanted (addRest s f name true) v.num name (reqWord f 5)
  match s.rests.find? (mineRest f name) with
  | some r => tellRest s v.num r
  | none => s

/-- The end of such an allocation, once the seal entry of a durable one has been accepted: the zero bytes join the task's current persist epoch
(R305). -/
def serveAllocEnd (s : State) (f : Frame) : Served :=
  let va := reqWord f 3
  let dur := reqWord f 8 = 1
  if dur && rangePending s f.vd (va - 512) 512 then (s, false)
  else
    let s := zeroFill s (farStorer f) (reqWord f 6) f.vd va (reqWord f 4)
    let s := if dur then noteDur s f (reqWord f 6) (reqWord f 7) else s
    (answerPeer s f 0 0 (wordsBytes [va, reqWord f 5]), true)

/-- `talloc` for a task of another package. -/
def serveAlloc (s : State) (f : Frame) (v : Vd) (name : Word) : Served :=
  match allocTile s v (farOwner f) (reqWord f 6 = 1) name (reqWord f 5) with
  | .error c => (answerFault s f c 0, true)
  | .ok (s, t) =>
    let ws := [16, reqWord f 1, reqWord f 2, t.va, t.size, b2n t.shadow, reqWord f 7, reqWord f 8, b2n (tileDur name)]
    let w := { f with payload := wordsBytes ws }
    match serveAllocEnd s w with
    | (t, true) => (t, true)
    | (t, false) => ({ t with asked := t.asked ++ [w] }, true)

/-- The end of such a seal, once both copies of the record are written (R343). -/
def serveSealEnd (s : State) (f : Frame) (v : Vd) (name : Word) : Served :=
  match farTile s f name with
  | none => (answerPeer s f 2 (causeCode .handleState) [], true)
  | some t =>
    if copiesWait s name then (s, false) else
    let bad := reqWord f 5 = 1
    let dg := tileDigest s v.num t.va t.size
    let durs := reqWord f 7 = 1
    if t.shadow then (answerPeer (shadowDone s v.num t.owner name dg bad) f 0 0 [], true) else
    let s := s.modTile v.num name fun t => { t with claims := t.claims + 1 }
    let s := match s.rec? name with
      | some r => if reqWord f 8 = 1 then reseal s v r dg bad else setSealed s v name
      | none => setSealed s v name
    answerLater s f (if durs then pendingUnits s (inRange s v.num (t.va - 512) 512) else []) []

/-- `tseal` or `pseal` of such a version: the durable header, the record, the seal (R305, R342). -/
def serveSeal (s : State) (f : Frame) (v : Vd) (name : Word) : Served :=
  match farTile s f name with
  | none => (answerPeer s f 2 (causeCode .handleState) [], true)
  | some t =>
    let n := reqWord f 14
    let dg := tileDigest s v.num t.va t.size
    let (s, kc) := placeKept s v.num f.spkg (reqWord f 10) (tileUnit name) (reqBytes f (15 + 2 * n))
    let w : Sealing :=
      { taint := reqWord f 5 = 1, member := reqWord f 6 = 1, durs := reqWord f 7 = 1, kcopy := kc, ord := reqWord f 11, tqidx := reqWord f 12
        tpseq := reqWord f 13, acq := (List.range n).map fun i => reqName f (15 + i)
        depths := (List.range n).map fun i => if reqWord f (15 + n + i) = 0 then none else some (reqWord f (15 + n + i) - 1) }
    let r := ((s.rec? name).filter fun _ => reqWord f 8 = 1).getD (sealedRec v name t.size dg w)
    let s := if w.durs && !t.shadow then
        writeSeal (ordWrite s v.num (t.va - 512) (lrecBytes r)) v.num (t.va - 512) ⟨name, dg, t.size, 2⟩
      else s
    let s := if t.shadow || (s.rec? name).isSome then s else writeRec s v t dg w
    match serveSealEnd s f v name with
    | (t, true) => (t, true)
    | (t, false) => ({ t with asked := t.asked ++ [{ f with payload := wordsBytes (10 :: (List.range 14).map fun i => reqWord f (i + 1)) }] }, true)

/-- The end of another package's claim: one that has not been sealed is freed. -/
def serveRelease (s : State) (f : Frame) (name : Word) : State :=
  match farTile s f name with
  | some t => releaseTile s t
  | none => releaseAll (s.modExtent f.vd (reqWord f 5) fun t => { t with claims := t.claims - 1 })

/-- The end of such a TILEPUT: the version has been sealed. -/
def servePutEnd (s : State) (f : Frame) (name : Word) : Served :=
  let s := putsDone s
  if (s.tile? f.vd name).all (·.sealed) then (answerPeer s f 0 0 [], true) else (s, false)

/-- TILEPUT of a version of this home (R319). -/
def servePut (s : State) (f : Frame) (v : Vd) (name : Word) : Served :=
  let bs := reqBytes f 8
  let no := (answerPeer s f 2 0 [], true)
  if (s.tile? v.num name).isSome || (s.rec? name).isSome || bs.length ≠ reqWord f 5 then no
  else match putRoot s v name bs (reqWord f 6) (reqWord f 7) with
    | some (s, _) => match servePutEnd s f name with
      | (t, true) => (t, true)
      | (t, false) => ({ t with asked := t.asked ++ [{ f with payload := wordsBytes [13, reqWord f 1, reqWord f 2, 0, name.toNat] }] }, true)
    | none => no

def serveAsk (s : State) (f : Frame) (v : Vd) : Served :=
  let name := reqName f 4
  match reqWord f 3 with
  | 0 => (serveAcquire s f v name, true)
  | 1 => serveAlloc s f v name
  | 2 => serveSeal s f v name
  | 3 => (serveRelease s f name, true)
  | 4 => match openRec s name with
    | some r => (answerPeer s f 0 0 (wordsBytes [1, r.depth]), true)
    | none => (answerPeer s f 0 0 (wordsBytes [0, 0]), true)
  | 8 => (tfree s v.num name, true)
  | 9 => (taskAbort s name.toNat, true)
  | 10 => (loseTile s v.num name, true)
  | 11 => (serveRest s f v name, true)
  | 12 => (releaseAll { s with rests := s.rests.filter fun r => !mineRest f name r }, true)
  | 5 => (modShared s name fun r => { r with need := r.need + 1 }, true)
  | 6 => (trim (modShared s name fun r => { r with need := r.need - 1 }), true)
  | _ => servePut s f v name

/-- A walk of a descendant at another home wants a version of this one, or raises its rebuild (R351). Where a lost one has no record the home that
asked is told so: what it walks is lost for good then. -/
def serveWalk (s : State) (f : Frame) (v : Vd) : State :=
  let name := reqName f 1
  if reqWord f 3 = 2 then
    (s.recs.filter fun r => r.rbld && tileVd r.name == v.num && r.acq.contains name).foldl (fun s r => loseVersion s v.num r.name) s
  else if reqWord f 3 = 1 then
    if (s.rec? name).any LinRec.rbld then raiseTask (s.recs.length + 1) s name (reqWord f 2) else s
  else if tileGone s v.num name || ((openRec s name).isNone && !tileThere s v.num name) then
    sendPeer s f.spkg v.num .rebuild 0 [name.toNat, 0, 2] []
  else walkWanted s v.num name (reqWord f 2)

/-! PEER (R289). -/

/-- A kind of request that is answered. -/
def answered (k : Nat) : Bool := k < 3 || k = 4 || k = 8

/-! Pairs (R358 to R360). -/

/-- The words of a message of a pair, read again. -/
def readPair (f : Frame) : PairWhat := match reqWord f 1 with
  | 0 => .create (reqWord f 2 = 1)
  | 1 => .tile (reqName f 2) (reqName f 3) (reqWord f 4 = 1)
  | 2 => .domain (reqWord f 2) (reqWord f 3) (reqWord f 4) (reqName f 5)
  | _ => .task ((List.range 16).map fun i => reqName f (3 + i)) (reqName f 2)

/-- A message of the partner waits until it can be used. Before the VD exists only a claim is of use. -/
def takePair (s : State) (f : Frame) : State :=
  let m : PairMsg := ⟨f.vd, f.spkg, readPair f⟩
  match s.vd? f.vd with
  | some v => if v.mirror && v.mpeer == f.spkg then { s with pairs := s.pairs ++ [m] } else countBad s f.vd
  | none => if reqWord f 1 = 0 then { s with pairs := s.pairs ++ [m] } else s

/-- A whole request at this home. From a package outside the peer set it is refused and counted, and the task there raises ADDRESS. -/
def servePeer (s : State) (f : Frame) : Served :=
  let k := reqWord f 0
  if k = 12 then (takePair s f, true) else
  match s.vd? f.vd with
  | none => (if answered k then answerPeer s f 3 (causeCode .address) [] else s, true)
  | some v =>
    if !v.peers.contains f.spkg then
      let s := countBad s f.vd
      (if answered k then answerPeer s f 2 (causeCode .address) [] else s, true)
    else match k with
      | 0 => serveLoad s f
      | 1 => serveStore s f
      | 2 => serveAmo s f
      | 3 => (takeReply s f, true)
      | 4 => serveCommit s f
      | 5 => (takeGang s f, true)
      | 6 => (serveWalk s f v, true)
      | 7 => (takeReplica s f, true)
      | 9 => serveWait s f
      | 14 => (takeAccept s f, true)
      | 15 => serveNotice s f
      | 16 => serveAllocEnd s f
      | 10 => serveSealEnd s f v (reqName f 4)
      | 11 => serveSay s f
      | 13 => servePutEnd s f (reqName f 4)
      | _ => serveAsk s f v

/-- A request that has come whole: it is served, or waits (R285, R290). -/
def arrive (s : State) (f : Frame) : State :=
  match servePeer s f with
  | (t, true) => t
  | (t, false) => { t with asked := t.asked ++ [f] }

/-- Requests that wait try again, oldest first. -/
def retryAsked (s : State) : State :=
  (putsDone s).asked.foldl (fun s f => match servePeer s f with
    | (t, true) => { t with asked := t.asked.erase f }
    | (t, false) => t) (putsDone s)

/-- A piece of a request: its first word says whether another follows. -/
def takePiece (s : State) (f : Frame) : State :=
  let w := inFlow s f
  let all := w.part ++ f.payload.drop 8
  if leNat (f.payload.take 8) = 0 then arrive (putFlow s { w with part := [] }) { f with payload := all }
  else putFlow s { w with part := all }

/-- PEER (R289): a frame that arrives, or, without one at the inputs, another try of the requests that wait at this home. -/
def execPeer (s : State) : Out :=
  match arrived s with
  | some _ => onFrame s 7 fun s f => deliver s f fun s => .done (takePiece s f)
  | none => .next (retryAsked s)

end Sys2Proof.Machine
end

