-- ==== Sys2Proof/Machine/QueueEvents.lean ====
section
/-!
DEFINITION. The events of user queues and of the sequencers (R316 to R328, R367, R370): each acts on the queue or packet at the inputs, else on
the first to which it applies.
-/

namespace Sys2Proof.Machine

/-- The queue that an event concerns. -/
def queuePick (s : State) (ok : Queue → Bool) : Option Queue :=
  match s.input with
  | .queue vd q => (s.queue? vd q).bind fun x => if ok x then some x else none
  | _ => s.queues.find? ok

def onQueue (s : State) (ok : Queue → Bool) (f : State → Nat → Nat → State) : Out :=
  match queuePick s ok with
  | some x => .next (f s x.vd x.qidx)
  | none => .next s

/-- The partitions on which a slot event acts, one after another. -/
def onParts (s : State) (f : State → Nat → State) : Out :=
  let l := match s.input with
    | .part n => [n]
    | _ => s.parts.map Partition.num
  .next (l.foldl f s)

/-- The sequencer of a queue (R320). -/
def seqrOf (s : State) (x : Queue) : Option Nat := (s.part? (vdPart s x.vd)).map fun p => p.fence.seqr.val

/-- A queue with a packet that waits for its turn to start. -/
def startsNext (x : Queue) : Bool := x.state == .mapped && x.journal.any fun e => !e.begun && !e.complete && mayStart x e

/-- Whether it is a queue's turn to start a packet: a sequencer serves its mapped queues in turn (R320). -/
def hasTurn (s : State) (x : Queue) : Bool :=
  s.queues.all fun y => y.served ≥ x.served || !startsNext y || seqrOf s y != seqrOf s x

/-- A packet that an event of a type may serve: one that starts, in its queue's turn, or one in progress that waits for no RETRY. -/
def servable (s : State) (ty : Nat) (x : Queue) (e : JEntry) : Bool :=
  (startable s x.vd x.qidx e.pseq ty).isSome && !(ty == 1 && e.begun) && (e.begun || hasTurn s x)

/-- The packet of a queue that an event of a type may serve. -/
def packetOf (s : State) (ty : Nat) (x : Queue) : Option Nat :=
  (x.journal.find? fun e => servable s ty x e && !(e.begun && packetHeld s x e)).map JEntry.pseq

/-- The packet of a type that an event concerns: the one at the inputs, else that of the queue that has waited longest. -/
def packetPick (s : State) (ty : Nat) : Option (Nat × Nat × Nat) :=
  match s.input with
  | .packet vd q pseq =>
    if (s.queue? vd q).any fun x => (jentry? x pseq).any fun e => e.begun || hasTurn s x then some (vd, q, pseq) else none
  | _ => (firstBy (fun x y => x.tended < y.tended) (s.queues.filter fun x => (packetOf s ty x).isSome)).bind fun x =>
      (packetOf s ty x).map fun n => (x.vd, x.qidx, n)

/-- A queue has had its turn: to start a packet, unless that had begun before (R320). -/
def served (s : State) (vd q : Nat) (start : Bool) : State :=
  (s.modQueue vd q fun x => { x with tended := s.stamp + 1, served := if start then s.stamp + 1 else x.served }).stamped

def onPacket (s : State) (ty : Nat) (f : State → Nat → Nat → Nat → State) : Out :=
  match packetPick s ty with
  | some (vd, q, pseq) => .next (served (f s vd q pseq) vd q ((s.queue? vd q).any fun x => (jentry? x pseq).any fun e => !e.begun))
  | none => .next s

/-- VD_KICK (R322): a write of the register. -/
def execVdKick (s : State) : Out :=
  match s.input with
  | .word vd w => .next (applyKick s vd w)
  | _ => .next s

/-- QUEUE_ENABLE (R321). -/
def execQueueEnable (s : State) : Out := onQueue s (fun x => x.state == .disabled) queueEnable

/-- QUEUE_DISABLE (R321). -/
def execQueueDisable (s : State) : Out := onQueue s (fun x => x.state == .idle || x.state == .fetchFault || x.state == .frozen) queueDisable

/-- QUEUE_RESET (R321). -/
def execQueueReset (s : State) : Out := onQueue s (fun x => x.state == .fetchFault || x.state == .frozen) queueReset

/-- SLOT_GRANT (R325). -/
def execSlotGrant (s : State) : Out := onParts s slotGrant

/-- QUEUE_DISPLACEMENT (R325). -/
def execQueueDisplacement (s : State) : Out := onParts s displace

/-- IDLE_UNMAP (R321): a mapped queue has been idle for IDLE cc. -/
def execIdleUnmap (s : State) : Out := onQueue s idleQueue idleUnmap

/-- UNMAPPING_COMPLETE (R321). -/
def execUnmappingComplete (s : State) : Out := onQueue s (fun x => x.state == .unmapping) unmapped

/-- The queue that fetches next: the one at the inputs, else the one that has waited longest for its turn (R320). -/
def fetchPick (s : State) : Option Queue :=
  match s.input with
  | .queue _ _ => queuePick s (fetches s)
  | _ => firstBy (fun x y => x.fetched < y.fetched) (s.queues.filter (fetches s))

/-- PACKET_FETCH (R327). -/
def execPacketFetch (s : State) : Out :=
  match fetchPick s with
  | some x => .next ((packetFetch s x.vd x.qidx).modQueue x.vd x.qidx fun y => { y with fetched := s.stamp + 1 }).stamped
  | none => .next s

/-- A packet that is complete as soon as it starts. -/
def atOnce (ty : Nat) (s : State) (vd q pseq : Nat) : State :=
  if (startable s vd q pseq ty).isSome then completeEntry s vd q pseq else s

/-- NOP_PACKET (R316). -/
def execNopPacket (s : State) : Out := onPacket s 0 (atOnce 0)

/-- LAUNCH (R317). -/
def execLaunch (s : State) : Out := onPacket s 1 launch

/-- WAITV (R318). -/
def execWaitv (s : State) : Out := onPacket s 2 waitv

/-- SIGNAL (R318). -/
def execSignal (s : State) : Out := onPacket s 3 signal

/-- COPY_PACKET (R319). -/
def execCopyPacket (s : State) : Out := onPacket s 4 copyPacket

/-- TILEPUT (R319). -/
def execTileput (s : State) : Out := onPacket s 5 tileput

/-- MAP (R319). -/
def execMap (s : State) : Out := onPacket s 6 mapPacket

/-- FENCE_PACKET (R318). -/
def execFencePacket (s : State) : Out := onPacket s 7 fencePacket

/-- DORMANT (R368): it starts the collapse once every earlier packet is complete, and is complete with the collapse or with the trigger
that cuts it short. -/
def dormantPacket (s : State) (vd q pseq : Nat) : State :=
  match startable s vd q pseq 8, s.vd? vd with
  | some (x, e), some v =>
    if e.begun then (if v.dorm == .collapsing then s else completeEntry s vd q pseq)
    else if !(earlier x e).all (·.complete) || v.dorm == .reheating || v.dorm == .dormant then s
    else beginCollapse (modEntry s vd q pseq fun e => { e with begun := true, guard := true }) vd
  | _, _ => s

/-- DORMANT_PACKET (R368). -/
def execDormantPacket (s : State) : Out := onPacket s 8 dormantPacket

/-- REHEAT_PACKET (R370): complete at once. -/
def execReheatPacket (s : State) : Out := onPacket s 9 (atOnce 9)

/-- RETRY (R328). -/
def execRetry (s : State) : Out := onPacket s 10 retry

/-- PROGRESS_ADVANCE (R323): LAUNCHes whose trees are done are complete, and PROGRESS follows; one queue, or each in turn. -/
def execProgressAdvance (s : State) : Out :=
  match s.input with
  | .queue vd q => .next (progressAdvance s vd q)
  | _ => .next (s.queues.foldl (fun s x => progressAdvance s x.vd x.qidx) s)

/-- JOURNAL_REPLAY (R327): one queue, or those of a sequencer. -/
def execJournalReplay (s : State) : Out :=
  match s.input with
  | .queue vd q => .next (replay s vd q)
  | .pick n => .next ((s.queues.filter fun x => (s.part? (vdPart s x.vd)).any fun p => p.fence.seqr.val == n).foldl
      (fun s x => replay s x.vd x.qidx) s)
  | _ => .next s

end Sys2Proof.Machine
end

