-- ==== Sys2Proof/Machine/PackageOps.lean ====
section
/-!
DEFINITION. The package's own events: peers and hosts lost and returned (R387, R399), bring-up (R389 to R391), what the root of trust signs
(R362, R363, R375, R384, R392, R394, R395), memory taken out of service (R396, R398), and heat (R402).
-/

namespace Sys2Proof.Machine

/-! Peers and hosts (R386, R387, R399). -/

/-- The VDs for which this package is the buddy of a lost home: the home has named it so, or the two alone make up the VD (R350). -/
def adopts (s : State) (id : Nat) : List Nat :=
  (s.vds.filter fun v => !v.mirror && (v.serves.contains id ||
    (v.peers.contains id && v.peers.all fun n => n == id || n == s.pkg.num))).map Vd.num

/-- The survivor of a pair runs on alone, as its primary (R385). -/
def goSolo (s : State) (id : Nat) : State :=
  let mine := fun (v : Vd) => v.mirror && v.mpeer == id
  let vs := (s.vds.filter mine).map Vd.num
  { s with
    vds := mapIf mine (fun v => { v with msolo := true, mpri := true }) s.vds
    tiles := mapIf (fun t => vs.contains t.vd) (fun t => { t with matched := true }) s.tiles }

/-- The records of an adopted home: its versions are lost, and what remains of each record is the secondary copy here. -/
def adoptHome (s : State) (id : Nat) (vds : List Nat) : State :=
  let mine := fun (r : LinRec) => tileHome r.name == id && vds.contains (tileVd r.name)
  let old := s.kept.filter mine
  let news := old.map fun r => { r with lost := true, rbld := false, prim := false, second := true, place := 0, place2 := r.place }
  let s := { s with
    kept := s.kept.filter fun r => !mine r
    keeps := mapIf (fun k => vds.contains k.vd && k.src ≠ 0 && keyHome k.src == id) (fun k => { k with src := 0, second := false }) s.keeps
    recs := s.recs ++ news }
  news.foldl (fun s r => lineWrite s r.place2 (lrecBytes r)) s

/-- PEER_LOST (R387). -/
def losePeer (s : State) (p : Peer) : State :=
  let id := p.num
  let take := adopts s id
  let far := (s.vds.filter fun v => secondaryAt s v.num == some id).map Vd.num
  let s := { s with
    peers := mapIf (fun q => q.num == id) (fun q => { q with incmin := max q.incmin (p.inc + 1), lost := true, adopted := q.adopted ++ take.filter fun n => !q.adopted.contains n }) s.peers
    flows := s.flows.filter fun w => w.sender != id
    paths := mapIf (fun q => q.party == id) (fun q => { q with live := false }) s.paths
    asked := s.asked.filter fun f => f.spkg != id
    hands := s.hands.filter fun x => x.pkg != id
    ctx := wakeRemote id s.ctx
    parked := s.parked.map (wakeRemote id)
    tasks := s.tasks.map fun k => { k with away := k.away.filter fun n => tileHome n != id }
    durAway := s.durAway.filter fun d => d.home != id
    recs := mapIf (fun r => far.contains (tileVd r.name)) (fun r => { r with second := false, unacked := 0 }) s.recs
    pairs := s.pairs.filter fun m => m.pkg != id
    rests := s.rests.filter fun r => r.pkg != id
    gangs := s.gangs.map fun g =>
      let os := mapIf (fun m => m.pkg == id) (fun m => { m with ended := true, dead := true }) g.others
      { g with others := os, state := if g.members.all (·.ended) && os.all (·.ended) && !g.others.isEmpty && g.state != .forming then .ended else g.state } }
  let s := openDur (copiesLost (adoptHome s id take))
  logMgmt (goSolo s id) 13 0 id [id]

/-- PEER_LOST (R387): 512 us of silence on every path to a peer. -/
def execPeerLost (s : State) : Out :=
  match s.input with
  | .party n _ => match s.peers.find? fun p => p.num == n && !p.lost with
    | some p => .next (losePeer s p)
    | none => .next s
  | _ => .next s

/-- HOST_LOST (R387): the host's flows and undelivered completions end. -/
def execHostLost (s : State) : Out :=
  match s.input with
  | .party mac _ =>
    if !s.hosts.contains mac then .next s else
    let s := { s with
      hosts := s.hosts.filter (· != mac)
      flows := s.flows.filter fun w => w.sender != hostParty mac
      paths := s.paths.filter fun p => p.party != hostParty mac }
    .next (logMgmt s 14 0 0 [mac])
  | _ => .next s

/-- FENCE (R387): a restarted package's new incarnation, if it is at least INCMIN; what belonged to earlier ones is over. -/
def execFenceFrame (s : State) : Out :=
  onFrame s 11 fun s f =>
    let n := leNat f.payload
    if s.peers.any fun p => p.num == f.spkg && n < p.incmin then dropFrame s f else
    deliver s f fun s => .done { s with
      peers := mapIf (fun p => p.num == f.spkg) (fun p => { p with inc := n, incmin := max p.incmin n, lost := false }) s.peers }

/-- What the adopting buddy has to hand over of a home: the records as they stand, with replicas of this package under their global address,
and the versions that stand here. -/
def homeRecs (s : State) (n vd : Nat) : List LinRec :=
  (s.recs.filter fun r => tileHome r.name == n && tileVd r.name == vd).map fun r =>
    { r with unacked := 0, replica := BitVec.ofNat 64 (globalObj s.pkg.num r.replica.toNat) }

def homeTiles (s : State) (n vd : Nat) : List Tile :=
  s.tiles.filter fun t => t.vd == vd && tileHome t.name == n && t.sealed && t.resident

/-- The bytes of a replica that lies on this package. -/
def replicaHere (s : State) (r : LinRec) : Option (List Byte) :=
  if r.replica = 0 || (homeOf s (tileVd r.name) r.replica.toNat).isSome then none
  else some (hwRead s (tileVd r.name) (localVa r.replica.toNat) r.size)

/-- A step of the transfer of a home (R399): what is new or has changed since the last one is sent, with the replicas of records that are new. Nothing
left to send or to be acknowledged, the transfer is complete: this package stops serving the home. -/
def handOver (s : State) (n vd : Nat) : State :=
  let old := (s.hands.find? fun x => x.pkg == n && x.vd == vd).getD ⟨n, vd, [], []⟩
  let rs := homeRecs s n vd
  let ts := homeTiles s n vd
  let now : Handing := ⟨n, vd, rs, ts.map Tile.name⟩
  let newRs := rs.filter fun r => !old.recs.contains r
  let newTs := ts.filter fun t => !old.tiles.contains t.name
  let ended := old.recs.filter fun r => !rs.any fun q => q.name == r.name
  if newRs.isEmpty && newTs.isEmpty && ended.isEmpty then
    if !(outFlow s n vd).sent.isEmpty then s else
    let mine := fun (r : LinRec) => tileHome r.name == n && tileVd r.name == vd
    let s := { s with
      recs := s.recs.filter fun r => !mine r
      kept := s.kept ++ s.recs.filter mine
      tiles := s.tiles.filter fun t => !(t.vd == vd && tileHome t.name == n)
      hands := s.hands.filter fun x => !(x.pkg == n && x.vd == vd)
      peers := mapIf (fun q => q.num == n) (fun q => { q with adopted := q.adopted.filter (· != vd) }) s.peers }
    logMgmt s 17 7 vd [n, vd]
  else
    let s := { s with hands := now :: s.hands.filter fun x => !(x.pkg == n && x.vd == vd) }
    let s := newRs.foldl (fun s r => sendPeer s n vd .replica 0 [5, r.name.toNat] (lrecBytes r ++ keptRead s r.kcopy)) s
    let s := newTs.foldl (fun s t => sendPeer s n vd .replica 0 [6, t.name.toNat, t.size] (hwRead s vd t.va t.size)) s
    let s := ended.foldl (fun s r => sendPeer s n vd .replica 0 [20, r.name.toNat] []) s
    (newRs.filter fun r => !old.recs.any fun q => q.name == r.name).foldl (fun s r => match (s.rec? r.name).bind (replicaHere s) with
      | some bs => sendPeer s n vd .replica 0 [21, r.name.toNat, 0] bs
      | none => s) s

/-- HOME_RETURN (R399): a replacement has announced itself, and takes its home back, VD by VD. -/
def execHomeReturn (s : State) : Out :=
  let ok := fun (p : Peer) => !p.adopted.isEmpty && !p.lost
  let pick : Option Peer := match s.input with
    | .party n _ => s.peers.find? fun p => p.num == n && ok p
    | _ => s.peers.find? ok
  match pick with
  | none => .next s
  | some p =>
    let s := { s with peers := mapIf (fun q => q.num == p.num) (fun q => { q with adopted := q.adopted.filter fun n => (s.vd? n).isSome }) s.peers }
    .next ((p.adopted.filter fun n => (s.vd? n).isSome).foldl (fun s n => handOver s p.num n) s)

/-! Bring-up (R389 to R391). -/

/-- The reserve must give 1.35 J (R391). -/
def reserveNeed : Nat := 1350

/-- Whether a cold start may be ordered: power is off or the part is in reset, the record of a thermal stop has been written, and every die has
cooled since (R402). -/
def mayStartCold (s : State) : Bool := !(s.pkg.powered && s.pkg.phase != .reset) && s.pkg.stop.isNone && s.pkg.hot == 0

/-- COLD_START (R390, R391): the part is in reduced service; what was retired before is trained again, and each site that did not end its
drain is reported (R311). It takes a new incarnation (R387), and the number and incarnation that the root of trust gives a replacement (R399). The
measured hold-up in mJ stands at the inputs: without a reserve it is none. -/
def execColdStart (s : State) : Out :=
  if !mayStartCold s then .next s else
  let mJ := match s.input with
    | .measure n _ => n
    | _ => 0
  let (num, inc) := match s.input with
    | .measure _ (some i) => (i.1 % 2047, max (s.pkg.inc + 1) i.2)
    | _ => (s.pkg.num, s.pkg.inc + 1)
  let unclean := (List.finRange 4).filter fun n => !s.sites[n].clean
  let s := { s with
    sites := s.sites.map fun x => { x with accepting := true, trained := false, retired := false }
    ports := Vector.replicate 20 Port.reset
    pkg := { s.pkg with
      num := num, inc := inc, phase := .reduced, powered := true, nores := decide (mJ < reserveNeed), sret := 0, hret := 0, htrain := 0, pchOut := [], recal := []
      scanned := false, clocks := Vector.replicate 8 600, diesOut := 0, basesOut := 0, fwHeld := false, fwImage := s.pkg.fwNew.getD s.pkg.fwImage
      fwNew := none, mgmtSeq := 0, mgmtOut := (s.pkg.mgmt.take s.pkg.mgmtHeld).map mgmtBytes ++ s.pkg.mgmtOut, mgmtHeld := 0 } }
  let s := unclean.foldl (fun s n => logMgmt s 2 3 n.val [n.val]) s
  .next (if mJ < reserveNeed then logMgmt s 1 0 s.pkg.num [mJ] else s)

/-- A stack or site is retired: its range is gone, and every version with bytes in it is lost (R398), with the copies of records there. -/
def retireRange (s : State) (gone : Nat → Bool) (mark : Pkg → Pkg) : State :=
  let hit := s.tiles.filter fun t => (pieces t.va t.size).any fun p => (hwTranslate s t.vd p.1).any gone
  copiesLost (hit.foldl tileHit (s.modPkg mark))

def inStack (n : Nat) (pa : Nat) : Bool := match target pa with
  | .hbm st _ => st == n
  | _ => false

def inSite (n : Nat) (pa : Nat) : Bool := match target pa with
  | .dur d _ => d == n
  | _ => false

def retireStack (s : State) (n : Nat) : State :=
  logMgmt (retireRange s (inStack n) fun p => { p with hret := p.hret ||| (1 <<< n) }) 16 2 n [n, 0, 64]

def retireSite (s : State) (n : Fin 4) : State :=
  let s := retireRange s (inSite n.val) fun p => { p with sret := p.sret ||| (1 <<< n.val) }
  logMgmt (modSite s n fun x => { x with retired := true }) 16 3 n.val [n.val]

def stackDone (s : State) (n : Nat) : Bool := s.pkg.htrain.getLsbD n || s.pkg.hret.getLsbD n
def siteDone (s : State) (n : Fin 4) : Bool := s.sites[n].trained || s.sites[n].retired

/-- The end of a training. -/
def trained (s : State) (isSite : Bool) (n : Nat) (ok : Bool) : State :=
  if isSite then
    if h : n < 4 then
      if siteDone s ⟨n, h⟩ then s else if ok then modSite s ⟨n, h⟩ fun x => { x with trained := true } else retireSite s ⟨n, h⟩
    else s
  else if n ≥ 12 || stackDone s n then s
  else if ok then s.modPkg fun p => { p with htrain := p.htrain ||| (1 <<< n) } else retireStack s n

/-- TRAINING_COMPLETE (R390): a stack or site has trained, or failed and is retired; without one at the inputs the next one has trained. -/
def execTrainingComplete (s : State) : Out :=
  if s.pkg.phase != .reduced then .next s else
  match s.input with
  | .train isSite n ok => .next (trained s isSite n ok)
  | _ => match (List.range 12).find? fun n => !stackDone s n with
    | some n => .next (trained s false n true)
    | none => match (List.finRange 4).find? fun n => !siteDone s n with
      | some n => .next (trained s true n.val true)
      | none => .next s

/-- Whether the part may enter full service (R390): the durable pools have been scanned in reduced service (R309). -/
def mayEnter (s : State) : Bool :=
  s.pkg.phase == .reduced && s.pkg.scanned && (List.range 12).all (stackDone s) && (List.finRange 4).all (siteDone s) &&
    s.tasks.all (fun k => !k.alive) && s.queues.all fun x => x.state == .disabled

/-- FULL_SERVICE_ENTRY (R390): the VD of reduced service is destroyed. -/
def execFullServiceEntry (s : State) : Out :=
  if !mayEnter s then .next s else
  let s := (s.vds.map Vd.num).foldl (fun s v => dropVd (acceptAll s) v) s
  let s := s.modPkg fun p => { p with phase := .full, clocks := Vector.replicate 8 1200 }
  .next (logMgmt s 19 0 s.pkg.num [s.pkg.hret.toNat, s.pkg.sret.toNat])

/-! Memory out of service (R396, R398). -/

/-- RETIRED (R398): a whole stack, or pseudo-channels of one. -/
def execRetired (s : State) : Out :=
  match s.input with
  | .chan st ch n =>
    if st ≥ 12 || n = 0 || ch + n > 64 then .next s
    else if n = 64 then .next (retireStack s st)
    else
      let chans := (List.range n).map fun i => (st, ch + i)
      let gone := fun (pa : Nat) => match target pa with
        | .hbm a b => chans.contains (a, b)
        | _ => false
      .next (logMgmt (retireRange s gone fun p => { p with pchOut := chans ++ p.pchOut }) 16 2 st [st, ch, n])
  | _ => .next s

/-- RECAL_START (R396). -/
def execRecalStart (s : State) : Out :=
  match s.input with
  | .chan st ch _ =>
    if st ≥ 12 || ch ≥ 64 || s.pkg.recal.contains (st, ch) then .next s
    else .next (s.modPkg fun p => { p with recal := (st, ch) :: p.recal })
  | _ => .next s

/-- Accesses held for the recalibration of channels that are back go on, and their records are freed (R285, R396). -/
def releaseRecal (s : State) : State :=
  s.parts.foldl (fun s p => (p.recs.filter fun r => r.reason == 5 && !inRecal s (refusedPa s p r.ipa)).foldl
    (fun s r => freeRec (releaseHeld s r) p.num r.rseq) s) s

/-- RECAL (R396): the channel is back. -/
def execRecal (s : State) : Out :=
  let pick : Option (Nat × Nat) := match s.input with
    | .chan st ch _ => if s.pkg.recal.contains (st, ch) then some (st, ch) else none
    | _ => s.pkg.recal.getLast?
  match pick with
  | some r =>
    let s := s.modPkg fun p => { p with recal := p.recal.filter (· != r) }
    .next (logMgmt (releaseRecal s) 15 2 r.1 [r.1, r.2])
  | none => .next s

/-! What the root of trust verifies (R392). -/

def kindOf : Signed → Fin 5
  | .fence .. => 0 | .ports .. => 1 | .peers .. => 2 | .patch .. => 3 | .firmware .. => 4

/-- The last version installed for a key of the fused key table. -/
def keyVersion (p : Pkg) (key : Nat) : Nat := ((p.versions.find? fun x => x.1 == key).map (·.2)).getD 0

def installKey (p : Pkg) (key version : Nat) : Pkg := { p with versions := (key, version) :: p.versions.filter fun x => x.1 != key }

/-- Installs an object whose signature and version pass; otherwise it is rejected whole. `act` answers none where a rule refuses it. -/
def signedEvent (s : State) (kind : Fin 5) (act : State → Signed → Nat → Option State) : Out :=
  match s.input with
  | .signed o key version valid =>
    if kindOf o ≠ kind then .next s
    else if !valid || version ≤ keyVersion s.pkg key then .next (logMgmt s 9 0 s.pkg.num [kind.val, version])
    else match act s o version with
      | some t => .next (t.modPkg fun p => installKey p key version)
      | none => .next s
  | _ => .next s

def bitCount {w : Nat} (b : BitVec w) : Nat := ((List.range w).filter fun i => b.getLsbD i).length

/-- A fence block that the root of trust accepts (R363, R389). -/
def fenceOk (s : State) (n : Nat) (f : Fence) : Bool :=
  let rest := s.parts.filter fun p => p.num != n
  let ranges := (List.finRange 4).all fun i => f.dur[i].1 ≤ f.dur[i].2 && f.dur[i].2 ≤ 1024
  let apart := rest.all fun p => (p.fence.cores &&& f.cores) == 0 && (p.fence.pch &&& f.pch) == 0 &&
    (List.finRange 4).all fun i => f.dur[i].1 = f.dur[i].2 || p.fence.dur[i].1 = p.fence.dur[i].2 ||
      f.dur[i].2 ≤ p.fence.dur[i].1 || p.fence.dur[i].2 ≤ f.dur[i].1
  let slots := (rest.filter fun p => p.fence.seqr == f.seqr).foldl (fun k p => k + p.fence.slots) f.slots
  let size := if s.pkg.phase == .reduced then
      n = 0 && f.cores == BitVec.ofNat 192 (2 ^ 24 - 1) && f.pch == 0 && (List.finRange 4).any fun i => f.dur[i].1 < f.dur[i].2
    else bitCount f.cores ≥ 4 && bitCount f.pch ≥ 16
  n < 48 && size && ranges && apart && 1 ≤ f.slots && slots ≤ 32 && f.s2root % 4096 = 0 && s.vds.all fun v => v.part != n

/-- FENCE_COMMAND (R362, R363). -/
def execFenceCommand (s : State) : Out :=
  signedEvent s 0 fun s o _ => match o with
    | .fence n f =>
      if !fenceOk s n f then none
      else if (s.part? n).isSome then some (s.modPart n fun p => { p with fence := f })
      else some { s with parts := s.parts ++ [{ Partition.new n with fence := f }] }
    | _ => none

/-- PORT_ROLE_ASSIGNMENT (R375): once after a cold start, at most two host ports. -/
def execPortRoleAssignment (s : State) : Out :=
  signedEvent s 1 fun s o _ => match o with
    | .ports rs =>
      if rs.length ≠ 20 || (rs.filter (· == .host)).length > 2 || s.ports.toList.any fun p => p.role != .off then none
      else some { s with ports := s.ports.mapIdx fun i p =>
        let r := nth .off rs i
        { p with role := r, up := r != .off } }
    | _ => none

/-- The 32 bytes of a peer's entry of the table (R384). -/
def peerBytes (p : Peer) : List Byte :=
  leBytes 16 p.ip6 ++ leBytes 8 (p.mac % 2 ^ 48) ++ leBytes 4 p.ports.toNat ++ leBytes 4 p.incmin

/-- An entry read from its bytes. -/
def readPeer (num : Nat) (bs : List Byte) : Peer :=
  let w := fun o n => leNat ((bs.drop o).take n)
  { num := num, ip6 := w 0 16, mac := w 0x10 8 % 2 ^ 48, ports := BitVec.ofNat 20 (w 0x18 4), incmin := w 0x1C 4, inc := 0, lost := false, adopted := [] }

/-- The paths that a peer table gives: those that there were go on as they are (R384). -/
def tablePaths (s : State) (es : List Peer) : List Path :=
  let hosts := s.paths.filter fun p => p.party ≥ 2048
  hosts ++ es.flatMap fun e => ((List.range 20).filter fun i => e.ports.getLsbD i).map fun i =>
    (s.paths.find? fun p => p.party == e.num && p.port == i).getD
      ⟨e.num, i, (portOf s i).any fun p => p.up && p.role == .peer, false, 800, false⟩

/-- PEER_TABLE (R384): INCMIN never falls below a fence that this package has raised. -/
def execPeerTable (s : State) : Out :=
  signedEvent s 2 fun s o _ => match o with
    | .peers rows =>
      let es := rows.map fun r => readPeer r.1 r.2
      let keep := fun (e : Peer) => match s.peers.find? fun p => p.num == e.num with
        | some p => { e with inc := p.inc, incmin := max e.incmin p.incmin, lost := p.lost, adopted := p.adopted }
        | none => e
      let news := es.filter fun e => !s.peers.any fun p => p.num == e.num
      let s := { s with peers := es.map keep, paths := tablePaths s es }
      let s := es.foldl (fun s e => moveFlows s e.num) s
      some (news.foldl (fun s e => announce s e.num) s)
    | _ => none

/-- A patch image (R394): the mask of its sequencers, its version, and its entries. -/
structure Patch where
  mask    : BitVec 8
  version : Nat
  entries : List (Nat × BitVec 32)
deriving DecidableEq, Repr

/-- The image that bytes hold, a header of 64 bytes and n entries of 8; none where a field says otherwise. -/
def readPatch (bs : List Byte) : Option Patch :=
  let w := fun i => leNat ((bs.drop (8 * i)).take 8)
  let n := bits (w 2) 15 0
  let es := (List.range n).map fun i => (bits (w (8 + i)) 44 32, BitVec.ofNat 32 (bits (w (8 + i)) 31 0))
  if bits (w 0) 31 0 ≠ 0x48544150 || n = 0 || n > 1024 || bs.length < 64 + 8 * n then none
  else some ⟨BitVec.ofNat 8 (bits (w 0) 39 32), w 1, es⟩

/-- PATCH_APPLIED (R394): the image replaces the patch RAM of each target sequencer, which then replays its journal. -/
def execPatchApplied (s : State) : Out :=
  signedEvent s 3 fun s o version => match o with
    | .patch image => (readPatch image).bind fun i =>
      if i.version ≠ version then none else
      let s := s.modPkg fun p => { p with patch := p.patch.mapIdx fun n old => if i.mask.getLsbD n then i.entries else old }
      let hit := s.queues.filter fun x => (s.part? (vdPart s x.vd)).any fun p => i.mask.getLsbD p.fence.seqr.val
      some (logMgmt (hit.foldl (fun s x => replay s x.vd x.qidx) s) 10 0 s.pkg.num [i.mask.toNat, version])
    | _ => none

/-- FIRMWARE_IMAGE (R392, R395): it takes effect at the controller's next restart. -/
def execFirmwareImage (s : State) : Out :=
  signedEvent s 4 fun s o _ => match o with
    | .firmware image => some (s.modPkg fun p => { p with fwNew := some image })
    | _ => none

/-- MGMT_FIRMWARE_RESTART (R395): the controller goes down, and comes back with the image that has been installed. Records that were held are then
sent, the oldest first. -/
def execMgmtFirmwareRestart (s : State) : Out :=
  .next (s.modPkg fun p =>
    if p.fwHeld then { p with fwHeld := false, mgmtOut := (p.mgmt.take p.mgmtHeld).map mgmtBytes ++ p.mgmtOut, mgmtHeld := 0 }
    else { p with fwHeld := true, fwImage := p.fwNew.getD p.fwImage, fwNew := none })

/-! Heat (R402). -/

/-- The core clock of a die in the present phase. -/
def topClock (s : State) : Nat := if s.pkg.phase == .full then 1200 else 600

def dieClock (s : State) (die : Nat) : Nat := s.pkg.clocks.toList.getD die 600

def setClock (s : State) (die n : Nat) : State := s.modPkg fun p => { p with clocks := p.clocks.mapIdx fun i c => if i = die then n else c }

/-- The limits of a die's temperature in 0.1 degrees and of the package's power in W (R402). -/
def tooHot (temp watts : Nat) : Bool := temp > 1050 || watts > 2950

/-- THERMAL (R402): one step of 75 MHz down, to 600 MHz at the lowest. -/
def execThermal (s : State) : Out :=
  match s.input with
  | .thermal die temp watts =>
    if die ≥ 8 || !tooHot temp watts || dieClock s die ≤ 600 then .next s else
    let n := max 600 (dieClock s die - 75)
    .next (logMgmt (setClock s die n) 18 0 s.pkg.num [die, temp, n])
  | _ => .next s

/-- THERMAL_RECOVERY (R402): one step up, after 1 ms below both limits. While the part stands stopped by heat: a die has stayed below 85 degrees for 1 s,
or has not. -/
def execThermalRecovery (s : State) : Out :=
  let up := fun (die : Nat) => if die ≥ 8 || dieClock s die ≥ topClock s then s else setClock s die (min (topClock s) (dieClock s die + 75))
  match s.input with
  | .thermal die temp watts =>
    if !s.pkg.powered then
      if die ≥ 8 || s.pkg.hot == 0 then .next s
      else .next (s.modPkg fun p => { p with hot := if temp < 850 then p.hot &&& ~~~(1#8 <<< die) else p.hot ||| (1#8 <<< die) })
    else if tooHot temp watts then .next s else .next (up die)
  | .pick die => .next (up die)
  | _ => .next s

/-- THERMAL_STOP (R402): the part stops as at a loss of power; the record is written once every site has drained. -/
def execThermalStop (s : State) : Out :=
  match s.input with
  | .thermal die temp _ =>
    if s.pkg.powered && temp ≥ 1150 then
      .next ((losePower s).modPkg fun p => { p with stop := some ⟨die, temp, List.range 4⟩, hot := BitVec.allOnes 8 })
    else .next s
  | _ => .next s

end Sys2Proof.Machine
end

