-- ==== Sys2Proof/Machine/RecoveryEvents.lean ====
section
/-!
DEFINITION. The events of the Regather units and of Lehr (R346, R351), the exchange of digests in a mirrored VD (R359), and the losses of R350.
-/

namespace Sys2Proof.Machine

/-! Walks (R351). -/

/-- A version whose walk is due: a task wants it, and its bytes are lost, or it has gone for good. -/
def walkDue (s : State) (vd : Nat) (name : Word) : Bool :=
  (awayHome s name).isNone && (goneWanted s vd name || (walkable s name && (s.rec? name).any fun r =>
    (wanters s vd name).any fun k => !r.rbld || r.prio < k.prio))

/-- The walk of a version at the highest PRIO of the tasks that want it. -/
def walkNow (s : State) (vd : Nat) (name : Word) : State :=
  if !walkDue s vd name then s
  else if goneWanted s vd name then loseVersion s vd name
  else walkWanted s vd name (wantPrio (wanters s vd name))

/-- REGATHER_WALK (R351): the version at the inputs, or the first that is due. -/
def execRegatherWalk (s : State) : Out :=
  match s.input with
  | .tile name => .next (walkNow s (tileVd name) name)
  | _ =>
    let all := s.recs.map (·.name) ++ s.tiles.map (·.name)
    match all.find? fun n => walkDue s (tileVd n) n with
    | some n => .next (walkNow s (tileVd n) n)
    | none => .next s

/-! Lehr (R346). -/

/-- Lehr's next act for a record: a copy of it that has been lost is written again (R350), and a replica that is due moves on. -/
def lehrStep (s : State) (r : LinRec) : State :=
  match s.vd? (tileVd r.name) with
  | none => s
  | some v =>
    let s := if (r.prim || r.second) && !(r.prim && r.second) then
        let s := s.modRec r.name fun r => { r with place := if r.prim then r.place else 0, place2 := if r.second then r.place2 else 0 }
        modShared (placeRec s r.name) r.name fun r => { r with prim := true, second := true }
      else s
    lehr s v r

def lehrOn (s : State) (ok : LinRec → Bool) : Out :=
  let pick : Option LinRec := match s.input with
    | .tile name => (s.rec? name).bind fun r => if ok r then some r else none
    | _ => s.recs.find? ok
  match pick with
  | some r => .next (lehrStep s r)
  | none => .next s

/-- LEHR_REPLICA_COMPLETE (R346): the replica at the inputs, or the first that is not complete, takes its next step. -/
def execLehrReplicaComplete (s : State) : Out :=
  lehrOn s fun r => (r.anchor && r.apend) || ((r.prim || r.second) && !(r.prim && r.second))

/-- LEHR_RETRY (R346): a replica that has found no space. -/
def execLehrRetry (s : State) : Out := lehrOn s fun r => r.anchor && r.apend && r.replica = 0

/-! Mirrored VDs (R359). -/

/-- The partner's digest of a sealed version. -/
def digestExchange (s : State) (name other : Word) : State :=
  let vd := tileVd name
  match s.vd? vd, s.tile? vd name, s.rec? name with
  | some v, some t, some r =>
    if !v.pairs || !t.sealed || !t.resident || t.matched then s
    else if r.digest == other then (s.modTile vd name fun t => { t with matched := true }).modRec name fun r => { r with again := false }
    else if r.again then diverged s vd
    else
      let pr := wantPrio (wanters s vd name)
      walk (loseTile (s.modRec name fun r => { r with again := true }) vd name) v name pr
  | _, _, _ => s

/-- A digest of the partner that can be used: of a version that is there. One that has been compared already is answered once more: the
partner has sealed its own anew. -/
def pairTile (s : State) (m : PairMsg) : Option State :=
  match m.what with
  | .tile name d answer => match s.vd? m.vd, s.tile? m.vd name with
    | some v, some t =>
      if !v.pairs || !t.sealed || !t.resident then none
      else
        let s := { s with pairs := s.pairs.erase m }
        some (if !t.matched then digestExchange s name d else if answer then s else tellDigest s v name true)
    | _, _ => none
  | _ => none

/-- TILE_DIGEST_EXCHANGE (R359): the partner's digest stands at the inputs, or has come in a frame. -/
def execTileDigestExchange (s : State) : Out :=
  match s.input with
  | .digest name other => .next (digestExchange s name other)
  | _ => .next ((s.pairs.findSome? (pairTile s)).getD s)

/-! Losses (R350, R434). -/

/-- A unit goes into error; in HBM the tile directory names the version whose extent holds it, and the lineage areas may have lost a copy. -/
def unitError (s : State) (pa : Nat) : State :=
  let s := { s with errs := if s.errs.contains (pa / 64) then s.errs else (pa / 64) :: s.errs }
  match target pa with
  | .hbm _ _ =>
    let s := (tileAtPa s pa).elim s (tileHit s)
    if (lineUsed s).contains (pa / 256 * 256) then copiesLost s else s
  | _ => s

/-- UNCORRECTABLE_ERROR (R434): of memory that is there. -/
def execUncorrectableError (s : State) : Out :=
  match s.input with
  | .unit pa => match target pa with
    | .hbm _ _ | .dur _ _ => .next (unitError s pa)
    | _ => .next s
  | _ => .next s

/-- The loss of a compute die: every context on it is aborted, and every saved one whose weight buffer and scratchpad stand there (R251); the entries of its deques are placed again, and no gang reserves a bank of it. -/
def loseComputeDie (s : State) (die : Nat) : State :=
  let mine := s.cores.filter fun c => c.num / 24 == die
  let uids := (mine.flatMap fun c => c.active.toList ++ c.shadow.toList ++ c.leaving.toList) ++
    (s.parked.filter fun x => x.phase == .saved && x.onCore && x.core / 24 == die).map (·.uid)
  let left := mine.flatMap fun c => c.spill.map (·.2) ++ c.deque
  let s := s.modPkg fun p => { p with diesOut := p.diesOut ||| (1 <<< die) }
  let s := uids.foldl taskAbort s
  let s := { s with cores := mapIf (fun c => c.num / 24 == die) (fun c => Core.empty c.num) s.cores }
  let held := s.gangs.filter fun g => g.state == .reserving && g.members.any fun m => m.bank.any fun b => b.1 / 24 == die
  let s := held.foldl (fun s g => releaseBanks s g .queued) s
  (left.filter fun u => isReady s u).foldl placeTask s

/-- COMPUTE_DIE_LOSS (R350). -/
def execComputeDieLoss (s : State) : Out :=
  match s.input with
  | .pick die => if die < 8 && !s.pkg.diesOut.getLsbD die then .next (loseComputeDie s die) else .next s
  | _ => .next s

/-- The base die that holds the memory of a physical address. -/
def baseOf (pa : Nat) : Option Nat :=
  match target pa with
  | .hbm st _ => some (st / 3)
  | .dur site _ => some site
  | _ => none

def tileOnDie (s : State) (t : Tile) (bd : Nat) : Bool :=
  (pieces t.va t.size).any fun p => (hwTranslate s t.vd p.1).bind baseOf == some bd

/-- The loss of a base die. -/
def loseBaseDie (s : State) (bd : Nat) : State :=
  let hit := s.tiles.filter fun t => tileOnDie s t bd
  let s := s.modPkg fun p => { p with basesOut := p.basesOut ||| (1 <<< bd) }
  copiesLost (hit.foldl tileHit s)

/-- BASE_DIE_LOSS (R350). -/
def execBaseDieLoss (s : State) : Out :=
  match s.input with
  | .pick bd => if bd < 4 && !s.pkg.basesOut.getLsbD bd then .next (loseBaseDie s bd) else .next s
  | _ => .next s

end Sys2Proof.Machine
end

