-- ==== Sys2Proof/Machine/Row.lean ====
section
/-!
DEFINITION. The row engine (R222 to R224).
-/

namespace Sys2Proof.Machine

/-- A value with the flags raised on the way to it. -/
def withFl (f : Flags) (r : FRes) : FRes := (r.1, r.2 ||| f)

/-- The input elements of a row as FP32 bits, with NV for a signalling NaN (R223). -/
def rowInputs (it : RowIn) (bs : List Byte) (n : Nat) : List FRes :=
  match it with
  | .bf16 => (lanesOf 16 n (leNat bs)).map fun v => valToFmt fp32 rne (fval Machine.bf16 v)
  | .f32 => (lanesOf 32 n (leNat bs)).map fun v => if (fval fp32 v).isNan then nanRes fp32 [fval fp32 v] else (v, 0)

/-- rowmax (R223). -/
def rowMax : List Nat → FRes
  | [] => (infBits fp32 true, 0)
  | x :: l => l.foldl (fun r y => withFl r.2 (fMinMax fp32 true r.1 y)) (x, 0)

/-- The exact difference of two values, or the NaN of an invalid one (R52). -/
def exactSub (a b : FVal) : Option FVal :=
  match a, b with
  | .fin na ma ea, .fin nb mb eb =>
    let (v, e) := dySum (signed na ma) ea (-(signed nb mb)) eb
    some (.fin (v < 0) v.natAbs e)
  | .inf na, .inf nb => if na == nb then none else some (.inf na)
  | .inf na, .fin _ _ _ => some (.inf na)
  | .fin _ _ _, .inf nb => some (.inf (!nb))
  | _, _ => none

/-- ex: exp2.x(RNE32((x - mx) * c)) (R223). The difference of two infinities of one sign is invalid whatever c is (R52). -/
def rowEx (x mx c : Nat) : FRes :=
  let vx := fval fp32 x
  let vm := fval fp32 mx
  let vc := fval fp32 c
  let arg : FRes :=
    if vx.isNan || vm.isNan then nanRes fp32 [vx, vm, vc]
    else if vc.isNan then withFl (flag (exactSub vx vm).isNone flNV) (nanRes fp32 [vc])
    else match (exactSub vx vm).bind fun d => mulExact d vc with
      | some v => roundVal fp32 .rne false v
      | none => invalid fp32
  withFl arg.2 (exp2X arg.1)

/-- One level of the adjacent-pair tree with RNE. -/
def sumLevel : List Nat → List Nat × Flags
  | a :: b :: l =>
    let (r, fl) := sumLevel l
    let (v, x) := fAdd fp32 rne a b
    (v :: r, x ||| fl)
  | _ => ([], 0)

def sumTree : Nat → List Nat → FRes
  | 0, l => (nth 0 l 0, 0)
  | n + 1, l =>
    let (r, fl) := sumLevel l
    withFl fl (sumTree n r)

/-- tsum over chunks of 64 (R223). -/
def tsum (l : List Nat) : FRes :=
  (cutAll 64 ((l.length + 63) / 64) l).foldl (fun (s : FRes) ch =>
    let t := sumTree 6 (ch ++ List.replicate (64 - ch.length) 0)
    withFl (s.2 ||| t.2) (fAdd fp32 rne s.1 t.1)) (0, 0)

/-- narrow(g * e / d) (R223). -/
def rowScale (o : NFmt) (rm : RMode) (e d : Nat) : FRes :=
  let g := match o with
    | .int _ => 127
    | .fp _ => 1
  let v := match fval fp32 e with
    | .fin n m x => FVal.fin n (g * m) x
    | v => v
  quantize o rm v (fval fp32 d)

/-- narrow(x / sqrt(d)): the exact root and quotient, one rounding, decided by a quotient of 64 bits and more and a sticky bit (R223). -/
def rowRoot (o : NFmt) (rm : RMode) (x d : Nat) : FRes :=
  let vx := fval fp32 x
  let vd := fval fp32 d
  if vd.sign && !vd.isZero then withFl flNV (narrow o rm (.nan false))
  else match vx, vd with
  | .fin n m e, .fin _ md ed =>
    if md = 0 then quantize o rm vx (.fin false 0 0)
    else if m = 0 then narrow o rm vx
    else
      let par := (ed % 2).toNat
      let den := md * 2 ^ par
      let num := m * m * 2 ^ 400
      let q := isqrt (num / den)
      let v := 2 * q + if q * q * den = num then 0 else 1
      match o with
      | .fp f => roundRat f rm true n v 1 (e - (ed - par) / 2 - 201)
      | .int w => ratToInt w rm n v 1 (e - (ed - par) / 2 - 201)
  | .inf _, .fin _ _ _ => narrow o rm vx
  | .nan _, _ | _, .nan _ => withFl (flag (vx.isSnan || vd.isSnan) flNV) (narrow o rm (.nan false))
  | _, .inf _ => quantize o rm vx vd

/-- The operations. -/
inductive RowFn where
  | smax | exps | scal | softmax | norm
deriving DecidableEq, Repr

/-- What one row gives: its elements and its FP32 value after the elements (R223). -/
structure RowRes where
  elems : List FRes
  tail  : Option FRes

def orFl (l : List FRes) : Flags := l.foldl (fun f r => f ||| r.2) 0

/-- One row (R223). `sm` is the row's value of stream SM, `k` the constant. -/
def rowRun (fn : RowFn) (o : NFmt) (rm : RMode) (x : List Nat) (sm k : Nat) : RowRes :=
  match fn with
  | .smax => ⟨[], some (rowMax x)⟩
  | .exps =>
    let ex := x.map fun v => rowEx v sm k
    let t := tsum (ex.map (·.1))
    ⟨ex.map fun e => withFl e.2 (narrow o rm (fval fp32 e.1)), some t⟩
  | .scal => ⟨x.map fun v => rowScale o rm v sm, none⟩
  | .softmax =>
    let mx := rowMax x
    let ex := x.map fun v => rowEx v mx.1 k
    let t := tsum (ex.map (·.1))
    ⟨ex.map fun e => withFl (mx.2 ||| e.2 ||| t.2) (rowScale o rm e.1 t.1), none⟩
  | .norm =>
    let sq := x.map fun v => fMul fp32 rne v v
    let t := tsum (sq.map (·.1))
    let q := divVal fp32 .rne false (fval fp32 t.1) (.fin false x.length 0)
    let d := fAdd fp32 rne q.1 k
    ⟨x.map fun v => withFl (orFl sq ||| t.2 ||| q.2 ||| d.2) (rowRoot o rm v d.1), none⟩

/-- Occupancy factor and base latency (R224). -/
def rowTimes : RowFn → Nat × Nat
  | .smax => (1, 12)
  | .exps => (1, 24)
  | .scal => (1, 20)
  | .softmax => (3, 40)
  | .norm => (2, 32)

def rowOutFmt : RowOut → NFmt
  | .i8 => .int 8
  | .bf16 => .fp Machine.bf16
  | .f32 => .fp fp32

def rowOutCode : RowOut → Nat
  | .i8 => 1 | .bf16 => 4 | .f32 => 5

def rowInCode : RowIn → Nat
  | .bf16 => 4 | .f32 => 5

def rowInBytes : RowIn → Nat
  | .bf16 => 2 | .f32 => 4

/-- A row command (R222 to R224). -/
def rowOp (fn : RowFn) (r : RowOps) (s : State) : Out :=
  let c := s.ctx.c
  let useSm := fn == .exps || fn == .scal
  let useK := fn == .exps || fn == .softmax || fn == .norm
  let streams := [r.si, r.so] ++ if useSm then [r.sm] else []
  let started := startAll s streams
  let d0 := (started.elim [] (·.2))
  let len := r.len.val
  let rowBytes := len * rowInBytes r.it
  let rows := (nth Desc.zero d0 0).length / max rowBytes 1
  let chunks := (len + 63) / 64
  let occ := (rowTimes fn).1 * rows * chunks
  let lat := (rowTimes fn).2 + occ
  engineOp r.fm (streams.map Item.strm ++ if useK then [.g r.ck] else []) true (unitFree c .row) lat
    (fun s =>
      match started with
      | some (t, di :: dout :: ds) =>
        let dm := nth Desc.zero ds 0
        let o := rowOutFmt r.ot
        let outBytes := match fn with
          | .smax => 4 * rows
          | .exps => rows * len * (o.width / 8) + 4 * rows
          | _ => rows * len * (o.width / 8)
        if di.etype.toNat ≠ rowInCode r.it || di.length % rowBytes ≠ 0 || rows > 4096 ||
            (useSm && (dm.etype != 5 || dm.length < 4 * rows)) ||
            dout.etype.toNat ≠ rowOutCode r.ot || dout.length < outBytes then .error { cause := .streamInvalid }
        else
          let cc := s.ctx.c.cc
          let pad := s.ctx.m.spad
          let sms := lanesOf 32 rows (leNat (walkRead pad dm 0 (4 * rows)))
          let k := (gRead s r.ck).toNat % 2 ^ 32
          let ins := (cutAll rowBytes rows (walkRead pad di 0 (rows * rowBytes))).map fun bs => rowInputs r.it bs len
          let outs := ins.mapIdx fun i x => rowRun fn o r.rnd.mode (x.map (·.1)) (nth 0 sms i) k
          let es := outs.flatMap RowRes.elems
          let ts := outs.filterMap RowRes.tail
          let bytes := leBytes (es.length * (o.width / 8)) (packLanes o.width (es.map (·.1))) ++
            leBytes (4 * ts.length) (packLanes 32 (ts.map (·.1)))
          let fl := orFl (ins.flatMap id) ||| orFl es ||| orFl ts
          let accs := ((di.extents false).map fun e => (e, cc, cc + occ - 1)) ++
            (if useSm then (dm.extents false).map fun e => (e, cc, cc + occ - 1) else []) ++
            (dout.extents true).map fun e => (e, cc + 1, cc + lat)
          let t := streams.foldl endWalk t
          .ok (t.modC fun c => holdUnit c .row occ, accs, [.spad (walkCells dout 0 bytes)], fl)
      | _ => .error { cause := .streamInvalid }) s

/-- rsmax (R223). -/
def execRsmax (r : RowOps) (s : State) : Out := rowOp .smax r s

/-- rexps (R223). -/
def execRexps (r : RowOps) (s : State) : Out := rowOp .exps r s

/-- rscal (R223). -/
def execRscal (r : RowOps) (s : State) : Out := rowOp .scal r s

/-- rsoftmax (R223). -/
def execRsoftmax (r : RowOps) (s : State) : Out := rowOp .softmax r s

/-- rnorm (R223). -/
def execRnorm (r : RowOps) (s : State) : Out := rowOp .norm r s

end Sys2Proof.Machine
end

