-- ==== Sys2Proof/Machine/Scalar.lean ====
section
/-!
DEFINITION. The scalar instructions: register and immediate arithmetic (R119 to R121), bit fields (R122) and scalar spill lanes (R128).
-/

namespace Sys2Proof.Machine

/-! Register forms (R119, R120). -/

/-- add (R119). -/
def execAdd (gd ga gb : Reg) (q : Pq) (s : State) : Out :=
  let a := gRead s ga
  let b := gRead s gb
  scalarOp s q [gd, ga, gb] gd 1 4 (a + b)

/-- sub (R119). -/
def execSub (gd ga gb : Reg) (q : Pq) (s : State) : Out :=
  let a := gRead s ga
  let b := gRead s gb
  scalarOp s q [gd, ga, gb] gd 1 4 (a - b)

/-- mul (R119). -/
def execMul (gd ga gb : Reg) (q : Pq) (s : State) : Out :=
  let a := gRead s ga
  let b := gRead s gb
  scalarOp s q [gd, ga, gb] gd 3 4 (a * b)

/-- mulh (R119). -/
def execMulh (gd ga gb : Reg) (q : Pq) (s : State) : Out :=
  let a := gRead s ga
  let b := gRead s gb
  scalarOp s q [gd, ga, gb] gd 3 4 (mulhS a b)

/-- mulhn (R119). -/
def execMulhn (gd ga gb : Reg) (q : Pq) (s : State) : Out :=
  let a := gRead s ga
  let b := gRead s gb
  scalarOp s q [gd, ga, gb] gd 3 4 (mulhU a b)

/-- div (R120). -/
def execDiv (gd ga gb : Reg) (q : Pq) (s : State) : Out :=
  let a := gRead s ga
  let b := gRead s gb
  scalarOp s q [gd, ga, gb] gd 18 4 (divS a b)

/-- divn (R120). -/
def execDivn (gd ga gb : Reg) (q : Pq) (s : State) : Out :=
  let a := gRead s ga
  let b := gRead s gb
  scalarOp s q [gd, ga, gb] gd 18 4 (divU a b)

/-- rem (R120). -/
def execRem (gd ga gb : Reg) (q : Pq) (s : State) : Out :=
  let a := gRead s ga
  let b := gRead s gb
  scalarOp s q [gd, ga, gb] gd 18 4 (remS a b)

/-- remn (R120). -/
def execRemn (gd ga gb : Reg) (q : Pq) (s : State) : Out :=
  let a := gRead s ga
  let b := gRead s gb
  scalarOp s q [gd, ga, gb] gd 18 4 (remU a b)

/-- and (R119). -/
def execAnd (gd ga gb : Reg) (q : Pq) (s : State) : Out :=
  let a := gRead s ga
  let b := gRead s gb
  scalarOp s q [gd, ga, gb] gd 1 4 (a &&& b)

/-- or (R119). -/
def execOr (gd ga gb : Reg) (q : Pq) (s : State) : Out :=
  let a := gRead s ga
  let b := gRead s gb
  scalarOp s q [gd, ga, gb] gd 1 4 (a ||| b)

/-- xor (R119). -/
def execXor (gd ga gb : Reg) (q : Pq) (s : State) : Out :=
  let a := gRead s ga
  let b := gRead s gb
  scalarOp s q [gd, ga, gb] gd 1 4 (a ^^^ b)

/-- andn (R119). -/
def execAndn (gd ga gb : Reg) (q : Pq) (s : State) : Out :=
  let a := gRead s ga
  let b := gRead s gb
  scalarOp s q [gd, ga, gb] gd 1 4 (a &&& ~~~b)

/-- orn (R119). -/
def execOrn (gd ga gb : Reg) (q : Pq) (s : State) : Out :=
  let a := gRead s ga
  let b := gRead s gb
  scalarOp s q [gd, ga, gb] gd 1 4 (a ||| ~~~b)

/-- shl (R119). -/
def execShl (gd ga gb : Reg) (q : Pq) (s : State) : Out :=
  let a := gRead s ga
  let b := gRead s gb
  scalarOp s q [gd, ga, gb] gd 1 4 (a <<< shAmount b)

/-- shr (R119). -/
def execShr (gd ga gb : Reg) (q : Pq) (s : State) : Out :=
  let a := gRead s ga
  let b := gRead s gb
  scalarOp s q [gd, ga, gb] gd 1 4 (a >>> shAmount b)

/-- sra (R119). -/
def execSra (gd ga gb : Reg) (q : Pq) (s : State) : Out :=
  let a := gRead s ga
  let b := gRead s gb
  scalarOp s q [gd, ga, gb] gd 1 4 (a.sshiftRight (shAmount b))

/-- rotl (R119). -/
def execRotl (gd ga gb : Reg) (q : Pq) (s : State) : Out :=
  let a := gRead s ga
  let b := gRead s gb
  scalarOp s q [gd, ga, gb] gd 1 4 (a.rotateLeft (shAmount b))

/-- rotr (R119). -/
def execRotr (gd ga gb : Reg) (q : Pq) (s : State) : Out :=
  let a := gRead s ga
  let b := gRead s gb
  scalarOp s q [gd, ga, gb] gd 1 4 (a.rotateRight (shAmount b))

/-- min (R119). -/
def execMin (gd ga gb : Reg) (q : Pq) (s : State) : Out :=
  let a := gRead s ga
  let b := gRead s gb
  scalarOp s q [gd, ga, gb] gd 1 4 (if a.slt b then a else b)

/-- max (R119). -/
def execMax (gd ga gb : Reg) (q : Pq) (s : State) : Out :=
  let a := gRead s ga
  let b := gRead s gb
  scalarOp s q [gd, ga, gb] gd 1 4 (if a.slt b then b else a)

/-- minn (R119). -/
def execMinn (gd ga gb : Reg) (q : Pq) (s : State) : Out :=
  let a := gRead s ga
  let b := gRead s gb
  scalarOp s q [gd, ga, gb] gd 1 4 (if a < b then a else b)

/-- maxn (R119). -/
def execMaxn (gd ga gb : Reg) (q : Pq) (s : State) : Out :=
  let a := gRead s ga
  let b := gRead s gb
  scalarOp s q [gd, ga, gb] gd 1 4 (if a < b then b else a)

/-- seq (R119). -/
def execSeq (gd ga gb : Reg) (q : Pq) (s : State) : Out :=
  let a := gRead s ga
  let b := gRead s gb
  scalarOp s q [gd, ga, gb] gd 1 4 (bool64 (a == b))

/-- sne (R119). -/
def execSne (gd ga gb : Reg) (q : Pq) (s : State) : Out :=
  let a := gRead s ga
  let b := gRead s gb
  scalarOp s q [gd, ga, gb] gd 1 4 (bool64 (a != b))

/-- slt (R119). -/
def execSlt (gd ga gb : Reg) (q : Pq) (s : State) : Out :=
  let a := gRead s ga
  let b := gRead s gb
  scalarOp s q [gd, ga, gb] gd 1 4 (bool64 (a.slt b))

/-- sltn (R119). -/
def execSltn (gd ga gb : Reg) (q : Pq) (s : State) : Out :=
  let a := gRead s ga
  let b := gRead s gb
  scalarOp s q [gd, ga, gb] gd 1 4 (bool64 (a < b))

/-- sle (R119). -/
def execSle (gd ga gb : Reg) (q : Pq) (s : State) : Out :=
  let a := gRead s ga
  let b := gRead s gb
  scalarOp s q [gd, ga, gb] gd 1 4 (bool64 (a.sle b))

/-- slen (R119). -/
def execSlen (gd ga gb : Reg) (q : Pq) (s : State) : Out :=
  let a := gRead s ga
  let b := gRead s gb
  scalarOp s q [gd, ga, gb] gd 1 4 (bool64 (a <= b))

/-- sel (R119). -/
def execSel (gd ga gb : Reg) (q : Pq) (s : State) : Out :=
  let a := gRead s ga
  let b := gRead s gb
  scalarOp s q [gd, ga, gb] gd 1 4 (if gRead s gd = 0 then b else a)

/-- clz (R119). -/
def execClz (gd ga : Reg) (q : Pq) (s : State) : Out :=
  scalarOp s q [gd, ga] gd 1 4 (BitVec.ofNat 64 (clzNat 64 (gRead s ga).toNat))

/-- ctz (R119). -/
def execCtz (gd ga : Reg) (q : Pq) (s : State) : Out :=
  scalarOp s q [gd, ga] gd 1 4 (BitVec.ofNat 64 (ctzNat 64 (gRead s ga).toNat))

/-- popc (R119). -/
def execPopc (gd ga : Reg) (q : Pq) (s : State) : Out :=
  scalarOp s q [gd, ga] gd 1 4 (BitVec.ofNat 64 (popNat 64 (gRead s ga).toNat))

/-! Immediate forms (R121), without and with the extension word. -/

/-- addi (R121). -/
def execAddi (gd ga : Reg) (q : Pq) (imm : BitVec 10) (s : State) : Out :=
  let a := gRead s ga
  let i := imm.signExtend 64
  scalarOp s q [gd, ga] gd 1 4 (a + i)

/-- muli (R121). -/
def execMuli (gd ga : Reg) (q : Pq) (imm : BitVec 10) (s : State) : Out :=
  let a := gRead s ga
  let i := imm.signExtend 64
  scalarOp s q [gd, ga] gd 3 4 (a * i)

/-- andi (R121). -/
def execAndi (gd ga : Reg) (q : Pq) (imm : BitVec 10) (s : State) : Out :=
  let a := gRead s ga
  let i := imm.signExtend 64
  scalarOp s q [gd, ga] gd 1 4 (a &&& i)

/-- ori (R121). -/
def execOri (gd ga : Reg) (q : Pq) (imm : BitVec 10) (s : State) : Out :=
  let a := gRead s ga
  let i := imm.signExtend 64
  scalarOp s q [gd, ga] gd 1 4 (a ||| i)

/-- xori (R121). -/
def execXori (gd ga : Reg) (q : Pq) (imm : BitVec 10) (s : State) : Out :=
  let a := gRead s ga
  let i := imm.signExtend 64
  scalarOp s q [gd, ga] gd 1 4 (a ^^^ i)

/-- slti (R121). -/
def execSlti (gd ga : Reg) (q : Pq) (imm : BitVec 10) (s : State) : Out :=
  let a := gRead s ga
  let i := imm.signExtend 64
  scalarOp s q [gd, ga] gd 1 4 (bool64 (a.slt i))

/-- sltni (R121). -/
def execSltni (gd ga : Reg) (q : Pq) (imm : BitVec 10) (s : State) : Out :=
  let a := gRead s ga
  let i := imm.signExtend 64
  scalarOp s q [gd, ga] gd 1 4 (bool64 (a < i))

/-- shli (R121). -/
def execShli (gd ga : Reg) (q : Pq) (imm : BitVec 10) (s : State) : Out :=
  let a := gRead s ga
  let i := imm.signExtend 64
  scalarOp s q [gd, ga] gd 1 4 (a <<< i.toNat)

/-- shri (R121). -/
def execShri (gd ga : Reg) (q : Pq) (imm : BitVec 10) (s : State) : Out :=
  let a := gRead s ga
  let i := imm.signExtend 64
  scalarOp s q [gd, ga] gd 1 4 (a >>> i.toNat)

/-- srai (R121). -/
def execSrai (gd ga : Reg) (q : Pq) (imm : BitVec 10) (s : State) : Out :=
  let a := gRead s ga
  let i := imm.signExtend 64
  scalarOp s q [gd, ga] gd 1 4 (a.sshiftRight i.toNat)

/-- ldi (R121). -/
def execLdi (gd : Reg) (q : Pq) (imm : BitVec 10) (s : State) : Out :=
  scalarOp s q [gd] gd 1 4 (imm.signExtend 64)

/-- ldhi (R121). -/
def execLdhi (gd : Reg) (q : Pq) (imm : BitVec 10) (s : State) : Out :=
  scalarOp s q [gd] gd 1 4 (((imm.signExtend 64).truncate 32 : BitVec 32) ++ ((gRead s gd).truncate 32 : BitVec 32))

/-- addi, with an extension word (R121). -/
def execAddiExt (gd ga : Reg) (q : Pq) (imm : BitVec 32) (s : State) : Out :=
  let a := gRead s ga
  let i := imm.signExtend 64
  scalarOp s q [gd, ga] gd 1 8 (a + i)

/-- muli, with an extension word (R121). -/
def execMuliExt (gd ga : Reg) (q : Pq) (imm : BitVec 32) (s : State) : Out :=
  let a := gRead s ga
  let i := imm.signExtend 64
  scalarOp s q [gd, ga] gd 3 8 (a * i)

/-- andi, with an extension word (R121). -/
def execAndiExt (gd ga : Reg) (q : Pq) (imm : BitVec 32) (s : State) : Out :=
  let a := gRead s ga
  let i := imm.signExtend 64
  scalarOp s q [gd, ga] gd 1 8 (a &&& i)

/-- ori, with an extension word (R121). -/
def execOriExt (gd ga : Reg) (q : Pq) (imm : BitVec 32) (s : State) : Out :=
  let a := gRead s ga
  let i := imm.signExtend 64
  scalarOp s q [gd, ga] gd 1 8 (a ||| i)

/-- xori, with an extension word (R121). -/
def execXoriExt (gd ga : Reg) (q : Pq) (imm : BitVec 32) (s : State) : Out :=
  let a := gRead s ga
  let i := imm.signExtend 64
  scalarOp s q [gd, ga] gd 1 8 (a ^^^ i)

/-- slti, with an extension word (R121). -/
def execSltiExt (gd ga : Reg) (q : Pq) (imm : BitVec 32) (s : State) : Out :=
  let a := gRead s ga
  let i := imm.signExtend 64
  scalarOp s q [gd, ga] gd 1 8 (bool64 (a.slt i))

/-- sltni, with an extension word (R121). -/
def execSltniExt (gd ga : Reg) (q : Pq) (imm : BitVec 32) (s : State) : Out :=
  let a := gRead s ga
  let i := imm.signExtend 64
  scalarOp s q [gd, ga] gd 1 8 (bool64 (a < i))

/-- shli, with an extension word (R121). -/
def execShliExt (gd ga : Reg) (q : Pq) (imm : BitVec 32) (s : State) : Out :=
  let a := gRead s ga
  let i := imm.signExtend 64
  scalarOp s q [gd, ga] gd 1 8 (a <<< i.toNat)

/-- shri, with an extension word (R121). -/
def execShriExt (gd ga : Reg) (q : Pq) (imm : BitVec 32) (s : State) : Out :=
  let a := gRead s ga
  let i := imm.signExtend 64
  scalarOp s q [gd, ga] gd 1 8 (a >>> i.toNat)

/-- srai, with an extension word (R121). -/
def execSraiExt (gd ga : Reg) (q : Pq) (imm : BitVec 32) (s : State) : Out :=
  let a := gRead s ga
  let i := imm.signExtend 64
  scalarOp s q [gd, ga] gd 1 8 (a.sshiftRight i.toNat)

/-- ldi, with an extension word (R121). -/
def execLdiExt (gd : Reg) (q : Pq) (imm : BitVec 32) (s : State) : Out :=
  scalarOp s q [gd] gd 1 8 (imm.signExtend 64)

/-- ldhi, with an extension word (R121). -/
def execLdhiExt (gd : Reg) (q : Pq) (imm : BitVec 32) (s : State) : Out :=
  scalarOp s q [gd] gd 1 8 (((imm.signExtend 64).truncate 32 : BitVec 32) ++ ((gRead s gd).truncate 32 : BitVec 32))

/-! Bit fields (R122). -/

/-- bfx (R122): the field, zero-extended. -/
def execBfx (gd ga : Reg) (pos wm1 : Fin 64) (s : State) : Out :=
  scalarOp s ⟨false, 0⟩ [gd, ga] gd 1 4 (BitVec.ofNat 64 (fieldOf (gRead s ga) pos wm1))

/-- bfxs (R122): the field, sign-extended. -/
def execBfxs (gd ga : Reg) (pos wm1 : Fin 64) (s : State) : Out :=
  scalarOp s ⟨false, 0⟩ [gd, ga] gd 1 4 (BitVec.ofInt 64 (sext (wm1.val + 1) (fieldOf (gRead s ga) pos wm1)))

/-- bfi (R122): the low bits of ga placed in the old gd. -/
def execBfi (gd ga : Reg) (pos wm1 : Fin 64) (s : State) : Out :=
  scalarOp s ⟨false, 0⟩ [gd, ga] gd 1 4 (fieldPut (gRead s gd) (gRead s ga) pos wm1)

/-! Scalar lanes of spill slots (R128). -/

/-- lds (R128). -/
def execLds (g : Reg) (slot : Fin 256) (lane : Fin 64) (s : State) : Out :=
  checked s (some .c) [.g g, .k slot] (.next (finish (pend s 1 [.cReg g (kLane s.ctx.c.k[slot] lane)]) 4))

/-- sts (R128): it changes its own 8 bytes alone. -/
def execSts (g : Reg) (slot : Fin 256) (lane : Fin 64) (s : State) : Out :=
  let data : Vec := (gRead s g).zeroExtend 4096 <<< (64 * lane.val)
  let mask : Pred := (255 : Pred) <<< (8 * lane.val)
  checked s (some .c) [.g g, .k slot] (.next (finish (pend s 1 [.slot slot data mask]) 4))

end Sys2Proof.Machine
end

