-- ==== Sys2Proof/Machine/SchedEvents.lean ====
section
/-!
DEFINITION. The events of the dispatcher and of the cores (R16, R20 to R22, R246, R252, R253, R255, R325, R329 to R337): what each does
once it happens. The part chooses when, within what the conditions allow; an event whose condition does not hold changes nothing.
-/

namespace Sys2Proof.Machine

/-- The core that an event concerns: the one at the inputs, else the first that qualifies. -/
def corePick (s : State) (ok : Core → Bool) : Option Core :=
  match s.input with
  | .pick n => (s.core? n).bind fun c => if ok c then some c else none
  | _ => s.cores.find? fun c => s.core? c.num == some c && ok c

/-- The task that an event concerns. -/
def taskPick (s : State) (ok : Task → Bool) : Option Task :=
  match s.input with
  | .task uid => (s.task? uid).bind fun k => if ok k then some k else none
  | _ => s.tasks.find? ok

/-- The partitions that an event concerns. -/
def partPick (s : State) : List Partition :=
  match s.input with
  | .part n => (s.part? n).toList
  | _ => s.parts

/-- The context that an event concerns: the task's at the inputs, else the one that moves. -/
def uidPick (s : State) : Nat :=
  match s.input with
  | .task uid => uid
  | _ => s.ctx.uid

/-! Deadlocks (R20, R21, R243, R244). -/

/-- The coupling-queue conditions of the A-slice (R19). -/
def BlockA.coupling : BlockA → Bool
  | .pushFull _ | .slipLimit | .popSq _ | .popYq | .checkerRecord | .snapshotPlace => true
  | _ => false

/-- A condition of the A-slice that holds now: an entry of sq or yq that has become poppable since its last try ends the wait for it. -/
def couplingHolds (x : Context) : BlockA → Bool
  | .popSq q => x.q.sq[q].head?.all fun e => e.readyAt > x.c.cc
  | .popYq => x.q.yq.head?.all fun e => e.readyAt > x.c.cc
  | b => b.coupling

/-- Neither slice can go on, and nothing that either has issued will move an entry of a coupling queue: an entry whose data has not
arrived becomes poppable, and one reserved in sq or yq does while C-cycles pass. -/
def decoupleStuck (x : Context) : Bool :=
  let aDone := x.a.stopped || x.a.eret
  let cDone := x.c.stopped || x.c.eret
  let aBlk := x.a.block.any (couplingHolds x)
  let cBlk := x.c.block.any (blockEnds x)
  x.phase == .running && x.a.stop.isNone && x.c.stop.isNone && (aDone || aBlk) && (cDone || cBlk) && (aBlk || cBlk) &&
    !(x.q.toC.any fun e => !e.ready && !e.poison) &&
    !(cDone && (x.q.sq.toList.any (fun l => l.any fun e => e.readyAt > x.c.cc) || x.q.yq.any fun e => e.readyAt > x.c.cc))

/-- The C-slice's address in the record: the blocked instruction, or the one after `done`. -/
def stuckPc (x : Context) : Word := if x.c.stopped || x.c.eret then x.c.pc else x.c.cur.pc

/-- The A-slice's condition in SUBCAUSE (R244). -/
def stuckA (x : Context) : Nat :=
  match x.a.block with
  | some (.pushFull q) => q.val + 1
  | some .slipLimit => 6
  | some (.popSq q) => 7 + q.val
  | some .popYq => 9
  | some .checkerRecord => 10
  | some .snapshotPlace => 11
  | _ => 0

/-- The C-slice's condition in SUBCAUSE (R244). -/
def stuckC (x : Context) : Nat :=
  match x.c.block with
  | some (.popLq q) => q.val + 1
  | some .popXq => 5
  | some (.pushSq q) => 7 + q.val
  | some .pushYq => 9
  | _ => 0

/-- DECOUPLE_DEADLOCK (R20). -/
def execDecoupleDeadlock (s : State) : Out :=
  if s.live && decoupleStuck s.ctx then
    .next (raiseWhole { cause := .decoupleDeadlock, sub := BitVec.ofNat 8 (stuckA s.ctx + 16 * stuckC s.ctx) } (stuckPc s.ctx) s)
  else .next s

/-- The flags that the heads of the engine queues, or the front end at an `fwait`, wait for. -/
def awaited (x : Context) (front : List (Nat × Nat)) : List Nat :=
  let heads := x.c.queues.toList.filterMap fun q => q.head?
  let needs := (heads.flatMap fun d => match decodeCode d.w0 d.w1 with
    | .ok i => (codeTraffic i).dec
    | .error _ => []) ++ front
  (needs.filter fun n => ((x.c.f.toList.map Fin.val).getD n.1 0) < n.2).map (·.1)

/-- What holds the front end: nothing more to fetch, a control instruction on its way, a full engine queue, or a flag. -/
def frontNeeds (s : State) : Option (List (Nat × Nat)) :=
  let c := s.ctx.c
  if c.stopped || c.eret || c.hold then some [] else
  match fetch { s with slice := .c } c.pc with
  | .ok w0 w1 _ =>
    if isFwait w0 then match decodeCode w0 w1 with
      | .ok i => some (codeTraffic i).dec
      | .error _ => none
    else match engineOf w0 with
      | some e => if c.queues[engineIdx e].length ≥ 16 then some [] else none
      | none => none
  | _ => none

/-- A head that has been tried and waits is blocked, unless it only waits for a unit or an accumulator of a matrix or row engine: for a
flag that is zero, for the eligibility of a stream, or for earlier instructions (R19, R21). -/
def headBlocked (x : Context) (i : Fin 4) : Bool :=
  match x.c.queues[i] with
  | [] => true
  | d :: _ => x.c.tried[i] && (i.val < 2 || match decodeCode d.w0 d.w1 with
    | .ok (.instr k) => (instrTraffic k).dec.any (fun n => ((x.c.f.toList.map Fin.val).getD n.1 0) < n.2) || (startsStreams k && startWaits x.c)
    | _ => false)

/-- Every engine queue and the front end are blocked or empty, one of them on a flag, and no issued instruction will set any flag that is
waited for (R21). A freeze is no such block: it ends with the other slice's push or pop (log 15). -/
def flagStuck (s : State) : Bool :=
  let x := s.ctx
  let c := x.c
  s.live && (x.phase == .running || x.phase == .cut) && c.stop.isNone && c.block.isNone && !c.issd.toList.any id &&
    (List.finRange 4).all (headBlocked x) &&
    match frontNeeds s with
    | none => false
    | some front =>
      let fs := awaited x front
      !fs.isEmpty && c.pend.all fun p => p.sf = 0 || !fs.contains p.sf.val

/-- FLAG_DEADLOCK (R21): FPC names the first of the instructions that wait, in program order. -/
def execFlagDeadlock (s : State) : Out :=
  if !flagStuck s then .next s else
  let heads := s.ctx.c.queues.toList.filterMap fun q => q.head?
  let first := heads.foldl (fun (b : Option Cmd) d => match b with
    | none => some d
    | some e => if d.seq < e.seq then some d else b) none
  .next (raiseWhole { cause := .flagDeadlock } (first.elim s.ctx.c.pc Cmd.pc) s)

/-! Events of a core. -/

/-- SILENT_ERR (R16, R255): a disagreement of Marver with the core aborts the task that runs. -/
def execSilentErr (s : State) : Out :=
  .next (if (s.task? (uidPick s)).any fun k => k.state == .running then taskAbort s (uidPick s) else s)

/-- HANDLER_ENTRY (R246). -/
def execHandlerEntry (s : State) : Out := .next (onContext s (uidPick s) enterHandler)

/-- A task in the active bank of a core that blocks on a tile acquire. A member of a gang in its banks moves only with its gang, or to the
other bank of its core under R336 (R22, R335). -/
def blockedTile (s : State) (c : Core) : Bool :=
  c.switchTo.isNone && !c.active.any (bound s) && (c.active.bind fun u => bankCtx? s u).any fun x => match x.a.block with
    | some (.tileAcquire _) => x.phase == .running
    | _ => false

/-- The shadow context of a core may come in. -/
def shadowOk (s : State) (c : Core) : Bool := c.shadow.all (mayComeIn s)

/-- RESIDENCY_TIMEOUT (R22). -/
def execResidencyTimeout (s : State) : Out :=
  match corePick s fun c => blockedTile s c && shadowOk s c with
  | some c => .next (requestSwitch s c.num)
  | none => .next s

/-- The members of a level-0 gang share a core: it switches when the active one blocks (R336). -/
def pairSwitch (s : State) (c : Core) : Bool :=
  c.switchTo.isNone && (c.active.any fun u => (gangOf s u).any fun g => g.level == 0 && g.state == .running &&
    c.shadow.any fun w => g.members.any fun m => m.uid == w) &&
  (c.active.bind fun u => bankCtx? s u).any fun x => x.phase == .running && match x.a.block with
    | some (.tileAcquire _) | some .dbar => true
    | some b => b.coupling
    | none => false

/-- A shadow context that may come into a free active bank: no entry of the deque goes before it (R335). -/
def comesBack (s : State) (c : Core) : Bool :=
  c.active.isNone && c.leaving.isNone && c.switchTo.isNone && coreUp s c.num && shadowOk s c &&
    c.shadow.any fun u => (s.task? u).any fun k => vdRuns s k.vd && (ownEntry s c).all fun e => taskEp e ≤ k.prio || bound s u

/-- SWITCH_COMPLETE (R252): the end of a switch. A core whose active bank is free takes its shadow context in, and one with a level-0
gang begins the switch that R336 asks for. -/
def execSwitchComplete (s : State) : Out :=
  match corePick s fun c => c.switchTo.isSome || comesBack s c || pairSwitch s c with
  | none => .next s
  | some c => if c.switchTo.isSome || c.active.isNone then .next (switchDone s c.num) else .next (requestSwitch s c.num)

/-- The core whose spill is over: first one with a context that has left its bank for good. -/
def spillPick (s : State) : Option Core :=
  (corePick s fun c => c.leaving.isSome || !shadowOk s c).or (corePick s fun c => c.shadow.isSome)

/-- SPILL_COMPLETE (R253): a context that has given up its bank goes first. -/
def execSpillComplete (s : State) : Out :=
  match spillPick s with
  | some c => .next (spillDone s c.num)
  | none => .next s

/-! Tasks in deques. -/

/-- TASK_READY (R329): one task, or each in turn, and the gangs that wait for their members (R336). -/
def execTaskReady (s : State) : Out :=
  match s.input with
  | .task uid => .next (taskReady s uid)
  | _ =>
    let s := (s.tasks.filter fun k => k.state == .waiting || (k.state == .suspended && k.saved)).foldl (fun s k => taskReady s k.uid) s
    .next ((s.gangs.filter fun g => g.state == .waiting || g.state == .suspended).foldl gangReady s)

def corePart (s : State) (c : Core) : Option Partition := s.parts.find? fun p => (partCores s p).any fun d => d.num == c.num

/-- Every gang of a partition that reserves takes the banks it can, before the deques do (R331). -/
def reserveFirst (s : State) (p : Partition) : State :=
  (s.gangs.filter fun g => g.part == p.num && g.state == .reserving).foldl (fun s g => reserve (g.size + 1) s g) s

/-- A core has a READY entry of its own. -/
def hasReady (s : State) (c : Core) : Bool := !(readyIn s (c.spill.map (·.2) ++ c.deque)).isEmpty

/-- The core waits for the RETRY of a read of its spilled entries. -/
def spillHeld (s : State) (c : Core) : Bool := s.parts.any fun p => p.recs.any fun r => r.holder == .spill c.num

/-- The spilled entries of a core that are to be read: the youngest, while its on-chip deque has room, and the oldest, while another core finds
nothing else to run (R332, R333). -/
def spillWanted (s : State) (c : Core) : List (Nat × Nat) :=
  (if c.deque.length < 32 then c.spill.getLast?.toList else []) ++
    if s.cores.any fun d => d.num != c.num && activeFree s d && !hasReady s d then c.spill.head?.toList else []

/-- The stage-2 fault that a wanted read meets (R332; log 65). -/
def spillFault (s : State) (c : Core) : Option (Nat × S2Flt × Nat) :=
  (spillWanted s c).findSome? fun e => match spillTry s c e with
    | .error (.s2 f a) => some ((s.task? e.2).elim 0 (·.vd), f, a)
    | _ => none

/-- A refill, or the record of a read that faults, is due: a page fault of stage 1 leaves the entry in place until its page is repaired. -/
def refillDue (s : State) (c : Core) : Bool :=
  !spillHeld s c && ((spillFault s c).isSome || (c.deque.length < 32 && c.spill.getLast?.any fun e => (spillRead s c e).isSome))

/-- The refill of a core's deque, or the record of the stage-2 fault of a read: the read is tried again after the RETRY (R328, R332). -/
def refillStep (s : State) (c : Core) : State :=
  match corePart s c with
  | none => s
  | some p => match spillFault s c with
    | some (vd, f, a) => (holdAccess s p.num vd c.num f (BitVec.ofNat 64 a) 0 false false (.spill c.num)).1
    | none => settleDeques s c.num p.num

/-- TASK_DISPATCH (R331): a refill that is due goes first. -/
def execTaskDispatch (s : State) : Out :=
  match s.cores.find? fun c => (corePart s c).isSome && refillDue s c with
  | some c => .next (refillStep s c)
  | none => match corePick s fun c => activeFree s c && (ownEntry s c).isSome with
  | none => .next s
  | some c => match corePart s c with
    | none => .next s
    | some p =>
      let s := reserveFirst s p
      if !activeFree s c then .next s else
      match ownEntry s c with
      | none => .next s
      | some k => match rereadEntry s c.num k with
      | some t => .next t
      | none =>
        let t := placeActive s k.uid c.num
        let t := if (t.task? k.uid).any fun j => j.state == .ready then t else settleDeques (takeEntry t c.num k) c.num p.num
        .next t

/-- The other cores of a partition in the order in which a core steals from them (R333). -/
def stealOrder (s : State) (p : Partition) (c : Core) : List Core :=
  let cs := (partCores s p).filter fun d => d.num != c.num
  let die := fun (d : Core) => d.num / 24
  let own := cs.filter fun d => die d == die c
  let far := (List.range 7).flatMap fun i => cs.filter fun d => die d == (die c + 1 + i) % 8
  (own.filter fun d => d.num > c.num) ++ (own.filter fun d => d.num < c.num) ++ far

/-- The READY entry nearest the head of a deque, spilled entries first. -/
def stealable (s : State) (c : Core) : Option Task := (readyIn s (spilled s c ++ c.deque)).head?

/-- What a core steals: from the first deque in its order that holds a READY entry, the one nearest the head, if it can be placed (R333,
R334). -/
def stealFrom (s : State) (c : Core) : Option (Partition × Core × Task) :=
  (corePart s c).bind fun p => ((stealOrder s p c).findSome? fun d => (stealable s d).map fun k => (p, d, k)).filter fun e => placeable s e.2.2

/-- TASK_STEAL (R333). -/
def execTaskSteal (s : State) : Out :=
  match corePick s fun c => activeFree s c && !hasReady s c && (stealFrom s c).isSome with
  | none => .next s
  | some c => match stealFrom s c with
    | none => .next s
    | some (p, d, k) => match rereadEntry s d.num k with
      | some t => .next t
      | none =>
        let t := placeActive s k.uid c.num
        .next (if (t.task? k.uid).any fun j => j.state == .ready then t else settleDeques (takeEntry t d.num k) d.num p.num)

/-- The shadow bank of a core yields to an entry: it is empty, or holds a context of lower PRIO that may leave it (R335). -/
def shadowYields (s : State) (c : Core) (ep : Nat) (own : Nat → Bool) : Bool :=
  c.leaving.isNone && c.shadow.all fun w => own w || (!bound s w && (s.task? w).any fun j => j.prio < ep)

/-- An entry of a core's deque goes before its active task (R335). -/
def outranked (s : State) (c : Core) : Bool :=
  c.quantum && c.switchTo.isNone && c.active.any fun u => !bound s u && (s.task? u).any fun k =>
    (topEntry s c).any fun e => taskEp e > k.prio && shadowYields s c (taskEp e) fun _ => false

/-- PRIORITY_PREEMPTION (R335): the shadow bank is emptied first, then the active context moves there, and the entry is the next that the
core takes. -/
def execPriorityPreemption (s : State) : Out :=
  match corePick s (outranked s) with
  | none => .next s
  | some c =>
    if c.shadow.isSome then .next (spillDone s c.num)
    else .next (requestSwitch (s.modCore c.num fun d => { d with due := (topEntry s c).map Task.uid }) c.num)

/-- SPAWN_OVERFLOW_RESUME (R170): the page of the overflow area is resident. -/
def execSpawnOverflowResume (s : State) : Out :=
  let ready := fun (k : Task) => (s.context? k.uid).any fun x => x.m.spawnHeld && match spillHead s x.core k with
    | .fault _ => false
    | _ => true
  match taskPick s ready with
  | none => .next s
  | some k => .next (taskReady (s.modUid k.uid fun x => { x with m := { x.m with spawnHeld := false } }) k.uid)

/-- AGEING_STEP (R325, R331, R336): STEP cc pass for a partition's PENDING queues, READY tasks and QUEUED gangs; what is mapped or resident
has been so for QUANT (log 1). -/
def execAgeingStep (s : State) : Out :=
  .next ((partPick s).foldl (fun s p =>
    let qs := (partQueues s p.num).filter fun x => x.state == .pending || x.state == .mapped
    let s := qs.foldl (fun s x => setQueue s x.vd x.qidx fun x =>
      if x.state == .pending then { x with age := min (x.age + 1) 15 } else { x with held := true }) s
    let s := (s.vds.filter fun v => v.part == p.num && stalled s v).foldl (fun s v =>
      s.modVd v.num fun v => { v with rstall := v.rstall + BitVec.ofNat 64 p.step }) s
    { s with
      tasks := mapIf (fun k => k.part == p.num && k.state == .ready && !descDval k.desc) (fun k => { k with age := k.age + 1 }) s.tasks
      gangs := mapIf (fun g => g.part == p.num) (fun g =>
        { g with age := if g.state == .queued then g.age + 1 else g.age, quantum := g.quantum || g.state == .running }) s.gangs
      cores := mapIf (fun c => p.fence.cores.getLsbD c.num && c.active.isSome) (fun c => { c with quantum := true }) s.cores }) s)

/-! Gangs (R336, R337). -/

def gangAt (s : State) (ok : Gang → Bool) : Option Gang :=
  match s.input with
  | .gang vd level did => s.gangs.find? fun g => g.vd == vd && g.level == level && g.did == did && ok g
  | _ => s.gangs.find? ok

/-- GANG_RESERVING: the QUEUED gang of the highest priority, while none of its partition reserves. -/
def execGangReserving (s : State) : Out :=
  .next ((partPick s).foldl (fun s p =>
    if s.gangs.any fun g => g.part == p.num && g.state == .reserving then s else
    match bestGang s (s.gangs.filter fun g => g.part == p.num && g.state == .queued && vdRuns s g.vd) with
    | none => s
    | some g => reserve (g.size + 1) (s.modGang g fun g => { g with state := .reserving }) g) s)

/-- GANG_RUNNING: a bank is held for every member, and at level 3 on every package. -/
def execGangRunning (s : State) : Out :=
  match gangAt s fun g => g.state == .reserving with
  | none => .next s
  | some g =>
    let s := reserve (g.size + 1) s g
    match s.gangs.find? (sameGang g) with
    | none => .next s
    | some g =>
      if !reserved g then .next s
      else if !gangLoadable s g then .next (gangReads s g)
      else if g.level = 3 && !g.others.isEmpty && !g.reported.contains s.pkg.num then
        .next (reportGang (s.modGang g fun g => { g with reported := s.pkg.num :: g.reported }) g .reserved s.pkg.num 0)
      else if (gangPkgs g).all fun p => g.reported.contains p then .next (startGang s g)
      else .next s

/-- GANG_RESERVE_TIMEOUT: every held bank is released, at level 3 on every package. -/
def execGangReserveTimeout (s : State) : Out :=
  match gangAt s fun g => g.state == .reserving with
  | none => .next s
  | some g => .next (reportGang (releaseBanks s g .queued) g .released s.pkg.num 0)

/-- GANG_FORM_TIMEOUT: the members of a gang that has not formed fail, at level 3 on every package. -/
def execGangFormTimeout (s : State) : Out :=
  match gangAt s fun g => g.state == .forming && (s.part? g.part).any fun p => p.form ≠ 0 with
  | none => .next s
  | some g => .next (unformed (reportGang s g .unformed 0 0) g)

/-- What may push a gang off its banks: a QUEUED gang, or a READY task that R335 would place on a member's core, of higher priority (R337). -/
def gangOutranked (s : State) (g : Gang) : Bool :=
  let n := gangPrio s g
  let mine := fun u => g.members.any fun m => !m.ended && m.uid == u
  s.gangs.any (fun h => h.part == g.part && h.state == .queued && gangEp s h > n) ||
    s.cores.any fun c => c.active.any mine && (topEntry s c).any fun e => taskEp e > n && shadowYields s c (taskEp e) mine

/-- A gang that is to be pre-empted: at level 3 only where every member is blocked at one barrier count (R337). -/
def gangYields (s : State) (g : Gang) : Bool :=
  g.state == .running && g.quantum && gangOutranked s g &&
    (g.level < 3 || gangAtBar s g)

/-- GANG_PREEMPTION (R337): at level 3 on every package. -/
def execGangPreemption (s : State) : Out :=
  match gangAt s (gangYields s) with
  | some g => .next (reportGang (preemptGang s g) g .preempted 0 0)
  | none => .next s

end Sys2Proof.Machine
end

