-- ==== Sys2Proof/Machine/StreamOps.lean ====
section
/-!
DEFINITION. The A-slice's stream and byte-barrier instructions (R145 to R150).
-/

namespace Sys2Proof.Machine

/-- A field of a descriptor written from a register (R146). -/
def Desc.put (d : Desc) (f : StrmField) (v : Word) : Desc :=
  match f with
  | .base => { d with base := v.truncate 23 }
  | .etype => { d with etype := v.truncate 4 }
  | .geom => { d with bpr := (v >>> 16).truncate 8, mxw := (v >>> 10).truncate 2, blen := v.truncate 10 }
  | .sbase => { d with sbase := v.truncate 23 }
  | .sstride => { d with sstride := v.truncate 24 }
  | .loop l => { d with loops := d.loops.set l ⟨v.truncate 16, (v >>> 16).truncate 24⟩ }

/-- A field of a descriptor as sget reads it, reserved bits zero (R146). -/
def Desc.get (d : Desc) (f : StrmField) : Word :=
  match f with
  | .base => d.base.zeroExtend 64
  | .etype => d.etype.zeroExtend 64
  | .geom => (d.bpr.zeroExtend 64 <<< 16) ||| (d.mxw.zeroExtend 64 <<< 10) ||| d.blen.zeroExtend 64
  | .sbase => d.sbase.zeroExtend 64
  | .sstride => d.sstride.zeroExtend 64
  | .loop l => (d.loops[l].stride.zeroExtend 64 <<< 16) ||| d.loops[l].count.zeroExtend 64

/-- sset (R145). -/
def execSset (n : Fin 16) (f : StrmField) (ga : Reg) (s : State) : Out :=
  checked s (some .a) [.strm n, .g ga]
    (let st := s.ctx.m.streams[n]
     .next (finish (s.setStream n { st with shadow := st.shadow.put f (gRead s ga) }) 4))

/-- sget (R145). -/
def execSget (gd : Reg) (n : Fin 16) (f : StrmField) (s : State) : Out :=
  checked s (some .a) [.strm n, .g gd] (.next (finish (aWrite s gd (s.ctx.m.streams[n].shadow.get f)) 4))

/-- The armed snapshots that a stream holds: the newest eligible one and those after it (R149). -/
def armedHeld (st : Stream) (popped : Nat) : Nat :=
  let eligible := (st.armed.filter fun a => a.after < popped).length
  st.armed.length - (eligible - 1)

/-- sgo (R145, R148, R149). -/
def execSgo (n : Fin 16) (s : State) : Out :=
  checked s (some .a) [.strm n]
    (let st := s.ctx.m.streams[n]
     let d := st.shadow
     let at_ := s.ctx.q.nPushA
     let popped := s.ctx.c.pops.foldl (fun m p => max m p.2) 0
     if d.bad s.ctx.decl.spad then fault .streamInvalid s
     else if (st.armed.getLast?).any fun a => a.after == at_ then
       .next (finish (s.setStream n { st with armed := st.armed.dropLast ++ [⟨d, at_⟩] }) 4)
     else if armedHeld st popped ≥ s.ctx.decl.slipl + 1 then .next (blockA s .snapshotPlace)
     else .next (finish (s.setStream n { st with armed := st.armed ++ [⟨d, at_⟩] }) 4))

/-- badd (R150). -/
def execBadd (b : Fin 8) (ga : Reg) (s : State) : Out :=
  checked s (some .a) [.bar b, .g ga]
    (.next (finish (s.modM fun m => { m with bars := m.bars.set b (m.bars[b] + (gRead s ga).truncate 32) }) 4))

/-- bwait (R150): it blocks while the barrier is positive, then orders the copies that it covers (R228). -/
def execBwait (b : Fin 8) (s : State) : Out :=
  checked s (some .a) [.bar b]
    (if s.ctx.m.bars[b].toInt > 0 then .next (blockA s .barrier) else .next (finish (waitCopies s b) 4))

end Sys2Proof.Machine
end

