-- ==== Sys2Proof/Machine/System.lean ====
section
/-!
DEFINITION. The system group (R85): nop and done (R129), trap and brk (R130), eret (R131), system registers (R36 to R41, R132, R133), the
scalar queue operations (R134), and the words that decoding refuses with a fault of their own (R102).
-/

namespace Sys2Proof.Machine

/-! Words that are refused (R102, orders 2 to 5). -/

/-- An illegal-instruction fault with its subcause and information (R240). -/
def illegal (s : State) (sub : BitVec 8) (info : Word) : Out := .next (raise { cause := .illegal, sub := sub, info := info } s)

/-- The all-zero word. -/
def execIllegalZeroWord (s : State) : Out := illegal s 2 0

/-- Major 0x3F: bits [25:0] are reported. -/
def execDefinedIllegal (code : BitVec 26) (s : State) : Out := illegal s 3 (code.zeroExtend 64)

/-- Major 0x3E. -/
def execReservedEscape (_ : BitVec 26) (s : State) : Out := illegal s 4 0

/-- An unallocated major. -/
def execUnallocatedMajor (_ : Fin 64) (_ : BitVec 26) (_ : BitVec 32) (s : State) : Out := illegal s 5 0

/-! nop, done, trap, brk, eret. -/

/-- nop (R129). -/
def execNop (s : State) : Out := .next (finish s 4)

/-- Whether a C-slice instruction dispatched before the one that runs has yet to issue (R129, R130). -/
def earlierWaits (s : State) : Bool :=
  s.slice == .c && s.ctx.c.queues.toList.any fun l => l.any fun d => d.seq < s.ctx.c.cur.seq

/-- done (R129): the slice is over. In the C-slice it waits for every earlier instruction; in a handler it may end the handling. -/
def execDone (s : State) : Out :=
  if earlierWaits s then .next (waitC s)
  else
    let t := finish s 4
    .next (leaveHandler (match s.slice with
      | .a => t.modA fun a => { a with stopped := true }
      | .c => t.modC fun c => { c with stopped := true }))

/-- trap (R130): the resume address is the next instruction. -/
def execTrap (imm : BitVec 12) (s : State) : Out :=
  if s.ctx.sup then fault .privilege s
  else if earlierWaits s then .next (waitC s)
  else .next (raise { cause := .trap, info := imm.zeroExtend 64 }
    (match s.slice with
     | .a => s.modA fun a => { a with pc := a.pc + 4, order := a.order + 1 }
     | .c => s.modC fun c => { c with hold := false }))

/-- brk (R130): the resume address is the brk itself. -/
def execBrk (imm : BitVec 12) (s : State) : Out :=
  if s.ctx.sup then fault .privilege s
  else if earlierWaits s then .next (waitC s)
  else .next (raise { cause := .brk, info := imm.zeroExtend 64 }
    (match s.slice with
     | .a => s
     | .c => s.modC fun c => { c with pc := c.cur.pc, hold := false }))

/-- eret (R131): each slice of the handler executes its own; the second restores the task. -/
def execEret (s : State) : Out :=
  if !s.ctx.sup then fault .privilege s
  else if earlierWaits s then .next (waitC s)
  else .next (leaveHandler (match s.slice with
    | .a => s.modA fun a => { a with eret := true, order := a.order + 1 }
    | .c => s.modC fun c => { c with eret := true }))

/-! System registers. -/

/-- The registers of R36. -/
inductive SysReg where
  | mode | slip | dom | vflg | tdesc | rdepth | rtmo | cycle | lodcnt | trapvec | traprec
deriving DecidableEq, Repr

def sysReg (num : BitVec 12) : Option SysReg :=
  match num.toNat with
  | 0x000 => some .mode
  | 0x001 => some .slip
  | 0x002 => some .dom
  | 0x003 => some .vflg
  | 0x004 => some .tdesc
  | 0x005 => some .rdepth
  | 0x006 => some .rtmo
  | 0x008 => some .cycle
  | 0x009 => some .lodcnt
  | 0x010 => some .trapvec
  | 0x011 => some .traprec
  | _ => none

/-- The slice to which a register belongs; none for both (R36). -/
def sysSlice : SysReg → Option Slice
  | .slip | .rtmo | .lodcnt => some .a
  | .vflg => some .c
  | _ => none

/-- Registers that a level may read and write (R36). -/
def sysReadable (sup : Bool) : SysReg → Bool
  | .mode | .slip | .dom | .vflg | .rdepth => true
  | _ => sup

def sysWritable (sup : Bool) : SysReg → Bool
  | .vflg => true
  | .lodcnt | .trapvec => sup
  | _ => false

/-- MODE (R38): BANK and SB read zero at user level (R37). -/
def modeWord (x : Context) : Word :=
  BitVec.ofNat 64 ((if x.sup then 16 * b2n x.bank + 8 * b2n x.sb else 0) + 4 * b2n x.sup + 2 * b2n x.det + b2n x.det)

/-- SLIP (R39): COUNT reads zero at user level (R37). -/
def slipWord (x : Context) : Word := BitVec.ofNat 64 ((if x.sup then 256 * slip x.q else 0) + x.decl.slipl)

/-- The core cycles of a context's residence that no C-cycle has counted yet are a free number (R36; log 2): CYCLE never runs back. -/
def passCycles (s : State) : State := (s.tick).modCtx fun x => { x with cycle := x.cycle + (Config.freeWord s.fresh).toNat }

/-- The value of a system register (R36, R38 to R41). -/
def sysValue (s : State) : SysReg → Word
  | .mode => modeWord s.ctx
  | .slip => slipWord s.ctx
  | .dom => s.ctx.dom
  | .vflg => s.ctx.c.vflg.zeroExtend 64
  | .tdesc => s.ctx.tdesc
  | .rdepth => BitVec.ofNat 64 ((s.vd? s.ctx.vd).elim 0 (·.rdepth))
  | .rtmo => BitVec.ofNat 64 ((s.part? s.ctx.part).elim 0 (·.rtmo))
  | .cycle => BitVec.ofNat 64 s.ctx.cycle
  | .lodcnt => s.ctx.lodcnt
  | .trapvec => (s.vd? s.ctx.vd).elim 0 (·.trapvec)
  | .traprec => s.ctx.trapRec

/-- sysrd (R132, R37). -/
def execSysrd (gd : Reg) (num : BitVec 12) (s : State) : Out :=
  match sysReg num with
  | none => illegal s 5 0
  | some r =>
    if (sysSlice r).isSome && sysSlice r != some s.slice then fault .wrongSlice s
    else if !sysReadable s.ctx.sup r then fault .privilege s
    else checked s none [.g gd]
      (let t := if r == .cycle then passCycles s else s
       .next (finish (putG t gd 1 (sysValue t r)) 4))

/-- A system register written (R132, R133): VFLG clears the bits that are one. -/
def sysWrite (s : State) (r : SysReg) (v : Word) : State :=
  match r with
  | .vflg => s.modC fun c => { c with vflg := c.vflg &&& ~~~(v.truncate 5) }
  | .lodcnt => s.modCtx fun x => { x with lodcnt := v }
  | .trapvec => s.modVd s.ctx.vd fun d => { d with trapvec := v }
  | _ => s

/-- syswr (R132, R37). -/
def execSyswr (num : BitVec 12) (ga : Reg) (s : State) : Out :=
  match sysReg num with
  | none => illegal s 5 0
  | some r =>
    if (sysSlice r).isSome && sysSlice r != some s.slice then fault .wrongSlice s
    else if !sysWritable s.ctx.sup r then fault .privilege s
    else checked s none [.g ga] (.next (finish (sysWrite s r (gRead s ga)) 4))

/-! Scalar queue operations (R134). -/

/-- qpush xq (R134). -/
def execQpushXq (ga : Reg) (s : State) : Out :=
  checked s (some .a) [.g ga] (match pushBlock s 4 with
    | some b => .next (blockA s b)
    | none => .next (finish (pushToC s 4 ((gRead s ga).zeroExtend 4096) false true) 4))

/-- qpush yq (R134): its entry is poppable at once (R34). -/
def execQpushYq (ga : Reg) (s : State) : Out :=
  checked s (some .c) [.g ga]
    (if s.ctx.q.yq.length ≥ 32 then .next (blockC s .pushYq) else .next (finish (pushYq s (gRead s ga)) 4))

/-- qpop yq (R134). -/
def execQpopYq (gd : Reg) (s : State) : Out :=
  checked s (some .a) [.g gd] (match headYq s with
    | none => .next (blockA s .popYq)
    | some e => .next (finish (aWriteFrom true (popYq s) gd e.val) 4))

/-- qpop xq (R134, R242). -/
def execQpopXq (gd : Reg) (s : State) : Out :=
  checked s (some .c) [.g gd] (match popBlockC s 4 with
    | some b => .next (blockC s b)
    | none => match headToC 4 s.ctx.q with
      | none => .next (blockC s .popXq)
      | some e => .next (finish (pend (popToC s 4) 1 [.cReg gd (e.data.truncate 64)]) 4))

end Sys2Proof.Machine
end

