-- ==== Sys2Proof/Machine/Lanes.lean ====
section
/-!
DEFINITION. How a vector or predicate instruction issues (R27 to R29, R33, R34, R92, R149, R174, R175, R205, R209), and how its
result is formed from its elements (R177 to R179, R190).
-/

namespace Sys2Proof.Machine

/-! Elements. -/

/-- Width of an element of a type in bits (R93). -/
def etWidth : EType → Nat
  | .i4 => 4
  | .i8 | .mx => 8
  | .i16 | .bf16 => 16
  | .i32 | .f32 => 32

/-- The floating-point format of a type. -/
def etFmt : EType → Option Fmt
  | .bf16 => some Machine.bf16
  | .f32 => some fp32
  | _ => none

/-- The elements of a 512-byte value. -/
def elems (w : Nat) (v : Nat) : List Nat := lanesOf w (4096 / w) v

/-- The predicate bits that govern `n` elements of width `w`: that of the lowest byte of each (R26, R177). -/
def activeOf (w n : Nat) (pm : Pred) : List Bool := (List.range n).map fun j => pm.getLsbD (j * w / 8)

/-- The bytes of a value whose elements are marked, as a byte mask. -/
def maskOf (w : Nat) (act : List Bool) : Pred :=
  BitVec.ofNat 512 (packLanes 1 (if w = 4 then halves act else act.flatMap fun b => List.replicate (w / 8) (if b then 1 else 0)))
where
  halves : List Bool → List Nat
    | a :: _ :: l => (if a then 1 else 0) :: halves l
    | _ => []

/-- A lane's result, computed only if the lane is active. -/
abbrev Lane := Unit → FRes

def pure1 (v : Nat) : FRes := (v, 0)

/-- Active lanes are computed, the others keep what stands there; with the OR of the flags (R177, R179). -/
def mergeLanes : List Bool → List Nat → List Lane → List Nat × Flags
  | a :: act, k :: keep, f :: fs =>
    let (r, fl) := mergeLanes act keep fs
    if a then
      let (v, x) := f ()
      (v :: r, x ||| fl)
    else (k :: r, fl)
  | _, _, _ => ([], 0)

/-- What an instruction produces: the values of its destination registers in order with the mask of their active bytes, or effects of
other kinds; and the flags that it raises. -/
inductive VOut where
  | vecs (vals : List Nat) (mask : Pred) (fl : Flags)
  | effs (l : List Effect) (fl : Flags)

/-- One destination value from lanes of width `w` governed as elements of width `gw` (R190): the bytes above the last lane are those of
inactive elements. -/
def laneOut (w gw : Nat) (m : VMods) (pm : Pred) (old : Nat) (fs : List Lane) : Nat × Pred × Flags :=
  let n := fs.length
  let act := activeOf gw n pm
  let base := if m.z then 0 else old
  let (r, fl) := mergeLanes act (lanesOf w n base) fs
  (packLanes w r + (base >>> (w * n)) <<< (w * n), maskOf w act, fl)

/-- The same as what an instruction with one destination produces. -/
def laneVec (w gw : Nat) (m : VMods) (pm : Pred) (olds : List Nat) (fs : List Lane) : VOut :=
  let (v, k, fl) := laneOut w gw m pm (nth 0 olds 0) fs
  .vecs [v] k fl

/-- Lanes spread over a group of registers: lane `j` of `fs` goes to register j mod g, position j div g (R190). -/
def groupVec (w gw g : Nat) (m : VMods) (pm : Pred) (olds : List Nat) (fs : List Lane) : VOut :=
  let act := activeOf gw fs.length pm
  let regs := (List.range g).map fun r =>
    let pick {α : Type} (l : List α) : List α := (l.zipIdx.filter fun x => x.2 % g == r).map (·.1)
    let base := if m.z then 0 else nth 0 olds r
    let mine := pick fs
    let (v, fl) := mergeLanes (pick act) (lanesOf w mine.length base) mine
    (packLanes w v, fl)
  .vecs (regs.map (·.1)) (BitVec.allOnes 512) (regs.foldl (fun f r => f ||| r.2) 0)

/-! Sources and destinations (R92). -/

/-- What a use of the stream port found: the descriptor, the position and the bytes left. -/
structure PortUse where
  desc : Desc
  pos  : Nat
  n    : Nat

/-- The value of a vector source at issue. -/
def vsrcVal (s : State) (p : Option PortUse) : VSrc → Nat
  | .v n => s.ctx.c.v[n].toNat
  | .o n => s.ctx.c.o[n].toNat
  | .y n => s.ctx.c.y[n].toNat
  | .lq n => ((headToC (n.castLE (by decide)) s.ctx.q).elim 0 AEntry.data).toNat
  | .stream => p.elim 0 fun p => leNat (portRead s p.desc p.pos p.n)

/-- The registers of a destination group. -/
def groupRegs (n : Fin 48) (g : Nat) : List (Fin 48) := (List.range g).map fun i => n + Fin.ofNat 48 i

/-- The old contents of a destination at issue; those of a queue or a stream port read as zero (R200). -/
def vdstOld (s : State) (g : Nat) : Option VDst → List Nat
  | some (.v n) => (groupRegs n g).map fun r => s.ctx.c.v[r].toNat
  | some (.o n) => [s.ctx.c.o[n].toNat]
  | _ => [0]

def vsrcItems : VSrc → List Item
  | .v n => [.v n]
  | _ => []

def vdstItems (g : Nat) : Option VDst → List Item
  | some (.v n) => (groupRegs n g).map Item.v
  | _ => []

/-- The lq queues that the sources name, each once (R92). -/
def lqsOf (srcs : List VSrc) : List (Fin 4) :=
  (srcs.filterMap fun v => match v with
    | .lq n => some n
    | _ => none).eraseDups

def readsPort (srcs : List VSrc) : Bool := srcs.any fun v => v == .stream

/-- The coupling-queue condition that freezes the instruction: an lq it pops, or a full sq (R34, R42). -/
def vqBlock (s : State) (vd : Option VDst) (srcs : List VSrc) : Option BlockC :=
  match (lqsOf srcs).findSome? fun n => popBlockC s (n.castLE (by decide)) with
  | some b => some b
  | none => match vd with
    | some (.sq q) => if s.ctx.q.sq[q].length ≥ 16 then some (.pushSq q) else none
    | _ => none

/-- The bytes of a value that a write port writes: the active ones, or all with Z = 1 (R178), as far as the walk goes. -/
def portCells (p : PortUse) (z : Bool) (mask : Pred) (v : Nat) : List Host.Cell :=
  let cells := walkCells p.desc p.pos ((leBytes 512 v).take p.n)
  if z then cells else ((cells.zipIdx).filter fun c => mask.getLsbD c.2).map (·.1)

/-- The result of an instruction leaves for its destination (R28, R33, R34, R43, R178). -/
def vDeliver (s : State) (vd : Option VDst) (lat : Nat) (m : VMods) (p : Option PortUse) : VOut → State
  | .effs l fl => pend s lat l m.sf fl
  | .vecs vals mask fl =>
    let last := vals.map fun v => Effect.last (BitVec.ofNat 4096 v)
    match vd with
    | some (.v n) =>
      pend s lat (((groupRegs n vals.length).zip vals).map (fun x => Effect.vReg x.1 (BitVec.ofNat 4096 x.2)) ++ last) m.sf fl
    | some (.o n) => pend s lat (vals.map (fun v => Effect.oReg n (BitVec.ofNat 4096 v)) ++ last) m.sf fl
    | some (.sq q) => pend (vals.foldl (fun s v => pushSq s q (BitVec.ofNat 4096 v) mask lat) s) lat last m.sf fl
    | some .stream =>
      pend s lat (vals.map (fun v => Effect.spad (p.elim [] fun p => portCells p m.z mask v)) ++ last) m.sf fl
    | none => pend s lat [] m.sf fl

/-- A vector or predicate instruction at issue: the checks of R102, its waits (R175), the precise faults of R209, then its effect. `det`: a
`.f` form (R205); `mx`: vdqnt.mx (R193); `g`: registers of its destination; `body` gives the result from the sources, the old contents of
the destination and the use of the port. DESIGN CHOICE (log 68): of several of R209's causes that hold at one issue, the first in this order
is taken: DET_VIOLATION, the freeze or the poison stop, FLAG_OVERFLOW, STREAM_INVALID, OVERLAP. -/
def vectorOp (m : VMods) (lat : Nat) (vd : Option VDst) (g : Nat) (srcs : List VSrc) (items : List Item) (det mx : Bool)
    (body : List Nat → List Nat → Option PortUse → VOut) (s : State) : Out :=
  let rd := readsPort srcs
  let port := rd || vd == some .stream
  checked s (some .c)
    (items ++ srcs.flatMap vsrcItems ++ vdstItems g vd ++ [.p m.pm] ++ flagItems m.sf m.af ++ if port then [.strm m.port] else [])
    (if awaits s m.af || (port && portStarts s m.port && startWaits s.ctx.c) then .next (waitC s)
    else if det && s.ctx.det then fault .detViolation s
    else match vqBlock s vd srcs with
    | some b => .next (blockC s b)
    | none =>
      if flagFull s m.sf then fault .flagOverflow s
      else match (if port then (portTake s m.port).map fun r => (r.1, some (⟨r.2.1, r.2.2.1, r.2.2.2⟩ : PortUse)) else some (s, none)) with
      | none => fault .streamInvalid s
      | some (t, p) =>
        if mx && !(p.any fun p => p.desc.etype == 6 && p.desc.mxw == 3) then fault .streamInvalid s
        else
          let at_ := if rd then s.ctx.c.cc else s.ctx.c.cc + lat
          let accs := p.elim [] fun p => (p.desc.extents (!rd)).map fun e => (e, at_, at_)
          match checkC s accs with
          | some f => .next (raise f s)
          | none =>
            let out := body (srcs.map (vsrcVal s p)) (vdstOld s g vd) p
            let t := takeFlag (addC t accs) m.af
            let t := (lqsOf srcs).foldl (fun t n => popToC t (n.castLE (by decide))) t
            .next (finish (vDeliver t vd lat m p out) 8))

/-! The common shapes. -/

/-- The governing predicate of an instruction (R90). -/
def pmOf (s : State) (m : VMods) : Pred := pRead s m.pm

/-- One, two or three vector sources of a type, elementwise, to a vector of that type (R177). -/
def vec1 (lat : Nat) (vd : VDst) (va : VSrc) (t : EType) (m : VMods) (f : Nat → FRes) (s : State) (det : Bool := false) : Out :=
  let w := etWidth t
  vectorOp m lat (some vd) 1 [va] [] det false
    (fun srcs olds _ => laneVec w w m (pmOf s m) olds ((elems w (nth 0 srcs 0)).map fun a _ => f a)) s

def vec2 (lat : Nat) (vd : VDst) (va vb : VSrc) (t : EType) (m : VMods) (f : Nat → Nat → FRes) (s : State) : Out :=
  let w := etWidth t
  vectorOp m lat (some vd) 1 [va, vb] [] false false
    (fun srcs olds _ => laneVec w w m (pmOf s m) olds
      (List.zipWith (fun a b _ => f a b) (elems w (nth 0 srcs 0)) (elems w (nth 0 srcs 1)))) s

def vec3 (lat : Nat) (vd : VDst) (va vb vc : VSrc) (t : EType) (m : VMods) (f : Nat → Nat → Nat → FRes) (s : State) : Out :=
  let w := etWidth t
  vectorOp m lat (some vd) 1 [va, vb, vc] [] false false
    (fun srcs olds _ => laneVec w w m (pmOf s m) olds
      (List.zipWith (fun ab c _ => f ab.1 ab.2 c) ((elems w (nth 0 srcs 0)).zip (elems w (nth 0 srcs 1))) (elems w (nth 0 srcs 2)))) s

/-- A predicate result: every bit of an active element alike; for i4, of both elements of a byte together (R177, R187, R189). -/
def predOut (w : Nat) (m : VMods) (pm : Pred) (pd : Fin 64) (old : Pred) (fs : List Lane) : VOut :=
  let act := activeOf w fs.length pm
  let (r, fl) := mergeLanes act (fs.map fun _ => 0) fs
  let bits : List Bool := if w = 4 then pairs r else r.flatMap fun b => List.replicate (w / 8) (b == 1)
  let new : Pred := BitVec.ofNat 512 (packLanes 1 (bits.map fun b => if b then 1 else 0))
  let k := maskOf w act
  .effs [.pred pd ((new &&& k) ||| (if m.z then 0 else old &&& ~~~k))] fl
where
  pairs : List Nat → List Bool
    | a :: b :: l => (a == 1 && b == 1) :: pairs l
    | _ => []

def boolRes (b : Bool) (fl : Flags := 0) : FRes := (if b then 1 else 0, fl)

/-- A compare (R187). -/
def vecCmp (pd : Fin 64) (va vb : VSrc) (t : EType) (m : VMods) (f : Nat → Nat → FRes) (s : State) : Out :=
  let w := etWidth t
  vectorOp m 4 none 1 [va, vb] [.p pd] false false
    (fun srcs _ _ => predOut w m (pmOf s m) pd (pRead s pd)
      (List.zipWith (fun a b _ => f a b) (elems w (nth 0 srcs 0)) (elems w (nth 0 srcs 1)))) s

/-- Predicate logic, bit by bit under pm (R188). -/
def predOp (pd : Fin 64) (ps : List (Fin 64)) (m : VMods) (new : Pred) (s : State) : Out :=
  let pm := pmOf s m
  vectorOp m 2 none 1 [] ((pd :: ps).map Item.p) false false
    (fun _ _ _ => .effs [.pred pd ((new &&& pm) ||| (if m.z then 0 else pRead s pd &&& ~~~pm))] 0) s

end Sys2Proof.Machine
end

