-- ==== Sys2Proof/Machine/VecArith.lean ====
section
/-!
DEFINITION. Vector arithmetic, logic, shifts, counts and compares (R181 to R187), and the predicate operations (R188, R189).
-/

namespace Sys2Proof.Machine

/-! Elements. -/

/-- An exact integer result: it wraps, or with SAT is clamped (R48, R183). -/
def intRes (w : Nat) (sat : Bool) (v : Int) : FRes :=
  pure1 (wrap w (if sat then clampInt (intMin w) (intMax w) v else v))

/-- An operation of a type: on signed integers, or in a format. -/
def arith (t : EType) (r : Rnd) (fi : Int → Int → Int) (ff : Fmt → Rnd → Nat → Nat → FRes) (a b : Nat) : FRes :=
  match etFmt t with
  | some f => ff f r a b
  | none => intRes (etWidth t) r.sat (fi (sext (etWidth t) a) (sext (etWidth t) b))

/-- A fused form in a format (R181). -/
def fused (t : EType) (r : Rnd) (ff : Fmt → Rnd → Nat → Nat → Nat → FRes) (a b c : Nat) : FRes :=
  match etFmt t with
  | some f => ff f r a b c
  | none => pure1 0

/-- Signed minimum or maximum, or that of R184 for a format. -/
def minMax (t : EType) (isMax : Bool) (a b : Nat) : FRes :=
  match etFmt t with
  | some f => fMinMax f isMax a b
  | none => pure1 (if (sext (etWidth t) a < sext (etWidth t) b) == isMax then b else a)

/-- The sign bit of an element cleared or inverted; a NaN gives the canonical NaN (R184). -/
def signOp (f : Fmt) (neg : Bool) (a : Nat) : FRes :=
  let x := fval f a
  if x.isNan then nanRes f [x] else pure1 (if neg then a ^^^ 2 ^ (f.w - 1) else a % 2 ^ (f.w - 1))

/-- vshl, vshr and vsra by a count (R185). -/
def shiftL (w a n : Nat) : FRes := pure1 (if n ≥ w then 0 else a * 2 ^ n % 2 ^ w)
def shiftR (w a n : Nat) : FRes := pure1 (if n ≥ w then 0 else a / 2 ^ n)
def shiftA (w a n : Nat) : FRes := pure1 (wrap w (sext w a / (2 ^ min n w : Nat)))

/-- The funnel shifts (R186). -/
def funnelL (w a b s : Nat) : FRes := pure1 ((a * 2 ^ w + b) * 2 ^ min s w / 2 ^ w % 2 ^ w)
def funnelR (w a b s : Nat) : FRes := pure1 ((a * 2 ^ w + b) / 2 ^ min s w % 2 ^ w)

/-- Equality and order of elements with their flags (R187). -/
def cmpEq (t : EType) (a b : Nat) : FRes :=
  match etFmt t with
  | some f => boolRes (eqVal (fval f a) (fval f b)) (flag ((fval f a).isSnan || (fval f b).isSnan) flNV)
  | none => boolRes (a == b)

def cmpNe (t : EType) (a b : Nat) : FRes := let (r, fl) := cmpEq t a b; (1 - r, fl)

def cmpOrd (t : EType) (orEq : Bool) (a b : Nat) : FRes :=
  match etFmt t with
  | some f =>
    let x := fval f a
    let y := fval f b
    if x.isNan || y.isNan then boolRes false flNV else boolRes (ltVal x y || (orEq && eqVal x y))
  | none =>
    let x := sext (etWidth t) a
    let y := sext (etWidth t) b
    boolRes (x < y || (orEq && x == y))

def cmpUn (t : EType) (a b : Nat) : FRes :=
  match etFmt t with
  | some f => boolRes ((fval f a).isNan || (fval f b).isNan) (flag ((fval f a).isSnan || (fval f b).isSnan) flNV)
  | none => boolRes false

/-! Arithmetic (R181 to R184). -/

/-- vadd (R181, R183). -/
def execVadd (vd : VDst) (va vb : VSrc) (t : EType) (m : VMods) (s : State) : Out :=
  vec2 4 vd va vb t m (arith t m.rnd (· + ·) fAdd) s

/-- vsub (R181, R183). -/
def execVsub (vd : VDst) (va vb : VSrc) (t : EType) (m : VMods) (s : State) : Out :=
  vec2 4 vd va vb t m (arith t m.rnd (· - ·) fSub) s

/-- vmul (R181, R183). -/
def execVmul (vd : VDst) (va vb : VSrc) (t : EType) (m : VMods) (s : State) : Out :=
  vec2 5 vd va vb t m (arith t m.rnd (· * ·) fMul) s

/-- vmulz (R182). -/
def execVmulz (vd : VDst) (va vb : VSrc) (t : EType) (m : VMods) (s : State) : Out :=
  vec2 5 vd va vb t m (arith t m.rnd (· * ·) fMulz) s

/-- vfma (R181). -/
def execVfma (vd : VDst) (va vb vc : VSrc) (t : EType) (m : VMods) (s : State) : Out :=
  vec3 6 vd va vb vc t m (fused t m.rnd fFma) s

/-- vfms (R181). -/
def execVfms (vd : VDst) (va vb vc : VSrc) (t : EType) (m : VMods) (s : State) : Out :=
  vec3 6 vd va vb vc t m (fused t m.rnd fFms) s

/-- vfnma (R181). -/
def execVfnma (vd : VDst) (va vb vc : VSrc) (t : EType) (m : VMods) (s : State) : Out :=
  vec3 6 vd va vb vc t m (fused t m.rnd fFnma) s

/-- vmulh (R183). -/
def execVmulh (vd : VDst) (va vb : VSrc) (t : EType) (m : VMods) (s : State) : Out :=
  let w := etWidth t
  vec2 5 vd va vb t m (fun a b => pure1 (wrap w (sext w a * sext w b / (2 ^ w : Nat)))) s

/-- vmulhn (R183). -/
def execVmulhn (vd : VDst) (va vb : VSrc) (t : EType) (m : VMods) (s : State) : Out :=
  vec2 5 vd va vb t m (fun a b => pure1 (a * b / 2 ^ etWidth t)) s

/-- vmin (R184). -/
def execVmin (vd : VDst) (va vb : VSrc) (t : EType) (m : VMods) (s : State) : Out := vec2 4 vd va vb t m (minMax t false) s

/-- vmax (R184). -/
def execVmax (vd : VDst) (va vb : VSrc) (t : EType) (m : VMods) (s : State) : Out := vec2 4 vd va vb t m (minMax t true) s

/-- vminn (R184). -/
def execVminn (vd : VDst) (va vb : VSrc) (t : EType) (m : VMods) (s : State) : Out :=
  vec2 4 vd va vb t m (fun a b => pure1 (min a b)) s

/-- vmaxn (R184). -/
def execVmaxn (vd : VDst) (va vb : VSrc) (t : EType) (m : VMods) (s : State) : Out :=
  vec2 4 vd va vb t m (fun a b => pure1 (max a b)) s

/-- vabs (R184). -/
def execVabs (vd : VDst) (va : VSrc) (t : EType) (m : VMods) (s : State) : Out :=
  vec1 4 vd va t m (fun a => match etFmt t with
    | some f => signOp f false a
    | none => pure1 (wrap (etWidth t) (sext (etWidth t) a).natAbs)) s

/-- vneg (R184). -/
def execVneg (vd : VDst) (va : VSrc) (t : EType) (m : VMods) (s : State) : Out :=
  vec1 4 vd va t m (fun a => match etFmt t with
    | some f => signOp f true a
    | none => pure1 (wrap (etWidth t) (-(a : Int)))) s

/-! Logic, shifts and counts (R185, R186). -/

/-- vand (R185). -/
def execVand (vd : VDst) (va vb : VSrc) (t : EType) (m : VMods) (s : State) : Out := vec2 4 vd va vb t m (fun a b => pure1 (a &&& b)) s

/-- vor (R185). -/
def execVor (vd : VDst) (va vb : VSrc) (t : EType) (m : VMods) (s : State) : Out := vec2 4 vd va vb t m (fun a b => pure1 (a ||| b)) s

/-- vxor (R185). -/
def execVxor (vd : VDst) (va vb : VSrc) (t : EType) (m : VMods) (s : State) : Out := vec2 4 vd va vb t m (fun a b => pure1 (a ^^^ b)) s

/-- vandn (R185). -/
def execVandn (vd : VDst) (va vb : VSrc) (t : EType) (m : VMods) (s : State) : Out :=
  vec2 4 vd va vb t m (fun a b => pure1 (a &&& (2 ^ etWidth t - 1 - b))) s

/-- vnot (R185). -/
def execVnot (vd : VDst) (va : VSrc) (t : EType) (m : VMods) (s : State) : Out :=
  vec1 4 vd va t m (fun a => pure1 (2 ^ etWidth t - 1 - a)) s

/-- vshl (R185). -/
def execVshl (vd : VDst) (va vb : VSrc) (t : EType) (m : VMods) (s : State) : Out := vec2 4 vd va vb t m (shiftL (etWidth t)) s

/-- vshr (R185). -/
def execVshr (vd : VDst) (va vb : VSrc) (t : EType) (m : VMods) (s : State) : Out := vec2 4 vd va vb t m (shiftR (etWidth t)) s

/-- vsra (R185). -/
def execVsra (vd : VDst) (va vb : VSrc) (t : EType) (m : VMods) (s : State) : Out := vec2 4 vd va vb t m (shiftA (etWidth t)) s

/-- vshli (R185). -/
def execVshli (vd : VDst) (va : VSrc) (imm : Fin 64) (t : EType) (m : VMods) (s : State) : Out :=
  vec1 4 vd va t m (fun a => shiftL (etWidth t) a imm) s

/-- vshri (R185). -/
def execVshri (vd : VDst) (va : VSrc) (imm : Fin 64) (t : EType) (m : VMods) (s : State) : Out :=
  vec1 4 vd va t m (fun a => shiftR (etWidth t) a imm) s

/-- vsrai (R185). -/
def execVsrai (vd : VDst) (va : VSrc) (imm : Fin 64) (t : EType) (m : VMods) (s : State) : Out :=
  vec1 4 vd va t m (fun a => shiftA (etWidth t) a imm) s

/-- vfshl (R186). -/
def execVfshl (vd : VDst) (va vb vc : VSrc) (t : EType) (m : VMods) (s : State) : Out := vec3 4 vd va vb vc t m (funnelL (etWidth t)) s

/-- vfshr (R186). -/
def execVfshr (vd : VDst) (va vb vc : VSrc) (t : EType) (m : VMods) (s : State) : Out := vec3 4 vd va vb vc t m (funnelR (etWidth t)) s

/-- vpopc (R185). -/
def execVpopc (vd : VDst) (va : VSrc) (t : EType) (m : VMods) (s : State) : Out :=
  vec1 4 vd va t m (fun a => pure1 (popNat (etWidth t) a)) s

/-- vclz (R185). -/
def execVclz (vd : VDst) (va : VSrc) (t : EType) (m : VMods) (s : State) : Out :=
  vec1 4 vd va t m (fun a => pure1 (clzNat (etWidth t) a)) s

/-- vctz (R185). -/
def execVctz (vd : VDst) (va : VSrc) (t : EType) (m : VMods) (s : State) : Out :=
  vec1 4 vd va t m (fun a => pure1 (ctzNat (etWidth t) a)) s

/-! Compares (R187). -/

/-- vceq (R187). -/
def execVceq (pd : Fin 64) (va vb : VSrc) (t : EType) (m : VMods) (s : State) : Out := vecCmp pd va vb t m (cmpEq t) s

/-- vcne (R187). -/
def execVcne (pd : Fin 64) (va vb : VSrc) (t : EType) (m : VMods) (s : State) : Out := vecCmp pd va vb t m (cmpNe t) s

/-- vclt (R187). -/
def execVclt (pd : Fin 64) (va vb : VSrc) (t : EType) (m : VMods) (s : State) : Out := vecCmp pd va vb t m (cmpOrd t false) s

/-- vcle (R187). -/
def execVcle (pd : Fin 64) (va vb : VSrc) (t : EType) (m : VMods) (s : State) : Out := vecCmp pd va vb t m (cmpOrd t true) s

/-- vcltn (R187). -/
def execVcltn (pd : Fin 64) (va vb : VSrc) (t : EType) (m : VMods) (s : State) : Out := vecCmp pd va vb t m (fun a b => boolRes (a < b)) s

/-- vclen (R187). -/
def execVclen (pd : Fin 64) (va vb : VSrc) (t : EType) (m : VMods) (s : State) : Out := vecCmp pd va vb t m (fun a b => boolRes (a ≤ b)) s

/-- vcun (R187). -/
def execVcun (pd : Fin 64) (va vb : VSrc) (t : EType) (m : VMods) (s : State) : Out := vecCmp pd va vb t m (cmpUn t) s

/-! Predicate operations (R188, R189). -/

/-- pand (R188). -/
def execPand (pd pa pb : Fin 64) (m : VMods) (s : State) : Out := predOp pd [pa, pb] m (pRead s pa &&& pRead s pb) s

/-- por (R188). -/
def execPor (pd pa pb : Fin 64) (m : VMods) (s : State) : Out := predOp pd [pa, pb] m (pRead s pa ||| pRead s pb) s

/-- pxor (R188). -/
def execPxor (pd pa pb : Fin 64) (m : VMods) (s : State) : Out := predOp pd [pa, pb] m (pRead s pa ^^^ pRead s pb) s

/-- pandn (R188). -/
def execPandn (pd pa pb : Fin 64) (m : VMods) (s : State) : Out := predOp pd [pa, pb] m (pRead s pa &&& ~~~pRead s pb) s

/-- pnot (R188). -/
def execPnot (pd pa : Fin 64) (m : VMods) (s : State) : Out := predOp pd [pa] m (~~~pRead s pa) s

/-- pset (R188). -/
def execPset (pd : Fin 64) (m : VMods) (s : State) : Out := predOp pd [] m Pred.ones s

/-- pclr (R188). -/
def execPclr (pd : Fin 64) (m : VMods) (s : State) : Out := predOp pd [] m 0 s

/-- plt and pge: element numbers against an unsigned count (R189). -/
def predCount (pd : Fin 64) (ca : Reg) (t : EType) (m : VMods) (rel : Nat → Nat → Bool) (s : State) : Out :=
  let w := etWidth t
  vectorOp m 2 none 1 [] [.p pd, .g ca] false false
    (fun _ _ _ => predOut w m (pmOf s m) pd (pRead s pd)
      ((List.range (4096 / w)).map fun j _ => boolRes (rel j (gRead s ca).toNat))) s

/-- plt (R189). -/
def execPlt (pd : Fin 64) (ca : Reg) (t : EType) (m : VMods) (s : State) : Out := predCount pd ca t m (fun j c => j < c) s

/-- pge (R189). -/
def execPge (pd : Fin 64) (ca : Reg) (t : EType) (m : VMods) (s : State) : Out := predCount pd ca t m (fun j c => j ≥ c) s

end Sys2Proof.Machine
end

