-- ==== Sys2Proof/Machine/VecMove.lean ====
section
/-!
DEFINITION. Conversions and widening (R190 to R195), permutes, moves and reductions (R196 to R203), estimates and functions (R204 to
R206), the generator (R207), spill and fill (R208).
-/

namespace Sys2Proof.Machine

/-! Conversions (R56, R190 to R195). -/

/-- The exact value of an element of a type (R56). -/
def elemVal (t : EType) (a : Nat) : FVal :=
  match etFmt t with
  | some f => fval f a
  | none =>
    let v := sext (etWidth t) a
    .fin (v < 0) v.natAbs 0

/-- Conversion of an element (R56, R191). -/
def convert (src dst : EType) (r : Rnd) (a : Nat) : FRes :=
  match etFmt src, etFmt dst with
  | _, some f => match etFmt src with
    | some _ => valToFmt f r (elemVal src a)
    | none => intToFmt f r (sext (etWidth src) a)
  | some _, none => valToInt (etWidth dst) r.mode (elemVal src a)
  | none, none => intRes (etWidth dst) (r.sat && etWidth dst < etWidth src) (sext (etWidth src) a)

/-- vcvt (R190, R191). -/
def execVcvt (vd : VDst) (va : VSrc) (src t : EType) (m : VMods) (s : State) : Out :=
  let ws := etWidth src
  let wd := etWidth t
  vectorOp m 4 (some vd) 1 [va] [] false false
    (fun srcs olds _ => laneVec wd (min ws wd) m (pmOf s m) olds
      ((lanesOf ws (4096 / max ws wd) (nth 0 srcs 0)).map fun a _ => convert src t m.rnd a)) s

/-- A type as a destination of narrowing (R63). -/
def narrowTo (t : EType) : NFmt := (etFmt t).elim (.int (etWidth t)) .fp

/-- vqnt (R192). -/
def execVqnt (vd : VDst) (va vb : VSrc) (t : EType) (m : VMods) (s : State) : Out :=
  let wd := etWidth t
  vectorOp m 4 (some vd) 1 [va, vb] [] false false
    (fun srcs olds _ => laneVec wd wd m (pmOf s m) olds
      (List.zipWith (fun a b _ => quantize (narrowTo t) m.rnd.mode (fval fp32 a) (fval fp32 b)) (elems 32 (nth 0 srcs 0))
        (elems 32 (nth 0 srcs 1)))) s

/-- The value of a code in vdqnt: of an integer type, or of an MX block whose scale byte the stream gives (R193). -/
def dqVal (s : State) (t : EType) (p : Option PortUse) (j code : Nat) : FVal :=
  match t, p with
  | .mx, some p =>
    let b := (p.pos + j) / 32
    mxVal 8 code (if j < p.n then (memGet s.ctx.m.spad (p.desc.scaleAt b).toNat).toNat else 0)
  | _, _ => elemVal t code

/-- The registers of vdqnt's destination (R190). -/
def dqGroup : EType → Nat
  | .i4 | .i8 | .mx => 4
  | .i16 => 2
  | _ => 1

/-- vdqnt (R190, R193). -/
def execVdqnt (vd : VDst) (va vb : VSrc) (t : EType) (m : VMods) (s : State) : Out :=
  let ws := etWidth t
  let g := dqGroup t
  vectorOp m 4 (some vd) g [va, vb] [] false (t == .mx)
    (fun srcs olds p =>
      let sc := elems 32 (nth 0 srcs 1)
      let lanes : List Lane := (lanesOf ws (128 * g) (nth 0 srcs 0)).mapIdx fun j a _ =>
        mulVal fp32 m.rnd.mode false (dqVal s t p j a) (fval fp32 (nth 0 sc (j / 32)))
      if g = 1 then laneVec 32 ws m (pmOf s m) olds lanes else groupVec 32 ws g m (pmOf s m) olds lanes) s

/-- vpack4 (R194). -/
def execVpack4 (vd : VDst) (va vb : VSrc) (_t : EType) (m : VMods) (s : State) : Out :=
  vectorOp m 4 (some vd) 1 [va, vb] [] false false
    (fun srcs olds _ => laneVec 4 4 m (pmOf s m) olds
      ((elems 8 (nth 0 srcs 0) ++ elems 8 (nth 0 srcs 1)).map fun a _ => intRes 4 m.rnd.sat (sext 8 a))) s

/-- vunpk4: elements 0 to 511 go to vd, the others to vd + 1 (R190, R194). -/
def execVunpk4 (vd : VDst) (va : VSrc) (_t : EType) (m : VMods) (s : State) : Out :=
  vectorOp m 4 (some vd) 2 [va] [] false false
    (fun srcs olds _ =>
      let pm := pmOf s m
      let l := elems 4 (nth 0 srcs 0)
      let half := fun (h : Nat) =>
        mergeLanes ((activeOf 4 1024 pm).drop (512 * h)) (elems 8 (if m.z then 0 else nth 0 olds h))
          (((l.drop (512 * h)).take 512).map fun a _ => pure1 (wrap 8 (sext 4 a)))
      .vecs [packLanes 8 (half 0).1, packLanes 8 (half 1).1] Pred.ones 0) s

/-- An exactly widened element (R195). -/
def widen (t : EType) (k : Nat) (a : Nat) : FRes :=
  match etFmt t with
  | some f => valToFmt fp32 rne (fval f a)
  | none => pure1 (wrap (k * etWidth t) (sext (etWidth t) a))

/-- vwid2 (R190, R195). -/
def execVwid2 (vd : VDst) (va : VSrc) (t : EType) (m : VMods) (s : State) : Out :=
  let w := etWidth t
  vectorOp m 4 (some vd) 2 [va] [] false false
    (fun srcs olds _ => groupVec (2 * w) w 2 m (pmOf s m) olds ((elems w (nth 0 srcs 0)).map fun a _ => widen t 2 a)) s

/-- vwid4 (R190, R195). -/
def execVwid4 (vd : VDst) (va : VSrc) (t : EType) (m : VMods) (s : State) : Out :=
  let w := etWidth t
  vectorOp m 4 (some vd) 4 [va] [] false false
    (fun srcs olds _ => groupVec (4 * w) w 4 m (pmOf s m) olds ((elems w (nth 0 srcs 0)).map fun a _ => widen t 4 a)) s

/-- vwmul2 (R190, R195). -/
def execVwmul2 (vd : VDst) (va vb : VSrc) (t : EType) (m : VMods) (s : State) : Out :=
  let w := etWidth t
  vectorOp m 5 (some vd) 2 [va, vb] [] false false
    (fun srcs olds _ => groupVec (2 * w) w 2 m (pmOf s m) olds
      (List.zipWith (fun a b _ => pure1 (wrap (2 * w) (sext w a * sext w b))) (elems w (nth 0 srcs 0)) (elems w (nth 0 srcs 1)))) s

/-! Permutes and moves (R196 to R200). -/

/-- Elements of a value for indexed access. -/
def elemAt (w v j : Nat) : Nat := (v >>> (w * j)) % 2 ^ w

/-- An elementwise result that depends on the element's number. -/
def vecIdx (lat : Nat) (vd : VDst) (srcs : List VSrc) (items : List Item) (w : Nat) (m : VMods) (f : List Nat → Nat → Nat) (s : State) : Out :=
  vectorOp m lat (some vd) 1 srcs items false false
    (fun vals olds _ => laneVec w w m (pmOf s m) olds ((List.range (4096 / w)).map fun j _ => pure1 (f vals j))) s

/-- vperm (R196). -/
def execVperm (vd : VDst) (va vb : VSrc) (t : EType) (m : VMods) (s : State) : Out :=
  let w := etWidth t
  let win := min (4096 / w) (2 ^ w)
  vecIdx 3 vd [va, vb] [] w m
    (fun vs j => elemAt w (nth 0 vs 0) (j / win * win + elemAt w (nth 0 vs 1) j % win)) s

/-- vperm2 (R196). -/
def execVperm2 (vd : VDst) (va vb vc : VSrc) (t : EType) (m : VMods) (s : State) : Out :=
  let w := etWidth t
  let win := min (4096 / w) (2 ^ (w - 1))
  vecIdx 3 vd [va, vb, vc] [] w m
    (fun vs j =>
      let k := elemAt w (nth 0 vs 1) j % (2 * win)
      if k < win then elemAt w (nth 0 vs 0) (j / win * win + k) else elemAt w (nth 0 vs 2) (j / win * win + k - win)) s

/-- Elements whose predicate bit is set, in order. -/
def activeElems (act : List Bool) (l : List Nat) : List Nat := ((act.zip l).filter (·.1)).map (·.2)

/-- vcomp (R197): every element is written; a queue's mask covers the packed ones. -/
def execVcomp (vd : VDst) (va : VSrc) (t : EType) (m : VMods) (s : State) : Out :=
  let w := etWidth t
  let n := 4096 / w
  vectorOp m 3 (some vd) 1 [va] [] false false
    (fun vs _ _ =>
      let l := activeElems (activeOf w n (pmOf s m)) (elems w (nth 0 vs 0))
      let mask := match vd with
        | .sq _ => maskOf w ((List.range n).map fun j => j < l.length)
        | _ => Pred.ones
      .vecs [packLanes w l] mask 0) s

/-- Each active element with the number of active elements below it. -/
def ranks : Nat → List Bool → List Nat
  | _, [] => []
  | n, b :: l => n :: ranks (if b then n + 1 else n) l

/-- vexpd (R197). -/
def execVexpd (vd : VDst) (va : VSrc) (t : EType) (m : VMods) (s : State) : Out :=
  let w := etWidth t
  vectorOp m 3 (some vd) 1 [va] [] false false
    (fun vs olds _ => laneVec w w m (pmOf s m) olds
      ((ranks 0 (activeOf w (4096 / w) (pmOf s m))).map fun k _ => pure1 (elemAt w (nth 0 vs 0) k))) s

/-- vslup (R198). -/
def execVslup (vd : VDst) (va : VSrc) (cb : Reg) (vc : VSrc) (t : EType) (m : VMods) (s : State) : Out :=
  let w := etWidth t
  let n := 4096 / w
  let k := min (gRead s cb).toNat n
  vecIdx 3 vd [va, vc] [.g cb] w m
    (fun vs j => if j ≥ k then elemAt w (nth 0 vs 0) (j - k) else elemAt w (nth 0 vs 1) (n - k + j)) s

/-- vsldn (R198). -/
def execVsldn (vd : VDst) (va : VSrc) (cb : Reg) (vc : VSrc) (t : EType) (m : VMods) (s : State) : Out :=
  let w := etWidth t
  let n := 4096 / w
  let k := min (gRead s cb).toNat n
  vecIdx 3 vd [va, vc] [.g cb] w m
    (fun vs j => if j + k < n then elemAt w (nth 0 vs 0) (j + k) else elemAt w (nth 0 vs 1) (j + k - n)) s

/-- vbcast (R199). -/
def execVbcast (vd : VDst) (va : VSrc) (cb : Reg) (t : EType) (m : VMods) (s : State) : Out :=
  let w := etWidth t
  vecIdx 3 vd [va] [.g cb] w m (fun vs _ => elemAt w (nth 0 vs 0) ((gRead s cb).toNat % (4096 / w))) s

/-- vsplat (R199). -/
def execVsplat (vd : VDst) (ca : Reg) (t : EType) (m : VMods) (s : State) : Out :=
  vecIdx 3 vd [] [.g ca] (etWidth t) m (fun _ _ => (gRead s ca).toNat % 2 ^ etWidth t) s

/-- vmov (R199). -/
def execVmov (vd : VDst) (va : VSrc) (m : VMods) (s : State) : Out := vecIdx 3 vd [va] [] 8 m (fun vs j => elemAt 8 (nth 0 vs 0) j) s

/-- vidx (R199). -/
def execVidx (vd : VDst) (ca : Reg) (t : EType) (m : VMods) (s : State) : Out :=
  vecIdx 3 vd [] [.g ca] (etWidth t) m (fun _ j => ((gRead s ca).toNat + j) % 2 ^ etWidth t) s

/-- vins (R200). -/
def execVins (vd : VDst) (ca cb : Reg) (t : EType) (m : VMods) (s : State) : Out :=
  let w := etWidth t
  vectorOp m 3 (some vd) 1 [] [.g ca, .g cb] false false
    (fun _ olds _ => .vecs [packLanes w ((elems w (nth 0 olds 0)).set ((gRead s cb).toNat % (4096 / w)) ((gRead s ca).toNat % 2 ^ w))]
      Pred.ones 0) s

/-- vext (R200). -/
def execVext (cd : Reg) (va : VSrc) (cb : Reg) (t : EType) (m : VMods) (s : State) : Out :=
  let w := etWidth t
  vectorOp m 3 none 1 [va] [.g cd, .g cb] false false
    (fun vs _ _ =>
      let e := elemAt w (nth 0 vs 0) ((gRead s cb).toNat % (4096 / w))
      .effs [.cReg cd (if (etFmt t).isSome then BitVec.ofNat 64 e else BitVec.ofInt 64 (sext w e))] 0) s

/-! Reductions (R201 to R203). -/

/-- The operation of a reduction. -/
inductive Red where
  | sum | max | min
deriving DecidableEq, Repr

/-- The identity of R201. -/
def redId (t : EType) (r : Red) : Nat :=
  let w := etWidth t
  match etFmt t, r with
  | some f, .sum => 2 ^ (f.w - 1)
  | some f, .max => infBits f true
  | some f, .min => infBits f false
  | none, .sum => 0
  | none, .max => 2 ^ (w - 1)
  | none, .min => 2 ^ (w - 1) - 1

/-- The combination of R201. -/
def redOp (t : EType) (r : Red) (a b : Nat) : FRes :=
  match r with
  | .sum => arith t rne (· + ·) fAdd a b
  | .max => minMax t true a b
  | .min => minMax t false a b

/-- One level of the tree over adjacent elements. -/
def redLevel (f : Nat → Nat → FRes) : List Nat → List Nat × Flags
  | a :: b :: l =>
    let (r, fl) := redLevel f l
    let (v, x) := f a b
    (v :: r, x ||| fl)
  | _ => ([], 0)

def redTree (f : Nat → Nat → FRes) : Nat → List Nat → Nat × Flags
  | 0, l => (nth 0 l 0, 0)
  | n + 1, l =>
    let (r, fl) := redLevel f l
    let (v, x) := redTree f n r
    (v, fl ||| x)

/-- A reduction: the whole result is written (R201). -/
def vecRed (vd : VDst) (va : VSrc) (t : EType) (m : VMods) (r : Red) (s : State) : Out :=
  let w := etWidth t
  vectorOp m 8 (some vd) 1 [va] [] false false
    (fun vs _ _ =>
      let xs := List.zipWith (fun b a => if b then a else redId t r) (activeOf w (4096 / w) (pmOf s m)) (elems w (nth 0 vs 0))
      let (v, fl) := redTree (redOp t r) (4096 / w).log2 xs
      .vecs [v] Pred.ones fl) s

/-- vrsum (R201). -/
def execVrsum (vd : VDst) (va : VSrc) (t : EType) (m : VMods) (s : State) : Out := vecRed vd va t m .sum s

/-- vrmax (R201). -/
def execVrmax (vd : VDst) (va : VSrc) (t : EType) (m : VMods) (s : State) : Out := vecRed vd va t m .max s

/-- vrmin (R201). -/
def execVrmin (vd : VDst) (va : VSrc) (t : EType) (m : VMods) (s : State) : Out := vecRed vd va t m .min s

/-- Cuts a list in groups of `n`. -/
def chunks {α : Type} (n : Nat) : Nat → List α → List (List α)
  | 0, _ => []
  | k + 1, l => l.take n :: chunks n k (l.drop n)

/-- The maximum of a group's active elements, with the flags (R202). -/
def groupMax (t : EType) (l : List Nat) : FRes :=
  l.foldl (fun (p : FRes) a =>
    let (v, x) := minMax t true p.1 a
    (v, p.2 ||| x)) (redId t .max, 0)

/-- vgmax (R202). Every active element of a group raises the group's flags. -/
def execVgmax (vd : VDst) (va : VSrc) (imm : Fin 64) (t : EType) (m : VMods) (s : State) : Out :=
  let w := etWidth t
  let n := 4096 / w
  let g := 2 ^ imm.val
  vectorOp m 8 (some vd) 1 [va] [] false false
    (fun vs olds _ =>
      let act := activeOf w n (pmOf s m)
      let tops := (chunks g (n / g) (act.zip (elems w (nth 0 vs 0)))).map fun l => groupMax t (activeElems (l.map (·.1)) (l.map (·.2)))
      laneVec w w m (pmOf s m) olds (tops.flatMap fun r => List.replicate g fun _ => r)) s

/-- The inclusive prefix sums of the active elements (R203). -/
def scanFrom (t : EType) : Nat → List Bool → List Nat → List FRes
  | acc, b :: act, a :: l =>
    if b then
      let r := redOp t .sum acc a
      r :: scanFrom t r.1 act l
    else (acc, 0) :: scanFrom t acc act l
  | _, _, _ => []

/-- vscan (R203). -/
def execVscan (vd : VDst) (va : VSrc) (t : EType) (m : VMods) (s : State) : Out :=
  let w := etWidth t
  vectorOp m 8 (some vd) 1 [va] [] false false
    (fun vs olds _ => laneVec w w m (pmOf s m) olds
      ((scanFrom t (redId t .sum) (activeOf w (4096 / w) (pmOf s m)) (elems w (nth 0 vs 0))).map fun r _ => r)) s

/-! Estimates, Newton steps and functions (R204 to R206). -/

/-- vrcpe (R204). -/
def execVrcpe (vd : VDst) (va : VSrc) (t : EType) (m : VMods) (s : State) : Out := vec1 4 vd va t m rcpe s

/-- vrsqe (R204). -/
def execVrsqe (vd : VDst) (va : VSrc) (t : EType) (m : VMods) (s : State) : Out := vec1 4 vd va t m rsqe s

/-- vrcps (R204). -/
def execVrcps (vd : VDst) (va vb : VSrc) (t : EType) (m : VMods) (s : State) : Out := vec2 6 vd va vb t m (rcps m.rnd.mode) s

/-- vrsqs (R204). -/
def execVrsqs (vd : VDst) (va vb : VSrc) (t : EType) (m : VMods) (s : State) : Out := vec2 6 vd va vb t m (rsqs m.rnd.mode) s

/-- vexp2.f (R205). -/
def execVexp2F (vd : VDst) (va : VSrc) (t : EType) (m : VMods) (s : State) : Out := vec1 10 vd va t m exp2F s true

/-- vlog2.f (R205). -/
def execVlog2F (vd : VDst) (va : VSrc) (t : EType) (m : VMods) (s : State) : Out := vec1 10 vd va t m log2F s true

/-- vtanh.f (R205). -/
def execVtanhF (vd : VDst) (va : VSrc) (t : EType) (m : VMods) (s : State) : Out := vec1 10 vd va t m tanhF s true

/-- vexp2.x (R206). -/
def execVexp2X (vd : VDst) (va : VSrc) (t : EType) (m : VMods) (s : State) : Out := vec1 14 vd va t m exp2X s

/-- vlog2.x (R206). -/
def execVlog2X (vd : VDst) (va : VSrc) (t : EType) (m : VMods) (s : State) : Out := vec1 14 vd va t m log2X s

/-- vtanh.x (R206). -/
def execVtanhX (vd : VDst) (va : VSrc) (t : EType) (m : VMods) (s : State) : Out := vec1 14 vd va t m tanhX s

/-! The generator (R207), spill and fill (R208). -/

/-- vrng (R207). -/
def execVrng (vd : VDst) (ca cb : Reg) (m : VMods) (s : State) : Out :=
  vecIdx 6 vd [] [.g ca, .g cb] 32 m (fun _ j => (cg (gRead s ca) ((gRead s cb).toNat + j)).1) s

/-- vrng.d (R207). -/
def execVrngD (vd : VDst) (ca cb : Reg) (m : VMods) (s : State) : Out :=
  vecIdx 6 vd [] [.g ca, .g cb] 64 m
    (fun _ j =>
      let x := cg (gRead s ca) ((gRead s cb).toNat + j)
      x.1 * 2 ^ 32 + x.2) s

/-- vspill (R208): inactive bytes of the slot stay, or are written as zero with Z = 1. -/
def execVspill (slot : Fin 256) (va : VSrc) (m : VMods) (s : State) : Out :=
  vectorOp m 1 none 1 [va] [.k slot] false false
    (fun vs _ _ =>
      let pm := pmOf s m
      .effs [.slot slot (BitVec.ofNat 4096 (nth 0 vs 0) &&& byteMask pm) (if m.z then Pred.ones else pm)] 0) s

/-- vfill (R208). -/
def execVfill (vd : VDst) (slot : Fin 256) (m : VMods) (s : State) : Out :=
  vecIdx 1 vd [] [.k slot] 8 m (fun _ j => elemAt 8 s.ctx.c.k[slot].toNat j) s

end Sys2Proof.Machine
end

