-- ==== Sys2Proof/Machine/Dispatch.lean ====
section
/-!
DEFINITION. The dispatch of a step of the machine to its meaning: one arm for each constructor of Instr.
-/

namespace Sys2Proof.Machine

def exec (i : Instr) (s : State) : Host.Outcome State Fault Refusal :=
  match i with
  | .nop => Sys2Proof.Machine.execNop s
  | .illegalZeroWord => Sys2Proof.Machine.execIllegalZeroWord s
  | .definedIllegal code => Sys2Proof.Machine.execDefinedIllegal code s
  | .trap imm => Sys2Proof.Machine.execTrap imm s
  | .brk imm => Sys2Proof.Machine.execBrk imm s
  | .eret => Sys2Proof.Machine.execEret s
  | .done => Sys2Proof.Machine.execDone s
  | .sysrd gd num => Sys2Proof.Machine.execSysrd gd num s
  | .syswr num ga => Sys2Proof.Machine.execSyswr num ga s
  | .qpushXq ga => Sys2Proof.Machine.execQpushXq ga s
  | .qpushYq ga => Sys2Proof.Machine.execQpushYq ga s
  | .qpopYq gd => Sys2Proof.Machine.execQpopYq gd s
  | .qpopXq gd => Sys2Proof.Machine.execQpopXq gd s
  | .add gd ga gb q => Sys2Proof.Machine.execAdd gd ga gb q s
  | .sub gd ga gb q => Sys2Proof.Machine.execSub gd ga gb q s
  | .mul gd ga gb q => Sys2Proof.Machine.execMul gd ga gb q s
  | .mulh gd ga gb q => Sys2Proof.Machine.execMulh gd ga gb q s
  | .mulhn gd ga gb q => Sys2Proof.Machine.execMulhn gd ga gb q s
  | .div gd ga gb q => Sys2Proof.Machine.execDiv gd ga gb q s
  | .divn gd ga gb q => Sys2Proof.Machine.execDivn gd ga gb q s
  | .rem gd ga gb q => Sys2Proof.Machine.execRem gd ga gb q s
  | .remn gd ga gb q => Sys2Proof.Machine.execRemn gd ga gb q s
  | .and gd ga gb q => Sys2Proof.Machine.execAnd gd ga gb q s
  | .or gd ga gb q => Sys2Proof.Machine.execOr gd ga gb q s
  | .xor gd ga gb q => Sys2Proof.Machine.execXor gd ga gb q s
  | .andn gd ga gb q => Sys2Proof.Machine.execAndn gd ga gb q s
  | .orn gd ga gb q => Sys2Proof.Machine.execOrn gd ga gb q s
  | .shl gd ga gb q => Sys2Proof.Machine.execShl gd ga gb q s
  | .shr gd ga gb q => Sys2Proof.Machine.execShr gd ga gb q s
  | .sra gd ga gb q => Sys2Proof.Machine.execSra gd ga gb q s
  | .rotl gd ga gb q => Sys2Proof.Machine.execRotl gd ga gb q s
  | .rotr gd ga gb q => Sys2Proof.Machine.execRotr gd ga gb q s
  | .min gd ga gb q => Sys2Proof.Machine.execMin gd ga gb q s
  | .max gd ga gb q => Sys2Proof.Machine.execMax gd ga gb q s
  | .minn gd ga gb q => Sys2Proof.Machine.execMinn gd ga gb q s
  | .maxn gd ga gb q => Sys2Proof.Machine.execMaxn gd ga gb q s
  | .seq gd ga gb q => Sys2Proof.Machine.execSeq gd ga gb q s
  | .sne gd ga gb q => Sys2Proof.Machine.execSne gd ga gb q s
  | .slt gd ga gb q => Sys2Proof.Machine.execSlt gd ga gb q s
  | .sltn gd ga gb q => Sys2Proof.Machine.execSltn gd ga gb q s
  | .sle gd ga gb q => Sys2Proof.Machine.execSle gd ga gb q s
  | .slen gd ga gb q => Sys2Proof.Machine.execSlen gd ga gb q s
  | .sel gd ga gb q => Sys2Proof.Machine.execSel gd ga gb q s
  | .clz gd ga q => Sys2Proof.Machine.execClz gd ga q s
  | .ctz gd ga q => Sys2Proof.Machine.execCtz gd ga q s
  | .popc gd ga q => Sys2Proof.Machine.execPopc gd ga q s
  | .addi gd ga q imm => Sys2Proof.Machine.execAddi gd ga q imm s
  | .muli gd ga q imm => Sys2Proof.Machine.execMuli gd ga q imm s
  | .andi gd ga q imm => Sys2Proof.Machine.execAndi gd ga q imm s
  | .ori gd ga q imm => Sys2Proof.Machine.execOri gd ga q imm s
  | .xori gd ga q imm => Sys2Proof.Machine.execXori gd ga q imm s
  | .slti gd ga q imm => Sys2Proof.Machine.execSlti gd ga q imm s
  | .sltni gd ga q imm => Sys2Proof.Machine.execSltni gd ga q imm s
  | .shli gd ga q imm => Sys2Proof.Machine.execShli gd ga q imm s
  | .shri gd ga q imm => Sys2Proof.Machine.execShri gd ga q imm s
  | .srai gd ga q imm => Sys2Proof.Machine.execSrai gd ga q imm s
  | .ldi gd q imm => Sys2Proof.Machine.execLdi gd q imm s
  | .ldhi gd q imm => Sys2Proof.Machine.execLdhi gd q imm s
  | .addiExt gd ga q imm => Sys2Proof.Machine.execAddiExt gd ga q imm s
  | .muliExt gd ga q imm => Sys2Proof.Machine.execMuliExt gd ga q imm s
  | .andiExt gd ga q imm => Sys2Proof.Machine.execAndiExt gd ga q imm s
  | .oriExt gd ga q imm => Sys2Proof.Machine.execOriExt gd ga q imm s
  | .xoriExt gd ga q imm => Sys2Proof.Machine.execXoriExt gd ga q imm s
  | .sltiExt gd ga q imm => Sys2Proof.Machine.execSltiExt gd ga q imm s
  | .sltniExt gd ga q imm => Sys2Proof.Machine.execSltniExt gd ga q imm s
  | .shliExt gd ga q imm => Sys2Proof.Machine.execShliExt gd ga q imm s
  | .shriExt gd ga q imm => Sys2Proof.Machine.execShriExt gd ga q imm s
  | .sraiExt gd ga q imm => Sys2Proof.Machine.execSraiExt gd ga q imm s
  | .ldiExt gd q imm => Sys2Proof.Machine.execLdiExt gd q imm s
  | .ldhiExt gd q imm => Sys2Proof.Machine.execLdhiExt gd q imm s
  | .bfx gd ga pos wm1 => Sys2Proof.Machine.execBfx gd ga pos wm1 s
  | .bfxs gd ga pos wm1 => Sys2Proof.Machine.execBfxs gd ga pos wm1 s
  | .bfi gd ga pos wm1 => Sys2Proof.Machine.execBfi gd ga pos wm1 s
  | .beq ga gb off => Sys2Proof.Machine.execBeq ga gb off s
  | .bne ga gb off => Sys2Proof.Machine.execBne ga gb off s
  | .blt ga gb off => Sys2Proof.Machine.execBlt ga gb off s
  | .bge ga gb off => Sys2Proof.Machine.execBge ga gb off s
  | .bltn ga gb off => Sys2Proof.Machine.execBltn ga gb off s
  | .bgen ga gb off => Sys2Proof.Machine.execBgen ga gb off s
  | .loop ga off => Sys2Proof.Machine.execLoop ga off s
  | .beqExt ga gb off => Sys2Proof.Machine.execBeqExt ga gb off s
  | .bneExt ga gb off => Sys2Proof.Machine.execBneExt ga gb off s
  | .bltExt ga gb off => Sys2Proof.Machine.execBltExt ga gb off s
  | .bgeExt ga gb off => Sys2Proof.Machine.execBgeExt ga gb off s
  | .bltnExt ga gb off => Sys2Proof.Machine.execBltnExt ga gb off s
  | .bgenExt ga gb off => Sys2Proof.Machine.execBgenExt ga gb off s
  | .loopExt ga off => Sys2Proof.Machine.execLoopExt ga off s
  | .call gd off => Sys2Proof.Machine.execCall gd off s
  | .jmp off => Sys2Proof.Machine.execJmp off s
  | .callr gd ga => Sys2Proof.Machine.execCallr gd ga s
  | .jr ga => Sys2Proof.Machine.execJr ga s
  | .lds g slot lane => Sys2Proof.Machine.execLds g slot lane s
  | .sts g slot lane => Sys2Proof.Machine.execSts g slot lane s
  | .sset sn f ga => Sys2Proof.Machine.execSset sn f ga s
  | .sgo sn => Sys2Proof.Machine.execSgo sn s
  | .sget gd sn f => Sys2Proof.Machine.execSget gd sn f s
  | .ldB gd ga off => Sys2Proof.Machine.execLdB gd ga off s
  | .ldH gd ga off => Sys2Proof.Machine.execLdH gd ga off s
  | .ldW gd ga off => Sys2Proof.Machine.execLdW gd ga off s
  | .ldD gd ga off => Sys2Proof.Machine.execLdD gd ga off s
  | .ldBn gd ga off => Sys2Proof.Machine.execLdBn gd ga off s
  | .ldHn gd ga off => Sys2Proof.Machine.execLdHn gd ga off s
  | .ldWn gd ga off => Sys2Proof.Machine.execLdWn gd ga off s
  | .ldBExt gd ga off => Sys2Proof.Machine.execLdBExt gd ga off s
  | .ldHExt gd ga off => Sys2Proof.Machine.execLdHExt gd ga off s
  | .ldWExt gd ga off => Sys2Proof.Machine.execLdWExt gd ga off s
  | .ldDExt gd ga off => Sys2Proof.Machine.execLdDExt gd ga off s
  | .ldBnExt gd ga off => Sys2Proof.Machine.execLdBnExt gd ga off s
  | .ldHnExt gd ga off => Sys2Proof.Machine.execLdHnExt gd ga off s
  | .ldWnExt gd ga off => Sys2Proof.Machine.execLdWnExt gd ga off s
  | .stB gb ga off => Sys2Proof.Machine.execStB gb ga off s
  | .stH gb ga off => Sys2Proof.Machine.execStH gb ga off s
  | .stW gb ga off => Sys2Proof.Machine.execStW gb ga off s
  | .stD gb ga off => Sys2Proof.Machine.execStD gb ga off s
  | .stBExt gb ga off => Sys2Proof.Machine.execStBExt gb ga off s
  | .stHExt gb ga off => Sys2Proof.Machine.execStHExt gb ga off s
  | .stWExt gb ga off => Sys2Proof.Machine.execStWExt gb ga off s
  | .stDExt gb ga off => Sys2Proof.Machine.execStDExt gb ga off s
  | .vld n ga off => Sys2Proof.Machine.execVld n ga off s
  | .ldx ga off => Sys2Proof.Machine.execLdx ga off s
  | .vldExt n ga off => Sys2Proof.Machine.execVldExt n ga off s
  | .ldxExt ga off => Sys2Proof.Machine.execLdxExt ga off s
  | .vst n ga off => Sys2Proof.Machine.execVst n ga off s
  | .stx ga off => Sys2Proof.Machine.execStx ga off s
  | .vstExt n ga off => Sys2Proof.Machine.execVstExt n ga off s
  | .stxExt ga off => Sys2Proof.Machine.execStxExt ga off s
  | .cpyIn o => Sys2Proof.Machine.execCpyIn o s
  | .cpyOut o => Sys2Proof.Machine.execCpyOut o s
  | .cpy2dIn o => Sys2Proof.Machine.execCpy2dIn o s
  | .cpy2dOut o => Sys2Proof.Machine.execCpy2dOut o s
  | .cpyGth o => Sys2Proof.Machine.execCpyGth o s
  | .cpyWb o => Sys2Proof.Machine.execCpyWb o s
  | .cpyLink ga b slot => Sys2Proof.Machine.execCpyLink ga b slot s
  | .cpyKick slot => Sys2Proof.Machine.execCpyKick slot s
  | .amoAdd gd ga gb t => Sys2Proof.Machine.execAmoAdd gd ga gb t s
  | .amoMin gd ga gb t => Sys2Proof.Machine.execAmoMin gd ga gb t s
  | .amoMax gd ga gb t => Sys2Proof.Machine.execAmoMax gd ga gb t s
  | .amoOr gd ga gb t => Sys2Proof.Machine.execAmoOr gd ga gb t s
  | .amoAnd gd ga gb t => Sys2Proof.Machine.execAmoAnd gd ga gb t s
  | .amoXor gd ga gb t => Sys2Proof.Machine.execAmoXor gd ga gb t s
  | .amoSwap gd ga gb t => Sys2Proof.Machine.execAmoSwap gd ga gb t s
  | .amoCas gd ga gb t => Sys2Proof.Machine.execAmoCas gd ga gb t s
  | .damoAdd ga gb t => Sys2Proof.Machine.execDamoAdd ga gb t s
  | .damoMin ga gb t => Sys2Proof.Machine.execDamoMin ga gb t s
  | .damoMax ga gb t => Sys2Proof.Machine.execDamoMax ga gb t s
  | .damoOr ga gb t => Sys2Proof.Machine.execDamoOr ga gb t s
  | .bwait b => Sys2Proof.Machine.execBwait b s
  | .badd b ga => Sys2Proof.Machine.execBadd b ga s
  | .tacq tn ga => Sys2Proof.Machine.execTacq tn ga s
  | .talloc tn ga gb => Sys2Proof.Machine.execTalloc tn ga gb s
  | .tseal tn => Sys2Proof.Machine.execTseal tn s
  | .trel tn => Sys2Proof.Machine.execTrel tn s
  | .taddr gd tn => Sys2Proof.Machine.execTaddr gd tn s
  | .acq ga => Sys2Proof.Machine.execAcq ga s
  | .rel ga => Sys2Proof.Machine.execRel ga s
  | .bind gd ga gb => Sys2Proof.Machine.execBind gd ga gb s
  | .fenceT => Sys2Proof.Machine.execFenceT s
  | .fenceD => Sys2Proof.Machine.execFenceD s
  | .fenceP => Sys2Proof.Machine.execFenceP s
  | .fenceS => Sys2Proof.Machine.execFenceS s
  | .fenceDur => Sys2Proof.Machine.execFenceDur s
  | .dbar => Sys2Proof.Machine.execDbar s
  | .pbar => Sys2Proof.Machine.execPbar s
  | .pflush ga gb => Sys2Proof.Machine.execPflush ga gb s
  | .pseal tn => Sys2Proof.Machine.execPseal tn s
  | .spawn ga => Sys2Proof.Machine.execSpawn ga s
  | .yield => Sys2Proof.Machine.execYield s
  | .xlpf ga gb => Sys2Proof.Machine.execXlpf ga gb s
  | .vadd vd va vb t m => Sys2Proof.Machine.execVadd vd va vb t m s
  | .vsub vd va vb t m => Sys2Proof.Machine.execVsub vd va vb t m s
  | .vmul vd va vb t m => Sys2Proof.Machine.execVmul vd va vb t m s
  | .vmulz vd va vb t m => Sys2Proof.Machine.execVmulz vd va vb t m s
  | .vfma vd va vb vc t m => Sys2Proof.Machine.execVfma vd va vb vc t m s
  | .vfms vd va vb vc t m => Sys2Proof.Machine.execVfms vd va vb vc t m s
  | .vfnma vd va vb vc t m => Sys2Proof.Machine.execVfnma vd va vb vc t m s
  | .vmulh vd va vb t m => Sys2Proof.Machine.execVmulh vd va vb t m s
  | .vmulhn vd va vb t m => Sys2Proof.Machine.execVmulhn vd va vb t m s
  | .vmin vd va vb t m => Sys2Proof.Machine.execVmin vd va vb t m s
  | .vmax vd va vb t m => Sys2Proof.Machine.execVmax vd va vb t m s
  | .vminn vd va vb t m => Sys2Proof.Machine.execVminn vd va vb t m s
  | .vmaxn vd va vb t m => Sys2Proof.Machine.execVmaxn vd va vb t m s
  | .vabs vd va t m => Sys2Proof.Machine.execVabs vd va t m s
  | .vneg vd va t m => Sys2Proof.Machine.execVneg vd va t m s
  | .vand vd va vb t m => Sys2Proof.Machine.execVand vd va vb t m s
  | .vor vd va vb t m => Sys2Proof.Machine.execVor vd va vb t m s
  | .vxor vd va vb t m => Sys2Proof.Machine.execVxor vd va vb t m s
  | .vandn vd va vb t m => Sys2Proof.Machine.execVandn vd va vb t m s
  | .vnot vd va t m => Sys2Proof.Machine.execVnot vd va t m s
  | .vshl vd va vb t m => Sys2Proof.Machine.execVshl vd va vb t m s
  | .vshr vd va vb t m => Sys2Proof.Machine.execVshr vd va vb t m s
  | .vsra vd va vb t m => Sys2Proof.Machine.execVsra vd va vb t m s
  | .vshli vd va imm t m => Sys2Proof.Machine.execVshli vd va imm t m s
  | .vshri vd va imm t m => Sys2Proof.Machine.execVshri vd va imm t m s
  | .vsrai vd va imm t m => Sys2Proof.Machine.execVsrai vd va imm t m s
  | .vfshl vd va vb vc t m => Sys2Proof.Machine.execVfshl vd va vb vc t m s
  | .vfshr vd va vb vc t m => Sys2Proof.Machine.execVfshr vd va vb vc t m s
  | .vpopc vd va t m => Sys2Proof.Machine.execVpopc vd va t m s
  | .vclz vd va t m => Sys2Proof.Machine.execVclz vd va t m s
  | .vctz vd va t m => Sys2Proof.Machine.execVctz vd va t m s
  | .vceq pd va vb t m => Sys2Proof.Machine.execVceq pd va vb t m s
  | .vcne pd va vb t m => Sys2Proof.Machine.execVcne pd va vb t m s
  | .vclt pd va vb t m => Sys2Proof.Machine.execVclt pd va vb t m s
  | .vcle pd va vb t m => Sys2Proof.Machine.execVcle pd va vb t m s
  | .vcltn pd va vb t m => Sys2Proof.Machine.execVcltn pd va vb t m s
  | .vclen pd va vb t m => Sys2Proof.Machine.execVclen pd va vb t m s
  | .vcun pd va vb t m => Sys2Proof.Machine.execVcun pd va vb t m s
  | .pand pd pa pb m => Sys2Proof.Machine.execPand pd pa pb m s
  | .por pd pa pb m => Sys2Proof.Machine.execPor pd pa pb m s
  | .pxor pd pa pb m => Sys2Proof.Machine.execPxor pd pa pb m s
  | .pandn pd pa pb m => Sys2Proof.Machine.execPandn pd pa pb m s
  | .pnot pd pa m => Sys2Proof.Machine.execPnot pd pa m s
  | .pset pd m => Sys2Proof.Machine.execPset pd m s
  | .pclr pd m => Sys2Proof.Machine.execPclr pd m s
  | .plt pd ca t m => Sys2Proof.Machine.execPlt pd ca t m s
  | .pge pd ca t m => Sys2Proof.Machine.execPge pd ca t m s
  | .vcvt vd va src t m => Sys2Proof.Machine.execVcvt vd va src t m s
  | .vqnt vd va vb t m => Sys2Proof.Machine.execVqnt vd va vb t m s
  | .vdqnt vd va vb t m => Sys2Proof.Machine.execVdqnt vd va vb t m s
  | .vpack4 vd va vb t m => Sys2Proof.Machine.execVpack4 vd va vb t m s
  | .vunpk4 vd va t m => Sys2Proof.Machine.execVunpk4 vd va t m s
  | .vwid2 vd va t m => Sys2Proof.Machine.execVwid2 vd va t m s
  | .vwid4 vd va t m => Sys2Proof.Machine.execVwid4 vd va t m s
  | .vwmul2 vd va vb t m => Sys2Proof.Machine.execVwmul2 vd va vb t m s
  | .vperm vd va vb t m => Sys2Proof.Machine.execVperm vd va vb t m s
  | .vperm2 vd va vb vc t m => Sys2Proof.Machine.execVperm2 vd va vb vc t m s
  | .vcomp vd va t m => Sys2Proof.Machine.execVcomp vd va t m s
  | .vexpd vd va t m => Sys2Proof.Machine.execVexpd vd va t m s
  | .vslup vd va cb vc t m => Sys2Proof.Machine.execVslup vd va cb vc t m s
  | .vsldn vd va cb vc t m => Sys2Proof.Machine.execVsldn vd va cb vc t m s
  | .vbcast vd va cb t m => Sys2Proof.Machine.execVbcast vd va cb t m s
  | .vsplat vd ca t m => Sys2Proof.Machine.execVsplat vd ca t m s
  | .vmov vd va m => Sys2Proof.Machine.execVmov vd va m s
  | .vins vd ca cb t m => Sys2Proof.Machine.execVins vd ca cb t m s
  | .vext cd va cb t m => Sys2Proof.Machine.execVext cd va cb t m s
  | .vidx vd ca t m => Sys2Proof.Machine.execVidx vd ca t m s
  | .vrsum vd va t m => Sys2Proof.Machine.execVrsum vd va t m s
  | .vrmax vd va t m => Sys2Proof.Machine.execVrmax vd va t m s
  | .vrmin vd va t m => Sys2Proof.Machine.execVrmin vd va t m s
  | .vgmax vd va imm t m => Sys2Proof.Machine.execVgmax vd va imm t m s
  | .vscan vd va t m => Sys2Proof.Machine.execVscan vd va t m s
  | .vrcpe vd va t m => Sys2Proof.Machine.execVrcpe vd va t m s
  | .vrsqe vd va t m => Sys2Proof.Machine.execVrsqe vd va t m s
  | .vrcps vd va vb t m => Sys2Proof.Machine.execVrcps vd va vb t m s
  | .vrsqs vd va vb t m => Sys2Proof.Machine.execVrsqs vd va vb t m s
  | .vexp2F vd va t m => Sys2Proof.Machine.execVexp2F vd va t m s
  | .vlog2F vd va t m => Sys2Proof.Machine.execVlog2F vd va t m s
  | .vtanhF vd va t m => Sys2Proof.Machine.execVtanhF vd va t m s
  | .vexp2X vd va t m => Sys2Proof.Machine.execVexp2X vd va t m s
  | .vlog2X vd va t m => Sys2Proof.Machine.execVlog2X vd va t m s
  | .vtanhX vd va t m => Sys2Proof.Machine.execVtanhX vd va t m s
  | .vrng vd ca cb m => Sys2Proof.Machine.execVrng vd ca cb m s
  | .vrngD vd ca cb m => Sys2Proof.Machine.execVrngD vd ca cb m s
  | .vspill slot va m => Sys2Proof.Machine.execVspill slot va m s
  | .vfill vd slot m => Sys2Proof.Machine.execVfill vd slot m s
  | .wbsel w ca cb fm => Sys2Proof.Machine.execWbsel w ca cb fm s
  | .mzero md fm => Sys2Proof.Machine.execMzero md fm s
  | .mma md sa w shape pair ksteps fm => Sys2Proof.Machine.execMma md sa w shape pair ksteps fm s
  | .mmaz md sa w shape pair ksteps fm => Sys2Proof.Machine.execMmaz md sa w shape pair ksteps fm s
  | .mdrain md sa sx dm fm => Sys2Proof.Machine.execMdrain md sa sx dm fm s
  | .mmov md ms fm => Sys2Proof.Machine.execMmov md ms fm s
  | .mswap md ms fm => Sys2Proof.Machine.execMswap md ms fm s
  | .mstat cd md fm => Sys2Proof.Machine.execMstat cd md fm s
  | .rsmax r => Sys2Proof.Machine.execRsmax r s
  | .rexps r => Sys2Proof.Machine.execRexps r s
  | .rscal r => Sys2Proof.Machine.execRscal r s
  | .rsoftmax r => Sys2Proof.Machine.execRsoftmax r s
  | .rnorm r => Sys2Proof.Machine.execRnorm r s
  | .fset f cnt => Sys2Proof.Machine.execFset f cnt s
  | .fwait f cnt => Sys2Proof.Machine.execFwait f cnt s
  | .resultLanding => Sys2Proof.Machine.execResultLanding s
  | .loadDataArrival => Sys2Proof.Machine.execLoadDataArrival s
  | .chunkLanding => Sys2Proof.Machine.execChunkLanding s
  | .copyFault => Sys2Proof.Machine.execCopyFault s
  | .chainWaitRelease => Sys2Proof.Machine.execChainWaitRelease s
  | .decoupleDeadlock => Sys2Proof.Machine.execDecoupleDeadlock s
  | .flagDeadlock => Sys2Proof.Machine.execFlagDeadlock s
  | .residencyTimeout => Sys2Proof.Machine.execResidencyTimeout s
  | .silentErr => Sys2Proof.Machine.execSilentErr s
  | .taskRetirement => Sys2Proof.Machine.execTaskRetirement s
  | .handlerEntry => Sys2Proof.Machine.execHandlerEntry s
  | .switchComplete => Sys2Proof.Machine.execSwitchComplete s
  | .spillComplete => Sys2Proof.Machine.execSpillComplete s
  | .taskReady => Sys2Proof.Machine.execTaskReady s
  | .taskDispatch => Sys2Proof.Machine.execTaskDispatch s
  | .taskSteal => Sys2Proof.Machine.execTaskSteal s
  | .priorityPreemption => Sys2Proof.Machine.execPriorityPreemption s
  | .spawnOverflowResume => Sys2Proof.Machine.execSpawnOverflowResume s
  | .gangReserving => Sys2Proof.Machine.execGangReserving s
  | .gangRunning => Sys2Proof.Machine.execGangRunning s
  | .gangReserveTimeout => Sys2Proof.Machine.execGangReserveTimeout s
  | .gangFormTimeout => Sys2Proof.Machine.execGangFormTimeout s
  | .gangPreemption => Sys2Proof.Machine.execGangPreemption s
  | .dbarCommit => Sys2Proof.Machine.execDbarCommit s
  | .finalCommit => Sys2Proof.Machine.execFinalCommit s
  | .vdKick => Sys2Proof.Machine.execVdKick s
  | .queueEnable => Sys2Proof.Machine.execQueueEnable s
  | .queueDisable => Sys2Proof.Machine.execQueueDisable s
  | .queueReset => Sys2Proof.Machine.execQueueReset s
  | .ageingStep => Sys2Proof.Machine.execAgeingStep s
  | .slotGrant => Sys2Proof.Machine.execSlotGrant s
  | .queueDisplacement => Sys2Proof.Machine.execQueueDisplacement s
  | .idleUnmap => Sys2Proof.Machine.execIdleUnmap s
  | .unmappingComplete => Sys2Proof.Machine.execUnmappingComplete s
  | .packetFetch => Sys2Proof.Machine.execPacketFetch s
  | .nopPacket => Sys2Proof.Machine.execNopPacket s
  | .launch => Sys2Proof.Machine.execLaunch s
  | .waitv => Sys2Proof.Machine.execWaitv s
  | .signal => Sys2Proof.Machine.execSignal s
  | .copyPacket => Sys2Proof.Machine.execCopyPacket s
  | .tileput => Sys2Proof.Machine.execTileput s
  | .map => Sys2Proof.Machine.execMap s
  | .fencePacket => Sys2Proof.Machine.execFencePacket s
  | .dormantPacket => Sys2Proof.Machine.execDormantPacket s
  | .reheatPacket => Sys2Proof.Machine.execReheatPacket s
  | .retry => Sys2Proof.Machine.execRetry s
  | .progressAdvance => Sys2Proof.Machine.execProgressAdvance s
  | .journalReplay => Sys2Proof.Machine.execJournalReplay s
  | .xinvStage1Page => Sys2Proof.Machine.execXinvStage1Page s
  | .xinvStage1All => Sys2Proof.Machine.execXinvStage1All s
  | .xinvStage2Page => Sys2Proof.Machine.execXinvStage2Page s
  | .xinvStage2All => Sys2Proof.Machine.execXinvStage2All s
  | .xinvComplete => Sys2Proof.Machine.execXinvComplete s
  | .stgEnable => Sys2Proof.Machine.execStgEnable s
  | .stgDisable => Sys2Proof.Machine.execStgDisable s
  | .stagingReadComplete => Sys2Proof.Machine.execStagingReadComplete s
  | .writeAccepted => Sys2Proof.Machine.execWriteAccepted s
  | .unitProgrammed => Sys2Proof.Machine.execUnitProgrammed s
  | .powerLoss => Sys2Proof.Machine.execPowerLoss s
  | .siteDrainComplete => Sys2Proof.Machine.execSiteDrainComplete s
  | .durablePoolScan => Sys2Proof.Machine.execDurablePoolScan s
  | .regatherWalk => Sys2Proof.Machine.execRegatherWalk s
  | .lehrReplicaComplete => Sys2Proof.Machine.execLehrReplicaComplete s
  | .lehrRetry => Sys2Proof.Machine.execLehrRetry s
  | .tfree => Sys2Proof.Machine.execTfree s
  | .tileDigestExchange => Sys2Proof.Machine.execTileDigestExchange s
  | .commitDigestExchange => Sys2Proof.Machine.execCommitDigestExchange s
  | .uncorrectableError => Sys2Proof.Machine.execUncorrectableError s
  | .computeDieLoss => Sys2Proof.Machine.execComputeDieLoss s
  | .baseDieLoss => Sys2Proof.Machine.execBaseDieLoss s
  | .implicitCollapse => Sys2Proof.Machine.execImplicitCollapse s
  | .collapseComplete => Sys2Proof.Machine.execCollapseComplete s
  | .vdReheat => Sys2Proof.Machine.execVdReheat s
  | .reheatComplete => Sys2Proof.Machine.execReheatComplete s
  | .vdmCreate => Sys2Proof.Machine.execVdmCreate s
  | .vdmDestroy => Sys2Proof.Machine.execVdmDestroy s
  | .fenceCommand => Sys2Proof.Machine.execFenceCommand s
  | .regwr => Sys2Proof.Machine.execRegwr s
  | .regrd => Sys2Proof.Machine.execRegrd s
  | .regrsp => Sys2Proof.Machine.execRegrsp s
  | .memwr => Sys2Proof.Machine.execMemwr s
  | .memrd => Sys2Proof.Machine.execMemrd s
  | .memrsp => Sys2Proof.Machine.execMemrsp s
  | .cmpl => Sys2Proof.Machine.execCmpl s
  | .peer => Sys2Proof.Machine.execPeer s
  | .ack => Sys2Proof.Machine.execAck s
  | .nack => Sys2Proof.Machine.execNack s
  | .heartbeat => Sys2Proof.Machine.execHeartbeat s
  | .fenceFrame => Sys2Proof.Machine.execFenceFrame s
  | .resendTimeout => Sys2Proof.Machine.execResendTimeout s
  | .heartbeatTimer => Sys2Proof.Machine.execHeartbeatTimer s
  | .rateIncrease => Sys2Proof.Machine.execRateIncrease s
  | .linkDown => Sys2Proof.Machine.execLinkDown s
  | .pathFailed => Sys2Proof.Machine.execPathFailed s
  | .peerLost => Sys2Proof.Machine.execPeerLost s
  | .hostLost => Sys2Proof.Machine.execHostLost s
  | .pathLive => Sys2Proof.Machine.execPathLive s
  | .vdErrAck => Sys2Proof.Machine.execVdErrAck s
  | .vdCmpl => Sys2Proof.Machine.execVdCmpl s
  | .registerWrite => Sys2Proof.Machine.execRegisterWrite s
  | .coldStart => Sys2Proof.Machine.execColdStart s
  | .trainingComplete => Sys2Proof.Machine.execTrainingComplete s
  | .fullServiceEntry => Sys2Proof.Machine.execFullServiceEntry s
  | .retired => Sys2Proof.Machine.execRetired s
  | .patchApplied => Sys2Proof.Machine.execPatchApplied s
  | .firmwareImage => Sys2Proof.Machine.execFirmwareImage s
  | .mgmtFirmwareRestart => Sys2Proof.Machine.execMgmtFirmwareRestart s
  | .portRoleAssignment => Sys2Proof.Machine.execPortRoleAssignment s
  | .peerTable => Sys2Proof.Machine.execPeerTable s
  | .recalStart => Sys2Proof.Machine.execRecalStart s
  | .recal => Sys2Proof.Machine.execRecal s
  | .serdesLaneRecal => Sys2Proof.Machine.execSerdesLaneRecal s
  | .thermal => Sys2Proof.Machine.execThermal s
  | .thermalRecovery => Sys2Proof.Machine.execThermalRecovery s
  | .thermalStop => Sys2Proof.Machine.execThermalStop s
  | .homeReturn => Sys2Proof.Machine.execHomeReturn s
  | .reservedEscape low => Sys2Proof.Machine.execReservedEscape low s
  | .unallocatedMajor major low w1 => Sys2Proof.Machine.execUnallocatedMajor major low w1 s
  | .linkRecovery => Sys2Proof.Machine.execLinkRecovery s
  | .frameTypeUnallocated => Sys2Proof.Machine.execFrameTypeUnallocated s

end Sys2Proof.Machine
end

