-- ==== Sys2Proof/Machine/Cycle.lean ====
section
/-!
DEFINITION. Running a slice: the A-slice's instruction (R117, R234), the C-slice's
C-cycle with its dispatch, issue and freezes (R42, R43, R117, R118), and the turns of the machine (log 1).
-/

namespace Sys2Proof.Machine

/-! Running the words of an instruction. -/

/-- An encoding that R80 to R101 or R54 leave unallocated (R102, order 5). -/
def unallocated (s : State) : Out := .next (raise { cause := .illegal, sub := 5 } s)

/-- The meaning of the instruction that two words hold. -/
noncomputable def runWords (w0 w1 : Nat) (s : State) : Out :=
  match decodeWords w0 w1 with
  | .ok i => exec i s
  | .error _ => unallocated s

/-- The same, in a form that compiles: Decode.lean says why. -/
def runCode (w0 w1 : Nat) (s : State) : Out :=
  match decodeCode w0 w1 with
  | .error _ => unallocated s
  | .ok c => match c with
    | .instr i => exec i s
    | .definedIllegal k => execDefinedIllegal k s
    | .reservedEscape l => execReservedEscape l s
    | .unallocatedMajor m l v => execUnallocatedMajor m l v s
    | .trap k => execTrap k s
    | .brk k => execBrk k s
    | .sysrd d n => execSysrd d n s
    | .syswr n a => execSyswr n a s
    | .bfx d a p v => execBfx d a p v s
    | .bfxs d a p v => execBfxs d a p v s
    | .bfi d a p v => execBfi d a p v s
    | .call d o => execCall d o s
    | .jmp o => execJmp o s
    | .callr d a => execCallr d a s
    | .jr a => execJr a s
    | .lds g k l => execLds g k l s
    | .sts g k l => execSts g k l s

@[csimp] theorem runWords_eq_runCode : @runWords = @runCode := by
  funext w0 w1 s
  unfold runWords runCode decodeWords
  cases decodeCode w0 w1 with
  | error e => rfl
  | ok c => cases c <;> rfl

/-! The A-slice. -/

/-- Whether the A-slice can try its next instruction: it has not ended or stopped, and neither a stage-2 fault nor a home's answer
holds it (R19, R235, R285, R289). -/
def runsA (s : State) : Bool :=
  let x := s.ctx
  s.live && x.phase == .running && !x.a.stopped && !x.a.eret && x.a.stop.isNone &&
    match x.a.block with
    | some (.stage2 _) => false
    | some .remote => x.m.answers.any fun r => ((48 ≤ r.tag && r.tag < 64) || r.tag % 64 == 61 || isCodeTag .a r.tag) && r.status != askedMark
    | _ => true

/-- A copy's fault waits to be raised (R155). -/
def copyFaulted (x : Context) : Bool := x.m.slots.toList.any fun c => c.cause.isSome

/-- One instruction of the A-slice, before it a copy's fault at the instruction boundary (R155). A blocked instruction tries again. A
stage-2 fault on a handler's fetch is not retried (R286). -/
def stepA (s : State) : Out :=
  if s.live && s.ctx.phase == .running && s.ctx.a.stop.isNone && copyFaulted s.ctx then exec .copyFault s
  else if !runsA s then .next s
  else match fetch s s.ctx.a.pc with
    | .flt f => .next (raise f s)
    | .held f va => .next (if s.ctx.sup then handlerFail s (handledCtx s) else heldA s f va true false)
    | .ask h va => .next (blockA (askCode s s.ctx.a.pc h va) .remote)
    | .ok w0 w1 _ => runWords w0 w1 s

/-! The C-slice. -/

/-- A pushed entry that becomes poppable only at a later C-cycle (R34). -/
def reservedLeft (x : Context) : Bool :=
  x.q.sq.toList.any (fun l => l.any fun e => e.readyAt > x.c.cc) || x.q.yq.any fun e => e.readyAt > x.c.cc

/-- Whether C-cycles can pass: the slice has not stopped, and has instructions or pending results left (R42, R235). -/
def runsC (s : State) : Bool :=
  let x := s.ctx
  s.live && (x.phase == .running || x.phase == .cut) && x.c.stop.isNone && x.c.block != some .wait &&
    !((x.c.stopped || x.c.eret) && x.c.pend.isEmpty && !reservedLeft x)

/-- The engine whose head is next to try at this C-cycle: of the heads that have not issued or waited, the first in program order. -/
def nextHead (c : CSide) : Option Engine :=
  let best := [Engine.sqe, .vqe, .mqe, .rqe].foldl (fun (b : Option (Engine × Nat)) e =>
    let i := engineIdx e
    if c.issd[i] || c.tried[i] then b else match c.queues[i] with
      | [] => b
      | d :: _ => match b with
        | some (_, n) => if d.seq < n then some (e, d.seq) else b
        | none => some (e, d.seq)) none
  best.map (·.1)

/-- The head of an engine queue leaves it to issue. -/
def takeHead (s : State) (e : Engine) : State :=
  let i := engineIdx e
  match s.ctx.c.queues[i] with
  | [] => s
  | d :: l => s.modC fun c => { c with
      queues := c.queues.set i l, cur := d, issd := c.issd.set i true, issued := c.issued.set i (c.issued[i] + 1), block := none }

/-- Tries the head of an engine queue. -/
def runHead (s : State) (e : Engine) : Out :=
  let t := takeHead s e
  runWords t.ctx.c.cur.w0 t.ctx.c.cur.w1 t

/-- The coupling-queue condition that freezes this C-cycle, if an instruction due to issue meets one (R42). The heads are tried in
program order, on a copy of the state. -/
def freeze : Nat → State → Option (BlockC × Cmd)
  | 0, _ => none
  | fuel + 1, s => match nextHead s.ctx.c with
    | none => none
    | some e => match runHead s e with
      | .next t => match t.ctx.c.block with
        | some b => some (b, t.ctx.c.cur)
        | none => if t.ctx.c.stop.isSome || t.ctx.phase != s.ctx.phase || !t.live
            then freeze fuel (s.modC fun c => { c with tried := c.tried.set (engineIdx e) true })
            else freeze fuel t
      | _ => none

/-- Heads that have yet to be tried at this C-cycle. -/
def headCount (c : CSide) : Nat :=
  ((List.finRange 4).filter fun i => !c.issd[i] && !c.tried[i] && !c.queues[i].isEmpty).length

/-- The freeze of this C-cycle: it comes before anything is dispatched or issued (R42). -/
def frozen (s : State) : Option (BlockC × Cmd) := freeze 4 s

/-- A frozen C-slice, at the instruction that meets the condition: a cut may be complete with it (R235). -/
def freezeAt (s : State) (b : BlockC × Cmd) : Out := .next (settle (s.modC fun c => { c with block := some b.1, cur := b.2 }))

/-- What the front end does at this C-cycle. -/
inductive Dispatch where
  | idle
  | stop (s : State)                 -- a fault, or a held fetch
  | front (s : State) (w0 w1 : Nat)  -- an instruction that the front end itself runs
  | queued (s : State)

/-- The fault of decoding that an instruction meets beyond its words (R102), found by trying it on a copy of the state. -/
def decodeFlt (s : State) (cmd : Cmd) : Option Flt :=
  if s.ctx.sup then none else
  match runWords cmd.w0 cmd.w1 (s.modC fun c => { c with cur := { cmd with w0 := 0 } }) with
  | .next t => t.ctx.c.stop.bind fun x => match x.cause with
    | some .illegal => some { cause := .illegal, sub := x.subcause, info := x.info }
    | some .wrongSlice => some { cause := .wrongSlice }
    | some .privilege => some { cause := .privilege }
    | some .declaration => some { cause := .declaration }
    | _ => none
  | _ => none

/-- Dispatch of at most one instruction in a C-cycle (R43, R118, R249). A fault of decoding stops the slice before it (R102). -/
def dispatchC (s : State) : Dispatch :=
  let c := s.ctx.c
  if c.stopped || c.eret || c.hold || c.dispd then .idle else
  match fetch s c.pc with
  | .flt f => .stop (raise f (s.modC fun c => { c with cur := ⟨c.pc, 0, 0, c.seq⟩ }))
  | .held f va => .stop (if s.ctx.sup then handlerFail s (handledCtx s) else heldC s f va)
  | .ask h va => .stop ((askCode s c.pc h va).modC fun c => { c with block := some .wait })
  | .ok w0 w1 n =>
    let cmd : Cmd := ⟨c.pc, w0, w1, c.seq⟩
    let on := fun c : CSide => { c with pc := c.pc + BitVec.ofNat 64 n, seq := c.seq + 1, dispd := true, block := none }
    match decodeCode w0 w1 with
    | .error _ => .stop (raise { cause := .illegal, sub := 5 } (s.modC fun c => { c with cur := { cmd with w0 := 0 } }))
    | .ok _ => match decodeFlt s cmd with
    | some f => .stop (raise f (s.modC fun c => { c with cur := { cmd with w0 := 0 } }))
    | none => match engineOf w0 with
      | none =>
        if isFwait w0 && headCount c > 0 then .idle
        else .front (s.modC fun c => { on c with cur := cmd }) w0 w1
      | some e =>
        let i := engineIdx e
        if c.queues[i].length ≥ 16 || (c.issd[i] && c.queues[i].length ≥ 15) then .idle
        else .queued (s.modC fun c => { on c with
          queues := c.queues.set i (c.queues[i] ++ [cmd]), disp := c.disp.set i (c.disp[i] + 1)
          hold := isControl w0 || isStopper w0 })

/-- The end of a C-cycle (R42). A start in it may have freed the snapshot place for which the A-slice waits (R149). -/
def endCycle (s : State) : State :=
  ((endEpoch s).modCtx fun x => { x with
    cycle := x.cycle + 1, a := { x.a with block := if x.a.block == some .snapshotPlace then none else x.a.block } }).modC fun c => { c with
    cc := c.cc + 1, long := stepLong c.long, dispd := false, issd := Vector.replicate 4 false, tried := Vector.replicate 4 false, block := none }

/-- The next issue of this C-cycle, or its end. -/
def issueC (s : State) : Out :=
  match nextHead s.ctx.c with
  | none => .next (endCycle s)
  | some e => runHead s e

/-- One step of the C-slice: a landing that is due, or the dispatch and the next issue of the C-cycle, or its end. A cut that waited
for this slice's `done` is complete with it (R235). -/
def stepC (s : State) : Out :=
  if s.live && s.ctx.phase == .cut && cutDone s.ctx then .next (completeCut s)
  else if !runsC s then .next s
  else if s.ctx.c.pend.any fun p => p.due ≤ s.ctx.c.cc then exec .resultLanding s
  else match frozen s with
    | some b => freezeAt s b
    | none => match dispatchC s with
      | .stop t => .next t
      | .front t w0 w1 => runWords w0 w1 t
      | .idle => issueC s
      | .queued t => match frozen t with
        | some b => freezeAt t b
        | none => issueC t

/-! Turns. -/

/-- One turn of the machine (log 1). -/
def runTurn (s : State) : Turn → Out
  | .slice .a => stepA { s with slice := .a }
  | .slice .c => stepC { s with slice := .c }
  | .event i inp => if i.hasEncoding then .next s else exec i { s with input := inp }
  | .focus uid => .next (focusOn s uid)

/-! Rounds: what the engines may do next of themselves (log 1). -/

/-- Events of the context that moves, each with the condition under which it has something to do. -/
def contextEvents (s : State) : List (Bool × Instr) :=
  let x := s.ctx
  let run := s.live && x.phase == .running
  [ (s.live && x.q.toC.any fun e => !e.ready && !e.poison, .loadDataArrival),
    (s.live && x.m.slots.toList.any fun c => c.state == .active, .chunkLanding),
    (s.live && x.m.slots.toList.any fun c => c.chain && c.state == .active, .chainWaitRelease),
    (run && decoupleStuck x, .decoupleDeadlock),
    (run && x.a.stopped && x.c.stopped && !x.sup, .taskRetirement),
    (s.live && x.phase == .stopped, .handlerEntry) ]

/-- Events of the dispatcher, the cores and the gangs. -/
def taskEvents (s : State) : List (Bool × Instr) :=
  let some? := fun (t : TState) => s.tasks.any fun k => k.state == t
  [ (s.cores.any fun c => c.switchTo.isSome || (c.shadow.isSome && (comesBack s c || pairSwitch s c)), .switchComplete),
    (s.cores.any fun c => c.leaving.isSome || !shadowOk s c, .spillComplete),
    (s.gangs.any Gang.allAtBar, .dbarCommit),
    (s.gangs.any Gang.atEnd, .finalCommit),
    (some? .waiting || (s.tasks.any fun k => k.state == .suspended && k.saved) || s.gangs.any fun g => g.state == .suspended, .taskReady),
    (some? .ready || s.cores.any (refillDue s), .taskDispatch),
    (some? .ready, .taskSteal),
    (s.cores.any (outranked s), .priorityPreemption),
    (s.gangs.any (gangYields s), .gangPreemption),
    (s.tasks.any fun k => (s.context? k.uid).any fun x => x.m.spawnHeld, .spawnOverflowResume),
    (s.gangs.any fun g => g.state == .queued, .gangReserving),
    (s.gangs.any fun g => g.state == .reserving, .gangRunning) ]

def packetEvent : Nat → Instr
  | 0 => .nopPacket | 1 => .launch | 2 => .waitv | 3 => .signal | 4 => .copyPacket | 5 => .tileput
  | 6 => .map | 7 => .fencePacket | 8 => .dormantPacket | 9 => .reheatPacket | _ => .retry

/-- Events of the queues, and of the packets that are not complete. -/
def queueEvents (s : State) : List (Bool × Instr) :=
  let open? := fun (ty : Nat) => s.queues.any fun x => x.journal.any fun e => e.ptype == ty && !e.complete && !(ty == 1 && e.begun)
  [ (s.queues.any fun x => x.state == .pending, .slotGrant),
    (s.queues.any fun x => x.state == .pending, .queueDisplacement),
    (s.queues.any (fetches s), .packetFetch) ] ++
  (List.range 11).map (fun ty => (open? ty, packetEvent ty)) ++
  [ (s.queues.any fun x => x.journal.any fun e => e.stop > x.progress || !e.complete, .progressAdvance),
    (s.queues.any fun x => x.state == .unmapping, .unmappingComplete) ]

/-- Events of the VDs, of the memory and of the fabric. -/
def unitEvents (s : State) : List (Bool × Instr) :=
  [ (s.parts.any fun p => p.vdmOps.head?.any fun o => o.1, .vdmCreate),
    (s.parts.any fun p => p.vdmOps.head?.any fun o => !o.1, .vdmDestroy),
    (s.parts.any fun p => !p.xinv.isEmpty, .xinvComplete),
    (!s.durPend.isEmpty, .writeAccepted),
    (s.vds.any (stageDue s), .stagingReadComplete),
    (s.recs.any (fun r => r.lost || r.freed) && s.recs.any fun r => walkDue s (tileVd r.name) r.name, .regatherWalk),
    (s.recs.any fun r => (r.anchor && r.apend && r.lstep ≠ 3) || ((r.prim || r.second) && !(r.prim && r.second)), .lehrReplicaComplete),
    (s.pairs.any fun m => (pairTile s m).isSome, .tileDigestExchange),
    (exchangeDue s, .commitDigestExchange),
    (s.vds.any fun v => v.dorm == .collapsing, .collapseComplete),
    (s.vds.any fun v => v.dorm == .reheating, .reheatComplete),
    (!s.asked.isEmpty, .peer) ] ++
  [(0, Instr.regwr), (1, .regrd), (3, .memwr), (4, .memrd)].map fun x => (s.hostQ.any fun w => w.frame.ftype == x.1, x.2)

/-- Loads of contexts that do not move now, whose data is still to arrive (R235). -/
def farLoads (s : State) : List Turn :=
  (s.parked.filter fun x => x.phase != .handled && x.phase != .saved && loadsWait x).map fun x => .event .loadDataArrival (.task x.uid)

/-- Another context in a bank that can move. -/
def nextFocus (s : State) : List Turn :=
  match (s.parked.filter fun c => c.phase == .running || c.phase == .cut || c.phase == .stopped).getLast? with
  | some c => [.focus c.uid]
  | none => []

/-- The turns of a machine whose agenda is empty (log 1): the slices of the context that moves, a FLAG_DEADLOCK found before its C-cycle
ends, then what the engines may do. -/
def nextRound (s : State) : List Turn :=
  let due := contextEvents s ++ taskEvents s ++ queueEvents s ++ unitEvents s
  [.slice .a] ++ (if flagStuck s then [.event .flagDeadlock .none] else []) ++ [.slice .c] ++ (due.filter (·.1)).map (fun e => .event e.2 .none) ++ farLoads s ++ nextFocus s

end Sys2Proof.Machine
end

