-- ==== Sys2Proof/Machine/Step.lean ====
section
/-!
DEFINITION. One step of the machine: its next turn (log 1); and the placing of one instruction where the next step fetches it.
-/

namespace Sys2Proof.Machine

/-- One step: the next turn of the agenda, or a new round where it is empty. -/
def step (s : State) : Host.Outcome State Fault Refusal :=
  match s.agenda with
  | [] => .next { s with agenda := nextRound s }
  | t :: l => runTurn { s with agenda := l } t

/-- A context with everything declared, at the start of its two stream sections. -/
def fetchContext : Context :=
  { Context.reset with
    uid := 1, decl := ⟨32, 32, 48, 64, 256, 8, 16, 16, 64, 6291456⟩, code := ⟨0x200000, 0x100, 0x1000, 0x2000, 0x1000⟩
    phase := .running, a := { ASide.reset with pc := 0x200100 }, c := { CSide.reset with pc := 0x202000 } }

/-- Tables that map the first GiB of addresses to themselves: two of stage 2, three of stage 1 (R280 to R282). -/
def fetchTables (m : Memory) : Memory :=
  let table := fun (dst : Nat) => leBytes 8 (dst + 3)
  let leaf := leBytes 8 (1 + 8 * 4 + 2 ^ 9 + 2 ^ 10)
  let m := memSetN m 0x100000 (table 0x101000)
  let m := memSetN m 0x101000 leaf
  let m := memSetN m 0x102000 (table 0x103000)
  let m := memSetN m 0x103000 (table 0x104000)
  memSetN m 0x104000 leaf

/-- The slice that runs an instruction by its first word: the C-slice for the vector, matrix, row and flag groups, scalar spills, the
queue operations on its side, and scalar instructions with a predicate prefix; else the A-slice (R79, R83, R85). -/
def fetchSlice (w0 : Nat) : Slice :=
  let m := major w0
  let op := w0 / 2 ^ 12 % 16
  let imm := w0 % 2 ^ 12
  if m == 0x13 || (0x30 ≤ m && m ≤ 0x3A) then .c
  else if m == 0 && ((op == 8 && imm == 1) || (op == 9 && imm == 0) || ((op == 6 || op == 7) && imm == 3)) then .c
  else if m == 1 && w0 % 32 != 0 then .c
  else if 2 ≤ m && m ≤ 0xD && w0 / 2 ^ 11 % 32 != 0 then .c
  else .a

/-- `s` with an instruction stored where its next step fetches: a running context of VD 0 whose code lies at 0x200100 (A) and
0x202000 (C), mapped to itself, in full service, and the turn of the slice that runs the instruction (log 1). -/
def State.withFetchWord (s : State) (nbits w : Nat) : State :=
  let v := w % 2 ^ nbits
  let bytes := wordBytes v ++ wordBytes (v / 2 ^ 32)
  let x := fetchSlice (v % 2 ^ 32)
  { s with
    ctx := fetchContext, slice := x, live := true
    mem := memSetN (fetchTables s.mem) (if x = .a then 0x200100 else 0x202000) bytes
    pkg := { s.pkg with phase := .full }
    parts := { Partition.new 0 with fence := { Fence.none with pch := BitVec.allOnes 768, s2root := 0x100000 } } :: s.parts
    vds := { Vd.new 0 0 with s1root := 0x102000 } :: s.vds
    agenda := [.slice x] }

end Sys2Proof.Machine
end

