-- ==== Sys2Proof/Safety.lean ====
section
/-!
DEFINITION. What the claims are stated in terms of: results as the tables of spec/ give them, on numbers instead of on the model's own
functions; the states after an instruction that changes one thing; frames; and the invariant of every step.
-/

namespace Sys2Proof.Machine

/-! Operands. -/

/-- Every item that an instruction names is declared (R25). -/
def Declared (s : State) (items : List Item) : Bool := items.all (s.ctx.decl.has s.slice)

/-- A C-slice instruction that is no branch, jump, call or loop is the one that issues. -/
def PlainIssue (s : State) : Bool := s.slice == .c && !isControl s.ctx.c.cur.w0

/-! Scalar results as numbers (R119, R121, R122). -/

/-- 1 for a condition that holds (R119). -/
def flagWord (b : Bool) : Word := if b then 1 else 0

/-- Leading zeros, trailing zeros and ones of 64 bits (R119). -/
def leadingZeros (a : Word) : Nat := ((List.range 64).find? fun i => a.getLsbD (63 - i)).getD 64
def trailingZeros (a : Word) : Nat := ((List.range 64).find? fun i => a.getLsbD i).getD 64
def oneBits (a : Word) : Nat := ((List.range 64).filter fun i => a.getLsbD i).length

/-- Rotations by a count below 64 (R119). -/
def rotatedLeft (a : Word) (sh : Nat) : Word := BitVec.ofNat 64 (a.toNat * 2 ^ sh + a.toNat / 2 ^ (64 - sh))
def rotatedRight (a : Word) (sh : Nat) : Word := BitVec.ofNat 64 (a.toNat / 2 ^ sh + a.toNat * 2 ^ (64 - sh))

/-- Bits [pos + width - 1 : pos] of a word (R122). -/
def fieldBits (a : Word) (pos width : Nat) : Nat := a.toNat / 2 ^ pos % 2 ^ width

/-- The three results of a bit-field instruction from the old destination and the source (R122). -/
def bfxVal (_ a : Word) (pos width : Nat) : Word := BitVec.ofNat 64 (fieldBits a pos width)
def bfxsVal (_ a : Word) (pos width : Nat) : Word :=
  if a.getLsbD (pos + width - 1) then BitVec.ofInt 64 ((fieldBits a pos width : Int) - 2 ^ width) else BitVec.ofNat 64 (fieldBits a pos width)
def bfiVal (old a : Word) (pos width : Nat) : Word :=
  BitVec.ofNat 64 (old.toNat % 2 ^ pos + a.toNat % 2 ^ width * 2 ^ pos + old.toNat / 2 ^ (pos + width) * 2 ^ (pos + width))

/-! States after an instruction that changes one thing. -/

/-- An a register written: a0 discards the value (R23, R115). -/
def aSet (s : State) (gd : Reg) (v : Word) : State :=
  { s with ctx := { s.ctx with a := { s.ctx.a with
      regs := if gd = 0 then s.ctx.a.regs else s.ctx.a.regs.set gd v
      fromYq := if gd = 0 then s.ctx.a.fromYq else s.ctx.a.fromYq.set gd false } } }

/-- The A-slice's instruction is over, and it goes on at an address. -/
def aGoes (s : State) (pc : Word) : State :=
  { s with ctx := { s.ctx with a := { s.ctx.a with pc := pc, block := none, order := s.ctx.a.order + 1 } } }

/-- After an A-slice instruction of `len` bytes. -/
def aNext (s : State) (len : Nat) : State := aGoes s (s.ctx.a.pc + BitVec.ofNat 64 len)

/-- After an A-slice instruction of `len` bytes that writes one register. -/
def aAfter (s : State) (gd : Reg) (v : Word) (len : Nat) : State := aNext (aSet s gd v) len

/-- Results that land `lat` C-cycles after the issue (R43), with a set flag. -/
def cPend (s : State) (lat : Nat) (effs : List Effect) (sf : Fin 16 := 0) (vflg : BitVec 5 := 0) : State :=
  { s with ctx := { s.ctx with c := { s.ctx.c with
      pend := insPending ⟨s.ctx.c.cc + lat, s.ctx.c.cur.seq, effs, sf, vflg⟩ s.ctx.c.pend } } }

/-- After a C-slice instruction without a result: it has issued, and the front end is ahead of it. -/
def cIdle (s : State) : State := { s with ctx := { s.ctx with c := { s.ctx.c with block := none } } }

/-- After a C-slice instruction whose results land `lat` C-cycles later. -/
def cAfter (s : State) (lat : Nat) (effs : List Effect) : State := cIdle (cPend s lat effs)

/-- After a C-slice branch, jump, call or loop: the front end goes on at an address (R118). -/
def cGoes (s : State) (pc : Word) : State :=
  { s with ctx := { s.ctx with c := { s.ctx.c with pc := pc, block := none, hold := false, dispd := true } } }

/-- LODCNT has grown by the core cycles that a branch waited for yq (R35). -/
def waitedFor (s : State) (w : Word) : State := { s with ctx := { s.ctx with lodcnt := s.ctx.lodcnt + w }, fresh := s.fresh + 1 }

/-- The A-slice is blocked: nothing else changes (R19). -/
def aBlocked (s : State) (b : BlockA) : State := { s with ctx := { s.ctx with a := { s.ctx.a with block := some b } } }

/-- What a scalar instruction `i` with a prefix does: at once in the A-slice, where it has no prefix; after `lat` C-cycles in the C-slice,
where its predicate's bit 0, after negation, is one; nothing but its end where that bit is zero (R116, R117). -/
def ScalarGives (s : State) (i : Instr) (q : Pq) (gd : Reg) (lat len : Nat) (v : Word) : Prop :=
  (s.slice = .a → q = ⟨false, 0⟩ → exec i s = .next (aAfter s gd v len)) ∧
  (PlainIssue s = true → (pRead s (pqPred q)).getLsbD 0 = !q.pn → exec i s = .next (cAfter s lat [.cReg gd v])) ∧
  (PlainIssue s = true → (pRead s (pqPred q)).getLsbD 0 = q.pn → exec i s = .next (cIdle s))

/-- A register form: its result from the old destination and the two sources. -/
def SrrGives (mk : Reg → Reg → Reg → Pq → Instr) (lat : Nat) (val : Word → Word → Word → Word) : Prop :=
  ∀ (s : State) (d a b : Reg) (q : Pq), Declared s [.p (pqPred q), .g d, .g a, .g b] = true →
    ScalarGives s (mk d a b q) q d lat 4 (val (gRead s d) (gRead s a) (gRead s b))

/-- A register form of one source. -/
def SrGives (mk : Reg → Reg → Pq → Instr) (lat : Nat) (val : Word → Word) : Prop :=
  ∀ (s : State) (d a : Reg) (q : Pq), Declared s [.p (pqPred q), .g d, .g a] = true →
    ScalarGives s (mk d a q) q d lat 4 (val (gRead s a))

/-- An immediate form of one word and of two, with the immediate as an integer. -/
def SriGives (mk : Reg → Reg → Pq → BitVec 10 → Instr) (mkX : Reg → Reg → Pq → BitVec 32 → Instr) (lat : Nat) (ok : Int → Prop)
    (val : Word → Int → Word) : Prop :=
  ∀ (s : State) (d a : Reg) (q : Pq), Declared s [.p (pqPred q), .g d, .g a] = true →
    (∀ imm : BitVec 10, ok imm.toInt → ScalarGives s (mk d a q imm) q d lat 4 (val (gRead s a) imm.toInt)) ∧
    (∀ imm : BitVec 32, ok imm.toInt → ScalarGives s (mkX d a q imm) q d lat 8 (val (gRead s a) imm.toInt))

/-- ldi and ldhi, which name no source but the old destination. -/
def LdiGives (mk : Reg → Pq → BitVec 10 → Instr) (mkX : Reg → Pq → BitVec 32 → Instr) (val : Word → Int → Word) : Prop :=
  ∀ (s : State) (d : Reg) (q : Pq), Declared s [.p (pqPred q), .g d] = true →
    (∀ imm : BitVec 10, ScalarGives s (mk d q imm) q d 1 4 (val (gRead s d) imm.toInt)) ∧
    (∀ imm : BitVec 32, ScalarGives s (mkX d q imm) q d 1 8 (val (gRead s d) imm.toInt))

/-- A bit-field form, whose field ends within the word. -/
def SbfGives (mk : Reg → Reg → Fin 64 → Fin 64 → Instr) (val : Word → Word → Nat → Nat → Word) : Prop :=
  ∀ (s : State) (d a : Reg) (pos wm1 : Fin 64), Declared s [.p 0, .g d, .g a] = true → pos.val + wm1.val + 1 ≤ 64 →
    ScalarGives s (mk d a pos wm1) ⟨false, 0⟩ d 1 4 (val (gRead s d) (gRead s a) pos.val (wm1.val + 1))

/-! Control transfer (R118, R123 to R125). -/

/-- A control instruction is the one that issues. -/
def ControlIssue (s : State) : Bool := s.slice == .c && isControl s.ctx.c.cur.w0

/-- An address some words from the instruction that runs. -/
def wordsOn (s : State) (n : Int) : Word := instrPc s + BitVec.ofInt 64 (4 * n)

/-- A control instruction that goes on at an address: in the A-slice, where its registers `regs` are tested, and the C-slice. `f` and `g`
are what it writes first. -/
def GoesTo (s : State) (i : Instr) (regs : List Reg) (pc : Word) (f : State → State := id) (g : State → State := id) : Prop :=
  (s.slice = .a → regs.all (fun r => !s.ctx.a.fromYq[r]) = true → exec i s = .next (aGoes (f s) pc)) ∧
  (s.slice = .a → regs.any (fun r => s.ctx.a.fromYq[r]) = true → ∃ w, exec i s = .next (aGoes (f (waitedFor s w)) pc)) ∧
  (ControlIssue s = true → exec i s = .next (cGoes (g s) pc))

/-- A conditional branch of one word and of two. -/
def BranchGives (mk : Reg → Reg → BitVec 12 → Instr) (mkX : Reg → Reg → BitVec 32 → Instr) (taken : Word → Word → Bool) : Prop :=
  ∀ (s : State) (ga gb : Reg), Declared s [.g ga, .g gb] = true →
    (∀ off : BitVec 12, GoesTo s (mk ga gb off) [ga, gb] (wordsOn s (if taken (gRead s ga) (gRead s gb) then off.toInt else 1))) ∧
    (∀ off : BitVec 32, GoesTo s (mkX ga gb off) [ga, gb] (wordsOn s (if taken (gRead s ga) (gRead s gb) then off.toInt else 2)))

/-! Levels, system registers and traps. -/

/-- An instruction that writes one scalar register, in either slice. -/
def WritesG (s : State) (i : Instr) (gd : Reg) (v : Word) : Prop :=
  (s.slice = .a → exec i s = .next (aAfter s gd v 4)) ∧
  (PlainIssue s = true → exec i s = .next (cAfter s 1 [.cReg gd v]))

/-- A system register that both levels, or the supervisor level alone, read in one slice, or in both, with its value (R36). -/
def SysReads (num : BitVec 12) (x : Option Slice) (sup : Bool) (val : State → Word) : Prop :=
  ∀ (s : State) (gd : Reg), Declared s [.g gd] = true → (x = none ∨ x = some s.slice) → (sup = true → s.ctx.sup = true) →
    WritesG s (.sysrd gd num) gd (val s)

/-- The exception that an instruction takes, with nothing else changed by it: the cut of R235 with its cause (Machine/Ops.lean). -/
def Takes (s : State) (i : Instr) (f : Flt) : Prop := exec i s = .next (raise f s)

/-- The C-slice has not stopped, and nothing that it waits for lets the cut end (R235). -/
def CutOpen (s : State) : Bool :=
  s.ctx.c.stop.isNone && !s.ctx.c.stopped && match s.ctx.c.block with
    | some b => !blockEnds s.ctx b
    | none => true

/-- The A-slice of a task at user level runs, and a fault of it leaves the C-slice going to its own stop. -/
def AFaults (s : State) : Bool := s.slice == .a && !s.ctx.sup && s.ctx.phase == .running && CutOpen s

/-- The A-slice has stopped with a cause at its instruction; nothing else has changed (R235, R238). -/
def aStopped (s : State) (f : Flt) : State :=
  { s with ctx := { s.ctx with phase := .cut, a := { s.ctx.a with
      stop := some ⟨some f.cause, f.sub, f.info, f.faddr, f.fetch, f.write, s.ctx.a.pc, f.xtnt⟩, block := none } } }

/-- The C-slice of a task at user level runs, and the A-slice, which stops with it, has not stopped. -/
def CFaults (s : State) : Bool := s.slice == .c && !s.ctx.sup && s.ctx.phase == .running && s.ctx.a.stop.isNone

/-- An instruction of each slice ends that slice (R129). -/
def aDone (s : State) : State :=
  { s with ctx := { s.ctx with a := { s.ctx.a with pc := s.ctx.a.pc + 4, block := none, order := s.ctx.a.order + 1, stopped := true } } }
def cDone (s : State) : State := { s with ctx := { s.ctx with c := { s.ctx.c with block := none, stopped := true } } }

/-- No C-slice instruction dispatched before the one that runs has yet to issue (R129). -/
def EarlierIssued (s : State) : Bool := s.ctx.c.queues.toList.all fun l => l.all fun d => s.ctx.c.cur.seq ≤ d.seq

/-! Coupling queues (R31 to R34). -/

/-- Of a task that runs an A-slice instruction to its end, only these parts have changed: the A-slice's registers and its place; its own memory state and
the coupling queues; memory, with the durable stores that await acceptance; and a wait of the C-slice may be tried again. -/
def OnlyMoved (s t : State) : Prop :=
  t = { s with
    mem := t.mem, errs := t.errs, durPend := t.durPend
    ctx := { s.ctx with
      m := t.ctx.m, q := t.ctx.q, c := { s.ctx.c with block := t.ctx.c.block }
      a := { s.ctx.a with regs := t.ctx.a.regs, fromYq := t.ctx.a.fromYq, pc := t.ctx.a.pc, order := t.ctx.a.order, block := none } } }

/-- Only the coupling queue of a number has been popped (R30): no push, and no other pop. -/
def OnlyPopped (n : Fin 8) (q r : Couple) : Prop :=
  r.push = q.push ∧ r.nPushA = q.nPushA ∧ r.nPushC = q.nPushC ∧ r.pop[n] = q.pop[n] + 1 ∧ ∀ i : Fin 8, i ≠ n → r.pop[i] = q.pop[i]


/-- A push to an A-to-C queue does not block: its queue is not full, and the slip is below its limit (R31, R32). -/
def PushReady (s : State) (q : Fin 5) : Bool :=
  (s.ctx.q.toC.filter fun e => e.queue == q).length < (if q = 4 then 32 else 16) && s.ctx.q.toC.length < s.ctx.decl.slipl

/-- An entry pushed to an A-to-C queue: it is the youngest, its queue's push number grows by one, and the C-slice tries again. -/
def pushedToC (s : State) (q : Fin 5) (data : Vec) (poison ready : Bool) : State :=
  let i : Fin 8 := if q = 4 then 6 else ⟨q.val, by omega⟩
  { s with ctx := { s.ctx with
      c := wakenC s.ctx.c
      q := { s.ctx.q with
        toC := s.ctx.q.toC ++ [⟨q, data, s.ctx.q.nPushA + 1, poison, ready⟩]
        push := s.ctx.q.push.set i (s.ctx.q.push[i] + 1)
        nPushA := s.ctx.q.nPushA + 1 } } }

/-! Memory (R135 to R144). -/

/-- The effective address of an AMEM instruction (R135). -/
def addressOf (s : State) (ga : Reg) (off : Int) : Word := gRead s ga + BitVec.ofInt 64 off

/-- Bytes as a number, least significant first (R6). -/
def littleEndian : List Byte → Nat
  | [] => 0
  | b :: bs => b.toNat + 256 * littleEndian bs

/-- A number of `n` bytes, sign- or zero-extended to a word (R141). -/
def extendTo64 (signed : Bool) (n v : Nat) : Word :=
  let w := v % 2 ^ (8 * n)
  if !signed then BitVec.ofNat 64 v else if 2 ^ (8 * n - 1) ≤ w then BitVec.ofInt 64 ((w : Int) - 2 ^ (8 * n)) else BitVec.ofNat 64 w

/-- Nothing that the task has asked of other homes waits for its use, and no page of some ranges is bound to a word of another home that is still
to be asked (log 54). -/
def AllHere (s : State) (ps : List (Place × Nat)) (rs : List (Nat × Nat)) : Prop := s.ctx.m.answers = [] ∧ objectToAsk s (.ok ps) rs = none

/-- A load of `n` bytes of this package's memory passes every check of R234 and R435 at some places, none in a lost tile version. -/
def Reads (s : State) (k : AKind) (addr : Word) (align n : Nat) (ps : List (Place × Nat)) : Prop :=
  AllHere s ps (pieces addr.toNat n) ∧ checkAccess s k addr align (pieces addr.toNat n) = .ok ps ∧ lostPlace s ps = none

/-- A store of bytes to ranges of this package's memory passes every check of R234, R273 and R435 at some places. -/
def Writes (s : State) (k : AKind) (addr : Word) (align : Nat) (rs : List (Nat × Nat)) (ps : List (Place × Nat)) (bs : List (Byte × Bool)) : Prop :=
  AllHere s ps rs ∧ checkAccess s k addr align rs = .ok ps ∧ logFlt s ps bs = false

/-- Whether a read of places taints the task (R138). -/
def tainted (s : State) (ps : List (Place × Nat)) : State :=
  { s with ctx := { s.ctx with m := { s.ctx.m with
      taint := s.ctx.m.taint || ps.any fun p => p.1.mt == .shrd || p.1.mt == .sync } } }

/-- A scalar load of `n` bytes in one word and in two (R141): gd takes the bytes at the places of its address; memory does not change. -/
def LoadGives (mk : Reg → Reg → BitVec 12 → Instr) (mkX : Reg → Reg → BitVec 32 → Instr) (k : AKind) (n : Nat) (signed : Bool) : Prop :=
  ∀ (s : State) (gd ga : Reg) (ps : List (Place × Nat)), s.slice = .a → Declared s [.g gd, .g ga] = true →
    let v := extendTo64 signed n (littleEndian (readPlaces s ps))
    let ok := fun (addr : Word) => Reads s k addr n n ps ∧ devPlace s addr n k = none
    (∀ off : BitVec 12, ok (addressOf s ga off.toInt) → exec (mk gd ga off) s = .next (aAfter (tainted s ps) gd v 4)) ∧
    (∀ off : BitVec 32, ok (addressOf s ga off.toInt) → exec (mkX gd ga off) s = .next (aAfter (tainted s ps) gd v 8))

/-- The low bytes of a word, each to be written. -/
def lowBytes (n : Nat) (v : Word) : List (Byte × Bool) := (List.range n).map fun i => (v.extractLsb' (8 * i) 8, true)

/-- A scalar store of `n` bytes in one word and in two (R141): the bytes go to the places of its address. -/
def StoreGives (mk : Reg → Reg → BitVec 12 → Instr) (mkX : Reg → Reg → BitVec 32 → Instr) (k : AKind) (n : Nat) : Prop :=
  ∀ (s : State) (gb ga : Reg) (ps : List (Place × Nat)), s.slice = .a → Declared s [.g gb, .g ga] = true →
    let bs := lowBytes n (gRead s gb)
    let ok := fun (addr : Word) => Writes s k addr n [(addr.toNat, n)] ps bs ∧ devPlace s addr n k = none
    (∀ off : BitVec 12, ok (addressOf s ga off.toInt) → exec (mk gb ga off) s = .next (aNext (storePlaces s s.ctx.a.order 0 ps bs) 4)) ∧
    (∀ off : BitVec 32, ok (addressOf s ga off.toInt) → exec (mkX gb ga off) s = .next (aNext (storePlaces s s.ctx.a.order 0 ps bs) 8))

/-- A load into an A-to-C queue (R142): an entry with the bytes is reserved, and becomes poppable when its data arrives. -/
def QueueLoadGives (mk : Reg → BitVec 12 → Instr) (mkX : Reg → BitVec 32 → Instr) (q : Fin 5) (align n : Nat) : Prop :=
  ∀ (s : State) (ga : Reg), s.slice = .a → Declared s [.g ga] = true →
    (PushReady s q = true → ∀ (ps : List (Place × Nat)) (len : Nat) (i : Instr) (off : Int),
      ((∃ o : BitVec 12, i = mk ga o ∧ off = o.toInt ∧ len = 4) ∨ ∃ o : BitVec 32, i = mkX ga o ∧ off = o.toInt ∧ len = 8) →
      Reads s .load (addressOf s ga off) align n ps →
      exec i s = .next (aNext (pushedToC (tainted s ps) q (BitVec.ofNat 4096 (littleEndian (readPlaces s ps))) false false) len)) ∧
    (PushReady s q = false → ∀ i, ((∃ o : BitVec 12, i = mk ga o) ∨ ∃ o : BitVec 32, i = mkX ga o) →
      exec i s = .next (aBlocked s (if (s.ctx.q.toC.filter fun e => e.queue == q).length < (if q = 4 then 32 else 16) then .slipLimit else .pushFull q))) ∧
    (PushReady s q = true → s.ctx.m.answers = [] → ∀ (c : Cause) (va : Nat) (i : Instr) (off : Int),
      ((∃ o : BitVec 12, i = mk ga o ∧ off = o.toInt) ∨ ∃ o : BitVec 32, i = mkX ga o ∧ off = o.toInt) →
      checkAccess s .load (addressOf s ga off) align (pieces (addressOf s ga off).toNat n) = .flt c va →
      exec i s = .next (raise { cause := c, faddr := BitVec.ofNat 64 va } (pushedToC s q 0 true false)))

/-- The place of a log entry in the program. -/
def entryOrder : LogEntry → Nat
  | .store o .. | .update o .. => o

/-- A memory whose bytes at `n` addresses from one have been replaced, as its reads show it. -/
def StoredAt (before after : Memory) (pa : Nat) (bs : List Byte) : Prop :=
  ∀ a, memGet after a = if pa ≤ a ∧ a < pa + bs.length then (bs[a - pa]?).getD 0 else memGet before a

/-! Atomics, copies and sync objects. -/

/-- A value of `w` bits read as signed. -/
def asSigned (w v : Nat) : Int := if 2 ^ (w - 1) ≤ v then (v : Int) - 2 ^ w else v

/-- The width of an atomic's type (R163). -/
def atomicBits : AmoType → Nat
  | .i32 | .n32 | .f32 => 32
  | .i64 | .n64 => 64

/-- The new value of an atomic update (R163): old, operand and comparand, each a value of the type's width. FP32 follows the rounding
and the minimum and maximum of the arithmetic chapter. -/
def atomicNew (op : AmoOp) (ty : AmoType) (old b cmp : Nat) : Nat :=
  let w := atomicBits ty
  let less := fun (x y : Nat) => if ty = .i32 ∨ ty = .i64 then decide (asSigned w x < asSigned w y) else decide (x < y)
  match op with
  | .add => if ty = .f32 then (fAdd fp32 rne old b).1 else (old + b) % 2 ^ w
  | .min => if ty = .f32 then (fMinMax fp32 false old b).1 else if less old b then old else b
  | .max => if ty = .f32 then (fMinMax fp32 true old b).1 else if less old b then b else old
  | .or => old ||| b
  | .and => old &&& b
  | .xor => old ^^^ b
  | .swap => b
  | .cas => if old = cmp then b else old

/-- A word as an operand of a type. -/
def asOperand (ty : AmoType) (v : Word) : Nat := v.toNat % 2 ^ atomicBits ty

/-- An atomic at one place of SYNC memory (R163, R164): memory takes the new value at once, gd the old one, extended; a result that the
program uses taints the task. In a determinism-mode task, a used result is a DET_VIOLATION. -/
def AmoGives (mk : Reg → Reg → Reg → AmoType → Instr) (op : AmoOp) : Prop :=
  ∀ (s : State) (gd ga gb : Reg) (ty : AmoType) (p : Place) (k : Nat), s.slice = .a → Declared s [.g gd, .g ga, .g gb] = true →
    let used := gd ≠ 0 ∨ op = .cas
    let n := atomicBits ty / 8
    (s.ctx.det = true → used → Takes s (mk gd ga gb ty) { cause := .detViolation, sub := 1 }) ∧
    ((s.ctx.det = true → ¬used) → s.ctx.rebuild = true → gd = 0 → checkAccess s .amo (gRead s ga) n [((gRead s ga).toNat, n)] = .ok [(p, k)] →
      exec (mk gd ga gb ty) s = .next (aNext { s with ctx := { s.ctx with m := { s.ctx.m with taint := s.ctx.m.taint || decide used } } } 4)) ∧
    ((s.ctx.det = true → ¬used) → (s.ctx.rebuild = true → gd ≠ 0) →
      checkAccess s .amo (gRead s ga) n [((gRead s ga).toNat, n)] = .ok [(p, k)] →
      let old := littleEndian (memGetN s.mem p.pa n)
      ∃ t, exec (mk gd ga gb ty) s = .next t ∧
        t.mem = memSetCells s.mem (cellsAt p.pa ((lowBytes n (BitVec.ofNat 64 (atomicNew op ty old (asOperand ty (gRead s gb)) (asOperand ty (gRead s gd))))).map Prod.fst)) ∧
        t.ctx.a.regs = (if gd = 0 then s.ctx.a.regs else s.ctx.a.regs.set gd (extendTo64 (decide (ty = .i32)) n old)) ∧
        t.ctx.a.pc = s.ctx.a.pc + 4 ∧ t.ctx.a.order = s.ctx.a.order + 1 ∧ OnlyMoved s t ∧
        t.ctx.m = { s.ctx.m with taint := s.ctx.m.taint || decide used, past := t.ctx.m.past } ∧ t.ctx.c = s.ctx.c ∧ t.ctx.q = s.ctx.q)

/-- A deferred update (R165, R270): it stands in the task's commit log at the place of its instruction, and memory does not change. -/
def DamoGives (mk : Reg → Reg → AmoType → Instr) (op : AmoOp) : Prop :=
  ∀ (s : State) (ga gb : Reg) (ty : AmoType) (p : Place) (k : Nat), s.slice = .a → Declared s [.g ga, .g gb] = true →
    checkAccess s .damo (gRead s ga) (atomicBits ty / 8) [((gRead s ga).toNat, atomicBits ty / 8)] = .ok [(p, k)] →
    (logStuck s = true → s.ctx.m.answers = [] → Takes s (mk ga gb ty) { cause := .pageFault, faddr := gRead s ga, write := true }) ∧
    (logStuck s = false → ∃ log, log.length = s.ctx.m.log.length + 1 ∧ .update s.ctx.a.order p.pa op ty (gRead s gb) ∈ log ∧ (∀ e ∈ s.ctx.m.log, e ∈ log) ∧
      exec (mk ga gb ty) s = .next (aNext { s with ctx := { s.ctx with m := { s.ctx.m with log := log } } } 4))

/-- The overlap checker has a place for a copy and finds no conflict (R229, R230); it is off where the determinism bit is zero. -/
def CheckerFree (s : State) (slot : Fin 48) (exts : List Extent) : Bool := !recordsFull s && (checkCopy s slot exts).isNone

/-- A copy of a kind (R151, R152): its slot becomes active with its operands; while the slot is in use the A-slice blocks; a gather list that is
not 16-byte aligned raises MISALIGNED (R136); an extent outside its range raises COPY_INVALID with the slot's number. -/
def CopyGives (mk : CpyOps → Instr) (k : Fin 8) : Prop :=
  ∀ (s : State) (o : CpyOps), s.slice = .a → Declared s [.g o.gd, .g o.ga, .g o.gb, .bar o.b] = true →
    let gd := gRead s o.gd
    let ga := gRead s o.ga
    let gb := gRead s o.gb
    (s.ctx.m.slots[o.slot].state ≠ .free → exec (mk o) s = .next (aBlocked s .ownCopies)) ∧
    (s.ctx.m.slots[o.slot].state = .free → rangesFlt s (issueRanges k gd ga gb) = none → k = 4 → ga.toNat % 16 ≠ 0 →
      Takes s (mk o) { cause := .misaligned, faddr := ga }) ∧
    (s.ctx.m.slots[o.slot].state = .free → rangesFlt s (issueRanges k gd ga gb) = none → (k = 4 → ga.toNat % 16 = 0) →
      (copyOk s.ctx.decl.spad k gd ga gb = true → CheckerFree s o.slot (copyExtents s.ctx.decl.spad k gd ga gb) = true →
        ∃ recs, (s.ctx.det = false → recs = s.ctx.m.copyRecs) ∧
          exec (mk o) s = .next (aNext { s with ctx := { s.ctx with m := { s.ctx.m with
            copyRecs := recs
            slots := s.ctx.m.slots.set o.slot { Slot.free with
              state := .active, kind := k, gd := gd, ga := ga, gb := gb, b := o.b, order := s.ctx.a.order, epoch := s.ctx.m.epoch
              phase := s.ctx.m.phase, binds := s.ctx.m.bindings } } } } 8)) ∧
      (copyOk s.ctx.decl.spad k gd ga gb = false → Takes s (mk o) { cause := .copyInvalid, info := BitVec.ofNat 64 o.slot.val }))

/-- No copy of the task is in flight (R140). -/
def NoCopies (s : State) : Bool := s.ctx.m.slots.toList.all fun c => c.state == .free || c.state == .linked

/-- Beside that, no bound store of the task waits to be performed (R267). -/
def Settled (s : State) : Bool := NoCopies s && s.ctx.m.held.isEmpty && s.ctx.m.asks == 0

/-- Memory with the held stores of a list performed in their order (R267). -/
def heldDone (m : Memory) (l : List HeldStore) : Memory := l.foldl (fun m h => memSetCells m h.cells) m

/-- Held stores all of whose bytes lie in this package. -/
def allHere (l : List HeldStore) : Prop := ∀ h ∈ l, ∀ c ∈ h.cells, isGlobalKey c.1 = false

/-- A task's bound stores have been performed, and nothing else of it but its place has changed. -/
def HeldPerformed (s t : State) : Prop :=
  t.mem = heldDone s.mem s.ctx.m.held ∧ t.ctx.m.held = [] ∧ OnlyMoved s t ∧ t.ctx.a.regs = s.ctx.a.regs ∧ t.ctx.a.pc = s.ctx.a.pc + 4 ∧
  t.ctx.c = s.ctx.c ∧ t.ctx.q = s.ctx.q ∧ t.ctx.m = { s.ctx.m with held := [], past := t.ctx.m.past, epoch := t.ctx.m.epoch }

/-- A C-slice instruction does not issue, and freezes its slice on a condition of a coupling queue (R19, R42): it stands at the head of its engine
queue, or where the front end goes on, and nothing else has changed. -/
def CHeld (s t : State) (b : BlockC) : Prop :=
  t = { s with ctx := { s.ctx with c := t.ctx.c } } ∧ t.ctx.c.block = some b ∧ t.ctx.c.regs = s.ctx.c.regs ∧ t.ctx.c.pend = s.ctx.c.pend ∧
  t.ctx.c.cc = s.ctx.c.cc ∧ t.ctx.c.f = s.ctx.c.f ∧ match engineOf s.ctx.c.cur.w0 with
    | some e => t.ctx.c.queues[engineIdx e] = s.ctx.c.cur :: s.ctx.c.queues[engineIdx e]
    | none => t.ctx.c.pc = s.ctx.c.cur.pc

/-- A request to another home is the youngest frame of the flow to it, and the A-slice waits for its answer (R289, R378). -/
def Asked (s t : State) (home : Nat) : Prop :=
  (∃ f, (outFlow t home s.ctx.vd).sent = (outFlow s home s.ctx.vd).sent ++ [f] ∧ f.ftype = 7 ∧ f.dpkg = home ∧ f.vd = s.ctx.vd) ∧
  t.ctx = { s.ctx with
    m := { s.ctx.m with answers := ⟨tagA, askedMark, home, []⟩ :: s.ctx.m.answers }
    a := { s.ctx.a with block := some .remote } } ∧
  t.mem = s.mem ∧ t.tiles = s.tiles ∧ t.recs = s.recs ∧ t.tasks = s.tasks ∧ t.cores = s.cores ∧ t.durPend = s.durPend ∧ t.parked = s.parked

/-- The task of a number exists and is as said. -/
def taskIs (s : State) (uid : Nat) (p : Task → Bool) : Bool := (s.task? uid).any p

/-- The version of a handle is sealed for the first time, at this home, on a part of one package (R159, R342, R345): its record names the digest,
the producer and the versions that the task has acquired; the handle is SEALED and claims the version; the instruction is over. -/
def FirstSeal (s : State) (v : Vd) (tn : Fin 16) (i : Instr) : Prop :=
  let h := s.ctx.m.handles[tn]
  ∀ x k, s.tile? v.num h.name = some x → s.task? s.ctx.uid = some k → s.rec? h.name = none → h.shadow = false → k.rgth = false → k.rerun = false →
    s.ctx.rebuild = false → v.pairs = false → secondaryAt s (tileVd h.name) = none → ∃ t, exec i s = .next t ∧
      t.ctx = (aNext { s with ctx := { s.ctx with m := { s.ctx.m with
        handles := s.ctx.m.handles.set tn { h with state := .sealed, step := 0 } } } } 4).ctx ∧
      t.tile? v.num h.name = some { x with sealed := true, resident := true, matched := true, claims := x.claims + 1 } ∧
      ((t.rec? h.name).any fun r => r.digest == tileDigest s v.num h.va h.size && r.size == x.size && r.kcopy == k.kcopy &&
        r.acq == s.ctx.m.acquired && r.taint == (s.ctx.m.taint || descDval k.desc) && !r.lost && !r.freed) = true ∧
      taskIs t k.uid (fun j => j == { k with sealed := h.name :: k.sealed }) = true ∧ t.cores = s.cores ∧ t.parked = s.parked

/-! Vectors (R173 to R209). -/

/-- Element `j` of a value in elements of `w` bits (R47). -/
def element (w v j : Nat) : Nat := v / 2 ^ (w * j) % 2 ^ w

/-- An integer as `w` bits, clamped to the signed range first where SAT is one (R48). -/
def intBits (w : Nat) (sat : Bool) (v : Int) : FRes :=
  let c := if sat then max (-2 ^ (w - 1)) (min (2 ^ (w - 1) - 1) v) else v
  ((c % 2 ^ w).toNat, 0)

/-- A result of a type: in a floating-point format, or on integers. -/
def byType (t : EType) (ff : Fmt → FRes) (fi : Nat → FRes) : FRes :=
  match t with
  | .bf16 => ff bf16
  | .f32 => ff fp32
  | _ => fi (etWidth t)

/-- An integer operation on two signed elements. -/
def intOf (t : EType) (sat : Bool) (op : Int → Int → Int) (a b : Nat) : FRes :=
  intBits (etWidth t) sat (op (asSigned (etWidth t) a) (asSigned (etWidth t) b))

/-- A result without a flag, cut to `w` bits. -/
def plainBits (w v : Nat) : FRes := (v % 2 ^ w, 0)

/-- What a use of the stream port accesses, from when to when (R227). -/
def portAccs (s : State) (reads : Bool) (lat : Nat) : Option PortUse → List (Extent × Nat × Nat)
  | some p => (p.desc.extents (!reads)).map fun e =>
    let at_ := if reads then s.ctx.c.cc else s.ctx.c.cc + lat
    (e, at_, at_)
  | none => []

/-- A vector or predicate instruction issues: it is well-formed, what it names is declared, its await flag is not zero, no queue holds it
back, none of R209's conditions holds, and the state after the use of its port is `t` (R92, R149, R175, R209). -/
def VReady (i : Instr) (s : State) (m : VMods) (lat : Nat) (vd : Option VDst) (g : Nat) (srcs : List VSrc) (items : List Item) (det mx : Bool)
    (t : State) (p : Option PortUse) : Prop :=
  let port := srcs.contains .stream || vd == some .stream
  i.wf = true ∧ PlainIssue s = true ∧
  Declared s (items ++ srcs.flatMap vsrcItems ++ vdstItems g vd ++ [.p m.pm] ++ flagItems m.sf m.af ++ if port then [.strm m.port] else []) = true ∧
  (m.af ≠ 0 → s.ctx.c.f[m.af] ≠ 0) ∧
  (port = true → s.ctx.m.streams[m.port].walking = false → startWaits s.ctx.c = false) ∧
  (det = true → s.ctx.det = false) ∧
  vqBlock s vd srcs = none ∧
  (m.sf ≠ 0 → s.ctx.c.f[m.sf].val + dueFlag s.ctx.c m.sf < 15) ∧
  (if port then ∃ q, p = some q ∧ portTake s m.port = some (t, q.desc, q.pos, q.n) ∧ (mx = true → q.desc.etype = 6 ∧ q.desc.mxw = 3)
   else p = none ∧ t = s ∧ mx = false) ∧
  checkC s (portAccs s (srcs.contains .stream) lat p) = none

/-- The state after it: the walk has advanced, the await flag has fallen by one, each queue source has been popped, and the result leaves for
its destination, to land `lat` C-cycles later with the set flag (R29, R43, R92, R178). -/
def vAfter (s t : State) (m : VMods) (lat : Nat) (vd : Option VDst) (srcs : List VSrc) (p : Option PortUse) (out : VOut) : State :=
  let u := takeFlag (addC t (portAccs s (srcs.contains .stream) lat p)) m.af
  cIdle (vDeliver ((lqsOf srcs).foldl (fun u n => popToC u (n.castLE (by decide))) u) vd lat m p out)

/-- A vector instruction that issues has a result that meets `P`. -/
def VGives (i : Instr) (m : VMods) (lat : Nat) (vd : Option VDst) (g : Nat) (srcs : List VSrc) (items : List Item) (det mx : Bool)
    (P : State → Option PortUse → VOut → Prop) : Prop :=
  ∀ (s t : State) (p : Option PortUse), VReady i s m lat vd g srcs items det mx t p →
    ∃ out, exec i s = .next (vAfter s t m lat vd srcs p out) ∧ P s p out

/-- The flags of `n` elements, of those that are active (R179). -/
def FlagsAre (n : Nat) (act : Nat → Bool) (f : Nat → FRes) (fl : Flags) : Prop :=
  ∀ i : Fin 5, fl.getLsbD i = true ↔ ∃ j < n, act j = true ∧ (f j).2.getLsbD i = true

/-- `n` elements of width `w` of one destination, governed as elements of width `gw` (R177, R190): active ones take `f`, the others keep the
old value, or are zero with Z = 1; bytes above the last element are those of inactive elements; the byte mask marks the active bytes. -/
def LanesAre (w gw n : Nat) (m : VMods) (pm : Pred) (old : Nat) (f : Nat → FRes) (out : VOut) : Prop :=
  ∃ v mask fl, out = .vecs [v] mask fl ∧
    (∀ j < n, element w v j = if pm.getLsbD (j * gw / 8) then (f j).1 % 2 ^ w else if m.z then 0 else element w old j) ∧
    v / 2 ^ (w * n) = (if m.z then 0 else old) / 2 ^ (w * n) ∧
    (∀ k < 512, mask.getLsbD k = (decide (8 * k / w < n) && pm.getLsbD (8 * k / w * gw / 8))) ∧
    FlagsAre n (fun j => pm.getLsbD (j * gw / 8)) f fl

/-- Results spread over `g` registers: result j in register j mod g at position j div g (R190). -/
def GroupIs (w gw g n : Nat) (m : VMods) (pm : Pred) (olds : List Nat) (f : Nat → FRes) (out : VOut) : Prop :=
  ∃ vals mask fl, out = .vecs vals mask fl ∧ vals.length = g ∧
    (∀ j < n, element w (vals.getD (j % g) 0) (j / g) =
      if pm.getLsbD (j * gw / 8) then (f j).1 % 2 ^ w else if m.z then 0 else element w (olds.getD (j % g) 0) (j / g)) ∧
    FlagsAre n (fun j => pm.getLsbD (j * gw / 8)) f fl

/-- A predicate result (R177, R187, R189): every bit of an active element is its condition; for i4, that of both elements of the byte. -/
def PredIs (w : Nat) (m : VMods) (pm : Pred) (pd : Fin 64) (old : Pred) (f : Nat → FRes) (out : VOut) : Prop :=
  ∃ new fl, out = .effs [.pred pd new] fl ∧
    (∀ k < 512, new.getLsbD k =
      if pm.getLsbD (8 * k / w * w / 8) then (if w = 4 then (f (2 * k)).1 == 1 && (f (2 * k + 1)).1 == 1 else (f (8 * k / w)).1 == 1)
      else !m.z && old.getLsbD k) ∧
    FlagsAre (4096 / w) (fun j => pm.getLsbD (j * w / 8)) f fl

/-- A whole result, every byte of which is written, with its byte mask and flags (R197, R200, R201). -/
def WholeIs (w : Nat) (act : Nat → Bool) (flags : Flags) (f : Nat → Nat) (out : VOut) : Prop :=
  ∃ (v : Nat) (mask : Pred), out = .vecs [v] mask flags ∧ v < 2 ^ 4096 ∧ (∀ j < 4096 / w, element w v j = f j) ∧ ∀ k < 512, mask.getLsbD k = act k

/-- One, two or three sources elementwise: the result of element j from elements j (R177). -/
def V1Gives (mk : VDst → VSrc → EType → VMods → Instr) (lat : Nat) (det : Bool) (f : EType → Rnd → Nat → FRes) : Prop :=
  ∀ vd va t m, VGives (mk vd va t m) m lat (some vd) 1 [va] [] det false fun s p out =>
    let w := etWidth t
    LanesAre w w (4096 / w) m (pRead s m.pm) ((vdstOld s 1 (some vd)).getD 0 0) (fun j => f t m.rnd (element w (vsrcVal s p va) j)) out

def V2Gives (mk : VDst → VSrc → VSrc → EType → VMods → Instr) (lat : Nat) (f : EType → Rnd → Nat → Nat → FRes) : Prop :=
  ∀ vd va vb t m, VGives (mk vd va vb t m) m lat (some vd) 1 [va, vb] [] false false fun s p out =>
    let w := etWidth t
    LanesAre w w (4096 / w) m (pRead s m.pm) ((vdstOld s 1 (some vd)).getD 0 0)
      (fun j => f t m.rnd (element w (vsrcVal s p va) j) (element w (vsrcVal s p vb) j)) out

def V3Gives (mk : VDst → VSrc → VSrc → VSrc → EType → VMods → Instr) (lat : Nat) (f : EType → Rnd → Nat → Nat → Nat → FRes) : Prop :=
  ∀ vd va vb vc t m, VGives (mk vd va vb vc t m) m lat (some vd) 1 [va, vb, vc] [] false false fun s p out =>
    let w := etWidth t
    LanesAre w w (4096 / w) m (pRead s m.pm) ((vdstOld s 1 (some vd)).getD 0 0)
      (fun j => f t m.rnd (element w (vsrcVal s p va) j) (element w (vsrcVal s p vb) j) (element w (vsrcVal s p vc) j)) out

/-- The words of FP32 NaNs (R52): exponent field all ones, significand field not zero; a signalling one has bit 22 clear. -/
def isNan32 (x : Nat) : Bool := x / 2 ^ 23 % 2 ^ 8 == 255 && x % 2 ^ 23 != 0

def nanFlags (xs : List Nat) : Flags := if xs.any fun x => isNan32 x && x / 2 ^ 22 % 2 == 0 then flNV else 0

/-- The words of zeros and infinities. -/
def zeroOrInf32 (x : Nat) : Bool := x % 2 ^ 31 == 0 || x % 2 ^ 31 == 0x7F800000

/-- The FP32 word of an integer of magnitude below 2^24. -/
def intBits32 (n : Int) : Nat :=
  let m := n.natAbs
  if m = 0 then 0 else (if n < 0 then 2 ^ 31 else 0) + (127 + m.log2) * 2 ^ 23 + (m * 2 ^ (23 - m.log2) - 2 ^ 23)

/-- The words x0 and x1 of R76 after r rounds, a round's key being its first key plus so many increments. -/
def generatorRounds (k0 k1 v : Nat) : Nat → Nat × Nat
  | 0 => (v / 2 ^ 32, v % 2 ^ 32)
  | r + 1 =>
    let x := generatorRounds k0 k1 v r
    let p := 0xD256D193 * x.1
    (p / 2 ^ 32 ^^^ x.2 ^^^ (if r % 2 = 0 then k0 + r * 0x9E3779B9 else k1 + r * 0xBB67AE85) % 2 ^ 32, p % 2 ^ 32)

/-- Special operands of the estimates and functions, in both forms (R69, R73 to R75, R205). -/
def SpecialOperands : Prop :=
  (∀ x < 2 ^ 32, isNan32 x = true → ∀ f ∈ [rcpe, rsqe, exp2X, log2X, tanhX, exp2F, log2F, tanhF], f x = (0x7FC00000, nanFlags [x])) ∧
  [0, 0x80000000, 0x7F800000, 0xFF800000].map rcpe = [(0x7F800000, flDZ), (0xFF800000, flDZ), (0, 0), (0x80000000, 0)] ∧
  [0, 0x80000000, 0x7F800000].map rsqe = [(0x7F800000, flDZ), (0xFF800000, flDZ), (0, 0)] ∧
  (∀ x, 0x80000000 < x → x ≤ 0xFF800000 → rsqe x = (0x7FC00000, flNV)) ∧
  (∀ f ∈ [exp2X, exp2F], f 0x7F800000 = (0x7F800000, 0) ∧ f 0xFF800000 = (0, 0) ∧
    (∀ x, 0x43000000 ≤ x → x < 0x7F800000 → f x = (0x7F800000, flOF ||| flNX)) ∧
    (∀ x, 0xC3160000 < x → x < 0xFF800000 → f x = (0, flUF ||| flNX))) ∧
  (∀ f ∈ [log2X, log2F], f 0 = (0xFF800000, flDZ) ∧ f 0x80000000 = (0xFF800000, flDZ) ∧ f 0x7F800000 = (0x7F800000, 0) ∧
    ∀ x, 0x80000000 < x → x ≤ 0xFF800000 → f x = (0x7FC00000, flNV)) ∧
  (∀ f ∈ [tanhX, tanhF], f 0 = (0, 0) ∧ f 0x80000000 = (0x80000000, 0) ∧
    (∀ x, 0x41100000 ≤ x → x ≤ 0x7F800000 → f x = (0x3F800000, flNX) ∧ f (2 ^ 31 + x) = (0xBF800000, flNX)) ∧
    ∀ x, 0 < x → x < 0x39800000 → f x = (x, flNX) ∧ f (2 ^ 31 + x) = (2 ^ 31 + x, flNX))

/-- The Newton steps on NaNs, zeros and infinities (R70). -/
def NewtonSpecials : Prop :=
  ∀ m a x, a < 2 ^ 32 → x < 2 ^ 32 →
    (isNan32 a = true ∨ isNan32 x = true → rcps m a x = (0x7FC00000, nanFlags [a, x]) ∧ rsqs m a x = (0x7FC00000, nanFlags [a, x])) ∧
    (isNan32 a = false → isNan32 x = false → zeroOrInf32 a = true ∨ zeroOrInf32 x = true →
      rcps m a x = (0x40000000, 0) ∧ rsqs m a x = (0x3FC00000, 0))

/-- Values from R67, R68 and R70: the reciprocal estimates of the binade from 1 to 2 at both ends of each of the 4,096 intervals, with R67's bound on
their error; of each power of two from 2^-126 to 2^125; and the worked examples. -/
def EstimateValues : Prop :=
  (∀ i < 4096, ∀ lo ∈ [0, 2047],
    let d := 2 ^ 13 + 2 * i + 1
    let g := (2 ^ 27 + d) / (2 * d)
    let sig := 2 ^ 23 + i * 2 ^ 11 + lo
    rcpe (127 * 2 ^ 23 + i * 2 ^ 11 + lo) = (126 * 2 ^ 23 + (g - 4096) * 2 ^ 11, 0) ∧ g * sig ≤ 2 ^ 36 + 2 ^ 24 ∧ 2 ^ 36 ≤ g * sig + 2 ^ 24) ∧
  (∀ k < 252, rcpe ((k + 1) * 2 ^ 23) = ((252 - k) * 2 ^ 23 + 4095 * 2 ^ 11, 0)) ∧
  rcpe 0x40400000 = (0x3EAAA800, 0) ∧ rsqe 0x40800000 = (0x3EFFF800, 0) ∧ (∀ m, rcps m 0x40400000 0x3EAAA800 = (0x3F800200, 0))

/-- Values from R73 and R74: whole powers of two, exactly, subnormal ones with them; the square root of two. -/
def FunctionValues : Prop :=
  (∀ k : Nat, k < 254 → exp2X (intBits32 ((k : Int) - 126)) = ((k + 1) * 2 ^ 23, 0)) ∧ (∀ k : Nat, k < 23 → exp2X (intBits32 ((k : Int) - 149)) = (2 ^ k, 0)) ∧
  exp2X 0x3F000000 = (0x3FB504F3, 0) ∧
  (∀ k : Nat, k < 254 → log2X ((k + 1) * 2 ^ 23) = (intBits32 ((k : Int) - 126), 0)) ∧ (∀ k : Nat, k < 23 → log2X (2 ^ k) = (intBits32 ((k : Int) - 149), 0))

/-- The generator, whatever key and counter (R76). -/
def GeneratorValues : Prop :=
  ∀ (k : Word) (c : Nat), cg k c = generatorRounds (k.toNat % 2 ^ 32) (k.toNat / 2 ^ 32) (c % 2 ^ 64) 10

/-- A compare. -/
def VCmpGives (mk : Fin 64 → VSrc → VSrc → EType → VMods → Instr) (f : EType → Nat → Nat → FRes) : Prop :=
  ∀ pd va vb t m, VGives (mk pd va vb t m) m 4 none 1 [va, vb] [.p pd] false false fun s p out =>
    let w := etWidth t
    PredIs w m (pRead s m.pm) pd (pRead s pd) (fun j => f t (element w (vsrcVal s p va) j) (element w (vsrcVal s p vb) j)) out

/-- Predicate logic, bit by bit (R188). -/
def POpGives (i : Instr) (pd : Fin 64) (ps : List (Fin 64)) (m : VMods) (f : State → Nat → Bool) : Prop :=
  VGives i m 2 none 1 [] ((pd :: ps).map Item.p) false false fun s _ out =>
    ∃ new : Pred, out = .effs [.pred pd new] 0 ∧
      ∀ k < 512, new.getLsbD k = if (pRead s m.pm).getLsbD k then f s k else !m.z && (pRead s pd).getLsbD k

/-- An element that depends on its number, on whole sources and on registers (R196 to R200, R207, R208). -/
def VIdxGives (i : Instr) (lat : Nat) (vd : VDst) (srcs : List VSrc) (items : List Item) (w : Nat) (m : VMods)
    (f : State → List Nat → Nat → Nat) : Prop :=
  VGives i m lat (some vd) 1 srcs items false false fun s p out =>
    LanesAre w w (4096 / w) m (pRead s m.pm) ((vdstOld s 1 (some vd)).getD 0 0) (fun j => (f s (srcs.map (vsrcVal s p)) j, 0)) out

/-- 1 for true, without a flag or with one. -/
def truth (b : Bool) (fl : Flags := 0) : FRes := (if b then 1 else 0, fl)

/-- NV for a signalling NaN among two elements of a format (R187). -/
def quietFlag (f : Fmt) (a b : Nat) : Flags := if (fval f a).isSnan || (fval f b).isSnan then flNV else 0

/-- Whether one of two elements of a format is a NaN. -/
def anyNan (f : Fmt) (a b : Nat) : Bool := (fval f a).isNan || (fval f b).isNan

/-- The zeros above the highest one of `w` bits, those below the lowest, and the ones. -/
def zerosAbove (w a : Nat) : Nat := ((List.range w).find? fun i => a.testBit (w - 1 - i)).getD w
def zerosBelow (w a : Nat) : Nat := ((List.range w).find? fun i => a.testBit i).getD w
def onesIn (w a : Nat) : Nat := ((List.range w).filter fun i => a.testBit i).length

/-- The pairwise tree over adjacent elements: its value after `k` levels, and the flags of every combination (R201). -/
def treeVal (f : Nat → Nat → FRes) : Nat → (Nat → Nat) → Nat
  | 0, x => x 0
  | k + 1, x => treeVal f k fun i => (f (x (2 * i)) (x (2 * i + 1))).1
def treeFlags (f : Nat → Nat → FRes) : Nat → (Nat → Nat) → Flags
  | 0, _ => 0
  | k + 1, x => (List.range (2 ^ k)).foldl (fun fl i => fl ||| (f (x (2 * i)) (x (2 * i + 1))).2) 0 |||
    treeFlags f k fun i => (f (x (2 * i)) (x (2 * i + 1))).1

/-- The signed or floating-point maximum of some elements, with its flags (R184, R202). -/
def topOf (t : EType) (x : Nat → Nat) (l : List Nat) : FRes :=
  l.foldl (fun r i => let y := minMax t true r.1 (x i); (y.1, r.2 ||| y.2)) (redId t .max, 0)

/-- The sum of some elements in order (R203). -/
def sumOf (t : EType) (x : Nat → Nat) (l : List Nat) : Nat := l.foldl (fun r i => (redOp t .sum r (x i)).1) (redId t .sum)

/-! The matrix and row engines (R210 to R224). -/

/-- A matrix or row command issues: it is well-formed, what it names is declared, its await flag is not zero, no earlier pop holds back its
starts, and its set flag has room (R29, R175, R209). -/
def EReady (s : State) (i : Instr) (fm : FMods) (items : List Item) (starts : Bool) : Prop :=
  i.wf = true ∧ PlainIssue s = true ∧ Declared s (items ++ flagItems fm.sf fm.af) = true ∧ (fm.af ≠ 0 → s.ctx.c.f[fm.af] ≠ 0) ∧
  (starts = true → startWaits s.ctx.c = false) ∧ (fm.sf ≠ 0 → s.ctx.c.f[fm.sf].val + dueFlag s.ctx.c fm.sf < 15)

/-- The state after it: `t` with its accesses recorded, the await flag one lower, and its effects to land with the set flag. -/
def eAfter (t : State) (lat : Nat) (accs : List (Extent × Nat × Nat)) (effs : List Effect) (fm : FMods) (fl : Flags := 0) : State :=
  cIdle (pend (takeFlag (addC t accs) fm.af) lat effs fm.sf fl)

/-- Whether wbsel takes the two words of a window register (R211). -/
def windowOk (a b : Word) : Bool :=
  let wbase := a.toNat % 2 ^ 20
  let wbytes := a.toNat / 2 ^ 20 % 2 ^ 21
  let krows := b.toNat / 2 ^ 20 % 2 ^ 16
  decide (a.toNat / 2 ^ 41 = 0 ∧ b.toNat / 2 ^ 38 = 0 ∧ b.toNat / 2 ^ 36 % 4 ≠ 3 ∧ 32 ≤ krows ∧ krows % 32 = 0 ∧
    wbytes % 4 = 0 ∧ 8 ≤ wbytes ∧ wbytes ≤ 1048576 ∧ wbase % 4 = 0 ∧ wbase + wbytes ≤ 1048576)

/-- Accumulators that moves of the engine write: when they land (R216, R220). -/
def accsMoved (s : State) (ns : List (Fin 8)) (at_ : Nat) : State :=
  { s with ctx := { s.ctx with c := { s.ctx.c with
      accLand := ns.foldl (fun v (n : Fin 8) => v.set n at_) s.ctx.c.accLand
      accMove := ns.foldl (fun v (n : Fin 8) => v.set n at_) s.ctx.c.accMove } } }

/-- What a move waits for: the accumulators it names have landed, and no drain still reads one that it writes (R220). -/
def MoveReady (s : State) (names writes : List (Fin 8)) : Bool :=
  names.all (fun n => s.ctx.c.accLand[n] ≤ s.ctx.c.cc) && writes.all fun n => s.ctx.c.accDrain[n] ≤ s.ctx.c.cc

/-- The four accumulators of a product, and the sub-array of each. -/
def bankAt (md : Fin 8) (q : Fin 4) : Fin 8 := md + q.castLE (by decide)

/-- The terms of one element of a product over all bands of 32, A's row or B's column. -/
def lineOf (bands : List (List (List FVal))) (n : Nat) : List FVal := bands.flatMap fun b => (b[n]?).getD []

/-- A product (R213 to R215, R220): its streams and windows, its formats and its steps. -/
structure Product where
  md : Fin 8
  shape : Shape
  pair : Pair
  ksteps : Fin 4096
  streams : List (Fin 16)
  wins : List (Fin 4)

def Product.kr (p : Product) : Nat := p.ksteps.val * (pairFmt p.pair).2.2

/-- The streams and windows that an instruction's fields name (R213). -/
def productOf (md : Fin 8) (sa : Fin 16) (w : Fin 4) (shape : Shape) (pair : Pair) (ksteps : Fin 4096) : Product :=
  ⟨md, shape, pair, ksteps, if shape = .ind then [sa, sa + 1, sa + 2, sa + 3] else [sa], if shape = .ind then [0, 1, 2, 3] else [w]⟩

/-- Its windows hold what it consumes (R215), and a package at reduced service has its pair (R389). -/
def Product.windowsOk (p : Product) (s : State) : Bool :=
  (s.pkg.phase != .reduced || p.pair == .bf16bf16) && p.wins.all fun n =>
    let w := s.ctx.c.w[n]
    w.ncol == (shapeDims p.shape).2 && w.wbytes != 0 && w.cursor + p.kr ≤ w.krows &&
      ((pairFmt p.pair).2.1 == .bf16 || w.wsbase + w.krows / 32 * (shapeDims p.shape).2 ≤ 1048576)

/-- A walk that supplies one A operand (R215). -/
def Product.walkOk (p : Product) (d : Desc) : Bool :=
  !badOperand d (pairFmt p.pair).1 && (shapeDims p.shape).1 * p.kr * (pairFmt p.pair).1.width / 8 ≤ d.length

/-- What it accesses, from when to when (R227). -/
def Product.accs (p : Product) (s : State) (ds : List Desc) : List (Extent × Nat × Nat) :=
  let span := fun e => (e, s.ctx.c.cc, s.ctx.c.cc + p.ksteps.val - 1)
  (ds.flatMap fun d => (d.extents false).map span) ++ p.wins.flatMap fun n => (s.ctx.c.w[n].extents (pairFmt p.pair).2.1).map span

/-- An input element of a row as FP32 bits: BF16 widens, a signalling NaN becomes the canonical NaN (R223). -/
def rowElem (it : RowIn) (row l : Nat) : FRes :=
  match it with
  | .bf16 => valToFmt fp32 rne (fval bf16 (element 16 row l))
  | .f32 => let v := element 32 row l; if (fval fp32 v).isNan then (nanBits fp32, quietFlag fp32 v v) else (v, 0)

/-! Effects that land (R43). -/

/-- A context after its oldest pending operation has landed. -/
def landedCtx (s : State) (p : Pending) (l : List Pending) : Context :=
  land { s.ctx with c := { s.ctx.c with pend := l } } p

/-! Events. -/

/-- An event that finds `pre` answers a next state with `post`. -/
def EventGives (i : Instr) (pre : State → Bool) (post : State → State → Bool) : Prop :=
  ∀ s : State, pre s = true → ∃ t, exec i s = .next t ∧ post s t = true

/-- The core, queue, tile version, VD, partition, gang or context of a name exists and is as said. -/
def coreIs (s : State) (n : Nat) (p : Core → Bool) : Bool := (s.core? n).any p
def queueIs (s : State) (vd q : Nat) (p : Queue → Bool) : Bool := (s.queue? vd q).any p
def vdIs (s : State) (n : Nat) (p : Vd → Bool) : Bool := (s.vd? n).any p
def partIs (s : State) (n : Nat) (p : Partition → Bool) : Bool := (s.part? n).any p
def tileIs (s : State) (vd : Nat) (name : Word) (p : Tile → Bool) : Bool := (s.tile? vd name).any p
def gangIs (s : State) (g : Gang) (p : Gang → Bool) : Bool :=
  s.gangs.any fun h => h.vd == g.vd && h.level == g.level && h.did == g.did && p h
def ctxIs (s : State) (uid : Nat) (p : Context → Bool) : Bool := (s.context? uid).any p

/-- A task that has not ended. -/
def isAlive (s : State) (uid : Nat) : Bool := taskIs s uid fun k => k.state != .retired && k.state != .failed && k.state != .aborted

/-- A task has failed with a cause. -/
def failedWith (s : State) (uid : Nat) (c : Cause) (sub : Nat := 0) : Bool :=
  taskIs s uid fun k => k.state == .failed && k.cause == some c && k.subcause == sub

/-- The loader takes a task that has not run (R112, R334): its VD exists, its code object passes, a save area is free and large enough, and it
has no context yet. -/
def loadsFresh (s : State) (k : Task) : Bool :=
  !k.saved && !loaderWaits s k && (s.context? k.uid).isNone && (s.task? k.uid == some k) && match s.vd? k.vd with
    | none => false
    | some v => (k.save.or (freeSlot s k.vd)).isSome && (match loaderCheck s k.uid k.vd (descCode k.desc) false v.det with
        | .ok _ _ => true
        | _ => false) && saveSize (loaderDecl s k.uid k.vd (descCode k.desc)) v.det ≤ v.slotpg * 4096

/-- A task that has just been placed in the active bank of a core: it runs there from the first instructions of its code object with its
parameters in registers 1 and up (R25, R331). -/
def placedOn (s t : State) (k : Task) (n : Nat) : Bool :=
  taskIs t k.uid (fun j => j.state == .running && j.core == some n) && coreIs t n (fun c => c.active == some k.uid && !c.quantum) &&
    ctxIs t k.uid fun x => x.core == n && x.phase == .running && !x.sup && x.a.regs == withParams k.params && x.c.regs == withParams k.params &&
      match loaderCheck s k.uid k.vd (descCode k.desc) false ((s.vd? k.vd).any (·.det)) with
      | .ok d c => x.decl == d && x.a.pc == BitVec.ofNat 64 (c.base + c.aoff) && x.c.pc == BitVec.ofNat 64 (c.base + c.coff)
      | _ => false

/-- The journal entry of a packet exists and is as said. -/
def entryIs (s : State) (vd q pseq : Nat) (p : JEntry → Bool) : Bool := queueIs s vd q fun x => (jentry? x pseq).any p

/-- The packet of a type that an event takes may start: its queue and its entry. -/
def packetAt (s : State) (ty : Nat) : Option (Queue × JEntry) :=
  (packetPick s ty).bind fun x => startable s x.1 x.2.1 x.2.2 ty

/-- The packet that an event takes is as said, and something holds of it after the event. -/
def packetAnd (s : State) (ty : Nat) (p : Queue → JEntry → Bool) : Bool :=
  (packetPick s ty).any fun y => (packetAt s ty).any fun x => x.1.vd == y.1 && x.1.qidx == y.2.1 && x.2.pseq == y.2.2 && p x.1 x.2

/-- The packet that an event took is complete, or has only begun. -/
def packetDone (s t : State) (ty : Nat) : Bool := packetAnd s ty fun x e => entryIs t x.vd x.qidx e.pseq (·.complete)
def packetBegun (s t : State) (ty : Nat) : Bool := packetAnd s ty fun x e => entryIs t x.vd x.qidx e.pseq fun f => f.begun && !f.complete

/-- The first block of the only pool of a part: a sealed durable version on a site with its clean mark, its header readable and good (R304,
R309). -/
structure SealedBlock where
  vd   : Nat
  name : Word
  size : Nat

def firstSealed (s : State) : Option SealedBlock :=
  match ((s.sites.toList.flatMap Site.descs).map (·.1)).eraseDups with
  | [vd] => let rs := poolRuns s vd
    (runPa rs 4096).bind fun pa =>
      let h := memGetN s.mem pa 512
      let size := littleEndian ((h.drop 0x90).take 4)
      if 4608 + size ≤ runLen rs && (siteNo pa).all (fun n => s.sites[n].clean) && (List.range 8).all (fun i => !badUnit s (pa + 64 * i)) &&
          littleEndian ((h.drop 0x98).take 1) % 4 == 2 && size != 0 && size % 512 == 0
      then some ⟨vd, BitVec.ofNat 64 (littleEndian ((h.drop 0x80).take 8)), size⟩ else none
  | _ => none

/-- The place of a WAITV's or SIGNAL's word. -/
def syncWord (s : State) (x : Queue) (e : JEntry) (write : Bool) : Option Nat :=
  match syncAddr s x e write with
  | .ok pa => some pa
  | .error _ => none

/-- The queue that an event takes, as its number finds it. -/
def queueFor (s : State) (ok : Queue → Bool) : Option Queue := (queuePick s ok).bind fun x => s.queue? x.vd x.qidx

/-- The header words of the next packet of a queue: type, argument words, registers, bytes, and the words that follow (R315, R316). -/
structure NextPacket where
  ty : Nat
  argw : Nat
  mask : Nat
  size : Nat
  good : Bool
  words : List (BitVec 32)

/-- The next packet of a queue, where the ring can be read and holds all of it. -/
def nextPacket (s : State) (x : Queue) : Option NextPacket :=
  match ringWords s x 2 x.head with
  | .ok [h, mask] =>
    let argw := h / 2 ^ 16 % 256
    let n := onesIn 32 mask
    let size := (8 + 4 * (n + argw) + 7) / 8 * 8
    match ringWords s x (n + argw) (x.head + 8) with
    | .ok ws => if x.tail < x.head + size then none else
        some ⟨h / 2 ^ 28 % 16, argw, mask, size, h / 2 ^ 24 % 16 == 0 && h % 2 ^ 16 == 0, ws.map (BitVec.ofNat 32)⟩
    | .error _ => none
  | _ => none

/-- Both slices of the task that moves are done at user level (R17). -/
def bothDone (s : State) : Bool := s.live && s.ctx.phase == .running && !s.ctx.sup && s.ctx.a.stopped && s.ctx.c.stopped

/-- Nothing of it is in flight, in a coupling queue or unsealed. -/
def nothingLeft (s : State) : Bool :=
  bothDone s && !inFlight s.ctx && couplingEmpty s.ctx.q && !s.ctx.m.handles.toList.any fun h => h.state == .allocated

/-- The commit of its held stores and of its log asks no other home for anything (R355). -/
def commitsHere (s : State) (k : Task) : Bool :=
  let r := applyHeld s k.vd k.uid tagTask s.ctx.m.held
  k.acks == 0 && r.2 == 0 && ((gangOf s k.uid).isSome || k.rebuild || (applyLog r.1 k.vd k.uid tagTask s.ctx.m.log).2 == 0)

/-! Replicas (R346). -/

/-- The anchor at the inputs whose replica is pending in the pool of this package, both copies of its record there and its version resident. -/
def lehrDue (s : State) : Option LinRec :=
  match s.input with
  | .tile name => (s.rec? name).bind fun r =>
      if r.name == name && r.anchor && r.apend && r.prim && r.second && (s.vd? (tileVd name)).any fun v =>
          v.num == tileVd name && !v.atgt && tileIs s v.num name (·.resident)
      then some r else none
  | _ => none

/-! Copies in flight (R151). -/

/-- The copy in the slot at the inputs, if its engine may land a chunk of it: no chain, of one range of memory. -/
def landing (s : State) : Option (Fin 48) :=
  match s.input with
  | .pick n => if h : n < 48 then (if slotMoves s ⟨n, h⟩ && !s.ctx.m.slots[(⟨n, h⟩ : Fin 48)].chain then some ⟨n, h⟩ else none) else none
  | _ => none

/-- The bytes of the next chunk, and its address in memory (R151). -/
def chunkLen (c : Slot) : Nat := min 256 (copyBytes c.kind c.gb - c.resume)
def chunkVa (c : Slot) : Nat := (memSide c.kind c.gd c.ga + BitVec.ofNat 64 c.resume).toNat

/-- A chunk of `n` bytes has been counted, and the copy is over or goes on. -/
def chunkCounted (s t : State) (i : Fin 48) (n : Nat) : Bool :=
  let c := s.ctx.m.slots[i]
  let d := t.ctx.m.slots[i]
  t.ctx.m.bars[c.b] == s.ctx.m.bars[c.b] - BitVec.ofNat 32 n &&
    if c.resume + n ≥ copyBytes c.kind c.gb then d == Slot.free else d == { c with resume := c.resume + n, landed := c.landed + 1, asked := [], lost := 0 }

/-! Frames (R375 to R378). -/

/-- The frame of a type at the inputs that the part takes. -/
def frameOf (s : State) (ty : Nat) : Option Frame :=
  (arrived s).filter fun f => f.ftype == ty && listens s f.port && headOk s f && carries s f && !fenced s f

/-- The same, next in its flow, of which no frame waits to be performed. -/
def nextFrame (s : State) (ty : Nat) : Option Frame :=
  (frameOf s ty).filter fun f => f.psn == (inFlow (heard s f) f).expect && !f.noBuf && !flowWaits s f

/-- A frame has taken its place in its flow, and has been acknowledged (R378). -/
def ackSent (s t : State) (f : Frame) : Bool :=
  (inFlow t f).expect == (inFlow (heard s f) f).expect + 1 && (t.out.head?).any fun g =>
    g.ftype == 8 && g.addr == f.psn && g.flow == f.flow && g.port == f.port && g.spkg == s.pkg.num

/-- A frame with an answer to a host has been sent before the acknowledgement. -/
def answeredBy (t : State) (f : Frame) (ty status : Nat) (payload : List Byte) : Bool :=
  ((t.out.drop 1).head?).any fun g => g.ftype == ty && g.status == status && g.payload == payload && g.addr == f.addr && g.vd == f.vd

/-- The newest management record (R400). -/
def reported (t : State) (code : Nat) (args : List Nat) : Bool := (t.pkg.mgmt.head?).any fun r => r.code == code && r.args == args

/-- The frames of a flow are sent again from a PSN, in order, if the flow has a path (R378). -/
def sentAgain (s t : State) (w : Flow) (psn : Nat) : Bool :=
  match pathOf s w with
  | none => t.out == s.out
  | some p => t.out == ((w.sent.filter fun g => g.psn ≥ psn).map fun g => { g with port := p }).reverse ++ s.out

/-- The paths of a party on a port are as said; all others are as before. -/
def pathBecomes (s t : State) (party port : Nat) (f : Path → Path) : Bool :=
  t.paths == s.paths.map fun p => if p.party == party && p.port == port then f p else p

/-- A path of a party on a port whose rate has been lowered (R379). -/
def slower (p : Path) : Path := if p.cut then p else { p with rate := p.rate - p.rate / 8, cut := true }

/-- An answer can go out to the host of a frame. -/
def answerable (s : State) (f : Frame) : Bool := !(usable (greetHost s f) (senderOf f) f.vd).isEmpty

/-- A port is as said; all others are as before. -/
def portBecomes (s t : State) (n : Nat) (f : Port → Port) : Bool := t.ports == s.ports.mapIdx fun i p => if i = n then f p else p

/-- A host's frame of a type, next in its flow, that the VD accepts, when no peer has the number of hosts; VDs of a pair apart (R380, R385). -/
def hostReq (s : State) (ty : Nat) : Option (Frame × Vd) :=
  (nextFrame s ty).bind fun f => (s.vd? f.vd).bind fun v =>
    if f.spkg == 2047 && hostAllowed s f && !v.pairs && s.peers.all (fun p => p.num != 2047) then some (f, v) else none

/-- The memory that a host's access of one stretch meets. -/
def hostPlace (s : State) (v : Vd) (write : Bool) (va len : Nat) : Option (Place × Nat) :=
  if va + len > 2 ^ 56 || heldIn s v.num 3 (pieces va len) then none else
  match hostPieces s v write (pieces va len) with
  | .ok [p] => some p
  | _ => none

/-- What the root of trust accepts: the object at the inputs of a kind, validly signed and newer (R392). -/
def signedOf (s : State) (kind : Fin 5) : Option (Signed × Nat × Nat) :=
  match s.input with
  | .signed o key v valid => if kindOf o == kind && valid && keyVersion s.pkg key < v then some (o, key, v) else none
  | _ => none

/-- Its version is then the one installed for its key, and for no other. -/
def installed (s t : State) (o : Signed × Nat × Nat) : Bool :=
  keyVersion t.pkg o.2.1 == o.2.2 && s.pkg.versions.all fun x => x.1 == o.2.1 || keyVersion t.pkg x.1 == keyVersion s.pkg x.1

end Sys2Proof.Machine
end

