-- ==== Sys2Proof/Certificates/Slice0/Obligations.lean ====
section
/-!
DEFINITION. The statements for the provers.
-/

open Sys2Proof Sys2Proof.Machine

/-- Operations on registers (R49, R115 to R117, R119): arithmetic, logic, shifts and rotates, minima and maxima, compares, selection, counts. -/
def Obligations.ScalarOperations : Prop :=
  SrrGives .add 1 (fun _ a b => BitVec.ofNat 64 (a.toNat + b.toNat)) ∧
  SrrGives .sub 1 (fun _ a b => BitVec.ofInt 64 (a.toInt - b.toInt)) ∧
  SrrGives .mul 3 (fun _ a b => BitVec.ofNat 64 (a.toNat * b.toNat)) ∧
  SrrGives .mulh 3 (fun _ a b => BitVec.ofInt 64 (a.toInt * b.toInt / 2 ^ 64)) ∧
  SrrGives .mulhn 3 (fun _ a b => BitVec.ofNat 64 (a.toNat * b.toNat / 2 ^ 64)) ∧
  SrrGives .div 18 (fun _ a b => BitVec.ofInt 64 (if b = 0 then -1 else a.toInt.tdiv b.toInt)) ∧
  SrrGives .divn 18 (fun _ a b => if b = 0 then BitVec.allOnes 64 else BitVec.ofNat 64 (a.toNat / b.toNat)) ∧
  SrrGives .rem 18 (fun _ a b => BitVec.ofInt 64 (a.toInt.tmod b.toInt)) ∧
  SrrGives .remn 18 (fun _ a b => BitVec.ofNat 64 (a.toNat % b.toNat)) ∧
  SrrGives .and 1 (fun _ a b => a &&& b) ∧
  SrrGives .or 1 (fun _ a b => a ||| b) ∧
  SrrGives .xor 1 (fun _ a b => a ^^^ b) ∧
  SrrGives .andn 1 (fun _ a b => a &&& ~~~b) ∧
  SrrGives .orn 1 (fun _ a b => a ||| ~~~b) ∧
  SrrGives .shl 1 (fun _ a b => BitVec.ofNat 64 (a.toNat * 2 ^ (b.toNat % 64))) ∧
  SrrGives .shr 1 (fun _ a b => BitVec.ofNat 64 (a.toNat / 2 ^ (b.toNat % 64))) ∧
  SrrGives .sra 1 (fun _ a b => BitVec.ofInt 64 (a.toInt / 2 ^ (b.toNat % 64))) ∧
  SrrGives .rotl 1 (fun _ a b => rotatedLeft a (b.toNat % 64)) ∧
  SrrGives .rotr 1 (fun _ a b => rotatedRight a (b.toNat % 64)) ∧
  SrrGives .min 1 (fun _ a b => BitVec.ofInt 64 (min a.toInt b.toInt)) ∧
  SrrGives .max 1 (fun _ a b => BitVec.ofInt 64 (max a.toInt b.toInt)) ∧
  SrrGives .minn 1 (fun _ a b => BitVec.ofNat 64 (min a.toNat b.toNat)) ∧
  SrrGives .maxn 1 (fun _ a b => BitVec.ofNat 64 (max a.toNat b.toNat)) ∧
  SrrGives .seq 1 (fun _ a b => flagWord (decide (a.toNat = b.toNat))) ∧
  SrrGives .sne 1 (fun _ a b => flagWord (decide (a.toNat ≠ b.toNat))) ∧
  SrrGives .slt 1 (fun _ a b => flagWord (decide (a.toInt < b.toInt))) ∧
  SrrGives .sltn 1 (fun _ a b => flagWord (decide (a.toNat < b.toNat))) ∧
  SrrGives .sle 1 (fun _ a b => flagWord (decide (a.toInt ≤ b.toInt))) ∧
  SrrGives .slen 1 (fun _ a b => flagWord (decide (a.toNat ≤ b.toNat))) ∧
  SrrGives .sel 1 (fun old a b => if old ≠ 0 then a else b) ∧
  SrGives .clz 1 (fun a => BitVec.ofNat 64 (leadingZeros a)) ∧
  SrGives .ctz 1 (fun a => BitVec.ofNat 64 (trailingZeros a)) ∧
  SrGives .popc 1 (fun a => BitVec.ofNat 64 (oneBits a))

/-- Bit fields (R122) and the immediate forms of R121, of one word and of two. -/
def Obligations.ScalarImmediates : Prop :=
  SriGives .addi .addiExt 1 (fun _ => True) (fun a i => BitVec.ofInt 64 (a.toInt + i)) ∧
  SriGives .muli .muliExt 3 (fun _ => True) (fun a i => BitVec.ofInt 64 (a.toInt * i)) ∧
  SriGives .andi .andiExt 1 (fun _ => True) (fun a i => a &&& BitVec.ofInt 64 i) ∧
  SriGives .ori .oriExt 1 (fun _ => True) (fun a i => a ||| BitVec.ofInt 64 i) ∧
  SriGives .xori .xoriExt 1 (fun _ => True) (fun a i => a ^^^ BitVec.ofInt 64 i) ∧
  SriGives .slti .sltiExt 1 (fun _ => True) (fun a i => flagWord (decide (a.toInt < i))) ∧
  SriGives .sltni .sltniExt 1 (fun _ => True) (fun a i => flagWord (decide (a.toNat < (BitVec.ofInt 64 i).toNat))) ∧
  SriGives .shli .shliExt 1 (fun i => 0 ≤ i ∧ i ≤ 63) (fun a i => BitVec.ofNat 64 (a.toNat * 2 ^ i.toNat)) ∧
  SriGives .shri .shriExt 1 (fun i => 0 ≤ i ∧ i ≤ 63) (fun a i => BitVec.ofNat 64 (a.toNat / 2 ^ i.toNat)) ∧
  SriGives .srai .sraiExt 1 (fun i => 0 ≤ i ∧ i ≤ 63) (fun a i => BitVec.ofInt 64 (a.toInt / 2 ^ i.toNat)) ∧
  LdiGives .ldi .ldiExt (fun _ i => BitVec.ofInt 64 i) ∧
  LdiGives .ldhi .ldhiExt (fun old i => BitVec.ofNat 64 ((BitVec.ofInt 64 i).toNat % 2 ^ 32 * 2 ^ 32 + old.toNat % 2 ^ 32)) ∧
  SbfGives .bfx bfxVal ∧ SbfGives .bfxs bfxsVal ∧ SbfGives .bfi bfiVal

/-- Conditional branches (R123, R127): taken, they go on at their own address + 4·o. loop (R124): the counter falls by one modulo 2^64, and the
branch is taken where it is not zero then. Jumps and calls (R125): the link is the address after the call; callr reads its target first. -/
def Obligations.ControlFlow : Prop :=
  BranchGives .beq .beqExt (fun a b => decide (a.toNat = b.toNat)) ∧
  BranchGives .bne .bneExt (fun a b => decide (a.toNat ≠ b.toNat)) ∧
  BranchGives .blt .bltExt (fun a b => decide (a.toInt < b.toInt)) ∧
  BranchGives .bge .bgeExt (fun a b => decide (a.toInt ≥ b.toInt)) ∧
  BranchGives .bltn .bltnExt (fun a b => decide (a.toNat < b.toNat)) ∧
  BranchGives .bgen .bgenExt (fun a b => decide (a.toNat ≥ b.toNat)) ∧
  (∀ (s : State) (ga : Reg), Declared s [.g ga] = true →
     let count := BitVec.ofInt 64 ((gRead s ga).toNat - 1)
     (∀ off : BitVec 12, GoesTo s (.loop ga off) [ga] (wordsOn s (if count = 0 then 1 else off.toInt))
       (fun s => aSet s ga count) (fun s => cPend s 1 [.cReg ga count])) ∧
     (∀ off : BitVec 32, GoesTo s (.loopExt ga off) [ga] (wordsOn s (if count = 0 then 2 else off.toInt))
       (fun s => aSet s ga count) (fun s => cPend s 1 [.cReg ga count]))) ∧
  (∀ (s : State),
     (∀ (off : BitVec 21), GoesTo s (.jmp off) [] (wordsOn s off.toInt)) ∧
     (∀ (ga : Reg), Declared s [.g ga] = true → GoesTo s (.jr ga) [] (gRead s ga)) ∧
     (∀ (gd : Reg) (off : BitVec 21), Declared s [.g gd] = true → GoesTo s (.call gd off) [] (wordsOn s off.toInt)
       (fun s => aSet s gd (wordsOn s 1)) (fun s => cPend s 1 [.cReg gd (wordsOn s 1)])) ∧
     (∀ (gd ga : Reg), Declared s [.g gd, .g ga] = true → GoesTo s (.callr gd ga) [] (gRead s ga)
       (fun s => aSet s gd (wordsOn s 1)) (fun s => cPend s 1 [.cReg gd (wordsOn s 1)])))

/-- The system registers of R36 with their fields (R38 to R41), as a level that may read them reads them. LODCNT and TRAPVEC are written at
supervisor level (R132): TRAPVEC is the VD's. How many core cycles CYCLE has grown by at a read is free (log 2), TRAPVEC is one for the VD
(log 43). -/
def Obligations.SystemRegisters : Prop :=
  SysReads 0x000 none false (fun s => BitVec.ofNat 64 (16 * b2n (s.ctx.sup && s.ctx.bank) + 8 * b2n (s.ctx.sup && s.ctx.sb) + 4 * b2n s.ctx.sup +
    2 * b2n s.ctx.det + b2n s.ctx.det)) ∧
  SysReads 0x001 (some .a) false (fun s => BitVec.ofNat 64 (256 * (b2n s.ctx.sup * s.ctx.q.toC.length) + s.ctx.decl.slipl)) ∧
  SysReads 0x002 none false (fun s => s.ctx.dom) ∧
  SysReads 0x003 (some .c) false (fun s => s.ctx.c.vflg.zeroExtend 64) ∧
  SysReads 0x004 none true (fun s => s.ctx.tdesc) ∧
  SysReads 0x005 none false (fun s => BitVec.ofNat 64 (((s.vds.find? fun v => v.num == s.ctx.vd).map (·.rdepth)).getD 0)) ∧
  SysReads 0x006 (some .a) true (fun s => BitVec.ofNat 64 (((s.parts.find? fun p => p.num == s.ctx.part).map (·.rtmo)).getD 0)) ∧
  SysReads 0x009 (some .a) true (fun s => s.ctx.lodcnt) ∧
  SysReads 0x010 none true (fun s => ((s.vds.find? fun v => v.num == s.ctx.vd).map (·.trapvec)).getD 0) ∧
  SysReads 0x011 none true (fun s => s.ctx.trapRec) ∧
  (∀ (s : State) (gd : Reg), Declared s [.g gd] = true → s.ctx.sup = true → ∃ n : Nat,
     let t := { s with fresh := s.fresh + 1, ctx := { s.ctx with cycle := s.ctx.cycle + n } }
     let w := BitVec.ofNat 64 (s.ctx.cycle + n)
     (s.slice = .a → exec (.sysrd gd 0x008) s = .next (aAfter t gd w 4)) ∧
     (PlainIssue s = true → exec (.sysrd gd 0x008) s = .next (cAfter t 1 [.cReg gd w]))) ∧
  (∀ (s : State) (ga : Reg), Declared s [.g ga] = true → s.ctx.sup = true →
     let vds := s.vds.map fun v => if v.num == s.ctx.vd then { v with trapvec := gRead s ga } else v
     (s.slice = .a → exec (.syswr 0x009 ga) s = .next (aNext { s with ctx := { s.ctx with lodcnt := gRead s ga } } 4)) ∧
     (s.slice = .a → exec (.syswr 0x010 ga) s = .next (aNext { s with vds := vds } 4)) ∧
     (PlainIssue s = true → exec (.syswr 0x010 ga) s = .next (cIdle { s with vds := vds })))

/-- A write of VFLG clears each flag whose bit is one, and what lands later sets it again (R133). -/
def Obligations.VflgWriteClears : Prop :=
  (∀ (s : State) (ga : Reg), Declared s [.g ga] = true → PlainIssue s = true → ∃ t, exec (.syswr 0x003 ga) s = .next t ∧
    (∀ i : Fin 5, t.ctx.c.vflg.getLsbD i = (s.ctx.c.vflg.getLsbD i && !(gRead s ga).getLsbD i)) ∧
    t = { s with ctx := { s.ctx with c := { s.ctx.c with vflg := t.ctx.c.vflg, block := none } } }) ∧
  (∀ (x : Context) (p : Pending) (i : Fin 5), (land x p).c.vflg.getLsbD i = (x.c.vflg.getLsbD i || p.vflg.getLsbD i))

/-- The faults of system registers (R37, R132): a number that is not in the table, a register of the other slice, a level that may not. The words
that decoding refuses, in the order of R102, each with its subcause and what it reports. An instruction of the other slice, or one whose predicate
prefix only the C-slice takes, is WRONG_SLICE (R83, R85, R102), and one that names what the kernel header does not declare is DECLARATION (R25,
R102). The subcause of an unknown number is the model's reading (log 43). -/
def Obligations.SystemFaults : Prop :=
  (∀ (s : State) (g : Reg) (num : BitVec 12), num.toNat ∉ [0, 1, 2, 3, 4, 5, 6, 8, 9, 0x10, 0x11] →
    Takes s (.sysrd g num) { cause := .illegal, sub := 5 } ∧ Takes s (.syswr num g) { cause := .illegal, sub := 5 }) ∧
  (∀ (s : State) (g : Reg) (num : BitVec 12), (s.slice = .c ∧ num.toNat ∈ [1, 6, 9]) ∨ (s.slice = .a ∧ num.toNat = 3) →
    Takes s (.sysrd g num) { cause := .wrongSlice } ∧ Takes s (.syswr num g) { cause := .wrongSlice }) ∧
  (∀ (s : State) (g : Reg) (num : BitVec 12), s.ctx.sup = false → (num.toNat ∈ [4, 8, 0x10, 0x11] ∨ (s.slice = .a ∧ num.toNat ∈ [6, 9])) →
    Takes s (.sysrd g num) { cause := .privilege }) ∧
  (∀ (s : State) (g : Reg) (num : BitVec 12), num.toNat ∈ [0, 2, 4, 5, 8, 0x11] ∨ (s.slice = .a ∧ num.toNat ∈ [1, 6]) ∨
      (s.ctx.sup = false ∧ (num.toNat = 0x10 ∨ (s.slice = .a ∧ num.toNat = 9))) →
    Takes s (.syswr num g) { cause := .privilege }) ∧
  (∀ (s : State),
     Takes s .illegalZeroWord { cause := .illegal, sub := 2 } ∧
     (∀ k, Takes s (.definedIllegal k) { cause := .illegal, sub := 3, info := k.zeroExtend 64 }) ∧
     (∀ k, Takes s (.reservedEscape k) { cause := .illegal, sub := 4 }) ∧
     (∀ m l v, Takes s (.unallocatedMajor m l v) { cause := .illegal, sub := 5 })) ∧
  (∀ (s : State) (d a b : Reg) (q : Pq) (imm : BitVec 10), s.slice = .a → q ≠ ⟨false, 0⟩ →
    ∀ i ∈ [Instr.add d a b q, .sub d a b q, .mul d a b q, .div d a b q, .and d a b q, .shl d a b q, .min d a b q, .slt d a b q, .sel d a b q, .clz d a q,
        .addi d a q imm, .muli d a q imm, .shli d a q imm, .ldi d q imm],
      Takes s i { cause := .wrongSlice }) ∧
  (∀ (s : State) (ga gb : Reg) (off : BitVec 12) (o : CpyOps) (n : Fin 16) (b : Fin 8), s.slice = .c →
    ∀ i ∈ [Instr.ldD ga gb off, .stD ga gb off, .vld 0 ga off, .vst 0 ga off, .ldx ga off, .stx ga off, .qpushXq ga, .qpopYq ga, .badd b ga, .bwait b, .sgo n,
        .cpyIn o, .acq ga, .rel ga, .fenceT, .pbar, .dbar, .tseal n, .trel n, .spawn ga, .yield],
      Takes s i { cause := .wrongSlice }) ∧
  (∀ (s : State) (g : Reg) (slot : Fin 256) (lane : Fin 64) (f n : Fin 16) (pd : Fin 64) (m : VMods) (md : Fin 8) (fm : FMods), s.slice = .a →
    ∀ i ∈ [Instr.qpushYq g, .qpopXq g, .lds g slot lane, .sts g slot lane, .fset f n, .fwait f n, .pset pd m, .pclr pd m, .mzero md fm, .mstat g md fm],
      Takes s i { cause := .wrongSlice }) ∧
  (∀ (s : State) (d a b : Reg) (q : Pq), (s.slice = .a → q = ⟨false, 0⟩) → Declared s [.p (pqPred q), .g d, .g a, .g b] = false →
    ∀ i ∈ [Instr.add d a b q, .sub d a b q, .mul d a b q, .div d a b q, .and d a b q, .shl d a b q, .min d a b q, .slt d a b q, .sel d a b q],
      Takes s i { cause := .declaration }) ∧
  (∀ (s : State) (d a : Reg) (off : BitVec 12), s.slice = .a → Declared s [.g d, .g a] = false →
    ∀ i ∈ [Instr.ldB d a off, .ldW d a off, .ldD d a off, .stB d a off, .stW d a off, .stD d a off], Takes s i { cause := .declaration })

/-- Precise faults at user level (R235, R238, R239, R246). Of the A-slice: it stops at its instruction with the cause, subcause, information and
address, the cut is open until the C-slice stops, and nothing else changes. Of the C-slice, of a cause that its handler sees: both slices stop,
the cut is complete, its record names the cause, TRAPREC and the handler's address stand, and no register of either slice changes. At supervisor level the
task fails with HANDLER_FAULT (R247). -/
def Obligations.FaultsStop : Prop :=
  (∀ (s : State) (f : Flt), AFaults s = true → raise f s = aStopped s f) ∧
  (∀ (s : State) (f : Flt), CFaults s = true → classF f.cause = false → f.cause ≠ .trap → f.cause ≠ .brk →
     let x := (raise f s).ctx
     x.phase = .stopped ∧ x.a.stop.isSome ∧ x.c.stop.isSome ∧
     x.record.causeC = BitVec.ofNat 8 (causeCode f.cause) ∧ x.record.causeA = 0 ∧ x.record.subcause = f.sub ∧ x.record.faddr = f.faddr ∧
     x.record.info = f.info ∧ x.record.fpc = s.ctx.c.cur.pc ∧
     x.trapRec = BitVec.ofNat 64 (s.ctx.save.getD 0) ∧ x.vec = ((s.vds.find? fun v => v.num == s.ctx.vd).map (·.trapvec)).getD 0 ∧
     x.a.pc = s.ctx.a.pc ∧ x.a.regs = s.ctx.a.regs ∧ x.c.regs = s.ctx.c.regs ∧ x.c.v = s.ctx.c.v ∧ x.c.p = s.ctx.c.p ∧ x.q = s.ctx.q) ∧
  (∀ (s : State) (f : Flt), s.ctx.sup = true → isAlive s (handledCtx s).uid = true →
    failedWith (raise f s) (handledCtx s).uid .handlerFault = true)

/-- trap and brk (R130): the resume address is the next instruction, or the brk itself; at supervisor level they are privilege faults. nop and
done (R129): nop has no effect; done ends its slice, in the C-slice once every earlier instruction has issued. -/
def Obligations.TrapsAndDone : Prop :=
  (∀ (s : State) (k : BitVec 12), AFaults s = true →
    exec (.trap k) s = .next
      { aStopped { s with ctx := { s.ctx with a := { s.ctx.a with pc := s.ctx.a.pc + 4, order := s.ctx.a.order + 1 } } }
          { cause := .trap, info := k.zeroExtend 64 } with } ∧
    exec (.brk k) s = .next (aStopped s { cause := .brk, info := k.zeroExtend 64 })) ∧
  (∀ (s : State) (k : BitVec 12), s.slice = .c → s.ctx.sup = false → EarlierIssued s = true →
    (∃ t, exec (.trap k) s = .next t ∧ t = raise { cause := .trap, info := k.zeroExtend 64 } { s with ctx := { s.ctx with c := { s.ctx.c with hold := false } } }) ∧
    (∃ t, exec (.brk k) s = .next t ∧ t = raise { cause := .brk, info := k.zeroExtend 64 }
      { s with ctx := { s.ctx with c := { s.ctx.c with pc := s.ctx.c.cur.pc, hold := false } } })) ∧
  (∀ (s : State) (k : BitVec 12), s.ctx.sup = true → Takes s (.trap k) { cause := .privilege } ∧ Takes s (.brk k) { cause := .privilege }) ∧
  (∀ (s : State), s.ctx.sup = false → Takes s .eret { cause := .privilege }) ∧
  (∀ (s : State), s.slice = .a → exec .nop s = .next (aNext s 4)) ∧
  (∀ (s : State), PlainIssue s = true → exec .nop s = .next (cIdle s)) ∧
  (∀ (s : State), s.slice = .a → s.ctx.sup = false → exec .done s = .next (aDone s)) ∧
  (∀ (s : State), PlainIssue s = true → s.ctx.sup = false → EarlierIssued s = true → exec .done s = .next (cDone s))

/-- qpush and qpop (R19, R31, R32, R34, R43, R115, R134, R242): a value is pushed as one entry where there is room; the oldest entry leaves, poppable
from the C-cycle of its issue, and its value is written, in the C-slice after one C-cycle. What must wait blocks, and nothing else changes; a pop of a
poison entry stops there. -/
def Obligations.CouplingQueues : Prop :=
  (∀ (s : State) (ga : Reg), s.slice = .a → Declared s [.g ga] = true →
     (PushReady s 4 = true → exec (.qpushXq ga) s = .next (aNext (pushedToC s 4 ((gRead s ga).zeroExtend 4096) false true) 4)) ∧
     (PushReady s 4 = false → ∃ b, (b = .pushFull 4 ∨ b = .slipLimit) ∧ exec (.qpushXq ga) s = .next (aBlocked s b))) ∧
  (∀ (s : State) (ga : Reg), PlainIssue s = true → Declared s [.g ga] = true → s.ctx.q.yq.length < 32 →
     ∃ t, exec (.qpushYq ga) s = .next t ∧ t.ctx.q.yq = s.ctx.q.yq ++ [⟨gRead s ga, s.ctx.c.cc, s.ctx.q.nPushC + 1⟩] ∧
       t.ctx.q.push[7] = s.ctx.q.push[7] + 1 ∧ (∀ i : Fin 8, i ≠ 7 → t.ctx.q.push[i] = s.ctx.q.push[i]) ∧ t.ctx.q.nPushA = s.ctx.q.nPushA ∧
       t.ctx.q.pop = s.ctx.q.pop ∧ t.ctx.q.toC = s.ctx.q.toC ∧ t.ctx.q.sq = s.ctx.q.sq ∧
       t = { s with ctx := { s.ctx with q := t.ctx.q, a := { s.ctx.a with block := wakenA s.ctx.a.block }, c := { s.ctx.c with block := none } } }) ∧
  (∀ (s : State) (gd : Reg), s.slice = .a → Declared s [.g gd] = true →
     (∀ e l, s.ctx.q.yq = e :: l → e.readyAt ≤ s.ctx.c.cc → ∃ t, exec (.qpopYq gd) s = .next t ∧
       t.ctx.q.yq = l ∧ t.ctx.q.pop[7] = s.ctx.q.pop[7] + 1 ∧ t.ctx.a.pc = s.ctx.a.pc + 4 ∧ t.ctx.a.order = s.ctx.a.order + 1 ∧
       t.ctx.a.regs = (if gd = 0 then s.ctx.a.regs else s.ctx.a.regs.set gd e.val) ∧
       (gd ≠ 0 → t.ctx.a.fromYq[gd] = true) ∧ (∀ r : Reg, r ≠ gd → t.ctx.a.fromYq[r] = s.ctx.a.fromYq[r]) ∧
       OnlyMoved s t ∧ OnlyPopped 7 s.ctx.q t.ctx.q ∧ t.ctx.q.toC = s.ctx.q.toC ∧ t.ctx.q.sq = s.ctx.q.sq ∧ t.ctx.m = s.ctx.m ∧ t.mem = s.mem ∧
       t.durPend = s.durPend ∧ t.errs = s.errs) ∧
     ((s.ctx.q.yq = [] ∨ ∃ e l, s.ctx.q.yq = e :: l ∧ s.ctx.c.cc < e.readyAt) → exec (.qpopYq gd) s = .next (aBlocked s .popYq))) ∧
  (∀ (s : State) (gd : Reg) (e : AEntry), PlainIssue s = true → Declared s [.g gd] = true →
     (s.ctx.q.toC.find? fun x => x.queue == 4) = some e → e.poison = false → e.ready = true →
     ∃ t, exec (.qpopXq gd) s = .next t ∧
       t.ctx.c.pend = insPending ⟨s.ctx.c.cc + 1, s.ctx.c.cur.seq, [.cReg gd (e.data.truncate 64)], 0, 0⟩ s.ctx.c.pend ∧
       (∃ l r, s.ctx.q.toC = l ++ e :: r ∧ t.ctx.q.toC = l ++ r ∧ ∀ x ∈ l, x.queue ≠ 4) ∧ OnlyPopped 6 s.ctx.q t.ctx.q ∧
       t.ctx.q.sq = s.ctx.q.sq ∧ t.ctx.q.yq = s.ctx.q.yq ∧
       t = { s with ctx := { s.ctx with q := t.ctx.q, a := { s.ctx.a with block := wakenA s.ctx.a.block }, c := { s.ctx.c with
         pend := t.ctx.c.pend, pops := t.ctx.c.pops, block := none } } }) ∧
  (∀ (s : State) (g : Reg), s.slice = .c → Declared s [.g g] = true →
     (32 ≤ s.ctx.q.yq.length → ∃ t, exec (.qpushYq g) s = .next t ∧ CHeld s t .pushYq) ∧
     ((s.ctx.q.toC.find? fun x => x.queue == 4) = none → ∃ t, exec (.qpopXq g) s = .next t ∧ CHeld s t .popXq) ∧
     (∀ e, (s.ctx.q.toC.find? fun x => x.queue == 4) = some e →
       (e.poison = true → ∃ t, exec (.qpopXq g) s = .next t ∧ CHeld s t .poison) ∧
       (e.poison = false → e.ready = false → ∃ t, exec (.qpopXq g) s = .next t ∧ CHeld s t .popXq)))

/-- lds and sts (R128): a lane of a spill slot to a c register, and back. Byte barriers (R150): badd adds the low 32 bits; bwait blocks while the
barrier is positive and changes no register, no barrier and no memory when it completes. -/
def Obligations.SpillSlotsAndBarriers : Prop :=
  (∀ (s : State) (g : Reg) (slot : Fin 256) (lane : Fin 64), PlainIssue s = true → Declared s [.g g, .k slot] = true →
     exec (.lds g slot lane) s = .next (cAfter s 1 [.cReg g (s.ctx.c.k[slot].extractLsb' (64 * lane.val) 64)]) ∧
     ∃ data mask, exec (.sts g slot lane) s = .next (cAfter s 1 [.slot slot data mask]) ∧
       ∀ (x : Context) (l : Fin 64), (applyEffect x (.slot slot data mask)).c.k[slot].extractLsb' (64 * l.val) 64 =
         if l = lane then gRead s g else x.c.k[slot].extractLsb' (64 * l.val) 64) ∧
  (∀ (s : State) (b : Fin 8) (ga : Reg), s.slice = .a → Declared s [.bar b, .g ga] = true →
     exec (.badd b ga) s = .next (aNext { s with ctx := { s.ctx with m := { s.ctx.m with
       bars := s.ctx.m.bars.set b (s.ctx.m.bars[b] + (gRead s ga).truncate 32) } } } 4) ∧
     (0 < s.ctx.m.bars[b].toInt → exec (.bwait b) s = .next (aBlocked s .barrier)) ∧
     (s.ctx.m.bars[b].toInt ≤ 0 → ∃ recs, exec (.bwait b) s = .next (aNext { s with ctx := { s.ctx with m := { s.ctx.m with copyRecs := recs } } } 4)))

/-- Streams (R145, R146, R148, R149): sset writes one field of the shadow copy and no other; sget reads one, reserved bits zero; sgo makes a
valid shadow copy the newest armed snapshot, with the number of A-to-C pushes made, and raises STREAM_INVALID where R148 refuses it. -/
def Obligations.Streams : Prop :=
  (∀ (s : State) (n : Fin 16) (f : StrmField) (g : Reg), s.slice = .a → Declared s [.strm n, .g g] = true →
     exec (.sget g n f) s = .next (aAfter s g (s.ctx.m.streams[n].shadow.get f) 4) ∧
     ∃ d : Desc, exec (.sset n f g) s = .next (aNext { s with ctx := { s.ctx with m := { s.ctx.m with
         streams := s.ctx.m.streams.set n { s.ctx.m.streams[n] with shadow := d } } } } 4) ∧
       (∀ h : StrmField, h ≠ f → d.get h = s.ctx.m.streams[n].shadow.get h) ∧
       d.get f = gRead s g &&& (match f with
         | .base | .sbase => 0x7FFFFF
         | .etype => 0xF
         | .geom => 0xFF0FFF
         | .sstride => 0xFFFFFF
         | .loop _ => 0xFFFFFFFFFF)) ∧
  (∀ (s : State) (n : Fin 16), s.slice = .a → Declared s [.strm n] = true →
     let st := s.ctx.m.streams[n]
     (st.shadow.bad s.ctx.decl.spad = false → st.armed.length ≤ s.ctx.decl.slipl →
       ∃ armed, armed.getLast? = some ⟨st.shadow, s.ctx.q.nPushA⟩ ∧
         exec (.sgo n) s = .next (aNext { s with ctx := { s.ctx with m := { s.ctx.m with
           streams := s.ctx.m.streams.set n { st with armed := armed } } } } 4)) ∧
     (st.shadow.bad s.ctx.decl.spad = true → Takes s (.sgo n) { cause := .streamInvalid }))

/-- Scalar loads and stores of one word and of two (R141). That a load reads memory as performed at that step is the model's choice (log 10). -/
def Obligations.ScalarLoadsAndStores : Prop :=
  LoadGives .ldB .ldBExt .load 1 true ∧ LoadGives .ldH .ldHExt .load 2 true ∧ LoadGives .ldW .ldWExt .devLoad 4 true ∧
  LoadGives .ldD .ldDExt .devLoad 8 true ∧ LoadGives .ldBn .ldBnExt .load 1 false ∧ LoadGives .ldHn .ldHnExt .load 2 false ∧
  LoadGives .ldWn .ldWnExt .load 4 false ∧
  StoreGives .stB .stBExt .store 1 ∧ StoreGives .stH .stHExt .store 2 ∧ StoreGives .stW .stWExt .devStore 4 ∧
  StoreGives .stD .stDExt .devStore 8

/-- What a store does to memory, byte by byte (R137, R267, R270, R297, R299, R352). In a PRIV, TILE or DUR page, and in a SYNC page for a task that is
no rebuild, exactly its bytes change at once; those in the durable tier also await acceptance in the task's persist epoch. A rebuild's SYNC store
has no effect. In a SHRD page no byte changes: its bytes stand in one entry of the commit log, at the store's place in the program, or, where they
are bound to an object, among the stores held for it. That memory changes at once is the model's choice (log 10). -/
def Obligations.StoreChangesItsBytes : Prop :=
  ∀ (s : State) (order : Nat) (p : Place) (bs : List Byte), Memory.wf s.mem = true → bs ≠ [] →
    let t := storePlaces s order 0 [(p, bs.length)] (bs.map fun b => (b, true))
    let rest := t.ctx.m.log = s.ctx.m.log ∧ t.ctx.m.held = s.ctx.m.held ∧ t.ctx = { s.ctx with m := { s.ctx.m with past := t.ctx.m.past } }
    (p.mt = .priv ∨ p.mt = .tile ∨ p.mt = .dur ∨ (p.mt = .sync ∧ s.ctx.rebuild = false) → StoredAt s.mem t.mem p.pa bs ∧ rest ∧
      ((∀ i < bs.length, isDur (p.pa + i) = false) → t.durPend = s.durPend) ∧
      ((∀ i < bs.length, isDur (p.pa + i) = true) → ∃ new, t.durPend = s.durPend ++ new ∧
        (∀ d ∈ new, d.uid = s.ctx.uid ∧ d.epoch = s.ctx.m.epoch ∧ ∀ c ∈ d.cells, ∃ i b, bs[i]? = some b ∧ c = (p.pa + i, b)) ∧
        ∀ i b, bs[i]? = some b → ∃ d ∈ new, (p.pa + i, b) ∈ d.cells)) ∧
    (p.mt = .sync → s.ctx.rebuild = true → t = s) ∧
    (p.mt = .shrd → (∀ va, boundTo s { p with va := va } va = none) → t.mem = s.mem ∧ t.durPend = s.durPend ∧
      t.ctx = { s.ctx with m := { s.ctx.m with log := t.ctx.m.log } } ∧
      ∃ cells before after, s.ctx.m.log = before ++ after ∧ t.ctx.m.log = before ++ .store order 0 p.pa cells :: after ∧
        (∀ e ∈ before, entryOrder e ≤ order) ∧ (∀ e, after.head? = some e → order ≤ entryOrder e) ∧
        (∀ i b, bs[i]? = some b → (p.pa + i, b) ∈ cells) ∧ ∀ c ∈ cells, ∃ i b, bs[i]? = some b ∧ c = (p.pa + i, b)) ∧
    (∀ o, p.mt = .shrd → (∀ va, boundTo s { p with va := va } va = some o) → t.mem = s.mem ∧ t.durPend = s.durPend ∧
      t.ctx = { s.ctx with m := { s.ctx.m with held := t.ctx.m.held } } ∧
      ∃ new, t.ctx.m.held = s.ctx.m.held ++ new ∧
        (∀ h ∈ new, h.order = order ∧ h.obj = o ∧ ∀ c ∈ h.cells, ∃ i b, bs[i]? = some b ∧ c = (p.pa + i, b)) ∧
        ∀ i b, bs[i]? = some b → ∃ h ∈ new, (p.pa + i, b) ∈ h.cells)

/-- Loads and stores of DEV registers (R137, R276): once every earlier access of the task is performed they read or write the register, and wait
while a copy is in flight; at an address where the spec lays none down the model stops (log 4). -/
def Obligations.DeviceAccess : Prop :=
  (∀ (s : State) (gd ga : Reg) (pa : Nat) (off : BitVec 12), s.slice = .a → Declared s [.g gd, .g ga] = true → NoCopies s = false →
    (devPlace s (addressOf s ga off.toInt) 4 .devLoad = some pa → exec (.ldW gd ga off) s = .next (aBlocked s .ownCopies)) ∧
    (devPlace s (addressOf s ga off.toInt) 4 .devStore = some pa → exec (.stW gd ga off) s = .next (aBlocked s .ownCopies))) ∧
  ∀ (s : State) (gd ga : Reg) (pa : Nat) (off : BitVec 12), s.slice = .a → Declared s [.g gd, .g ga] = true → Settled s = true →
    (devPlace s (addressOf s ga off.toInt) 4 .devLoad = some pa → exec (.ldW gd ga off) s = match devRead s pa 4 with
      | some v => .next (aAfter s gd v 4)
      | none => .fault .devWindow) ∧
    (devPlace s (addressOf s ga off.toInt) 8 .devLoad = some pa → exec (.ldD gd ga off) s = match devRead s pa 8 with
      | some v => .next (aAfter s gd v 4)
      | none => .fault .devWindow) ∧
    (devPlace s (addressOf s ga off.toInt) 4 .devStore = some pa → exec (.stW gd ga off) s = match devWrite s pa 4 (gRead s gd) with
      | some t => .next (finish t 4)
      | none => .fault .devWindow) ∧
    (devPlace s (addressOf s ga off.toInt) 8 .devStore = some pa → exec (.stD gd ga off) s = match devWrite s pa 8 (gRead s gd) with
      | some t => .next (finish t 4)
      | none => .fault .devWindow)

/-- The faults of an address (R135, R136, R139, R273): bits [63:56] that are not all zero raise ADDRESS, a misaligned address raises MISALIGNED, a
store that cannot be logged for want of a page PAGE_FAULT (log 31). The instruction has no other effect: no register is written and no queue entry
popped. -/
def Obligations.AddressFaults : Prop :=
  ∀ (s : State) (g ga : Reg) (off : BitVec 12), s.slice = .a → Declared s [.g g, .g ga] = true → s.ctx.m.answers = [] →
    let a := addressOf s ga off.toInt
    (2 ^ 56 ≤ a.toNat →
      (∀ i ∈ [Instr.ldB g ga off, .ldH g ga off, .ldW g ga off, .ldD g ga off, .ldBn g ga off, .ldHn g ga off, .ldWn g ga off],
        Takes s i { cause := .address, faddr := a }) ∧
      (∀ i ∈ [Instr.stB g ga off, .stH g ga off, .stW g ga off, .stD g ga off], Takes s i { cause := .address, faddr := a, write := true })) ∧
    (a.toNat + 8 ≤ 2 ^ 55 →
      (a.toNat % 2 ≠ 0 → Takes s (.ldH g ga off) { cause := .misaligned, faddr := a } ∧ Takes s (.ldHn g ga off) { cause := .misaligned, faddr := a } ∧
        Takes s (.stH g ga off) { cause := .misaligned, faddr := a, write := true }) ∧
      (a.toNat % 4 ≠ 0 → Takes s (.ldW g ga off) { cause := .misaligned, faddr := a } ∧ Takes s (.ldWn g ga off) { cause := .misaligned, faddr := a } ∧
        Takes s (.stW g ga off) { cause := .misaligned, faddr := a, write := true }) ∧
      (a.toNat % 8 ≠ 0 → Takes s (.ldD g ga off) { cause := .misaligned, faddr := a } ∧
        Takes s (.stD g ga off) { cause := .misaligned, faddr := a, write := true })) ∧
    (∀ p v, checkAccess s .store a 1 [(a.toNat, 1)] = .ok [(p, 1)] → s.vd? s.ctx.vd = some v → v.noLog = true →
      p.mt = .shrd → boundTo s p p.va = none → objectToAsk s (.ok [(p, 1)]) [(a.toNat, 1)] = none → Takes s (.stB g ga off) { cause := .pageFault, faddr := a, write := true })

/-- vld and ldx (R142, R143): an entry is reserved and the bytes are read into it; a precise fault leaves a poison entry instead. vst and stx
(R144): the oldest poppable entry leaves its queue and its active bytes are stored, without an access if there are none. A full queue or the slip
limit holds a load, and a queue with no entry that is poppable yet a store: the A-slice blocks and nothing else changes. That the bytes are read at
the check is the model's reading (log 44). -/
def Obligations.QueueLoadsAndStores : Prop :=
  (∀ n : Fin 4, QueueLoadGives (.vld n) (.vldExt n) (n.castLE (by decide)) 1 512) ∧ QueueLoadGives .ldx .ldxExt 4 8 8 ∧
  (∀ (s : State) (ga : Reg) (len : Nat) (off : Int), s.slice = .a → Declared s [.g ga] = true →
     let a := addressOf s ga off
     (∀ (n : Fin 2) (i : Instr),
       ((∃ o : BitVec 12, i = .vst n ga o ∧ off = o.toInt ∧ len = 4) ∨ ∃ o : BitVec 32, i = .vstExt n ga o ∧ off = o.toInt ∧ len = 8) →
       (∀ (e : SEntry) (l : List SEntry), s.ctx.q.sq[n] = e :: l → e.readyAt ≤ s.ctx.c.cc →
         let bs := (vecBytes e.data).mapIdx fun j b => (b, e.mask.getLsbD j)
         let rs := activeRanges a.toNat bs
         ∀ u, ((rs = [] ∧ u = s) ∨ (rs ≠ [] ∧ ∃ ps, Writes s .store a 1 rs ps (activeBytes a.toNat bs rs) ∧
             u = storePlaces s s.ctx.a.order 0 ps (activeBytes a.toNat bs rs) ((nth (0, 0) rs 0).1 - a.toNat))) →
           ∃ t, exec i s = .next t ∧ t.ctx.q.sq[n] = u.ctx.q.sq[n].tail ∧ t.ctx.q.sq[1 - n] = u.ctx.q.sq[1 - n] ∧ t.ctx.q.yq = u.ctx.q.yq ∧
             t.ctx.q.toC = u.ctx.q.toC ∧ OnlyPopped (if n = 0 then 4 else 5) u.ctx.q t.ctx.q ∧ OnlyMoved u t ∧ t.ctx.m = u.ctx.m ∧
             t.mem = u.mem ∧ t.durPend = u.durPend ∧ t.errs = u.errs ∧
             t.ctx.a.pc = u.ctx.a.pc + BitVec.ofNat 64 len ∧ t.ctx.a.order = u.ctx.a.order + 1 ∧ t.ctx.a.regs = u.ctx.a.regs) ∧
       ((s.ctx.q.sq[n] = [] ∨ ∃ e l, s.ctx.q.sq[n] = e :: l ∧ s.ctx.c.cc < e.readyAt) → exec i s = .next (aBlocked s (.popSq n)))) ∧
     (∀ i : Instr,
       ((∃ o : BitVec 12, i = .stx ga o ∧ off = o.toInt ∧ len = 4) ∨ ∃ o : BitVec 32, i = .stxExt ga o ∧ off = o.toInt ∧ len = 8) →
       (∀ (e : YEntry) (l : List YEntry), s.ctx.q.yq = e :: l → e.readyAt ≤ s.ctx.c.cc →
         ∀ ps, Writes s .store a 8 [(a.toNat, 8)] ps (lowBytes 8 e.val) →
           let u := storePlaces s s.ctx.a.order 0 ps (lowBytes 8 e.val)
           ∃ t, exec i s = .next t ∧ t.ctx.q.yq = u.ctx.q.yq.tail ∧ t.ctx.q.sq = u.ctx.q.sq ∧
             t.ctx.q.toC = u.ctx.q.toC ∧ OnlyPopped 7 u.ctx.q t.ctx.q ∧ OnlyMoved u t ∧ t.ctx.m = u.ctx.m ∧
             t.mem = u.mem ∧ t.durPend = u.durPend ∧ t.errs = u.errs ∧
             t.ctx.a.pc = u.ctx.a.pc + BitVec.ofNat 64 len ∧ t.ctx.a.order = u.ctx.a.order + 1 ∧ t.ctx.a.regs = u.ctx.a.regs) ∧
       ((s.ctx.q.yq = [] ∨ ∃ e l, s.ctx.q.yq = e :: l ∧ s.ctx.c.cc < e.readyAt) → exec i s = .next (aBlocked s .popYq))))

/-- The atomics of SYNC memory (R163, R164), and the deferred ones of SHRD memory (R165). That they are performed at once is the model's choice (log
10); what a rebuild does not do, its reading (log 28). -/
def Obligations.AtomicOperations : Prop :=
  AmoGives .amoAdd .add ∧ AmoGives .amoMin .min ∧ AmoGives .amoMax .max ∧ AmoGives .amoOr .or ∧ AmoGives .amoAnd .and ∧
  AmoGives .amoXor .xor ∧ AmoGives .amoSwap .swap ∧ AmoGives .amoCas .cas ∧
  DamoGives .damoAdd .add ∧ DamoGives .damoMin .min ∧ DamoGives .damoMax .max ∧ DamoGives .damoOr .or

/-- The copies of R152. Chains (R154): cpy.link makes a free slot LINKED with its head, which must be 64-byte aligned (R136); cpy.kick makes a
LINKED slot active, and of any other slot has no effect. That a misaligned head or gather list is MISALIGNED is the model's reading (log 18). -/
def Obligations.CopiesAndChains : Prop :=
  CopyGives .cpyIn 0 ∧ CopyGives .cpyOut 1 ∧ CopyGives .cpy2dIn 2 ∧ CopyGives .cpy2dOut 3 ∧ CopyGives .cpyGth 4 ∧ CopyGives .cpyWb 5 ∧
  (∀ (s : State), s.slice = .a →
     (∀ (ga : Reg) (b : Fin 8) (slot : Fin 48), Declared s [.g ga, .bar b] = true →
       (s.ctx.m.slots[slot].state ≠ .free → exec (.cpyLink ga b slot) s = .next (aBlocked s .ownCopies)) ∧
       (s.ctx.m.slots[slot].state = .free → rangesFlt s [(gRead s ga, 64)] = none → (gRead s ga).toNat % 64 ≠ 0 →
         Takes s (.cpyLink ga b slot) { cause := .misaligned, faddr := gRead s ga }) ∧
       (s.ctx.m.slots[slot].state = .free → rangesFlt s [(gRead s ga, 64)] = none → (gRead s ga).toNat % 64 = 0 →
         exec (.cpyLink ga b slot) s = .next (aNext { s with ctx := { s.ctx with m := { s.ctx.m with
           slots := s.ctx.m.slots.set slot { Slot.free with
             state := .linked, kind := 6, ga := gRead s ga, b := b, chain := true, entry := gRead s ga } } } } 8))) ∧
     (∀ slot : Fin 48,
       (s.ctx.m.slots[slot].state ≠ .linked → exec (.cpyKick slot) s = .next (aNext s 8)) ∧
       (s.ctx.m.slots[slot].state = .linked → CheckerFree s slot (chainExtents s.ctx.decl.spad) = true →
         ∃ recs, (s.ctx.det = false → recs = s.ctx.m.copyRecs) ∧
           exec (.cpyKick slot) s = .next (aNext { s with ctx := { s.ctx with m := { s.ctx.m with
             copyRecs := recs
             slots := s.ctx.m.slots.set slot { s.ctx.m.slots[slot] with
               state := .active, order := s.ctx.a.order, epoch := s.ctx.m.epoch, phase := s.ctx.m.phase, binds := s.ctx.m.bindings } } } } 8))))

/-- acq taints the task; rel performs what is held for its object, then adds one to the counter, and in a rebuild task has no effect (R161, R267).
bind (R160): regions that the new one meets go, and the new one is added; with 16 others left it is BIND_LIMIT. What rel waits for, and that a
rebuild's has no effect, is the model's reading (log 28). -/
def Obligations.SyncAndBind : Prop :=
  (∀ (s : State) (ga : Reg) (p : Place) (k : Nat), s.slice = .a → Declared s [.g ga] = true →
     let a := gRead s ga
     (checkAccess s .load a 8 [(a.toNat, 8)] = .ok [(p, k)] → p.mt = .sync →
       exec (.acq ga) s = .next (aNext { s with ctx := { s.ctx with m := { s.ctx.m with taint := true } } } 4)) ∧
     (checkAccess s .amo a 8 [(a.toNat, 8)] = .ok [(p, k)] →
       let obj := canonVa s s.ctx.vd a.toNat
       let mine := s.ctx.m.held.filter fun h => h.obj == obj
       let waits := s.ctx.m.slots.toList.any fun c => copyBound s obj c
       (s.ctx.rebuild = true → exec (.rel ga) s = .next (aNext s 4)) ∧
       (s.ctx.rebuild = false → waits = true → exec (.rel ga) s = .next (aBlocked s .ownCopies)) ∧
       (s.ctx.rebuild = false → waits = false → allHere mine → s.ctx.m.asks = 0 → ∃ t, exec (.rel ga) s = .next t ∧
         let m := heldDone s.mem mine
         t.mem = memSetCells m (cellsAt p.pa ((lowBytes 8 (BitVec.ofNat 64 (littleEndian (memGetN m p.pa 8) + 1))).map Prod.fst)) ∧
         (∀ h ∈ t.ctx.m.held, h.obj ≠ obj) ∧ (mine = [] → t.ctx.m = s.ctx.m) ∧
         t.ctx.m = { s.ctx.m with held := t.ctx.m.held, past := t.ctx.m.past } ∧ t.ctx.a.pc = s.ctx.a.pc + 4 ∧
         OnlyMoved s t ∧ t.ctx.a.regs = s.ctx.a.regs ∧ t.ctx.c = s.ctx.c ∧ t.ctx.q = s.ctx.q))) ∧
  (∀ (s : State) (gd ga gb : Reg), s.slice = .a → Declared s [.g gd, .g ga, .g gb] = true →
     let base := canonVa s s.ctx.vd (gRead s ga).toNat
     let len := (gRead s gb).toNat
     let left := s.ctx.m.bindings.filter fun x => !(x.base < base + len && base < x.base + x.len)
     (16 ≤ left.length → Takes s (.bind gd ga gb) { cause := .bindLimit }) ∧
     (left.length < 16 → gRead s ga ≠ 0 → len ≠ 0 → (gRead s ga).toNat % 64 = 0 → len % 64 = 0 → (gRead s gd).toNat % 8 = 0 →
       (gRead s ga).toNat + len ≤ 2 ^ 55 → (gRead s gd).toNat + 8 ≤ 2 ^ 55 →
       (∃ ps, typedPages s .shrd (gRead s ga).toNat len = Except.ok ps) →
       (∃ ps, typedPages s .sync (gRead s gd).toNat 8 = Except.ok ps) →
       exec (.bind gd ga gb) s = .next (aNext { s with ctx := { s.ctx with m := { s.ctx.m with
         bindings := left ++ [⟨base, len, canonVa s s.ctx.vd (gRead s gd).toNat⟩] } } } 4)))

/-- Fences, pbar and xlpf (R162, R167, R172, R267, R275, R299): with no copy in flight and no bound store held they complete, and change no register and no
memory; held stores they perform first; fence.dur and pbar begin a new persist epoch, pbar once the task's durable stores are accepted, here and at
other homes; with a copy in flight they block. pflush (R168): every byte of its range that a durable store still pends for stands again in the task's
persist epoch, with its present value, and memory does not change. What pflush does to pending stores and what a fence waits for is the model's reading (log 29). -/
def Obligations.FencesAndFlush : Prop :=
  (∀ (s : State), s.slice = .a →
     let later := aNext { s with ctx := { s.ctx with m := { s.ctx.m with epoch := s.ctx.m.epoch + 1 } } } 4
     (Settled s = true →
       exec .fenceT s = .next (aNext s 4) ∧ exec .fenceD s = .next (aNext s 4) ∧ exec .fenceP s = .next (aNext s 4) ∧
       exec .fenceS s = .next (aNext s 4) ∧ exec .fenceDur s = .next later) ∧
     (NoCopies s = true → allHere s.ctx.m.held → s.ctx.m.asks = 0 →
       (∀ i ∈ [Instr.fenceT, .fenceD, .fenceP, .fenceS], ∃ t, exec i s = .next t ∧ HeldPerformed s t ∧ t.ctx.m.epoch = s.ctx.m.epoch) ∧
       ∃ t, exec .fenceDur s = .next t ∧ HeldPerformed s t ∧ t.ctx.m.epoch = s.ctx.m.epoch + 1) ∧
     (NoCopies s = true →
       let waits := s.durPend.any (fun d => d.uid == s.ctx.uid) || s.durAway.any fun d => d.uid == s.ctx.uid
       (waits = false → exec .pbar s = .next later) ∧ (waits = true → exec .pbar s = .next (aBlocked s .pbar))) ∧
     (NoCopies s = false → ∀ i ∈ [Instr.fenceT, .fenceD, .fenceP, .fenceS, .fenceDur, .pbar, .dbar, .yield],
       (i = .dbar → ∃ g m, gangOf s s.ctx.uid = some g ∧ (g.members.find? fun m => m.uid == s.ctx.uid) = some m ∧ m.atBar = false) →
       exec i s = .next (aBlocked s .ownCopies)) ∧
     (∀ ga gb, Declared s [.g ga, .g gb] = true → exec (.xlpf ga gb) s =
       .next (aNext { s with ctx := { s.ctx with m := { s.ctx.m with xlpf := s.ctx.m.xlpf + 1 } } } 4))) ∧
  (∀ (s : State) (ga gb : Reg), s.slice = .a → Declared s [.g ga, .g gb] = true →
     (gRead s gb = 0 → exec (.pflush ga gb) s = .next (aNext s 4)) ∧
     (∀ ps, gRead s gb ≠ 0 → (gRead s ga).toNat + (gRead s gb).toNat ≤ 2 ^ 55 →
       typedPages s .dur (gRead s ga).toNat (gRead s gb).toNat = .ok ps →
       let inRange := fun (a : Nat) => ∃ p ∈ ps, p.1.pa ≤ a ∧ a < p.1.pa + p.2
       ∃ new : List DurStore, (∀ d ∈ new, d.uid = s.ctx.uid ∧ d.epoch = s.ctx.m.epoch ∧
           ∀ c ∈ d.cells, inRange c.1 ∧ c.2 = memGet s.mem c.1 ∧ ∃ e ∈ s.durPend, ∃ x ∈ e.cells, x.1 = c.1) ∧
         (∀ d ∈ s.durPend, ∀ c ∈ d.cells, inRange c.1 → ∃ e ∈ new, (c.1, memGet s.mem c.1) ∈ e.cells) ∧
         exec (.pflush ga gb) s = .next (aNext { s with durPend := s.durPend ++ new } 4)))

/-- dbar (R166, R270): a member's first try hands over the log of its phase and waits; it completes once that phase is committed. Nothing else
changes, but that a member of a gang of several packages also sends its arrival to them. yield (R171): with no copy in flight, a domain member goes on
at once; any other task ends its instruction and asks for the switch. -/
def Obligations.BarrierAndYield : Prop :=
  (∀ (s : State), s.slice = .a →
     (gangOf s s.ctx.uid = none → Takes s .dbar { cause := .domainNone }) ∧
     (∀ g m, gangOf s s.ctx.uid = some g → (g.members.find? fun m => m.uid == s.ctx.uid) = some m →
       let with_ := fun (f : Member → Member) => s.gangs.map fun g => if g.final then g else
         { g with members := g.members.map fun m => if m.uid = s.ctx.uid then f m else m }
       let waiting := { s with
         gangs := with_ fun m => { m with atBar := true, dbars := m.dbars + 1, log := s.ctx.m.log }
         ctx := { s.ctx with
           m := { s.ctx.m with log := [], held := unholdLogged s.ctx.m, past := [], phase := s.ctx.m.phase + 1 }
           a := { s.ctx.a with block := some .dbar } } }
       (m.atBar = true → m.dbars ≤ g.phase → exec .dbar s = .next (aNext { s with gangs := with_ fun m => { m with atBar := false } } 4)) ∧
       (m.atBar = true → g.phase < m.dbars → exec .dbar s = .next (aBlocked s .dbar)) ∧
       (m.atBar = false → NoCopies s = true → g.level ≠ 3 → exec .dbar s = .next waiting) ∧
       (m.atBar = false → NoCopies s = true → ∃ t, exec .dbar s = .next t ∧ t.ctx = waiting.ctx ∧ t.gangs = waiting.gangs ∧ t.mem = s.mem ∧
         t.tasks = s.tasks ∧ t.tiles = s.tiles ∧ t.recs = s.recs ∧ t.durPend = s.durPend ∧ t.cores = s.cores ∧ t.vds = s.vds ∧ t.parked = s.parked))) ∧
  (∀ (s : State) (k : Task), s.slice = .a → NoCopies s = true → s.task? s.ctx.uid = some k →
     (descDval k.desc = true → exec .yield s = .next (aNext s 4)) ∧
     (∀ c, descDval k.desc = false → s.core? s.ctx.core = some c → c.switchTo = none → (c.shadow.bind fun u => bankCtx? s u).any awaitsSpill = false →
       exec .yield s = .next (requestSwitch (aBlocked (aNext s 4) .yieldWait) s.ctx.core)))

/-- tacq (R157, R309, R348): an EMPTY handle takes a sealed and resident version of the task's VD, at this home or, once its answer has come, at
another; a version of another home is asked for there, and the A-slice waits for the answer; while the version is not ready the A-slice blocks; one
that is lost for good is TILE_LOST, as its home says too; the other faults of R157. How another home is asked is the model's (log 50). -/
def Obligations.TileAcquire : Prop :=
  ∀ (s : State) (tn : Fin 16) (ga : Reg), s.slice = .a → Declared s [.g ga] = true →
    let name := gRead s ga
    let acq := s.ctx.m.acquired
    let room := acq.contains name || decide (acq.length < 8)
    let empty := s.ctx.m.handles[tn].state == .empty
    (empty = false → Takes s (.tacq tn ga) { cause := .handleState }) ∧
    (empty = true → room = false → Takes s (.tacq tn ga) { cause := .tileLimit }) ∧
    (empty = true → room = true → tileVd name ≠ s.ctx.vd → Takes s (.tacq tn ga) { cause := .tileAccess }) ∧
    (empty = true → room = true → tileVd name = s.ctx.vd →
      (∀ k, awayHome s name = none → s.task? s.ctx.uid = some k →
        (neverReady s k name = true → Takes s (.tacq tn ga) { cause := .tileLost }) ∧
        (neverReady s k name = false → operandReady s k name = false → exec (.tacq tn ga) s = .next (aBlocked s (.tileAcquire name))) ∧
        (∀ t, neverReady s k name = false → operandReady s k name = true →
          (keptAccess s k name = some t ∨ (keptAccess s k name = none ∧ s.tile? k.vd name = some t ∧
            (t.check = true → rangeGood s t.vd t.va t.size = true ∧ (s.rec? name).any (fun r => r.digest == tileDigest s t.vd t.va t.size) = true))) →
          ∃ u, exec (.tacq tn ga) s = .next u ∧
            u.ctx.m = { s.ctx.m with
              handles := s.ctx.m.handles.set tn ⟨.acquired, name, t.va, t.size, false, 0⟩
              acquired := if acq.contains name then acq else acq ++ [name] } ∧
            (∀ x ∈ u.tiles, (x.vd = k.vd ∧ (x.name = name ∨ x.va = t.va)) ∨ x ∈ s.tiles) ∧ OnlyMoved { s with tiles := u.tiles } u ∧
            u.ctx.a.pc = s.ctx.a.pc + 4 ∧ u.ctx.a.regs = s.ctx.a.regs ∧ u.ctx.c = s.ctx.c ∧ u.ctx.q = s.ctx.q ∧ u.mem = s.mem ∧ u.durPend = s.durPend)) ∧
      (∀ h, awayHome s name = some h →
        (s.ctx.m.answers.any (fun r => r.tag == tagA) = false → peerLost s h = true → exec (.tacq tn ga) s = .next (aBlocked s (.tileLostAccess 0))) ∧
        (s.ctx.m.answers.any (fun r => r.tag == tagA) = false → peerLost s h = false → ∃ u, exec (.tacq tn ga) s = .next u ∧ Asked s u h) ∧
        (∀ r u, takeAnswer s tagA = (some r, u) →
          (r.status = 2 → exec (.tacq tn ga) s = .next (raise { cause := causeOf r.cause } u)) ∧
          (r.status ≠ 0 → r.status ≠ 2 → exec (.tacq tn ga) s = .next (aBlocked u (.tileAcquire name))) ∧
          (r.status = 0 → ∃ v, exec (.tacq tn ga) s = .next v ∧
            v.ctx.m = { s.ctx.m with
              handles := s.ctx.m.handles.set tn ⟨.acquired, name, globalVa h (answerWord r 0), answerWord r 1, false, 0⟩
              acquired := if acq.contains name then acq else acq ++ [name]
              answers := u.ctx.m.answers } ∧
            OnlyMoved s v ∧ v.ctx.a.pc = s.ctx.a.pc + 4 ∧ v.ctx.a.regs = s.ctx.a.regs ∧ v.ctx.c = s.ctx.c ∧ v.ctx.q = s.ctx.q ∧ v.mem = s.mem ∧
            v.durPend = s.durPend))))

/-- talloc (R158, R305, R312, R389): an EMPTY handle takes a new version among the task's outputs, at this home or, once its answer has come, at
another, which is asked for it; for a durable one the A-slice waits until its seal entry has been accepted; a name that exists is TILE_ACCESS but
for a task that runs again; no room, and reduced service, are TILE_NOSPACE; the other faults of R158. Where a version is placed is free (log 6). -/
def Obligations.TileAllocate : Prop :=
  ∀ (s : State) (tn : Fin 16) (ga gb : Reg), s.slice = .a → Declared s [.g ga, .g gb] = true →
    let name := gRead s ga
    let size := (gRead s gb).toNat
    let mine := (s.task? s.ctx.uid).any (fun k => (outputs k.desc).contains name) && !s.ctx.m.named.contains name
    let empty := s.ctx.m.handles[tn].state == .empty
    (empty = false → Takes s (.talloc tn ga gb) { cause := .handleState }) ∧
    (empty = true → mine = false → Takes s (.talloc tn ga gb) { cause := .tileAccess }) ∧
    (empty = true → mine = true → (size < 512 ∨ 4194304 < size ∨ size % 512 ≠ 0) → Takes s (.talloc tn ga gb) { cause := .tileSize }) ∧
    (empty = true → mine = true → 512 ≤ size → size ≤ 4194304 → size % 512 = 0 →
      (s.pkg.phase = .reduced → Takes s (.talloc tn ga gb) { cause := .tileNospace }) ∧
      (∀ v, s.pkg.phase ≠ .reduced → s.vd? s.ctx.vd = some v → awayHome s name = none →
        (begunTile s name = none → runsAgain s = false → ((s.tile? v.num name).isSome = true ∨ (openRec s name).isSome = true) →
          Takes s (.talloc tn ga gb) { cause := .tileAccess }) ∧
        (begunTile s name = none → s.tile? v.num name = none → (runsAgain s = true ∨ openRec s name = none) → (placeTile s v name size).2 = none →
          Takes s (.talloc tn ga gb) { cause := .tileNospace }) ∧
        (∀ u t, (begunTile s name = some t ∧ u = s) ∨ (begunTile s name = none ∧ allocTile s v s.ctx.uid (runsAgain s) name size = .ok (u, t)) →
          (tileDur t.name = true → rangePending u t.vd (t.va - 512) 512 = true → exec (.talloc tn ga gb) s = .next (aBlocked u .tallocSeal)) ∧
          (tileDur t.name = false ∨ rangePending u t.vd (t.va - 512) 512 = false →
            exec (.talloc tn ga gb) s = .next (aNext (allocDone u tn t) 4) ∧
              (allocDone u tn t).ctx.m.handles[tn] = ⟨.allocated, t.name, t.va, t.size, t.shadow, 0⟩))) ∧
      (∀ v h, s.pkg.phase ≠ .reduced → s.vd? s.ctx.vd = some v → awayHome s name = some h →
        (v.peers.contains h = false → Takes s (.talloc tn ga gb) { cause := .tileNospace }) ∧
        (v.peers.contains h = true → s.ctx.m.answers.any (fun r => r.tag == tagA) = false → peerLost s h = false → v.num = s.ctx.vd →
          ∃ u, exec (.talloc tn ga gb) s = .next u ∧ Asked s u h) ∧
        (∀ r u, v.peers.contains h = true → takeAnswer s tagA = (some r, u) →
          (r.status ≠ 0 → exec (.talloc tn ga gb) s = .next (raise { cause := causeOf r.cause } u)) ∧
          (r.status = 0 → ∃ w, exec (.talloc tn ga gb) s = .next w ∧
            w.ctx.m = { s.ctx.m with
              handles := s.ctx.m.handles.set tn ⟨.allocated, name, globalVa h (answerWord r 0), size, decide (answerWord r 1 = 1), 0⟩
              answers := u.ctx.m.answers, named := name :: s.ctx.m.named } ∧
            w.ctx.a.pc = s.ctx.a.pc + 4 ∧ w.ctx.a.regs = s.ctx.a.regs ∧ w.ctx.c = s.ctx.c ∧ w.ctx.q = s.ctx.q ∧ w.mem = s.mem))))

/-- tseal and pseal (R159, R169): the version of an ALLOCATED handle is sealed once no copy into it is in flight, the depths that other homes hold
have come, and, for pseal, each of its durable steps has been accepted: its record has the digest, and the handle is SEALED. trel frees an
ACQUIRED or SEALED handle and gives up its claim; taddr reads the address of any handle that is not EMPTY; the faults. How another home is asked is the
model's (log 50). -/
def Obligations.TileSealAndRelease : Prop :=
  (∀ (s : State) (tn : Fin 16), s.slice = .a →
     let h := s.ctx.m.handles[tn]
     (h.state ≠ .allocated → Takes s (.tseal tn) { cause := .handleState } ∧ Takes s (.pseal tn) { cause := .handleState }) ∧
     (h.state = .allocated → tileDur h.name = false → Takes s (.pseal tn) { cause := .psealType }) ∧
     (h.state = .allocated → copiesInto s h.va h.size = true →
       exec (.tseal tn) s = .next (aBlocked s .ownCopies) ∧ (tileDur h.name = true → exec (.pseal tn) s = .next (aBlocked s .ownCopies))) ∧
     (∀ v, h.state = .allocated → copiesInto s h.va h.size = false → s.vd? s.ctx.vd = some v → awayHome s h.name = none →
       s.ctx.m.answers.any (fun r => r.tag == tagA) = false → awayAcq s = [] →
       (h.step ≠ 3 → FirstSeal s v tn (.tseal tn)) ∧
       (tileDur h.name = true → h.step = 2 → rangePending s v.num (h.va - 512) 512 = false → FirstSeal s v tn (.pseal tn)) ∧
       (tileDur h.name = true → h.shadow = false → h.step = 1 → rangePending s v.num (h.va - 512) 512 = false →
         ∃ t, exec (.pseal tn) s = .next t ∧ t = { s with
           mem := t.mem, errs := t.errs, durPend := t.durPend, stamp := t.stamp
           ctx := { s.ctx with
             m := { s.ctx.m with handles := s.ctx.m.handles.set tn { h with step := 2 } }
             a := { s.ctx.a with block := some .psealStep } } })) ∧
     (∀ v home r u, h.state = .allocated → h.step ≠ 3 → copiesInto s h.va h.size = false → s.vd? s.ctx.vd = some v → awayHome s h.name = some home →
       takeAnswer s tagA = (some r, u) → s.ctx.m.answers.any (fun r => r.tag == tagA) = true → r.status ≠ 2 →
       ∀ i ∈ [Instr.tseal tn, .pseal tn], (i = .pseal tn → tileDur h.name = true) → ∃ t, exec i s = .next t ∧
         t.ctx.m = { s.ctx.m with handles := s.ctx.m.handles.set tn { h with state := .sealed }, answers := u.ctx.m.answers } ∧
         OnlyMoved { s with tasks := t.tasks } t ∧ t.ctx.a.pc = s.ctx.a.pc + 4 ∧ t.ctx.a.regs = s.ctx.a.regs ∧ t.ctx.q = s.ctx.q ∧ t.mem = s.mem)) ∧
  (∀ (s : State) (tn : Fin 16), s.slice = .a →
     let h := s.ctx.m.handles[tn]
     let freed := s.ctx.m.handles.set tn ⟨.empty, 0, 0, 0, false, 0⟩
     (h.state = .acquired ∨ h.state = .sealed → ∃ t, exec (.trel tn) s = .next t ∧
       t.ctx = (aNext { s with ctx := { s.ctx with m := { s.ctx.m with handles := freed } } } 4).ctx ∧
       t.tasks = s.tasks ∧ t.recs = s.recs ∧ t.cores = s.cores ∧ t.parked = s.parked ∧ (tileDur h.name = false → h.shadow = true → t.mem = s.mem) ∧
       (h.shadow = false → awayHome s h.name = none → ∀ x r, s.tile? s.ctx.vd h.name = some x → x.va = h.va →
         (s.tiles.filter fun y => y.vd == x.vd && y.name == x.name) = [x] → s.rec? h.name = some r → r.freed = false →
         t.tile? s.ctx.vd h.name = some { x with claims := x.claims - 1 })) ∧
     (h.state = .empty ∨ h.state = .allocated → Takes s (.trel tn) { cause := .handleState })) ∧
  (∀ (s : State) (tn : Fin 16) (gd : Reg), s.slice = .a → Declared s [.g gd] = true →
     (s.ctx.m.handles[tn].state ≠ .empty → exec (.taddr gd tn) s = .next (aAfter s gd (BitVec.ofNat 64 s.ctx.m.handles[tn].va) 4)) ∧
     (s.ctx.m.handles[tn].state = .empty → Takes s (.taddr gd tn) { cause := .handleState }))

/-- spawn (R170, R262): it first performs the task's bound stores; a valid descriptor's child stands at the tail of the core's deque, which has room
for it; in a rebuild, and for a child that a replacement must not create again, no child appears. Where the kept copy lies is free (log 6); the
overflow area is the model's reading (log 30). -/
def Obligations.SpawnChild : Prop :=
  (∀ (s : State) (ga : Reg), s.slice = .a → Declared s [.g ga] = true → allHere s.ctx.m.held → s.ctx.m.asks = 0 → ∃ u,
    exec (.spawn ga) s = exec (.spawn ga) u ∧ u.mem = heldDone s.mem s.ctx.m.held ∧ u.ctx.m.held = [] ∧ u.ctx.m.asks = 0 ∧
    u = { s with
      mem := u.mem, errs := u.errs, durPend := u.durPend
      ctx := { s.ctx with m := { s.ctx.m with held := [], past := u.ctx.m.past } } }) ∧
  ∀ (s u v : State) (ga : Reg) (bs ps : List Byte) (k : Task) (c : Core), s.slice = .a → Declared s [.g ga] = true →
    s.ctx.m.held = [] → s.ctx.m.asks = 0 →
    loadMem s .load (gRead s ga) 1 128 = .got u bs →
    let w1 := littleEndian ((bs.drop 8).take 8)
    let n := min (bits w1 60 56) 16
    ((n = 0 ∧ v = u ∧ ps = []) ∨ (n ≠ 0 ∧ loadMem u .load (BitVec.ofNat 64 (bits w1 55 0)) 1 (8 * n) id tagB = .got v ps)) →
    let d : Vector Word 16 := Vector.ofFn fun i => BitVec.ofNat 64 (littleEndian ((bs.drop (8 * i.val)).take 8))
    v.task? v.ctx.uid = some k → v.core? v.ctx.core = some c →
    (descInvalid v k.vd k.part d = true → exec (.spawn ga) s = .next (raise { cause := .descInvalid } v)) ∧
    (descInvalid v k.vd k.part d = false →
      (k.rebuild = true ∨ v.ctx.spawned < k.skipSpawn → ∃ t, exec (.spawn ga) s = .next t ∧ t.ctx.spawned = v.ctx.spawned + 1 ∧
        t.nextUid = v.nextUid ∧ t.cores = v.cores ∧ t.ctx.a.pc = v.ctx.a.pc + 4 ∧ t.ctx.a.regs = v.ctx.a.regs ∧ t.ctx.c = v.ctx.c ∧ t.ctx.q = v.ctx.q ∧
        t.ctx.m = v.ctx.m ∧ t.mem = v.mem ∧ t.tiles = v.tiles) ∧
      (k.rebuild = false → k.skipSpawn ≤ v.ctx.spawned → descDval d = false → c.deque.length < 64 → v.ctx.uid < v.nextUid →
        (∀ j ∈ v.tasks, j.uid < v.nextUid) →
        ∃ t, exec (.spawn ga) s = .next t ∧ t.ctx.spawned = v.ctx.spawned + 1 ∧ t.nextUid = v.nextUid + 1 ∧
          (t.task? v.nextUid).any (fun j => j.parent == some k.uid && j.state == .waiting && j.vd == k.vd) = true ∧
          (t.core? v.ctx.core).any (fun e => e.deque == c.deque ++ [v.nextUid]) = true ∧ t.ctx.a.pc = v.ctx.a.pc + 4 ∧ t.ctx.a.regs = v.ctx.a.regs ∧
          t.ctx.c = v.ctx.c ∧ t.ctx.q = v.ctx.q ∧ t.ctx.m = v.ctx.m ∧ t.tiles = v.tiles ∧
          (Memory.wf v.mem = true → ∀ a, ((t.task? v.nextUid).all fun j => decide (a < j.kcopy ∨ j.kcopy + 256 ≤ a) &&
              t.keeps.all fun x => x.pa != j.kcopy || decide (a < x.pa2 ∨ x.pa2 + 256 ≤ a)) = true → memGet t.mem a = memGet v.mem a)) ∧
      (k.rebuild = false → k.skipSpawn ≤ v.ctx.spawned → descDval d = false → 64 ≤ c.deque.length →
        ∀ w, spillHead v v.ctx.core k = .done w → ∃ t, exec (.spawn ga) s = .next t ∧ t.nextUid = w.nextUid + 1 ∧
          t.ctx.spawned = w.ctx.spawned + 1 ∧ t.ctx.a.pc = w.ctx.a.pc + 4) ∧
      (k.rebuild = false → k.skipSpawn ≤ v.ctx.spawned → descDval d = true → ∃ t, exec (.spawn ga) s = .next t ∧ t.nextUid = v.nextUid + 1))

/-- Vector arithmetic (R48, R71, R180 to R184): in a floating-point format by its rounding, on integers exactly, wrapped or clamped. What merges
into a queue entry or a port is the model's choice (log 20). -/
def Obligations.VectorArithmetic : Prop :=
  V2Gives .vadd 4 (fun t r a b => byType t (fun f => fAdd f r a b) fun _ => intOf t r.sat (· + ·) a b) ∧
  V2Gives .vsub 4 (fun t r a b => byType t (fun f => fSub f r a b) fun _ => intOf t r.sat (· - ·) a b) ∧
  V2Gives .vmul 5 (fun t r a b => byType t (fun f => fMul f r a b) fun _ => intOf t r.sat (· * ·) a b) ∧
  V2Gives .vmulz 5 (fun t r a b => byType t (fun f => fMulz f r a b) fun _ => intOf t r.sat (· * ·) a b) ∧
  V2Gives .vmulh 5 (fun t _ a b => intOf t false (fun x y => x * y / 2 ^ etWidth t) a b) ∧
  V2Gives .vmulhn 5 (fun t _ a b => plainBits (etWidth t) (a * b / 2 ^ etWidth t)) ∧
  V2Gives .vmin 4 (fun t _ a b => byType t (fun f => fMinMax f false a b) fun _ => intOf t false min a b) ∧
  V2Gives .vmax 4 (fun t _ a b => byType t (fun f => fMinMax f true a b) fun _ => intOf t false max a b) ∧
  V2Gives .vminn 4 (fun t _ a b => plainBits (etWidth t) (min a b)) ∧
  V2Gives .vmaxn 4 (fun t _ a b => plainBits (etWidth t) (max a b)) ∧
  V1Gives .vabs 4 false (fun t _ a => byType t
    (fun f => if (fval f a).isNan then (nanBits f, quietFlag f a a) else (a % 2 ^ (f.w - 1), 0)) fun w => intBits w false (asSigned w a).natAbs) ∧
  V1Gives .vneg 4 false (fun t _ a => byType t
    (fun f => if (fval f a).isNan then (nanBits f, quietFlag f a a) else ((a + 2 ^ (f.w - 1)) % 2 ^ f.w, 0)) fun w => intBits w false (-asSigned w a)) ∧
  V3Gives .vfma 6 (fun t r a b c => byType t (fun f => fFma f r a b c) fun _ => (0, 0)) ∧
  V3Gives .vfms 6 (fun t r a b c => byType t (fun f => fFms f r a b c) fun _ => (0, 0)) ∧
  V3Gives .vfnma 6 (fun t r a b c => byType t (fun f => fFnma f r a b c) fun _ => (0, 0))

/-- Vector logic, shifts, funnel shifts and counts (R185, R186). What merges into a queue entry or a port is the model's choice (log 20). -/
def Obligations.VectorLogicAndShifts : Prop :=
  V2Gives .vand 4 (fun _ _ a b => (a &&& b, 0)) ∧
  V2Gives .vor 4 (fun _ _ a b => (a ||| b, 0)) ∧
  V2Gives .vxor 4 (fun _ _ a b => (a ^^^ b, 0)) ∧
  V2Gives .vandn 4 (fun t _ a b => (a &&& (2 ^ etWidth t - 1 - b), 0)) ∧
  V1Gives .vnot 4 false (fun t _ a => (2 ^ etWidth t - 1 - a, 0)) ∧
  V2Gives .vshl 4 (fun t _ a b => plainBits (etWidth t) (a * 2 ^ min b (etWidth t))) ∧
  V2Gives .vshr 4 (fun t _ a b => (a / 2 ^ min b (etWidth t), 0)) ∧
  V2Gives .vsra 4 (fun t _ a b => intBits (etWidth t) false (asSigned (etWidth t) a / 2 ^ min b (etWidth t))) ∧
  (∀ n : Fin 64,
    V1Gives (fun vd va t m => .vshli vd va n t m) 4 false (fun t _ a => plainBits (etWidth t) (a * 2 ^ n.val)) ∧
    V1Gives (fun vd va t m => .vshri vd va n t m) 4 false (fun _ _ a => (a / 2 ^ n.val, 0)) ∧
    V1Gives (fun vd va t m => .vsrai vd va n t m) 4 false (fun t _ a => intBits (etWidth t) false (asSigned (etWidth t) a / 2 ^ n.val))) ∧
  V3Gives .vfshl 4 (fun t _ a b c => plainBits (etWidth t) ((a * 2 ^ etWidth t + b) * 2 ^ min c (etWidth t) / 2 ^ etWidth t)) ∧
  V3Gives .vfshr 4 (fun t _ a b c => plainBits (etWidth t) ((a * 2 ^ etWidth t + b) / 2 ^ min c (etWidth t))) ∧
  V1Gives .vpopc 4 false (fun t _ a => (onesIn (etWidth t) a, 0)) ∧
  V1Gives .vclz 4 false (fun t _ a => (zerosAbove (etWidth t) a, 0)) ∧
  V1Gives .vctz 4 false (fun t _ a => (zerosBelow (etWidth t) a, 0))

/-- Compares (R187): signed, unsigned and floating-point, with NV for the NaNs that the rule names. -/
def Obligations.VectorCompares : Prop :=
  VCmpGives .vceq (fun t a b => byType t (fun f => truth (eqVal (fval f a) (fval f b)) (quietFlag f a b)) fun _ => truth (decide (a = b))) ∧
  VCmpGives .vcne (fun t a b => byType t (fun f => truth (!eqVal (fval f a) (fval f b)) (quietFlag f a b)) fun _ => truth (decide (a ≠ b))) ∧
  VCmpGives .vclt (fun t a b => byType t (fun f => if anyNan f a b then truth false flNV else truth (ltVal (fval f a) (fval f b)))
    fun w => truth (decide (asSigned w a < asSigned w b))) ∧
  VCmpGives .vcle (fun t a b => byType t (fun f => if anyNan f a b then truth false flNV else truth (!ltVal (fval f b) (fval f a)))
    fun w => truth (decide (asSigned w a ≤ asSigned w b))) ∧
  VCmpGives .vcltn (fun _ a b => truth (decide (a < b))) ∧
  VCmpGives .vclen (fun _ a b => truth (decide (a ≤ b))) ∧
  VCmpGives .vcun (fun t a b => byType t (fun f => truth (anyNan f a b) (quietFlag f a b)) fun _ => truth false)

/-- Predicate logic and counts (R188, R189), and the await flag that holds them back (R29, R175). -/
def Obligations.PredicateOperations : Prop :=
  (∀ pd pa pb m,
    POpGives (.pand pd pa pb m) pd [pa, pb] m (fun s k => (pRead s pa).getLsbD k && (pRead s pb).getLsbD k) ∧
    POpGives (.por pd pa pb m) pd [pa, pb] m (fun s k => (pRead s pa).getLsbD k || (pRead s pb).getLsbD k) ∧
    POpGives (.pxor pd pa pb m) pd [pa, pb] m (fun s k => (pRead s pa).getLsbD k ^^ (pRead s pb).getLsbD k) ∧
    POpGives (.pandn pd pa pb m) pd [pa, pb] m (fun s k => (pRead s pa).getLsbD k && !(pRead s pb).getLsbD k) ∧
    POpGives (.pnot pd pa m) pd [pa] m (fun s k => !(pRead s pa).getLsbD k) ∧
    POpGives (.pset pd m) pd [] m (fun _ _ => true) ∧
    POpGives (.pclr pd m) pd [] m (fun _ _ => false)) ∧
  (∀ pd ca t m,
    VGives (.plt pd ca t m) m 2 none 1 [] [.p pd, .g ca] false false (fun s _ out =>
      PredIs (etWidth t) m (pRead s m.pm) pd (pRead s pd) (fun j => truth (decide (j < (gRead s ca).toNat))) out) ∧
    VGives (.pge pd ca t m) m 2 none 1 [] [.p pd, .g ca] false false (fun s _ out =>
      PredIs (etWidth t) m (pRead s m.pm) pd (pRead s pd) (fun j => truth (decide (j ≥ (gRead s ca).toNat))) out)) ∧
  (∀ (s : State) pd (m : VMods), PlainIssue s = true → Declared s ([.p pd, .p m.pm] ++ flagItems m.sf m.af) = true → m.af ≠ 0 →
    s.ctx.c.f[m.af] = 0 → exec (.pset pd m) s = .next (waitC s) ∧ exec (.pclr pd m) s = .next (waitC s))

/-- Conversions (R56, R63, R64, R190 to R195): which elements are converted, what governs each and where its result goes. What merges into a queue
entry or a port is the model's choice (log 20). -/
def Obligations.VectorConversions : Prop :=
  (∀ vd va src t m, VGives (.vcvt vd va src t m) m 4 (some vd) 1 [va] [] false false fun s p out =>
    LanesAre (etWidth t) (min (etWidth src) (etWidth t)) (4096 / max (etWidth src) (etWidth t)) m (pRead s m.pm)
      ((vdstOld s 1 (some vd)).getD 0 0) (fun j => convert src t m.rnd (element (etWidth src) (vsrcVal s p va) j)) out) ∧
  (∀ vd va vb t m, VGives (.vqnt vd va vb t m) m 4 (some vd) 1 [va, vb] [] false false fun s p out =>
    LanesAre (etWidth t) (etWidth t) 128 m (pRead s m.pm) ((vdstOld s 1 (some vd)).getD 0 0)
      (fun j => quantize (narrowTo t) m.rnd.mode (fval fp32 (element 32 (vsrcVal s p va) j)) (fval fp32 (element 32 (vsrcVal s p vb) j))) out) ∧
  (∀ vd va vb t m, let g := if etWidth t ≤ 8 then 4 else if t = .i16 then 2 else 1
    VGives (.vdqnt vd va vb t m) m 4 (some vd) g [va, vb] [] false (t == .mx) fun s p out =>
      let f := fun j => mulVal fp32 m.rnd.mode false (dqVal s t p j (element (etWidth t) (vsrcVal s p va) j))
        (fval fp32 (element 32 (vsrcVal s p vb) (j / 32)))
      if g = 1 then LanesAre 32 (etWidth t) 128 m (pRead s m.pm) ((vdstOld s 1 (some vd)).getD 0 0) f out
      else GroupIs 32 (etWidth t) g (128 * g) m (pRead s m.pm) (vdstOld s g (some vd)) f out) ∧
  (∀ vd va vb t m, VGives (.vpack4 vd va vb t m) m 4 (some vd) 1 [va, vb] [] false false fun s p out =>
    LanesAre 4 4 1024 m (pRead s m.pm) ((vdstOld s 1 (some vd)).getD 0 0)
      (fun j => intBits 4 m.rnd.sat (asSigned 8 (if j < 512 then element 8 (vsrcVal s p va) j else element 8 (vsrcVal s p vb) (j - 512)))) out) ∧
  (∀ vd va t m, VGives (.vunpk4 vd va t m) m 4 (some vd) 2 [va] [] false false fun s p out =>
    ∃ v0 v1 mask, out = .vecs [v0, v1] mask 0 ∧ ∀ j < 1024, element 8 (if j < 512 then v0 else v1) (j % 512) =
      if (pRead s m.pm).getLsbD (j / 2) then (intBits 8 false (asSigned 4 (element 4 (vsrcVal s p va) j))).1
      else if m.z then 0 else element 8 ((vdstOld s 2 (some vd)).getD (j / 512) 0) (j % 512)) ∧
  (∀ vd va t m,
    VGives (.vwid2 vd va t m) m 4 (some vd) 2 [va] [] false false (fun s p out =>
      GroupIs (2 * etWidth t) (etWidth t) 2 (4096 / etWidth t) m (pRead s m.pm) (vdstOld s 2 (some vd))
        (fun j => let a := element (etWidth t) (vsrcVal s p va) j
          byType t (fun f => valToFmt fp32 rne (fval f a)) fun w => intBits (2 * w) false (asSigned w a)) out) ∧
    VGives (.vwid4 vd va t m) m 4 (some vd) 4 [va] [] false false (fun s p out =>
      GroupIs (4 * etWidth t) (etWidth t) 4 (4096 / etWidth t) m (pRead s m.pm) (vdstOld s 4 (some vd))
        (fun j => intBits (4 * etWidth t) false (asSigned (etWidth t) (element (etWidth t) (vsrcVal s p va) j))) out)) ∧
  (∀ vd va vb t m, VGives (.vwmul2 vd va vb t m) m 5 (some vd) 2 [va, vb] [] false false fun s p out =>
    GroupIs (2 * etWidth t) (etWidth t) 2 (4096 / etWidth t) m (pRead s m.pm) (vdstOld s 2 (some vd))
      (fun j => intBits (2 * etWidth t) false (asSigned (etWidth t) (element (etWidth t) (vsrcVal s p va) j) *
        asSigned (etWidth t) (element (etWidth t) (vsrcVal s p vb) j))) out)

/-- Permutes, slides, moves, insertion and extraction (R196 to R200). What merges into a queue entry or a port is the model's choice (log 20). -/
def Obligations.VectorPermutesAndMoves : Prop :=
  (∀ vd va vb vc t m, let w := etWidth t; let n := 4096 / w
    VIdxGives (.vperm vd va vb t m) 3 vd [va, vb] [] w m (fun _ v j =>
      let win := min n (2 ^ w)
      element w (v.getD 0 0) (j / win * win + element w (v.getD 1 0) j % win)) ∧
    VIdxGives (.vperm2 vd va vb vc t m) 3 vd [va, vb, vc] [] w m (fun _ v j =>
      let win := min n (2 ^ (w - 1))
      let k := element w (v.getD 1 0) j % (2 * win)
      if k < win then element w (v.getD 0 0) (j / win * win + k) else element w (v.getD 2 0) (j / win * win + k - win))) ∧
  (∀ vd va t m, let w := etWidth t; let n := 4096 / w
    VGives (.vcomp vd va t m) m 3 (some vd) 1 [va] [] false false (fun s p out =>
      let act := (List.range n).filter fun j => (pRead s m.pm).getLsbD (j * w / 8)
      WholeIs w (fun k => match vd with
        | .sq _ => decide (8 * k / w < act.length)
        | _ => true) 0 (fun j => (act[j]?).elim 0 fun i => element w (vsrcVal s p va) i) out) ∧
    VIdxGives (.vexpd vd va t m) 3 vd [va] [] w m (fun s v j =>
      element w (v.getD 0 0) ((List.range j).filter fun i => (pRead s m.pm).getLsbD (i * w / 8)).length)) ∧
  (∀ vd va cb vc t m, let w := etWidth t; let n := 4096 / w
    VIdxGives (.vslup vd va cb vc t m) 3 vd [va, vc] [.g cb] w m (fun s v j =>
      let k := min (gRead s cb).toNat n
      if j ≥ k then element w (v.getD 0 0) (j - k) else element w (v.getD 1 0) (n - k + j)) ∧
    VIdxGives (.vsldn vd va cb vc t m) 3 vd [va, vc] [.g cb] w m (fun s v j =>
      let k := min (gRead s cb).toNat n
      if j + k < n then element w (v.getD 0 0) (j + k) else element w (v.getD 1 0) (j + k - n))) ∧
  (∀ vd va cb t m, VIdxGives (.vbcast vd va cb t m) 3 vd [va] [.g cb] (etWidth t) m (fun s v _ =>
    element (etWidth t) (v.getD 0 0) ((gRead s cb).toNat % (4096 / etWidth t)))) ∧
  (∀ vd ca t m,
    VIdxGives (.vsplat vd ca t m) 3 vd [] [.g ca] (etWidth t) m (fun s _ _ => (gRead s ca).toNat % 2 ^ etWidth t) ∧
    VIdxGives (.vidx vd ca t m) 3 vd [] [.g ca] (etWidth t) m (fun s _ j => ((gRead s ca).toNat + j) % 2 ^ etWidth t)) ∧
  (∀ vd va m, VIdxGives (.vmov vd va m) 3 vd [va] [] 8 m (fun _ v j => element 8 (v.getD 0 0) j)) ∧
  (∀ vd ca cb t m, let w := etWidth t
    VGives (.vins vd ca cb t m) m 3 (some vd) 1 [] [.g ca, .g cb] false false (fun s _ out =>
      WholeIs w (fun _ => true) 0 (fun j => if j = (gRead s cb).toNat % (4096 / w) then (gRead s ca).toNat % 2 ^ w
        else element w ((vdstOld s 1 (some vd)).getD 0 0) j) out)) ∧
  (∀ cd va cb t m, let w := etWidth t
    VGives (.vext cd va cb t m) m 3 none 1 [va] [.g cd, .g cb] false false (fun s p out =>
      let e := element w (vsrcVal s p va) ((gRead s cb).toNat % (4096 / w))
      out = .effs [.cReg cd (if t = .bf16 ∨ t = .f32 then BitVec.ofNat 64 e else BitVec.ofInt 64 (asSigned w e))] 0))

/-- Reductions, group maxima and prefix sums (R201 to R203). What merges into a queue entry or a port is the model's choice (log 20). -/
def Obligations.VectorReductions : Prop :=
  (∀ vd va t m, let w := etWidth t; let n := 4096 / w
    ∀ x ∈ [(Instr.vrsum vd va t m, Red.sum), (.vrmax vd va t m, .max), (.vrmin vd va t m, .min)],
    VGives x.1 m 8 (some vd) 1 [va] [] false false (fun s p out =>
      let e := fun j => if (pRead s m.pm).getLsbD (j * w / 8) then element w (vsrcVal s p va) j else redId t x.2
      WholeIs w (fun _ => true) (treeFlags (redOp t x.2) n.log2 e) (fun j => if j = 0 then treeVal (redOp t x.2) n.log2 e % 2 ^ w else 0) out)) ∧
  (∀ vd va (g : Fin 64) t m, let w := etWidth t; let n := 4096 / w
    VGives (.vgmax vd va g t m) m 8 (some vd) 1 [va] [] false false (fun s p out =>
      LanesAre w w n m (pRead s m.pm) ((vdstOld s 1 (some vd)).getD 0 0)
        (fun j => topOf t (element w (vsrcVal s p va)) (((List.range (2 ^ g.val)).map fun i => j / 2 ^ g.val * 2 ^ g.val + i).filter fun i =>
          (pRead s m.pm).getLsbD (i * w / 8))) out)) ∧
  (∀ vd va t m, let w := etWidth t; let n := 4096 / w
    VGives (.vscan vd va t m) m 8 (some vd) 1 [va] [] false false (fun s p out =>
      let x := element w (vsrcVal s p va)
      LanesAre w w n m (pRead s m.pm) ((vdstOld s 1 (some vd)).getD 0 0)
        (fun j => redOp t .sum (sumOf t x ((List.range j).filter fun i => (pRead s m.pm).getLsbD (i * w / 8))) (x j)) out))

/-- Estimates, Newton steps and functions (R67 to R75, R204 to R206) with DET_VIOLATION of the fast forms; the generator (R76, R207); spill and fill
(R208). A fast form's value is free within its bound (log 2, log 21). Of the functions themselves it gives, apart from the model: the special operands
in both forms, where a signalling NaN's NV is the model's choice for log2 and tanh (log 69); the reciprocal estimates of one binade within R67's
bound; powers of two; the spec's examples; and the generator as R76's rounds. -/
def Obligations.VectorFunctions : Prop :=
  SpecialOperands ∧ NewtonSpecials ∧ EstimateValues ∧ FunctionValues ∧ GeneratorValues ∧
  V1Gives .vrcpe 4 false (fun _ _ a => rcpe a) ∧ V1Gives .vrsqe 4 false (fun _ _ a => rsqe a) ∧
  V2Gives .vrcps 6 (fun _ r a b => rcps r.mode a b) ∧ V2Gives .vrsqs 6 (fun _ r a b => rsqs r.mode a b) ∧
  V1Gives .vexp2F 10 true (fun _ _ a => exp2F a) ∧ V1Gives .vlog2F 10 true (fun _ _ a => log2F a) ∧ V1Gives .vtanhF 10 true (fun _ _ a => tanhF a) ∧
  V1Gives .vexp2X 14 false (fun _ _ a => exp2X a) ∧ V1Gives .vlog2X 14 false (fun _ _ a => log2X a) ∧ V1Gives .vtanhX 14 false (fun _ _ a => tanhX a) ∧
  (∀ (s : State) vd va t m, PlainIssue s = true → s.ctx.det = true → m.af = 0 → va ≠ .stream → vd ≠ .stream →
    Declared s ((vsrcItems va ++ vdstItems 1 (some vd) ++ [.p m.pm]) ++ flagItems m.sf m.af) = true →
    ∀ i ∈ [Instr.vexp2F vd va t m, .vlog2F vd va t m, .vtanhF vd va t m], Takes s i { cause := .detViolation }) ∧
  (∀ vd ca cb m,
    VIdxGives (.vrng vd ca cb m) 6 vd [] [.g ca, .g cb] 32 m (fun s _ j => (cg (gRead s ca) ((gRead s cb).toNat + j)).1) ∧
    VIdxGives (.vrngD vd ca cb m) 6 vd [] [.g ca, .g cb] 64 m (fun s _ j =>
      let x := cg (gRead s ca) ((gRead s cb).toNat + j)
      x.1 * 2 ^ 32 + x.2)) ∧
  (∀ slot va m, VGives (.vspill slot va m) m 1 none 1 [va] [.k slot] false false (fun s p out =>
    ∃ (data : Vec) (mask : Pred), out = .effs [.slot slot data mask] 0 ∧ ∀ k < 512, let on := (pRead s m.pm).getLsbD k
      mask.getLsbD k = (on || m.z) ∧ element 8 data.toNat k = if on then element 8 (vsrcVal s p va) k else 0)) ∧
  (∀ vd slot m, VIdxGives (.vfill vd slot m) 1 vd [] [.k slot] 8 m (fun s _ j => element 8 s.ctx.c.k[slot].toNat j))

/-- Windows, accumulator moves and the count of an accumulator (R211, R216, R217, R220). fset and fwait (R225, R226): they add to
a flag and take from it; a sum above 15 is FLAG_OVERFLOW, and fwait waits for its count. -/
def Obligations.MatrixMovesAndFlags : Prop :=
  (∀ (s : State) w ca cb fm, EReady s (.wbsel w ca cb fm) fm [.g ca, .g cb] false →
    (windowOk (gRead s ca) (gRead s cb) = true → exec (.wbsel w ca cb fm) s =
      .next (eAfter { s with ctx := { s.ctx with c := { s.ctx.c with w := s.ctx.c.w.set w ⟨gRead s cb ++ gRead s ca, 0⟩ } } } 2 [] [] fm)) ∧
    (windowOk (gRead s ca) (gRead s cb) = false → Takes s (.wbsel w ca cb fm) { cause := .matrixInvalid })) ∧
  (∀ (s : State) md fm, EReady s (.mzero md fm) fm [] false → MoveReady s [md] [md] = true →
    exec (.mzero md fm) s = .next (eAfter (accsMoved s [md] (s.ctx.c.cc + 2)) 2 [] [.acc md 0] fm)) ∧
  (∀ (s : State) md ms fm, EReady s (.mmov md ms fm) fm [] false → MoveReady s [md, ms] [md] = true →
    exec (.mmov md ms fm) s = .next (eAfter (accsMoved s [md] (s.ctx.c.cc + 4)) 4 [] [.acc md (accSeen s.ctx.c ms)] fm)) ∧
  (∀ (s : State) md ms fm, EReady s (.mswap md ms fm) fm [] false → MoveReady s [md, ms] [md, ms] = true →
    exec (.mswap md ms fm) s =
      .next (eAfter (accsMoved s [md, ms] (s.ctx.c.cc + 4)) 4 [] [.acc md (accSeen s.ctx.c ms), .acc ms (accSeen s.ctx.c md)] fm)) ∧
  (∀ (s : State) cd md fm, EReady s (.mstat cd md fm) fm [.g cd] false → s.ctx.c.accLand[md] ≤ s.ctx.c.cc →
    let count := fun (p : FVal → Bool) => ((List.range 1024).filter fun n => p (fval fp32 (element 32 s.ctx.c.m[md].toNat n))).length
    exec (.mstat cd md fm) s = .next (eAfter s 2 [] [.cReg cd (BitVec.ofNat 64 (count FVal.isNan * 2 ^ 22 + count FVal.isInf * 2 ^ 11 +
      count fun v => !v.isNan && !v.isInf && !v.isZero))] fm)) ∧
  (∀ (s : State) md fm, PlainIssue s = true → Declared s (flagItems fm.sf fm.af) = true → s.ctx.c.cc < s.ctx.c.accLand[md] →
    exec (.mzero md fm) s = .next (waitC s)) ∧
  (∀ (s : State) (f n : Fin 16), PlainIssue s = true → Declared s [.flag f] = true →
     let flags := fun v => cIdle { s with ctx := { s.ctx with c := { s.ctx.c with f := s.ctx.c.f.set f v } } }
     (s.ctx.c.f[f].val + n.val + dueFlag s.ctx.c f ≤ 15 → exec (.fset f n) s = .next (flags (Fin.ofNat 16 (s.ctx.c.f[f].val + n.val)))) ∧
     (15 < s.ctx.c.f[f].val + n.val + dueFlag s.ctx.c f → Takes s (.fset f n) { cause := .flagOverflow }) ∧
     (n.val ≤ s.ctx.c.f[f].val → exec (.fwait f n) s = .next (flags (Fin.ofNat 16 (s.ctx.c.f[f].val - n.val)))) ∧
     (s.ctx.c.f[f].val < n.val → exec (.fwait f n) s = .next (waitC s)))

/-- mma and mmaz (R43, R60 to R62, R212 to R215, R220): each element of the bank is to take its sum of steps in ascending order, over what earlier
commands leave there, when the command lands 36 + ksteps C-cycles later; the windows' cursors and the walks have advanced, the array is held, and
no accumulator, other register or byte of memory changes at issue. Where a window's image holds less than the K steps consume, WB_OVERRUN ends the whole
context's run, and the bank's accumulators alone are undefined. That operands are read at issue is the model's reading (log 13). -/
def Obligations.MatrixProducts : Prop :=
  ∀ (s : State) md sa w shape pair ksteps fm, ∀ z : Bool,
    let i : Instr := if z then .mmaz md sa w shape pair ksteps fm else .mma md sa w shape pair ksteps fm
    let p := productOf md sa w shape pair ksteps
    let cc := s.ctx.c.cc
    EReady s i fm (p.streams.map Item.strm) true → unitFree s.ctx.c .array = true →
    (∀ q : Fin 4, s.ctx.c.accMove[bankAt md q] ≤ cc ∧ s.ctx.c.accDrain[bankAt md q] ≤ cc) →
    (p.windowsOk s = false → Takes s i { cause := .matrixInvalid }) ∧
    (p.windowsOk s = true → startAll s p.streams = none → Takes s i { cause := .streamInvalid }) ∧
    (∀ u ds, p.windowsOk s = true → startAll s p.streams = some (u, ds) → ds.all p.walkOk = false → Takes s i { cause := .streamInvalid }) ∧
    (∀ u ds, p.windowsOk s = true → startAll s p.streams = some (u, ds) → ds.all p.walkOk = true → checkC s (p.accs s ds) = none →
      let (fa, fb, k) := pairFmt pair
      let read := p.wins.mapM fun n => windowBands s.ctx.m.wb s.ctx.c.w[n] fb (s.ctx.c.w[n].cursor / 32) (p.kr / 32)
      let issued := fun ws effs => eAfter
        { (p.streams.foldl endWalk u) with ctx := { (p.streams.foldl endWalk u).ctx with c := { s.ctx.c with
            w := ws, long := s.ctx.c.long ++ [⟨.array, s.ctx.c.cur.seq, ksteps.val, 0⟩]
            accLand := (List.finRange 4).foldl (fun v q => v.set (bankAt md q) (cc + 36 + ksteps.val)) s.ctx.c.accLand } } }
        (36 + ksteps.val) (p.accs s ds) effs fm
      let as := ds.map fun d => streamBands s.ctx.m.spad d fa (shapeDims shape).1 (p.kr / 32)
      let own := fun (q : Fin 4) => if shape = .ind then q.val else 0
      ∃ ws : Vector Window 4,
        (∀ n : Fin 4, ws[n] = if n ∈ p.wins then { s.ctx.c.w[n] with cursor := s.ctx.c.w[n].cursor + p.kr } else s.ctx.c.w[n]) ∧
        (read = none → ∃ m : Vector Acc 8, (∀ n : Fin 8, n ∉ (List.finRange 4).map (bankAt md) → m[n] = s.ctx.c.m[n]) ∧
          let t := issued ws []
          exec i s = .next (raiseWhole { cause := .wbOverrun } s.ctx.c.cur.pc
            { t with fresh := t.fresh + 1, ctx := { t.ctx with c := { t.ctx.c with m := m } } })) ∧
        ∀ bs, read = some bs → ∃ m : Fin 4 → Acc, (∀ (q : Fin 4) (n : Nat), n < 1024 → element 32 (m q).toNat n =
          bandSteps k ksteps.val (lineOf (as.getD (own q) []) (shapeRow shape q + n / 32)) (lineOf (bs.getD (own q) []) (shapeCol shape q + n % 32))
            (if z then 0 else element 32 (accSeen s.ctx.c (bankAt md q)).toNat n) % 2 ^ 32) ∧
          exec i s = .next (issued ws ((List.finRange 4).map fun q => .acc (bankAt md q) (m q))))

/-- mdrain (R63, R64, R218 to R220): the 1,024 elements of the accumulator go through the epilogue to the walk of its output stream, and the
accumulator does not change; the precise faults of R219. That operands are read at issue is the model's reading (log 13). -/
def Obligations.MatrixDrain : Prop :=
  ∀ (s : State) md sa sx dm fm,
    let i := Instr.mdrain md sa sx dm fm
    let n := epiCount dm
    let w := (drainFmt dm.ot).width
    let cc := s.ctx.c.cc
    let streams := sa :: if n > 0 then [sx] else []
    EReady s i fm (streams.map Item.strm) true → unitFree s.ctx.c .drain = true → s.ctx.c.accLand[md] ≤ cc →
    (startAll s streams = none → Takes s i { cause := .streamInvalid }) ∧
    (∀ u d ds, startAll s streams = some (u, d :: ds) →
      let dx := ds.getD 0 Desc.zero
      let ok := decide (d.etype.toNat = drainCode dm.ot ∧ 128 * w ≤ d.length ∧ (n > 0 → dx.etype = 5 ∧ 4 * n ≤ dx.length))
      let accs := (d.extents true).map (fun e => (e, cc + 41, cc + 72)) ++ if n > 0 then (dx.extents false).map fun e => (e, cc, cc + 31) else []
      (ok = false → Takes s i { cause := .streamInvalid }) ∧
      (ok = true → checkC s accs = none →
        let x := fun j => element 32 (littleEndian (walkRead s.ctx.m.spad dx 0 (4 * n))) j
        let n1 := if dm.rs then 32 else 0
        let n2 := n1 + if dm.cs then 32 else 0
        let n3 := n2 + if dm.bias then 32 else 0
        let n4 := n3 + if dm.act = .clamp then 2 else 0
        let act : Activation := match dm.act with
          | .none => .none
          | .relu => .relu
          | .clamp => .clamp (x n3) (x (n3 + 1))
        let out := fun e => drainElem (if dm.rs then some (x (e / 32)) else none) (if dm.cs then some (x (n1 + e % 32)) else none)
          (if dm.bias then some (x (n2 + e % 32)) else none) act (drainFmt dm.ot) dm.rnd.mode (if dm.q then some (x (n4 + e % 32)) else none)
          (element 32 s.ctx.c.m[md].toNat e)
        ∃ bytes fl, bytes.length = 128 * w ∧ (∀ e < 1024, element w (littleEndian bytes) e = (out e).1 % 2 ^ w) ∧
          FlagsAre 1024 (fun _ => true) out fl ∧
          let t := streams.foldl endWalk u
          exec i s = .next (eAfter { t with ctx := { t.ctx with c := { t.ctx.c with
            long := t.ctx.c.long ++ [⟨.drain, t.ctx.c.cur.seq, 32, 0⟩], accDrain := t.ctx.c.accDrain.set md (cc + 32) } } }
            72 accs [.spad (walkCells d 0 bytes)] fm fl)))

/-- The row commands (R222 to R224): rows of the input stream give their elements, then one FP32 value each where the form has it, to the walk of
the output stream, with the flags of all of them; the precise faults of R222. That operands are read at issue is the model's reading (log 13); so is a negative mean square of
rnorm (log 23). -/
def Obligations.RowCommands : Prop :=
  ∀ (s : State) (r : RowOps), ∀ c ∈ [(Instr.rsmax r, RowFn.smax), (.rexps r, .exps), (.rscal r, .scal), (.rsoftmax r, .softmax), (.rnorm r, .norm)],
    let useSm := c.2 == .exps || c.2 == .scal
    let useK := c.2 == .exps || c.2 == .softmax || c.2 == .norm
    let streams := [r.si, r.so] ++ if useSm then [r.sm] else []
    let cc := s.ctx.c.cc
    EReady s c.1 r.fm (streams.map Item.strm ++ if useK then [.g r.ck] else []) true → unitFree s.ctx.c .row = true →
    (startAll s streams = none → Takes s c.1 { cause := .streamInvalid }) ∧
    (∀ u di dout ds, startAll s streams = some (u, di :: dout :: ds) →
      let dm := ds.getD 0 Desc.zero
      let rowBytes := r.len.val * rowInBytes r.it
      let rows := di.length / rowBytes
      let o := rowOutFmt r.ot
      let elems := if c.2 == .smax then 0 else rows * r.len.val
      let outBytes := elems * (o.width / 8) + if c.2 == .smax || c.2 == .exps then 4 * rows else 0
      let ok := decide (di.etype.toNat = rowInCode r.it ∧ di.length % rowBytes = 0 ∧ rows ≤ 4096 ∧
        (useSm = true → dm.etype = 5 ∧ 4 * rows ≤ dm.length) ∧ dout.etype.toNat = rowOutCode r.ot ∧ outBytes ≤ dout.length)
      let occ := (rowTimes c.2).1 * rows * ((r.len.val + 63) / 64)
      let lat := (rowTimes c.2).2 + occ
      let accs := (di.extents false).map (fun e => (e, cc, cc + occ - 1)) ++
        (if useSm then (dm.extents false).map fun e => (e, cc, cc + occ - 1) else []) ++ (dout.extents true).map fun e => (e, cc + 1, cc + lat)
      (ok = false → Takes s c.1 { cause := .streamInvalid }) ∧
      (ok = true → checkC s accs = none →
        let input := fun n => littleEndian ((walkRead s.ctx.m.spad di 0 (rows * rowBytes)).drop (n * rowBytes) |>.take rowBytes)
        let res := fun n => rowRun c.2 o r.rnd.mode ((List.range r.len.val).map fun l => (rowElem r.it (input n) l).1)
          (element 32 (littleEndian (walkRead s.ctx.m.spad dm 0 (4 * rows))) n) ((gRead s r.ck).toNat % 2 ^ 32)
        ∃ bytes fl, bytes.length = outBytes ∧
          (∀ n < rows, ∀ l < r.len.val, c.2 ≠ .smax →
            element o.width (littleEndian bytes) (n * r.len.val + l) = (((res n).elems.getD l (0, 0)).1) % 2 ^ o.width) ∧
          (∀ n < rows, c.2 = .smax ∨ c.2 = .exps →
            element 32 (littleEndian (bytes.drop (elems * (o.width / 8)))) n = (((res n).tail.getD (0, 0)).1) % 2 ^ 32) ∧
          (∀ i : Fin 5, fl.getLsbD i = true ↔ ∃ n < rows, (∃ l < r.len.val, (rowElem r.it (input n) l).2.getLsbD i = true) ∨
            ∃ x ∈ (res n).elems ++ (res n).tail.toList, x.2.getLsbD i = true) ∧
          let t := streams.foldl endWalk u
          exec c.1 s = .next (eAfter { t with ctx := { t.ctx with c := { t.ctx.c with
            long := t.ctx.c.long ++ [⟨.row, t.ctx.c.cur.seq, occ, 0⟩] } } } lat accs
            [.spad (walkCells dout 0 bytes)] r.fm fl)))

/-- RESULT_LANDING (R29, R41, R43, R254): the oldest operation that is due lands: its effects become visible, its set flag grows by one, its VFLG
bits rise; scoreboard mode ends with the last one issued before the cut. Where none is due, nothing changes. That each landing is a step of its own
is the model's (log 11). -/
def Obligations.ResultsLand : Prop :=
  ∀ (s : State), (∀ p l, s.ctx.c.pend = p :: l → p.due ≤ s.ctx.c.cc →
    let x := landedCtx s p l
    exec .resultLanding s = .next { s with ctx := { x with
      sb := s.ctx.sb && !(decide (s.ctx.sbTill ≤ s.ctx.c.cc) && l.all fun q => decide (s.ctx.c.cc < q.due)) } } ∧
    (p.sf ≠ 0 → x.c.f[p.sf] = s.ctx.c.f[p.sf] + 1) ∧ x.c.vflg = s.ctx.c.vflg ||| p.vflg ∧ x.a = s.ctx.a ∧ x.q = s.ctx.q) ∧
  ((∀ p ∈ s.ctx.c.pend, s.ctx.c.cc < p.due) → exec .resultLanding s = .next s)

/-- eret (R131, R248, R249): the first slice's only marks it; with the second's the handler is over, and the task goes on: its program counters,
registers, VFLG and LODCNT as its save area holds them, everything else as at its cut, poison entries withdrawn, copies that stopped at a reported fault
active again, and its handler's context gone. -/
def Obligations.HandlerReturns : Prop :=
  ∀ (s : State), s.ctx.sup = true → s.ctx.a.stopped = false → s.ctx.c.stopped = false → EarlierIssued s = true →
    (s.slice = .a → s.ctx.c.eret = false →
      exec .eret s = .next { s with ctx := { s.ctx with a := { s.ctx.a with eret := true, order := s.ctx.a.order + 1 } } }) ∧
    (s.slice = .c → s.ctx.a.eret = false → exec .eret s = .next { s with ctx := { s.ctx with c := { s.ctx.c with eret := true } } }) ∧
    ((s.slice = .a ∧ s.ctx.c.eret = true) ∨ (s.slice = .c ∧ s.ctx.a.eret = true) →
      s.ctx.q.toC = [] → s.ctx.q.sq = #v[[], []] → s.ctx.q.yq = [] → NoCopies s = true →
      ∀ x, s.context? s.ctx.uid = some x → ∃ y, exec .eret s = .next { s with ctx := y, parked := s.parked.filter fun c => c.uid != x.uid } ∧
        y.phase = .running ∧ y.sup = x.sup ∧ y.uid = x.uid ∧ y.decl = x.decl ∧ y.core = s.ctx.core ∧ y.bank = s.ctx.bank ∧
        y.a.stop = none ∧ y.c.stop = none ∧ y.c.block = none ∧ y.a.block = (if x.a.block = some .remote then some .remote else none) ∧
        (∀ base, x.save = some base →
          let d := x.decl
          let part := fun (at_ n i w : Nat) => littleEndian (((hwRead s x.vd (base + at_) n).drop i).take w)
          let cr := sectOff d x.det .cregs
          let vs := sectOff d x.det .vectors
          let ps := sectOff d x.det .preds
          y.a.pc = BitVec.ofNat 64 (part 8 8 0 8) ∧ y.c.pc = BitVec.ofNat 64 (part 16 8 0 8) ∧
          (∀ r : Reg, y.a.regs[r] = if r.val < d.nareg then BitVec.ofNat 64 (part 1024 (8 * d.nareg) (8 * r.val) 8) else x.a.regs[r]) ∧
          (∀ r : Reg, y.c.regs[r] = if r.val < d.ncreg then BitVec.ofNat 64 (part cr (8 * d.ncreg + 16) (8 * r.val) 8) else x.c.regs[r]) ∧
          y.c.vflg = BitVec.ofNat 5 (part cr (8 * d.ncreg + 16) (8 * d.ncreg) 8) ∧
          y.lodcnt = BitVec.ofNat 64 (part cr (8 * d.ncreg + 16) (8 * d.ncreg + 8) 8) ∧
          (∀ n : Fin 48, y.c.v[n] = if n.val < d.nvreg then BitVec.ofNat 4096 (part vs (512 * (d.nvreg + 10)) (512 * n.val) 512) else x.c.v[n]) ∧
          (∀ n : Fin 64, n.val < d.npred → (y.c.p)[n] = BitVec.ofNat 512 (part ps (64 * d.npred) (64 * n.val) 64))) ∧
        y.c.m = x.c.m ∧ y.c.w = x.c.w ∧ y.c.f = x.c.f ∧ y.c.pend = x.c.pend ∧ y.c.queues = x.c.queues ∧ y.m.spad = x.m.spad ∧ y.m.wb = x.m.wb ∧
        y.m.handles = x.m.handles ∧ y.m.bars = x.m.bars ∧ y.m.streams = x.m.streams ∧
        (∀ i : Fin 48, y.m.slots[i] = if x.m.slots[i].state = .faulted ∧ x.m.slots[i].cause = none then { x.m.slots[i] with state := .active }
          else x.m.slots[i]) ∧
        y.q.toC = x.q.toC.filter (fun e => !e.poison) ∧ y.q.sq = x.q.sq ∧ y.q.yq = x.q.yq ∧
        y.m.log = x.m.log ++ s.ctx.m.log ∧ y.m.held = x.m.held ++ s.ctx.m.held)

/-- The exceptions that no instruction takes (R20, R21, R246, R255): both deadlocks fail the task with their cause; SILENT_ERR aborts it and creates
it again, or fails a tainted one; and the handler is entered with TRAPREC and the record's first word in registers 1 and 2. When the deadlocks are
raised is the model's reading (log 15). -/
def Obligations.ContextEvents : Prop :=
  EventGives .decoupleDeadlock (fun s => s.live && decoupleStuck s.ctx && !s.ctx.sup && isAlive s s.ctx.uid)
    (fun s t => failedWith t s.ctx.uid .decoupleDeadlock ((stuckA s.ctx + 16 * stuckC s.ctx) % 256)) ∧
  EventGives .flagDeadlock (fun s => flagStuck s && !s.ctx.sup && isAlive s s.ctx.uid)
    (fun s t => failedWith t s.ctx.uid .flagDeadlock) ∧
  EventGives .silentErr (fun s => taskIs s (uidPick s) (fun k => k.state == .running && !descDval k.desc))
    (fun s t => if ctxIs s (uidPick s) (·.m.taint) then failedWith t (uidPick s) .silentErr
      else taskIs t (uidPick s) (fun k => k.state == .aborted && k.cause == some .silentErr) &&
        t.tasks.any fun j => j.replaces == some (uidPick s) && j.uid == s.nextUid && j.state == .waiting && j.rgth) ∧
  EventGives .handlerEntry (fun s => s.live && s.ctx.phase == .stopped && !s.ctx.record.preempt && !s.ctx.sup && uidPick s == s.ctx.uid &&
      !(s.core? s.ctx.core).any (fun c => c.switchTo.isSome) &&
      match loaderCheck s s.ctx.uid s.ctx.vd s.ctx.vec.toNat true s.ctx.det with
      | .ok _ c => [c.aoff, c.coff].all fun o => match translate s s.ctx.vd (s.ctx.vec.toNat + o) .fetch true with
        | .ok p => p.pin
        | .error _ => false
      | _ => false)
    (fun s t => match loaderCheck s s.ctx.uid s.ctx.vd s.ctx.vec.toNat true s.ctx.det with
      | .ok d c => t.ctx.sup && t.ctx.phase == .running && t.ctx.uid == s.ctx.uid && t.ctx.decl == d &&
          t.ctx.a.pc == BitVec.ofNat 64 (c.base + c.aoff) && t.ctx.c.pc == BitVec.ofNat 64 (c.base + c.coff) &&
          t.ctx.a.regs[1] == s.ctx.trapRec && t.ctx.c.regs[1] == s.ctx.trapRec && t.ctx.a.regs[2] == recordWord0 s.ctx s.ctx.record &&
          t.ctx.c.regs[2] == t.ctx.a.regs[2] && t.parked == { s.ctx with phase := .handled } :: s.parked && t.mem == s.mem && t.tasks == s.tasks
      | _ => false)

/-- Cores and deques (R22, R170, R252, R253, R325, R329 to R335). When a timer ends is free (log 12); which context comes in is the model's reading
(log 33). -/
def Obligations.CoreEvents : Prop :=
  EventGives .residencyTimeout (fun s => (corePick s fun c => blockedTile s c && shadowOk s c).isSome)
    (fun s t => (corePick s fun c => blockedTile s c && shadowOk s c).all fun c => coreIs t c.num fun e => e.switchTo == some c.shadow) ∧
  EventGives .switchComplete (fun s => (corePick s fun c => c.switchTo.isSome || comesBack s c || pairSwitch s c).any fun c =>
      !c.again && !(c.active.bind (bankCtx? s)).any fun x => c.switchTo.isSome && x.phase == .cut)
    (fun s t => (corePick s fun c => c.switchTo.isSome || comesBack s c || pairSwitch s c).all fun c => coreIs t c.num fun e =>
      match c.switchTo with
      | some u => e.active == u && e.switchTo == none && !e.quantum &&
          if u.isNone && c.shadow.isSome then e.shadow == c.shadow && e.leaving == c.active else e.shadow == c.active
      | none => if c.active.isNone then e.active == c.shadow && e.shadow == none else e.switchTo == some (c.shadow.filter (mayComeIn s))) ∧
  EventGives .spillComplete (fun s => (spillPick s).any fun c => (c.leaving.or c.shadow).any fun u =>
      !bound s u && (bankCtx? s u).any (fun x => x.phase == .shadowed && !loadsWait x) && (s.task? u).isSome)
    (fun s t => (spillPick s).all fun c => coreIs t c.num (fun e => if c.leaving.isSome then e.leaving == none else e.shadow == none) &&
      (c.leaving.or c.shadow).all fun u => taskIs t u fun k => k.saved && k.state == .suspended) ∧
  EventGives .taskReady (fun s => match s.input with
      | .task uid => taskIs s uid fun k => k.state == .waiting && !descDval k.desc && !operandGone s k && selfReady s k && (s.part? k.part).isSome &&
          !s.cores.any fun c => c.deque.contains uid || c.spill.any fun e => e.2 == uid
      | _ => false)
    (fun s t => match s.input with
      | .task uid => taskIs t uid (fun k => k.state == .ready && k.age == 0) &&
          ((t.cores.any fun c => c.deque.contains uid) || t.parts.any fun p => p.waiting.contains uid)
      | _ => false) ∧
  EventGives .taskDispatch (fun s => (corePick s fun c => activeFree s c && (ownEntry s c).isSome).any fun c => (corePart s c).any fun p =>
      (ownEntry s c).any (fun k => loadsFresh s k && (rereadEntry s c.num k).isNone) && (!s.cores.any fun c => (corePart s c).isSome && refillDue s c) &&
      !s.gangs.any fun g => g.part == p.num && g.state == .reserving)
    (fun s t => (corePick s fun c => activeFree s c && (ownEntry s c).isSome).all fun c => (ownEntry s c).all fun k => placedOn s t k c.num) ∧
  EventGives .taskSteal (fun s => (corePick s fun c => activeFree s c && !hasReady s c && (stealFrom s c).isSome).any fun c =>
      (stealFrom s c).any fun e => loadsFresh s e.2.2 && (rereadEntry s e.2.1.num e.2.2).isNone)
    (fun s t => (corePick s fun c => activeFree s c && !hasReady s c && (stealFrom s c).isSome).all fun c =>
      (stealFrom s c).all fun e => placedOn s t e.2.2 c.num) ∧
  EventGives .priorityPreemption (fun s => (corePick s (outranked s)).any fun c => c.shadow.all fun u =>
      (bankCtx? s u).any (fun x => x.phase == .shadowed && !loadsWait x) && (s.task? u).isSome)
    (fun s t => (corePick s (outranked s)).all fun c => match c.shadow with
      | none => coreIs t c.num fun e => e.switchTo == some none
      | some u => coreIs t c.num (fun e => e.shadow == none) && taskIs t u fun k => k.state == .suspended) ∧
  EventGives .spawnOverflowResume (fun s => match s.input with
      | .task uid => ctxIs s uid (fun x => x.m.spawnHeld && match s.task? uid with
          | some k => (match spillHead s x.core k with
            | .fault _ => false
            | _ => true) && k.state == .suspended && k.saved && !descDval k.desc
          | none => false)
      | _ => false)
    (fun s t => match s.input with
      | .task uid => ctxIs t uid (fun x => !x.m.spawnHeld) && taskIs t uid (fun k => k.state == .ready)
      | _ => false) ∧
  EventGives .ageingStep (fun s => match s.input with
      | .part n => partIs s n fun p => p.num == n
      | _ => false)
    (fun s t => match s.input with
      | .part n =>
        t.tasks == s.tasks.map (fun k => if k.part == n && k.state == .ready && !descDval k.desc then { k with age := k.age + 1 } else k) &&
        t.gangs == s.gangs.map (fun g => if g.part == n then
          { g with age := if g.state == .queued then g.age + 1 else g.age, quantum := g.quantum || g.state == .running } else g) &&
        t.cores == s.cores.map (fun c => if (s.part? n).any (fun p => p.fence.cores.getLsbD c.num) && c.active.isSome then
          { c with quantum := true } else c) &&
        (partQueues s n).all fun x => x.state != .pending || (s.queues.filter fun y => y.vd == x.vd && y.qidx == x.qidx).length != 1 ||
          queueIs t x.vd x.qidx fun y => y.age == min (x.age + 1) 15
      | _ => false)

/-- Gangs (R331, R336, R337). When a timer ends is free (log 12). -/
def Obligations.GangEvents : Prop :=
  EventGives .gangReserving (fun s => match s.input with
      | .part n => (s.part? n).isSome && !(s.gangs.any fun g => g.part == n && g.state == .reserving) &&
          s.gangs.any fun g => g.part == n && g.state == .queued && vdRuns s g.vd
      | _ => false)
    (fun s t => match s.input with
      | .part n => (bestGang s (s.gangs.filter fun g => g.part == n && g.state == .queued && vdRuns s g.vd)).any fun g =>
          gangIs t g (fun h => h.state == .reserving) && t.tasks == s.tasks && t.cores == s.cores
      | _ => false) ∧
  EventGives .gangRunning (fun s => (gangAt s fun g => g.state == .reserving).any fun g =>
      reserved g && gangLoadable s g && s.gangs.find? (sameGang g) == some g &&
        (g.level != 3 || g.others.isEmpty || g.reported.contains s.pkg.num) && (gangPkgs g).all fun p => g.reported.contains p)
    (fun s t => (gangAt s fun g => g.state == .reserving).any fun g => t == startGang s g) ∧
  EventGives .gangReserveTimeout (fun s => (gangAt s fun g => g.state == .reserving).isSome)
    (fun s t => (gangAt s fun g => g.state == .reserving).any fun g =>
      gangIs t g fun h => h.state == .queued && h.members.all (fun m => m.bank.isNone) && h.reported.isEmpty) ∧
  EventGives .gangFormTimeout (fun s => (gangAt s fun g => g.state == .forming && (s.part? g.part).any fun p => p.form ≠ 0).any fun g =>
      g.members.all fun m => isAlive s m.uid)
    (fun s t => (gangAt s fun g => g.state == .forming && (s.part? g.part).any fun p => p.form ≠ 0).any fun g =>
      g.members.all fun m => failedWith t m.uid .domainConflict 3) ∧
  EventGives .gangPreemption (fun s => (gangAt s (gangYields s)).any fun g =>
      g.members.all fun m => (bankCtx? s m.uid).all fun x => (stopCause x).isNone)
    (fun s t => (gangAt s (gangYields s)).any fun g =>
      gangIs t g fun h => h.state == .suspended && h.age == 0 && h.members.all fun m => m.bank.isNone)

/-- The states of user queues (R313 to R315, R320 to R327). That a grant is one step and a kick of a VD that is not ACTIVE waits is the model's
reading (log 32). -/
def Obligations.QueueEvents : Prop :=
  EventGives .vdKick (fun s => match s.input with
      | .word vd w => w.toNat / 2 ^ 60 == 0 && queueIs s vd (w.toNat / 2 ^ 48 % 4096) fun x =>
          let d := (w.toNat % 2 ^ 48 + 2 ^ 48 - x.tail % 2 ^ 48) % 2 ^ 48
          x.state != .disabled && d < 2 ^ 47 && x.tail + d - x.head ≤ 2 ^ x.lsize
      | _ => false)
    (fun s t => match s.input with
      | .word vd w => (s.queue? vd (w.toNat / 2 ^ 48 % 4096)).any fun x => queueIs t vd (w.toNat / 2 ^ 48 % 4096) fun y =>
          let d := (w.toNat % 2 ^ 48 + 2 ^ 48 - x.tail % 2 ^ 48) % 2 ^ 48
          y.tail == x.tail + d && y.head == x.head && (x.state != .idle || !vdActive s vd || x.tail + d ≤ x.head || y.state == .pending)
      | _ => false) ∧
  EventGives .vdKick (fun s => match s.input with
      | .word vd w => w.toNat / 2 ^ 60 != 0 && (s.vd? vd).isSome
      | _ => false)
    (fun s t => match s.input with
      | .word vd _ => t.queues == s.queues && (s.vd? vd).any fun v => vdIs t vd fun w => w.nbad == min (v.nbad + 1) 65535
      | _ => false) ∧
  EventGives .queueEnable (fun s => (queueFor s fun x => x.state == .disabled).any fun x => x.state == .disabled &&
      (readQcb s x).head ≤ (readQcb s x).tail && (readQcb s x).tail - (readQcb s x).head ≤ 2 ^ (readQcb s x).lsize)
    (fun s t => (queueFor s fun x => x.state == .disabled).any fun x => queueIs t x.vd x.qidx fun y => let z := readQcb s x
      y.state == (if z.head = z.tail then .idle else .pending) && y.head == z.head && y.tail == z.tail && y.base == z.base && y.lsize == z.lsize) ∧
  EventGives .queueDisable (fun s => (queueFor s fun x => x.state == .idle || x.state == .fetchFault || x.state == .frozen).any fun x =>
      x.state == .idle || x.state == .fetchFault || x.state == .frozen)
    (fun s t => (queueFor s fun x => x.state == .idle || x.state == .fetchFault || x.state == .frozen).any fun x =>
      queueIs t x.vd x.qidx fun y => y == { x with state := .disabled }) ∧
  EventGives .queueReset (fun s => (queueFor s fun x => x.state == .fetchFault || x.state == .frozen).any fun x =>
      x.state == .fetchFault || x.state == .frozen)
    (fun s t => (queueFor s fun x => x.state == .fetchFault || x.state == .frozen).any fun x => queueIs t x.vd x.qidx fun y =>
      y.state == .idle && y.head == x.tail && y.progress == x.tail && y.dseq == x.pseq && y.journal.isEmpty && !y.kpend) ∧
  EventGives .slotGrant (fun s => match s.input with
      | .part n => (s.part? n).any (slotFree s) && (nextPending s n).any fun x => (s.queue? x.vd x.qidx).isSome
      | _ => false)
    (fun s t => match s.input with
      | .part n => (nextPending s n).any fun x => queueIs t x.vd x.qidx fun y => y.age == 0 &&
          let u := setQueue s x.vd x.qidx fun x => { x with state := .mapping, age := 0, kpend := false }
          y.state == if (u.queue? x.vd x.qidx).any (qcbBad u) then .frozen else .mapped
      | _ => false) ∧
  EventGives .queueDisplacement (fun s => match s.input with
      | .part n => (s.part? n).any (fun p => !slotFree s p) && (pendingBeyond s n).isSome &&
          ((partQueues s n).find? fun y => holding y && !splits s y).isSome
      | _ => false)
    (fun s t => match s.input with
      | .part n => ((partQueues s n).find? fun y => holding y && !splits s y).any fun y => queueIs t y.vd y.qidx fun z => z.state == .unmapping && z.back
      | _ => false) ∧
  EventGives .queueDisplacement (fun s => match s.input with
      | .part n => (s.part? n).any (fun p => p.num == n && !slotFree s p) && ((partQueues s n).all fun y => !(holding y && !splits s y)) &&
          (pendingBeyond s n).any fun x => (victim s n).any fun y => !splits s y && (effPrio x > y.prio || (effPrio x == 15 && y.held))
      | _ => false)
    (fun s t => match s.input with
      | .part n => (victim s n).any fun y => queueIs t y.vd y.qidx fun z => z.state == .unmapping && z.back
      | _ => false) ∧
  EventGives .idleUnmap (fun s => (queueFor s idleQueue).any fun x =>
      x.state == .mapped && x.head == x.tail && x.journal.all fun e => e.begun || e.complete)
    (fun s t => (queueFor s idleQueue).any fun x => queueIs t x.vd x.qidx fun y =>
      y == { x with state := .unmapping, back := false }) ∧
  EventGives .unmappingComplete (fun s => (queueFor s fun x => x.state == .unmapping).any fun x => x.state == .unmapping)
    (fun s t => (queueFor s fun x => x.state == .unmapping).any fun x => queueIs t x.vd x.qidx fun y =>
      if x.back || (x.kpend && x.tail > x.head) then y.state == .pending else y.state == .idle && !y.kpend) ∧
  EventGives .packetFetch (fun s => (fetchPick s).any fun x => s.queue? x.vd x.qidx == some x && fetches s x && (nextPacket s x).any fun p =>
        p.good && argCount p.ty == some p.argw && !argsBad s x p.ty (p.words.drop (onesIn 32 p.mask)))
    (fun s t => (fetchPick s).any fun x => (nextPacket s x).any fun p => queueIs t x.vd x.qidx fun y =>
      let image := putShadow p.mask (List.range 32) p.words x.shadow
      y == { x with
        fetched := y.fetched, shadow := image, head := x.head + p.size, pseq := x.pseq + 1
        journal := x.journal ++ [{ pseq := x.pseq, ptype := p.ty, image := image, args := p.words.drop (onesIn 32 p.mask), start := x.head,
                                   stop := x.head + p.size, begun := false, complete := false, guard := false, moved := 0, task := 0,
                                   asked := false, answers := [] }] })

/-- Packets (R316 to R319, R323, R327, R328, R368, R370). That a LAUNCH is complete at PROGRESS_ADVANCE is the model's reading (log 32). -/
def Obligations.PacketEvents : Prop :=
  EventGives .nopPacket (fun s => packetAnd s 0 fun _ _ => true) (fun s t => packetDone s t 0) ∧
  EventGives .reheatPacket (fun s => packetAnd s 9 fun _ _ => true) (fun s t => packetDone s t 9) ∧
  EventGives .retry (fun s => packetAnd s 10 fun _ _ => true) (fun s t => packetDone s t 10) ∧
  EventGives .launch (fun s => packetAnd s 1 fun x e => vdIs s x.vd fun v => !e.begun && !descInvalid s x.vd v.part (imageDesc e.image) &&
      !descDval (imageDesc e.image) && match crucAccess s x.vd .load (descParam (imageDesc e.image)) (8 * descNparam (imageDesc e.image)) with
        | .ok _ => true
        | _ => false)
    (fun s t => packetAnd s 1 fun x e => entryIs t x.vd x.qidx e.pseq (fun f => f.begun && f.task == s.nextUid) && t.nextUid == s.nextUid + 1 &&
      t.tasks.any fun k => k.uid == s.nextUid && k.vd == x.vd && k.qidx == x.qidx && k.pseq == e.pseq && k.parent == none && k.state == .waiting &&
        k.desc == markDesc (imageDesc e.image) false false &&
        match crucAccess s x.vd .load (descParam k.desc) (8 * descNparam k.desc) with
        | .ok ps => k.params == (List.range (descNparam k.desc)).map fun i => BitVec.ofNat 64 (littleEndian (((placesBytes s ps).drop (8 * i)).take 8))
        | _ => false) ∧
  EventGives .waitv (fun s => packetAnd s 2 fun x e => (syncWord s x e false).isSome)
    (fun s t => packetAnd s 2 fun x e => (syncWord s x e false).any fun pa =>
      if arg64 e.args 2 ≤ littleEndian (memGetN s.mem pa 8) then packetDone s t 2 else packetBegun s t 2) ∧
  EventGives .signal (fun s => packetAnd s 3 fun x e => (syncWord s x e true).isSome)
    (fun s t => packetAnd s 3 fun x e => (syncWord s x e true).any fun pa =>
      if (earlier x e).all fun d => d.complete || !(d.ptype == 1 || d.ptype == 4 || d.ptype == 5 || d.ptype == 6) then
        packetDone s t 3 && littleEndian (memGetN t.mem pa 8) ==
          (if arg32 e.args 4 % 2 = 1 then (littleEndian (memGetN s.mem pa 8) + arg64 e.args 2) % 2 ^ 64 else arg64 e.args 2)
      else packetBegun s t 3 && t.mem == s.mem) ∧
  EventGives .copyPacket (fun s => packetAnd s 4 fun x e =>
      !heldIn s x.vd 1 [(arg64 e.args 2 + e.moved, copyLen e), (arg64 e.args 0 + e.moved, copyLen e)] && (match crucAccess s x.vd .load (arg64 e.args 2 + e.moved) (copyLen e) with
        | .ok _ => true
        | _ => false) && match crucAccess s x.vd .store (arg64 e.args 0 + e.moved) (copyLen e) with
        | .ok [_] => true
        | _ => false)
    (fun s t => packetAnd s 4 fun x e => entryIs t x.vd x.qidx e.pseq (fun f => f.moved == e.moved + copyLen e && (f.complete == (f.moved == arg64 e.args 4))) &&
      match crucAccess s x.vd .load (arg64 e.args 2 + e.moved) (copyLen e), crucAccess s x.vd .store (arg64 e.args 0 + e.moved) (copyLen e) with
      | .ok ps, .ok qs => placesBytes t qs == placesBytes s ps
      | _, _ => false) ∧
  EventGives .tileput (fun s => packetAnd s 5 fun x e => let name := BitVec.ofNat 64 (arg64 e.args 0)
      (s.vd? x.vd).any fun v => v.num == x.vd && tileVd name == x.vd && tileSizeOk (arg32 e.args 4) && (awayHome s name).isNone && (s.tile? x.vd name).isNone &&
        (s.rec? name).isNone && e.moved == 0 && !heldIn s x.vd 1 [(arg64 e.args 2, arg32 e.args 4)] && (match crucAccess s x.vd .load (arg64 e.args 2) (arg32 e.args 4) with
          | .ok _ => true
          | _ => false) && (placeTile s v name (arg32 e.args 4)).2.isSome)
    (fun s t => packetAnd s 5 fun x e => let name := BitVec.ofNat 64 (arg64 e.args 0)
      tileIs t x.vd name (fun u => u.resident && u.size == arg32 e.args 4) &&
        (match crucAccess s x.vd .load (arg64 e.args 2) (arg32 e.args 4) with
          | .ok ps => (t.rec? name).any fun r => r.root && r.anchor && r.digest == digest (placesBytes s ps) && r.size == arg32 e.args 4
          | _ => false) &&
        if (secondaryAt s x.vd).isSome then packetBegun s t 5 else tileDur name || (packetDone s t 5 && tileIs t x.vd name (·.sealed))) ∧
  EventGives .map (fun s => packetAnd s 6 fun x e => (x.supq || !mapPrivileged s x.vd e.args) &&
      !heldIn s x.vd 1 [(arg64 e.args 0, 1)] && (mapTarget s x.vd (arg64 e.args 0) (arg32 e.args 4)).toOption.isSome && !mapEntryBad (arg32 e.args 4) (arg64 e.args 2))
    (fun s t => packetDone s t 6 && packetAnd s 6 fun x e => (mapTarget s x.vd (arg64 e.args 0) (arg32 e.args 4)).toOption.any fun pa =>
      littleEndian (memGetN t.mem pa 8) == arg64 e.args 2) ∧
  EventGives .fencePacket (fun s => packetAnd s 7 fun _ _ => true)
    (fun s t => packetAnd s 7 fun x e =>
      if (earlier x e).all (·.complete) && (arg32 e.args 0 != 4 || treesAccepted s x.vd x.qidx e.pseq) then packetDone s t 7 else packetBegun s t 7) ∧
  EventGives .dormantPacket (fun s => packetAnd s 8 fun x e => vdIs s x.vd fun v => !e.begun && (earlier x e).all (·.complete) && v.dorm == .active)
    (fun s t => packetBegun s t 8 && packetAnd s 8 fun x _ => vdIs t x.vd fun v => v.dorm == .collapsing && v.stopFetch) ∧
  EventGives .dormantPacket (fun s => packetAnd s 8 fun x e => vdIs s x.vd fun v => e.begun && v.dorm != .collapsing) (fun s t => packetDone s t 8) ∧
  EventGives .progressAdvance (fun s => match s.input with
      | .queue vd q => queueIs s vd q fun x => x.state != .frozen && x.state != .disabled &&
          x.journal.all fun e => !(e.ptype == 1 && e.begun && !e.complete && treeDone s vd q e.pseq)
      | _ => false)
    (fun s t => match s.input with
      | .queue vd q => (s.queue? vd q).any fun x => queueIs t vd q fun y =>
          let done := (x.journal.filter fun e => e.start ≥ x.progress).takeWhile (·.complete)
          y.progress == (done.getLast?).elim x.progress (·.stop) && y.dseq == x.dseq + done.length && y.head == x.head
      | _ => false) ∧
  EventGives .journalReplay (fun s => match s.input with
      | .queue vd q => (s.queue? vd q).isSome
      | _ => false)
    (fun s t => match s.input with
      | .queue vd q => (s.queue? vd q).any fun x => queueIs t vd q fun y => y.head == x.head && y.journal.length == x.journal.length &&
          (x.journal.zip y.journal).all fun e => e.2 == if e.1.complete then e.1
            else if e.1.guard && !([1, 4, 5, 8].contains e.1.ptype) then { e.1 with complete := true }
            else if e.1.ptype == 2 || e.1.ptype == 7 then { e.1 with begun := false, answers := [], asked := false, moved := 0 } else e.1
      | _ => false)

/-- Retirement and commits (R17, R166, R270, R271, R273, R360, R361). How the homes of a commit take turns is the model's (log 31), and so is what a
pair compares (log 37). -/
def Obligations.CommitEvents : Prop :=
  EventGives .taskRetirement (fun s => bothDone s && s.ctx.m.xlpf == 0 && !inFlight s.ctx && !couplingEmpty s.ctx.q && isAlive s s.ctx.uid)
    (fun s t => failedWith t s.ctx.uid .queueResidue) ∧
  EventGives .taskRetirement (fun s => bothDone s && s.ctx.m.xlpf == 0 && !inFlight s.ctx && couplingEmpty s.ctx.q &&
      s.ctx.m.handles.toList.any (fun h => h.state == .allocated) && isAlive s s.ctx.uid)
    (fun s t => failedWith t s.ctx.uid .outputUnsealed) ∧
  EventGives .taskRetirement (fun s => nothingLeft s && (s.task? s.ctx.uid).any fun k =>
      (!mirrored s k.vd || k.rebuild || descDval k.desc || k.agreed) && commitsHere s k)
    (fun s t => taskIs t s.ctx.uid (fun k => k.state == .retired && k.save == none) && !t.live &&
      t.cores.all fun c => c.active != some s.ctx.uid && c.shadow != some s.ctx.uid) ∧
  EventGives .dbarCommit (fun s => (gangPick s fun g => g.allAtBar && (!mirrored s g.vd || g.begun)).any fun i =>
      s.gangs[i]?.any fun g => (commitGo (g.size + 1) s i).2)
    (fun s t => (gangPick s fun g => g.allAtBar && (!mirrored s g.vd || g.begun)).any fun i =>
      s.gangs[i]?.any fun g => t.gangs[i]?.any fun h => h.phase == g.phase + 1 && h.turn == 0) ∧
  EventGives .finalCommit (fun s => (gangPick s fun g => g.atEnd && (!mirrored s g.vd || g.begun)).any fun i =>
      s.gangs[i]?.any fun g => (commitGo (g.size + 1) s i).2)
    (fun s t => (gangPick s fun g => g.atEnd && (!mirrored s g.vd || g.begun)).any fun i => t.gangs[i]?.any fun h => h.final) ∧
  EventGives .commitDigestExchange (fun s => match s.input with
      | .commit vd _ _ uid other => s.live && uid != 0 && uid == s.ctx.uid && mirrored s vd && (s.task? uid).any fun k =>
          k.uid == uid && k.vd == vd && k.acks == 0 && stagedTask s k &&
          (taskDigest k s.ctx != other || commitsHere (s.modTask uid fun k => { k with agreed := true }) k)
      | _ => false)
    (fun s t => match s.input with
      | .commit vd _ _ uid other => (s.task? uid).any fun k =>
          if taskDigest k s.ctx == other then taskIs t uid fun j => j.state == .retired
          else if s.ctx.m.taint || k.rerun then vdIs t vd (·.mdiv) && taskIs t uid fun j => j.state == .failed
          else taskIs t uid (fun j => j.state == .aborted && j.rerun) && !t.live &&
            t.tasks.any fun j => j.replaces == some uid && j.uid == s.nextUid && j.state == .waiting && j.rerun
      | _ => false)

/-- The durable tier and staging (R293, R294, R297 to R300, R307 to R311). The order of acceptance is free (log 29); a root of staging, and the scan
of an unclean site, are the model's reading (log 35, log 40). -/
def Obligations.DurableEvents : Prop :=
  EventGives .writeAccepted (fun s => s.input == .none && (nextAccept s (fun _ => true) [] s.durPend).isSome)
    (fun s t => (nextAccept s (fun _ => true) [] s.durPend).any fun d => t.media == memSetCells s.media d.cells && t.mem == s.mem &&
      t.durPend == s.durPend.erase d && (siteNo (64 * durUnit d)).all fun n => t.sites[n].buffer.contains (durUnit d)) ∧
  EventGives .unitProgrammed (fun s => match s.input with
      | .unit pa => (siteNo pa).isSome
      | _ => false)
    (fun s t => match s.input with
      | .unit pa => (siteNo pa).any fun n => t.sites[n].buffer == s.sites[n].buffer.erase (pa / 64) && t.media == s.media
      | _ => false) ∧
  EventGives .powerLoss (fun s => s.pkg.powered)
    (fun s t => t.mem == mediaLeft s && t.media == mediaLeft s && (s.pkg.nores || t.media == s.media) && !t.live && t.tasks.isEmpty && t.vds.isEmpty && t.queues.isEmpty && t.durPend.isEmpty &&
      t.tiles.isEmpty && !t.pkg.powered && t.sites.all (fun x => !x.accepting && !x.clean)) ∧
  EventGives .siteDrainComplete (fun s => !s.pkg.powered && match s.input with
      | .site n _ _ => n < 4
      | _ => false)
    (fun s t => match s.input with
      | .site n failed complete => (s.pkg.stop.all fun x => !(x.left.all (· == n % 4)) || reported t 20 [x.die, x.temp]) &&
          t.sites[Fin.ofNat 4 n].clean == complete && (!complete || t.sites[Fin.ofNat 4 n].buffer.isEmpty) &&
          failed.all fun u => !s.sites[Fin.ofNat 4 n].buffer.contains u || t.errs.contains u
      | _ => false) ∧
  EventGives .durablePoolScan (fun s => s.pkg.phase == .reduced && !s.pkg.scanned) (fun s t => t.pkg.scanned && t.vds == s.vds && t.tasks == s.tasks) ∧
  EventGives .durablePoolScan (fun s => s.pkg.phase == .reduced && !s.pkg.scanned && (firstSealed s).isSome)
    (fun s t => (firstSealed s).any fun b => (t.recs.any fun r => r.name == b.name && r.anchor) &&
      t.tiles.any fun u => u.name == b.name && u.vd == b.vd && u.va == 4608 && u.size == b.size && u.sealed && u.resident && u.check) ∧
  EventGives .stgEnable (fun s => match s.input with
      | .word vd w => w.toNat / 2 ^ 16 % 2 == 1 && (s.vd? vd).isSome
      | _ => false)
    (fun s t => match s.input with
      | .word vd w => (s.vd? vd).any fun v => let n := w.toNat / 2 ^ 18 % 2 ^ 16
          t.mem == s.mem && t.tasks == s.tasks && t.ctx == s.ctx && vdIs t vd fun u =>
            if w.toNat % 256 = 0 || n = 0 || n ≤ v.cur then u == { v with stgEn := false, staged := u.staged }
            else u == { v with win := w.toNat % 256, nlayer := n, wrap := w.toNat / 2 ^ 17 % 2 == 1, stgEn := true, staged := u.staged }
      | _ => false) ∧
  EventGives .stgDisable (fun s => match s.input with
      | .word vd w => w.toNat / 2 ^ 16 % 2 == 0 && (s.vd? vd).isSome
      | _ => false)
    (fun s t => match s.input with
      | .word vd w => t.mem == s.mem && t.tasks == s.tasks && t.ctx == s.ctx && (s.vd? vd).any fun v => vdIs t vd fun u =>
          u == { v with win := w.toNat % 256, nlayer := w.toNat / 2 ^ 18 % 2 ^ 16, wrap := w.toNat / 2 ^ 17 % 2 == 1, stgEn := false, staged := u.staged }
      | _ => false) ∧
  EventGives .stagingReadComplete (fun s => match s.input with
      | .vd n => !stagingHeld s n && vdIs s n (fun v => v.num == n && stages v && (windowTiles s v).toOption.isSome) &&
          let u := advance (syncWindow s n) n
          (u.vd? n).any fun v => stages v && (nextStaged u v).any fun x => !x.resident && !x.useRepl && (u.rec? x.name).isNone && (u.tile? n x.name).isNone &&
            (match crucAccess u n .load x.src x.size with
              | .ok _ => true
              | _ => false) && (placeTile u v x.name x.size).2.isSome
      | _ => false)
    (fun s t => match s.input with
      | .vd n => let u := advance (syncWindow s n) n
          (u.vd? n).any fun v => (nextStaged u v).any fun x => match crucAccess u n .load x.src x.size with
            | .ok ps => (t.rec? x.name).any fun r => r.root && r.anchor && !r.apend && r.digest == digest (placesBytes u ps) && r.replica == x.repl
            | _ => false
      | _ => false)

/-- Virtual devices (R303, R365 to R371, R380, R383). When a management write completes (log 34) and the order of the shelf (log 36) are the
model's. -/
def Obligations.VdEvents : Prop :=
  EventGives .vdmCreate (fun s => match s.input with
      | .pa part _ => partIs s part fun p => p.num == part && p.vdmOps.isEmpty
      | _ => false)
    (fun s t => match s.input with
      | .pa part pa => (s.part? part).any fun p => let d := vdDesc s part pa; let r := (createResult s p pa d).1
          if d.vd.mirror && r = 0 && (pairClaim s d.vd).isNone then
            t.vds == s.vds && t.queues == s.queues && t.mem == s.mem && partIs t part fun q => q.vdmOps.contains (true, pa)
          else partIs t part (fun q => q.vdmResult == r) && if r = 0 then
            vdIs t d.vd.num (fun v => v.part == part && v.dorm == .active && v.s1root == d.vd.s1root && v.det == d.vd.det) &&
              t.queues == s.queues ++ newQueues d.vd
          else t.vds == s.vds && t.queues == s.queues
      | _ => false) ∧
  EventGives .vdmDestroy (fun s => match s.input with
      | .pa part _ => (s.part? part).isSome && !vdmBusy s part
      | _ => false)
    (fun s t => match s.input with
      | .pa part vd => let idle := (s.vd? (vd % 512)).all (fun v => v.part == part && (s.queues.all fun x => x.vd != vd % 512 || x.state == .disabled) &&
            s.tasks.all fun k => k.vd != vd % 512 || !k.alive)
          partIs t part (fun p => p.vdmResult == if idle then 0 else 5) &&
            t.vds == (if idle then s.vds.filter (fun v => v.num != vd % 512) else s.vds) &&
            (!idle || t.tiles.all (fun u => u.vd != vd % 512)) && if idle then t.queues == s.queues.filter (fun x => x.vd != vd % 512) &&
              t.tasks == s.tasks.filter (fun k => k.vd != vd % 512) else t.queues == s.queues && t.tasks == s.tasks && t.mem == s.mem
      | _ => false) ∧
  EventGives .implicitCollapse (fun s => s.input == .none && s.vds.any fun v => v.didle != 0 && v.dorm == .active && quiescent s v && s.vd? v.num == some v)
    (fun s t => (s.vds.find? fun v => v.didle != 0 && v.dorm == .active && quiescent s v).any fun v =>
      s.vd? v.num != some v || vdIs t v.num fun w => w.dorm == .collapsing && w.stopFetch && w.target == dormTarget s v) ∧
  EventGives .collapseComplete (fun s => match s.input with
      | .vd n => vdIs s n fun v => v.num == n && v.dorm == .collapsing && (s.part? v.part).isSome &&
          (bankCtxs s n).all (fun x => x.phase == .shadowed || x.phase == .stopped) &&
          s.durPend.all fun d => !s.tasks.any fun k => k.uid == d.uid && k.vd == n
      | _ => false)
    (fun s t => match s.input with
      | .vd n => (s.vd? n).any fun v => vdIs t n fun w => w.depth == v.target &&
          w.dorm == if s.queues.any fun x => x.vd == n && x.tail > x.head then .reheating else .dormant
      | _ => false) ∧
  EventGives .vdReheat (fun s => match s.input with
      | .vd n => (s.vd? n).isSome
      | _ => false)
    (fun s t => match s.input with
      | .vd n => (s.vd? n).any fun v => vdIs t n fun w =>
          w == match v.dorm with
            | .collapsing => { v with dorm := .reheating, depth := 0 }
            | .dormant => { v with dorm := .reheating }
            | _ => v
      | _ => false) ∧
  EventGives .reheatComplete (fun s => match s.input with
      | .vd n => vdIs s n fun v => v.num == n && v.dorm == .reheating
      | _ => false)
    (fun s t => match s.input with
      | .vd n => (s.vd? n).any fun v => vdIs t n (fun w => w.dorm == .active && w.reheats == v.reheats + 1 && !w.stopFetch) &&
          s.queues.all fun x => x.vd != n || s.queue? n x.qidx != some x ||
            !((x.state == .idle && (x.tail > x.head || x.kpend)) || (x.state == .fetchFault && x.kpend)) ||
            queueIs t n x.qidx fun y => y.state == .pending
      | _ => false) ∧
  EventGives .vdErrAck (fun s => match s.input with
      | .word vd w => w.toNat / 2 ^ 32 % 2 == 1 && vdIs s vd fun v => !v.errs.isEmpty
      | _ => false)
    (fun s t => match s.input with
      | .word vd _ => (s.vd? vd).any fun v => vdIs t vd fun w => w.errs == v.errs.tail && (v.errs.head?).any fun e =>
          w.used == v.used.filter (fun n => some n != e.save) && (v.errs.tail.any (fun r => r.qidx == e.qidx) ||
            (s.queue? vd e.qidx).all fun x => x.state != .frozen || queueIs t vd e.qidx fun y =>
              y.state == .idle && y.head == x.tail && y.progress == x.tail && y.journal.isEmpty)
      | _ => false) ∧
  EventGives .vdCmpl (fun s => match s.input with
      | .word vd _ => (s.vd? vd).isSome
      | _ => false)
    (fun s t => match s.input with
      | .word vd w => vdIs t vd fun v => v.cmplEn == w.toNat.testBit 63 && v.htag == w.toNat % 2 ^ 48
      | _ => false)

/-- Copies in flight (R151, R155, R277): a chunk of at most 256 bytes lands, is counted into its byte barrier and its slot, and taints where it
comes from SHRD or SYNC memory; a fault found in flight is raised as COPY_FAULT; the oldest load that awaits its data gets it. Registers of devices
as they are written (R8, R288, R293, R324, R348, R373, R381). Which slot goes next is free (log 18); where DEV blocks lie is free (log 4). -/
def Obligations.CopyAndDeviceEvents : Prop :=
  EventGives .chunkLanding (fun s => (landing s).any fun i => let c := s.ctx.m.slots[i]
      (c.kind == 0 || c.kind == 5) && match checkAccess s .load (BitVec.ofNat 64 (chunkVa c)) 1 (pieces (chunkVa c) (chunkLen c)) with
        | .ok ps => (lostPlace s ps).isNone
        | _ => false)
    (fun s t => (landing s).any fun i => let c := s.ctx.m.slots[i]
      chunkCounted s t i (chunkLen c) && t.ctx.a == s.ctx.a && match checkAccess s .load (BitVec.ofNat 64 (chunkVa c)) 1 (pieces (chunkVa c) (chunkLen c)) with
        | .ok ps => t.ctx.m.taint == (s.ctx.m.taint || ps.any fun p => p.1.mt == .shrd || p.1.mt == .sync) &&
            let n := (readPlaces s ps).length
            memGetN (if c.kind == 5 then t.ctx.m.wb else t.ctx.m.spad) (c.gd.toNat + c.resume) n == readPlaces s ps
        | _ => false) ∧
  EventGives .chunkLanding (fun s => (landing s).any fun i => let c := s.ctx.m.slots[i]
      c.kind == 1 && c.asked.isEmpty && match checkAccess s .store (BitVec.ofNat 64 (chunkVa c)) 1 (pieces (chunkVa c) (chunkLen c)) with
        | .ok [p] => p.1.mt == .priv && p.2 == chunkLen c && p.1.pa + p.2 ≤ 2 ^ 48
        | _ => false)
    (fun s t => (landing s).any fun i => let c := s.ctx.m.slots[i]
      chunkCounted s t i (chunkLen c) && t.ctx.a == s.ctx.a && match checkAccess s .store (BitVec.ofNat 64 (chunkVa c)) 1 (pieces (chunkVa c) (chunkLen c)) with
        | .ok [p] => memGetN t.mem p.1.pa (chunkLen c) == memGetN s.ctx.m.spad (c.ga.toNat + c.resume) (chunkLen c)
        | _ => false) ∧
  EventGives .chainWaitRelease (fun s => match s.input with
      | .pick n => if h : n < 48 then let c := s.ctx.m.slots[(⟨n, h⟩ : Fin 48)]
          slotMoves s ⟨n, h⟩ && slotWaits c && c.waitA.toNat % 8 == 0 &&
            match checkAccess s .load c.waitA 1 (pieces c.waitA.toNat 8) with
            | .ok ps => ps.all (fun p => p.1.mt == .sync) && (lostPlace s ps).isNone
            | _ => false
        else false
      | _ => false)
    (fun s t => match s.input with
      | .pick n => if h : n < 48 then let c := s.ctx.m.slots[(⟨n, h⟩ : Fin 48)]
          t.ctx.m.taint && match checkAccess s .load c.waitA 1 (pieces c.waitA.toNat 8) with
            | .ok ps => t.ctx.m.slots[(⟨n, h⟩ : Fin 48)].waited == decide (c.waitV.toNat ≤ littleEndian (readPlaces s ps))
            | _ => false
        else false
      | _ => false) ∧
  EventGives .copyFault (fun s => s.live && s.ctx.phase == .running && !s.ctx.sup && s.ctx.a.stop.isNone && CutOpen s && s.input == .none &&
      (List.finRange 48).any fun i => s.ctx.m.slots[i].cause.isSome)
    (fun s t => ((List.finRange 48).find? fun i => s.ctx.m.slots[i].cause.isSome).any fun i => let c := s.ctx.m.slots[i]
      t.ctx.phase == .cut && t.ctx.m.slots[i].cause.isNone && t.mem == s.mem && t.ctx.a.stop.any fun x =>
        x.cause == some .copyFault && c.cause.any (fun e => x.subcause == BitVec.ofNat 8 (causeCode e)) && x.faddr == c.faddr &&
        x.info == BitVec.ofNat 64 (i.val + c.resume % 2 ^ 24 * 2 ^ 32)) ∧
  (∀ (s : State) (l r : List AEntry) (e : AEntry), s.input = .none → s.ctx.q.toC = l ++ e :: r → (∀ x ∈ l, x.ready = true ∨ x.poison = true) →
    e.ready = false → e.poison = false → exec .loadDataArrival s = .next
      { s with ctx := { s.ctx with c := wakenC s.ctx.c, q := { s.ctx.q with toC := l ++ { e with ready := true } :: r } } }) ∧
  (∀ (s : State) (uid : Nat) (x : Context) (l r : List AEntry) (e : AEntry), s.input = .task uid → (s.live && s.ctx.uid == uid) = false →
    s.parked = [x] → x.uid = uid → x.phase ≠ .handled → x.q.toC = l ++ e :: r → (∀ y ∈ l, y.ready = true ∨ y.poison = true) →
    e.ready = false → e.poison = false → exec .loadDataArrival s = .next
      { s with parked := [{ x with c := wakenC x.c, q := { x.q with toC := l ++ { e with ready := true } :: r } }] }) ∧
  (∀ x ∈ [(Instr.xinvStage1Page, false, false), (.xinvStage1All, false, true), (.xinvStage2Page, true, false), (.xinvStage2All, true, true)],
    EventGives x.1 (fun s => match s.input with
        | .page part _ page => (s.part? part).isSome && page < 2 ^ 52
        | _ => false)
      (fun s t => match s.input with
        | .page part vd page => (s.part? part).any fun p => partIs t part fun q => q == { p with xinv := p.xinv ++ [(page, x.2.1, x.2.2, vd % 512)] }
        | _ => false)) ∧
  EventGives .xinvComplete (fun s => match s.input with
      | .part n => (s.part? n).isSome
      | _ => false)
    (fun s t => match s.input with
      | .part n => (s.part? n).any fun p => partIs t n fun q => q == { p with xinv := p.xinv.drop 1 }
      | _ => false) ∧
  EventGives .tfree (fun s => match s.input with
      | .word vd w => tileVd w == vd && (awayHome s w).isNone && (openRec s w).isSome
      | _ => false)
    (fun s t => match s.input with
      | .word _ w => (s.rec? w).any fun q => (t.rec? w).all fun r => if q.rbld && !q.freed then r.tfree && !r.freed else r.freed
      | _ => false) ∧
  EventGives .registerWrite (fun s => match s.input with
      | .reg part _ off w => off / 4096 == 1 && [0, 8, 0x10, 0x18, 0x38].contains (off % 4096) && w.toNat % 2 ^ 32 != 0 && (s.part? part).isSome
      | _ => false)
    (fun s t => match s.input with
      | .reg part _ off w => devReg t (.sched part) (off % 4096) == some (w.toNat % 2 ^ 32) &&
          [0, 8, 0x10, 0x18, 0x38].all fun o => o == off % 4096 || devReg t (.sched part) o == devReg s (.sched part) o
      | _ => false) ∧
  EventGives .registerWrite (fun s => match s.input with
      | .reg _ vd off _ => off / 4096 == 4 && [0, 0x40, 0x48, 0xC0, 0x100, 0x108, 0x110, 0x118].contains (off % 4096) && (s.vd? vd).isSome
      | _ => false)
    (fun s t => match s.input with
      | .reg _ vd off w => let x := w.toNat
          devReg t (.vdCtl vd) (off % 4096) == some (match off % 4096 with
            | 0 => x
            | 0x40 => x / 4096 * 4096
            | 0x48 => x % 2 ^ 48
            | 0xC0 => x % 2 ^ 32
            | _ => x / 2 ^ 63 * 2 ^ 63 + x % 2 ^ 48) &&
          [0, 0x40, 0x48, 0xC0, 0x100, 0x108, 0x110, 0x118].all fun o => o == off % 4096 || devReg t (.vdCtl vd) o == devReg s (.vdCtl vd) o
      | _ => false)

/-- Flows, rates, links and paths (R376 to R379, R384, R386, R397). When a timer ends is free (log 12); paths live at once are the model's reading
(log 42). -/
def Obligations.TransportEvents : Prop :=
  (∀ x ∈ [(Instr.regrsp, 2), (.memrsp, 5), (.cmpl, 6)],
    EventGives x.1 (fun s => (nextFrame s x.2).isSome) (fun s t => (nextFrame s x.2).any fun f => ackSent s t f && t.mem == s.mem)) ∧
  EventGives .frameTypeUnallocated (fun s => match s.input with
      | .frame _ | .wire _ => (arrived s).any fun f => listens s f.port && (f.ver != 1 || f.ftype ≥ 12)
      | _ => false)
    (fun s t => match arrived s with
      | some f => portBecomes s t f.port (fun p => { p with drops := p.drops + 1 }) && t.flows == s.flows && t.out == s.out
      | _ => false) ∧
  EventGives .ack (fun s => (frameOf s 8).any fun f => (ownFlow (heard s f) f).isSome)
    (fun s t => (frameOf s 8).any fun f => (ownFlow (heard s f) f).any fun w =>
      (ownFlow t f).any (fun x => x.sent == w.sent.filter fun g => g.psn > f.addr) &&
      pathBecomes s t (senderOf f) f.port fun p => if f.ce && !f.eth then slower p else p) ∧
  EventGives .nack (fun s => (frameOf s 9).any fun f => (ownFlow (heard s f) f).isSome)
    (fun s t => (frameOf s 9).any fun f => (ownFlow (heard s f) f).any fun w => sentAgain s t w f.addr &&
      pathBecomes s t (senderOf f) f.port fun p => if littleEndian f.payload = 1 then slower p else p) ∧
  EventGives .resendTimeout (fun s => s.input == .none && s.flows.any fun w => !w.sent.isEmpty)
    (fun s t => (s.flows.find? fun w => !w.sent.isEmpty).any fun w => sentAgain s t w 0) ∧
  EventGives .heartbeat (fun s => (frameOf s 10).isSome)
    (fun s t => (frameOf s 10).any fun f => t.flows == (heard s f).flows &&
      pathBecomes s t (senderOf f) f.port fun p => if p.live then p else { p with proving := true }) ∧
  EventGives .heartbeatTimer (fun s => (pathPick s (Path.sends s)).isSome)
    (fun s t => (pathPick s (Path.sends s)).any fun p =>
      (t.out.head?).any (fun g => g.ftype == 10 && g.port == p.port && g.dpkg == dpkgOf p.party && g.payload.isEmpty) && t.out.drop 1 == s.out) ∧
  EventGives .rateIncrease (fun s => match s.input with
      | .party _ _ => true
      | _ => false)
    (fun s t => match s.input with
      | .party n port => pathBecomes s t n port fun p => if p.cut then { p with cut := false } else { p with rate := min 800 (p.rate + 8) }
      | _ => false) ∧
  EventGives .linkDown (fun s => match s.input with
      | .pick n => (portOf s n).any Port.up
      | _ => false)
    (fun s t => match s.input with
      | .pick n => portBecomes s t n (fun p => { p with up := false }) && reported t 11 [n] &&
          t.paths == s.paths.map fun p => if p.port = n then { p with live := false, proving := false } else p
      | _ => false) ∧
  EventGives .linkRecovery (fun s => match s.input with
      | .pick n => (portOf s n).any fun p => !p.up && p.role != .off
      | _ => false)
    (fun s t => match s.input with
      | .pick n => portBecomes s t n (fun p => { p with up := true }) &&
          t.paths == s.paths.map fun p => if p.port == n && !p.live then { p with proving := true } else p
      | _ => false) ∧
  EventGives .serdesLaneRecal (fun s => match s.input with
      | .pick lane => (portOf s (lane / 4)).any fun p => p.role != .off
      | _ => false)
    (fun s t => match s.input with
      | .pick lane => portBecomes s t (lane / 4) (fun p => { p with up := false }) && reported t 15 [lane]
      | _ => false) ∧
  EventGives .pathFailed (fun s => match s.input with
      | .party n port => s.paths.any fun p => p.party == n && p.port == port && p.live && (portOf s port).any Port.up
      | _ => false)
    (fun s t => match s.input with
      | .party n port => reported t 12 [port, n] && t.ports == s.ports &&
          t.paths == s.paths.map fun p => if p.party == n && p.port == port then { p with live := false } else p
      | _ => false) ∧
  EventGives .pathLive (fun s => (pathPick s fun p => p.proving && Path.sends s p).isSome)
    (fun s t => (pathPick s fun p => p.proving && Path.sends s p).any fun q =>
      pathBecomes s t q.party q.port fun p => { p with live := true, proving := false })

/-- Requests of hosts and of other packages (R289, R377, R380, R382, R387). The statuses of R380 and R382 that it names, and the payload of PEER,
are the model's (log 38, log 9). -/
def Obligations.RequestEvents : Prop :=
  EventGives .regwr (fun s => (hostReq s 0).any fun r => r.1.addr % 8 == 0 &&
      (pageWrite s r.2 (r.1.addr % 65536) r.1.mac (BitVec.ofNat 64 (littleEndian r.1.payload))).isSome)
    (fun s t => (hostReq s 0).any fun r => ackSent s t r.1 &&
      (pageWrite s r.2 (r.1.addr % 65536) r.1.mac (BitVec.ofNat 64 (littleEndian r.1.payload))).any fun u =>
        t.vds == u.vds && t.queues == u.queues && t.mem == u.mem) ∧
  EventGives .regrd (fun s => (hostReq s 1).any fun r => answerable s r.1 && r.1.addr % 8 == 0 && (pageRead s r.2 (r.1.addr % 65536)).isSome)
    (fun s t => (hostReq s 1).any fun r => ackSent s t r.1 && t.vds == s.vds && (pageRead s r.2 (r.1.addr % 65536)).any fun w =>
      answeredBy t r.1 2 0 (leBytes 8 w.toNat)) ∧
  EventGives .memwr (fun s => (hostReq s 3).any fun r => (hostPlace s r.2 true r.1.addr r.1.payload.length).any fun p => p.2 == r.1.payload.length)
    (fun s t => (hostReq s 3).any fun r => ackSent s t r.1 && (hostPlace s r.2 true r.1.addr r.1.payload.length).any fun p =>
      memGetN t.mem p.1.pa p.2 == r.1.payload) ∧
  EventGives .memrd (fun s => (hostReq s 4).any fun r => let n := littleEndian r.1.payload
      answerable s r.1 && 1 ≤ n && n ≤ 8192 && (hostPlace s r.2 false r.1.addr n).isSome)
    (fun s t => (hostReq s 4).any fun r => ackSent s t r.1 && t.mem == s.mem && (hostPlace s r.2 false r.1.addr (littleEndian r.1.payload)).any fun p =>
      answeredBy t r.1 5 0 (memGetN s.mem p.1.pa p.2)) ∧
  EventGives .peer (fun s => (nextFrame s 7).isSome)
    (fun s t => (nextFrame s 7).any fun f => ackSent s t f) ∧
  EventGives .fenceFrame (fun s => (nextFrame s 11).any fun f => (s.peers.any fun p => p.num == f.spkg) &&
      s.peers.all fun p => p.num != f.spkg || p.incmin ≤ littleEndian f.payload)
    (fun s t => (nextFrame s 11).any fun f => let n := littleEndian f.payload
      ackSent s t f && (!(s.peers.any fun p => p.num == f.spkg && p.inc ≠ 0 && p.inc < f.inc) ||
          t.flows.all fun w => w.sender != f.spkg || (w.inc == f.inc && w.flow == f.flow)) &&
        t.peers == s.peers.map fun p => if p.num = f.spkg then { p with inc := n, incmin := n, lost := false } else p)

/-- What the root of trust installs (R362, R363, R375, R384, R392, R394, R395): an object that is validly signed and newer is taken whole, any other
is rejected and reported. Whether a signature is valid is an input (log 17). -/
def Obligations.SignedObjects : Prop :=
  (∀ x ∈ [(Instr.fenceCommand, (0 : Fin 5)), (.portRoleAssignment, 1), (.peerTable, 2), (.patchApplied, 3), (.firmwareImage, 4)],
    EventGives x.1 (fun s => match s.input with
        | .signed o key v valid => kindOf o == x.2 && (!valid || v ≤ keyVersion s.pkg key)
        | _ => false)
      (fun s t => match s.input with
        | .signed _ _ v _ => reported t 9 [x.2.val, v] && t.pkg.versions == s.pkg.versions && t.parts == s.parts && t.ports == s.ports &&
            t.peers == s.peers && t.pkg.patch == s.pkg.patch && t.pkg.fwNew == s.pkg.fwNew
        | _ => false)) ∧
  EventGives .fenceCommand (fun s => (signedOf s 0).any fun o => match o.1 with
      | .fence n f => fenceOk s n f
      | _ => false)
    (fun s t => (signedOf s 0).any fun o => installed s t o && match o.1 with
      | .fence n f => partIs t n (fun p => p.fence == f) && (s.parts.all fun p => p.num == n || t.parts.contains p)
      | _ => false) ∧
  EventGives .portRoleAssignment (fun s => (signedOf s 1).any fun o => match o.1 with
      | .ports rs => rs.length == 20 && (rs.filter (· == .host)).length ≤ 2 && s.ports.toList.all fun p => p.role == .off
      | _ => false)
    (fun s t => (signedOf s 1).any fun o => installed s t o && match o.1 with
      | .ports rs => t.ports.toList.map Port.role == rs && t.ports.toList.all fun p => p.up == (p.role != .off)
      | _ => false) ∧
  EventGives .peerTable (fun s => (signedOf s 2).isSome)
    (fun s t => (signedOf s 2).any fun o => installed s t o && match o.1 with
      | .peers rows => t.peers.map (fun p => (p.num, p.ip6, p.mac, p.ports)) == rows.map (fun r =>
            (r.1, littleEndian (r.2.take 16), littleEndian ((r.2.drop 16).take 6), BitVec.ofNat 20 (littleEndian ((r.2.drop 24).take 4)))) &&
          t.peers.all fun p => (s.peers.find? fun q => q.num == p.num).all fun q => q.incmin ≤ p.incmin
      | _ => false) ∧
  EventGives .patchApplied (fun s => (signedOf s 3).any fun o => match o.1 with
      | .patch image => (readPatch image).any fun i => i.version == o.2.2
      | _ => false)
    (fun s t => (signedOf s 3).any fun o => installed s t o && match o.1 with
      | .patch image => (readPatch image).any fun i => reported t 10 [i.mask.toNat, o.2.2] &&
          littleEndian (image.take 4) == 0x48544150 && i.mask.toNat == littleEndian ((image.drop 4).take 1) &&
          i.entries.length == littleEndian ((image.drop 16).take 2) &&
          t.pkg.patch == s.pkg.patch.mapIdx fun n old => if i.mask.getLsbD n then i.entries else old
      | _ => false) ∧
  EventGives .firmwareImage (fun s => (signedOf s 4).isSome)
    (fun s t => (signedOf s 4).any fun o => installed s t o && t.pkg.fwImage == s.pkg.fwImage && match o.1 with
      | .firmware image => t.pkg.fwNew == some image
      | _ => false) ∧
  EventGives .mgmtFirmwareRestart (fun _ => true)
    (fun s t => t.pkg == if s.pkg.fwHeld then
        { s.pkg with fwHeld := false, mgmtHeld := 0, mgmtOut := (s.pkg.mgmt.take s.pkg.mgmtHeld).map mgmtBytes ++ s.pkg.mgmtOut }
      else { s.pkg with fwHeld := true, fwImage := s.pkg.fwNew.getD s.pkg.fwImage, fwNew := none })

/-- Peers, hosts, bring-up, memory out of service and heat (R386, R387, R390, R391, R396, R398, R399, R402). Trainings are inputs (log 17); what
outlives a loss of power, and who adopts a home, are the model's reading (log 40, log 39). -/
def Obligations.PackageEvents : Prop :=
  EventGives .peerLost (fun s => match s.input with
      | .party n _ => s.peers.any fun p => p.num == n && !p.lost
      | _ => false)
    (fun s t => match s.input with
      | .party n _ => t.peers.all (fun p => p.num != n || (p.lost && (adopts s n).all p.adopted.contains)) && t.flows.all (fun w => w.sender != n) && reported t 13 [n] &&
          t.paths.all fun p => p.party != n || !p.live
      | _ => false) ∧
  EventGives .hostLost (fun s => match s.input with
      | .party mac _ => s.hosts.contains mac
      | _ => false)
    (fun s t => match s.input with
      | .party mac _ => !t.hosts.contains mac && t.flows.all (fun w => w.sender != hostParty mac) && t.paths.all (fun p => p.party != hostParty mac) &&
          reported t 14 [mac]
      | _ => false) ∧
  EventGives .homeReturn (fun s => match s.input with
      | .party n _ => (s.peers.find? fun p => p.num == n && !p.adopted.isEmpty && !p.lost).any fun p => match p.adopted with
          | [d] => (s.vd? d).isSome && !(homeRecs s n d).isEmpty && !s.hands.any fun x => x.pkg == n && x.vd == d
          | _ => false
      | _ => false)
    (fun s t => match s.input with
      | .party n _ => (s.peers.find? fun p => p.num == n && !p.adopted.isEmpty && !p.lost).any fun p => p.adopted.all fun d =>
          t.recs == s.recs && t.tiles == s.tiles && t.pkg.mgmt == s.pkg.mgmt &&
            t.hands.any fun x => x.pkg == n && x.vd == d && x.recs == homeRecs s n d && x.tiles == (homeTiles s n d).map Tile.name
      | _ => false) ∧
  EventGives .homeReturn (fun s => match s.input with
      | .party n _ => (s.peers.find? fun p => p.num == n && !p.adopted.isEmpty && !p.lost).any fun p => match p.adopted with
          | [d] => (s.vd? d).isSome && (outFlow s n d).sent.isEmpty &&
              (s.hands.find? fun x => x.pkg == n && x.vd == d) == some ⟨n, d, homeRecs s n d, (homeTiles s n d).map Tile.name⟩
          | _ => false
      | _ => false)
    (fun s t => match s.input with
      | .party n _ => t.peers.all (fun p => p.num != n || p.adopted.isEmpty) &&
          (s.peers.find? fun p => p.num == n && !p.adopted.isEmpty && !p.lost).any fun p => p.adopted.all fun d => reported t 17 [n, d] &&
            t.recs.all (fun r => tileHome r.name != n || tileVd r.name != d) && t.tiles.all fun u => u.vd != d || tileHome u.name != n
      | _ => false) ∧
  EventGives .coldStart (fun s => mayStartCold s && match s.input with
      | .measure _ _ => true
      | _ => false)
    (fun s t => match s.input with
      | .measure mJ ident => t.pkg.phase == .reduced && t.pkg.powered && s.pkg.inc < t.pkg.inc && (ident.isSome || t.pkg.num == s.pkg.num) &&
          t.pkg.nores == decide (mJ < 1350) &&
          t.pkg.clocks == Vector.replicate 8 600 && t.pkg.hret == 0 && t.pkg.sret == 0 && t.ports == Vector.replicate 20 Port.reset && t.mem == s.mem
      | _ => false) ∧
  EventGives .trainingComplete (fun s => s.pkg.phase == .reduced && match s.input with
      | .train isSite n _ => n < if isSite then 4 else 12
      | _ => false)
    (fun s t => match s.input with
      | .train true n _ => if h : n < 4 then siteDone t ⟨n, h⟩ else false
      | .train false n _ => stackDone t n
      | _ => false) ∧
  EventGives .fullServiceEntry mayEnter (fun _ t => t.pkg.phase == .full && t.pkg.clocks == Vector.replicate 8 1200 && t.vds.isEmpty) ∧
  EventGives .retired (fun s => match s.input with
      | .chan st ch n => st < 12 && 1 ≤ n && ch + n ≤ 64
      | _ => false)
    (fun s t => match s.input with
      | .chan st ch n => reported t 16 [st, ch, n] && if n = 64 then t.pkg.hret == s.pkg.hret ||| (1 <<< st)
          else (List.range n).all fun i => t.pkg.pchOut.contains (st, ch + i)
      | _ => false) ∧
  EventGives .recalStart (fun s => match s.input with
      | .chan st ch _ => st < 12 && ch < 64
      | _ => false)
    (fun s t => match s.input with
      | .chan st ch _ => t.pkg.recal.contains (st, ch) && t.mem == s.mem
      | _ => false) ∧
  EventGives .recal (fun s => match s.input with
      | .chan st ch _ => s.pkg.recal.contains (st, ch)
      | _ => false)
    (fun s t => match s.input with
      | .chan st ch _ => !t.pkg.recal.contains (st, ch) && reported t 15 [st, ch]
      | _ => false) ∧
  EventGives .thermal (fun s => match s.input with
      | .thermal die temp watts => die < 8 && 600 < dieClock s die && (1050 < temp || 2950 < watts)
      | _ => false)
    (fun s t => match s.input with
      | .thermal die temp _ => let n := max 600 (dieClock s die - 75)
          t.pkg.clocks == s.pkg.clocks.mapIdx (fun i c => if i = die then n else c) && reported t 18 [die, temp, n]
      | _ => false) ∧
  EventGives .thermalRecovery (fun s => match s.input with
      | .pick die => die < 8 && dieClock s die < if s.pkg.phase == .full then 1200 else 600
      | _ => false)
    (fun s t => match s.input with
      | .pick die => let n := min (if s.pkg.phase == .full then 1200 else 600) (dieClock s die + 75)
          t.pkg.clocks == s.pkg.clocks.mapIdx fun i c => if i = die then n else c
      | _ => false) ∧
  EventGives .thermalStop (fun s => s.pkg.powered && match s.input with
      | .thermal _ temp _ => 1150 ≤ temp
      | _ => false)
    (fun s t => match s.input with
      | .thermal die temp _ => !t.pkg.powered && !t.live && t.mem == mediaLeft s && (s.pkg.nores || t.mem == s.media) && t.tasks.isEmpty &&
          t.pkg.stop == some ⟨die, temp, [0, 1, 2, 3]⟩ && t.pkg.mgmt == s.pkg.mgmt && !mayStartCold t
      | _ => false)

/-- Regather, Lehr, mirrored VDs and losses (R346, R350, R351, R359, R434). What a lost die leaves is the model's reading (log 39), a partner's
digest an input (log 37). -/
def Obligations.RecoveryEvents : Prop :=
  EventGives .regatherWalk (fun s => match s.input with
      | .tile name => (s.vd? (tileVd name)).any fun v => v.num == tileVd name && walkDue s v.num name && !goneWanted s v.num name &&
          !(v.staged.any fun w => w.name == name) && (s.rec? name).any fun r => r.prim && !r.complete && !r.root && r.acq.isEmpty &&
            (rebuildTask s r.kcopy name).isNone
      | _ => false)
    (fun s t => match s.input with
      | .tile name => (t.rec? name).any (·.rbld) && (s.rec? name).any fun r =>
          t.tasks.any fun k => k.uid == s.nextUid && k.rebuild && k.rgth && k.vd == tileVd name && k.kcopy == r.kcopy &&
            k.prio == max r.prio (wantPrio (wanters s (tileVd name) name))
      | _ => false) ∧
  (∀ x ∈ [Instr.lehrReplicaComplete, .lehrRetry],
    EventGives x (fun s => (lehrDue s).any fun r => (r.lstep == 0 || r.lstep == 3) && r.replica == 0)
      (fun s t => (lehrDue s).any fun r => (s.vd? (tileVd r.name)).any fun v => match replicaPlace s v r with
        | some va => (t.rec? r.name).any (fun q => q.lstep == 1 && q.lplace == BitVec.ofNat 64 va && q.replica == 0 && q.apend) &&
            vdIs t v.num fun w => w.replicas.contains (va, r.size + 512, r.name)
        | none => reported t 6 [v.num, anpend s v.num] && t.mem == s.mem && (t.rec? r.name).any fun q => q.lstep == 3 && q.replica == 0 && q.apend)) ∧
  EventGives .lehrReplicaComplete (fun s => (lehrDue s).any fun r => (r.lstep == 1 || r.lstep == 2) &&
      !rangePending s (tileVd r.name) r.lplace.toNat (r.size + 512))
    (fun s t => (lehrDue s).any fun r => if r.lstep = 1 then (t.rec? r.name).any fun q => q.lstep == 2 && q.lplace == r.lplace && q.apend
      else (t.rec? r.name).all fun q => q.complete && q.replica == r.lplace) ∧
  EventGives .tileDigestExchange (fun s => match s.input with
      | .digest name _ => vdIs s (tileVd name) (fun v => v.pairs && v.num == tileVd name) &&
          tileIs s (tileVd name) name fun u => u.sealed && u.resident && !u.matched && (s.rec? name).isSome
      | _ => false)
    (fun s t => match s.input with
      | .digest name other => (s.rec? name).any fun r =>
          if r.digest == other then tileIs t (tileVd name) name (fun u => u.matched)
          else if r.again then vdIs t (tileVd name) fun v => v.mdiv else (t.rec? name).all (·.again)
      | _ => false) ∧
  EventGives .uncorrectableError (fun s => match s.input with
      | .unit pa => match target pa with
        | .hbm _ _ | .dur _ _ => true
        | _ => false
      | _ => false)
    (fun s t => match s.input with
      | .unit pa =>
        if isDur pa || ((tileAtPa s pa).isNone && !(lineUsed s).contains (pa / 256 * 256)) then
          t == { s with errs := if s.errs.contains (pa / 64) then s.errs else pa / 64 :: s.errs }
        else (tileAtPa s pa).all fun x => !x.sealed || s.tile? x.vd x.name != some x || (s.rec? x.name).all (fun r => !r.isOpen) ||
          (t.tile? x.vd x.name).all fun u => !u.resident
      | _ => false) ∧
  EventGives .computeDieLoss (fun s => match s.input with
      | .pick die => die < 8 && !s.pkg.diesOut.getLsbD die
      | _ => false)
    (fun s t => match s.input with
      | .pick die => t.pkg.diesOut == s.pkg.diesOut ||| (1 <<< die) && t.cores.all fun c => (c.num / 24 != die || c == Core.empty c.num) &&
          s.cores.all fun c => c.num / 24 != die || (c.active.toList ++ c.shadow.toList ++ c.leaving.toList).all fun u =>
            (s.task? u).isNone || taskIs t u fun k => !k.alive
      | _ => false) ∧
  EventGives .baseDieLoss (fun s => match s.input with
      | .pick bd => bd < 4 && !s.pkg.basesOut.getLsbD bd
      | _ => false)
    (fun s t => match s.input with
      | .pick bd => t.pkg.basesOut == s.pkg.basesOut ||| (1 <<< bd) && (s.tiles.any (fun x => tileOnDie s x bd && !x.sealed) ||
          s.tiles.all fun x => !tileOnDie s x bd || s.tile? x.vd x.name != some x || (s.rec? x.name).all (fun r => !r.isOpen) ||
            (t.tile? x.vd x.name).all fun u => !u.resident)
      | _ => false)

/-- One step is one turn (log 1). A slice's turn runs exactly the instruction that the words at its program counter decode to, or the head of
an engine queue that dispatch put there; words that decode to none raise ILLEGAL with subcause 5. An event's turn runs the event. -/
def Obligations.StepRunsDecodedInstruction : Prop :=
  (∀ (s : State) (l : List Turn) (w0 w1 n : Nat), s.agenda = .slice .a :: l →
    let t := { s with agenda := l, slice := .a }
    runsA t = true → copyFaulted t.ctx = false → fetch t t.ctx.a.pc = .ok w0 w1 n →
      (∀ i, decodeWords w0 w1 = .ok i → step s = exec i t) ∧
      (∀ e, decodeWords w0 w1 = .error e → step s = .next (raise { cause := .illegal, sub := 5 } t))) ∧
  (∀ (s : State) (l : List Turn), s.agenda = .slice .c :: l →
    let t := { s with agenda := l, slice := .c }
    cutDone t.ctx = false → runsC t = true → (∀ p ∈ t.ctx.c.pend, t.ctx.c.cc < p.due) → frozen t = none →
      (∀ u w0 w1 i, dispatchC t = .front u w0 w1 → decodeWords w0 w1 = .ok i → step s = exec i u) ∧
      (∀ e i, dispatchC t = .idle → nextHead t.ctx.c = some e →
        decodeWords (takeHead t e).ctx.c.cur.w0 (takeHead t e).ctx.c.cur.w1 = .ok i → step s = exec i (takeHead t e)) ∧
      (∀ u e i, dispatchC t = .queued u → frozen u = none → nextHead u.ctx.c = some e →
        decodeWords (takeHead u e).ctx.c.cur.w0 (takeHead u e).ctx.c.cur.w1 = .ok i → step s = exec i (takeHead u e))) ∧
  (∀ (s : State) (l : List Turn) (i : Instr) (inp : Input), s.agenda = .event i inp :: l → i.hasEncoding = false →
    step s = exec i { s with agenda := l, input := inp }) ∧
  (∀ (s : State), s.agenda = [] → step s = .next { s with agenda := nextRound s })

/-- Words that the spec prints with the instruction each stands for, of every group, and words that it calls unallocated (R83, R102, R121, R128,
R180, R201, and the examples after R89 and R92). -/
def Obligations.DecodedWords : Prop :=
  let md := fun (pm : Fin 64) (z : Bool) (sf af port : Fin 16) => (⟨pm, z, sf, af, port, ⟨false, .rne⟩⟩ : VMods)
  let plain := md 0 false 0 0 0
  (∀ x ∈ [(0x00005000, 0, Instr.done), (0x046110C0, 0, .divn 3 1 2 ⟨false, 0⟩), (0x0C810003, 0, .muli 4 1 ⟨false, 0⟩ 3),
      (0x30A00400, 0x12345678, .ldiExt 5 ⟨false, 0⟩ 0x12345678), (0x3923080C, 0, .bfx 9 3 8 3), (0x40E0C000, 0, .loop 7 0),
      (0x47E00005, 0, .call 31 5), (0x481F0000, 0, .jr 31), (0x4C418180, 0, .lds 2 12 3), (0x00088001, 0, .qpushYq 8),
      (0x00609001, 0, .qpopYq 3), (0x04642817, 0, .add 3 4 5 ⟨true, 7⟩), (0x80063900, 0, .sset 3 (.loop 1) 6), (0x80003010, 0, .sgo 3),
      (0x80A03020, 0, .sget 5 3 .base), (0x84836010, 0, .ldD 4 3 16), (0x84E24FFC, 0, .ldW 7 2 (-4)), (0x88836000, 0, .stD 4 3 0),
      (0x8C022000, 0, .vld 1 2 0), (0x90032005, 0, .vst 1 3 5), (0x9C020181, 0, .badd 3 2), (0x9C000180, 0, .bwait 3),
      (0x94853200, 7, .cpyIn ⟨4, 5, 6, 2, 7⟩), (0x9C050102, 0, .tacq 2 5), (0x9C00010B, 0, .fenceP), (0x9C00020B, 0, .fenceDur),
      (0x988531C8, 0, .amoCas 4 5 6 .i64), (0x98063C20, 0, .damoAdd 6 7 .f32), (0x9C00000C, 0, .dbar), (0x9C000010, 0, .pbar), (0x9C040018, 0, .spawn 4)],
    (decodeWords x.1 x.2.1).toOption = some x.2.2) ∧
  (∀ x ∈ [(0xC3CF3D00, 0x00050000, Instr.vadd (.sq 0) (.lq 0) (.lq 1) .f32 plain), (0xC3CF0100, 0x00330000, .vadd (.sq 0) (.lq 0) (.v 1) .i32 (md 3 false 0 0 0)),
      (0xC8310017, 0x00030000, .plt 3 4 .i32 plain), (0xD010C007, 0x00030000, .vsplat (.v 1) 3 .i32 plain),
      (0xC0928B03, 0x00050000, .vmulz (.v 9) (.v 10) (.v 11) .f32 plain), (0xC441460B, 0x1C030000, .vfshl (.v 4) (.v 5) (.v 6) (.v 7) .i32 plain),
      (0xD4810303, 0x00030000, .vgmax (.v 8) (.v 4) 3 .i32 plain), (0xCC518708, 0x00010001, .vqnt (.v 5) (.v 6) (.v 7) .i8 ⟨0, false, 0, 0, 0, ⟨false, .rtz⟩⟩),
      (0xCC20C005, 0x00040000, .vcvt (.v 2) (.v 3) .f32 .bf16 plain), (0xD4204000, 0x00050000, .vrsum (.v 2) (.v 1) .f32 plain),
      (0xD810800C, 0x00050000, .vexp2X (.v 1) (.v 2) .f32 plain), (0xD8C0C410, 0x00030000, .vrng (.v 12) 3 4 plain), (0xDC01C202, 0, .vspill 130 (.v 7) plain),
      (0xC02E810A, 0x009C3010, .vmax (.v 2) .stream (.v 1) .bf16 (md 9 true 3 0 1)), (0xC0404204, 0x0C552100, .vfma (.v 4) (.v 1) (.v 2) (.v 3) .f32 (md 5 false 2 1 0)),
      (0xE0000000, 0x29800000, .wbsel 0 5 6 ⟨0, 0⟩), (0xE1800008, 0, .mmaz 0 0 0 .s1x4 .bf16bf16 8 ⟨0, 0⟩), (0xE1016010, 0x20000010, .mma 0 2 1 .s2x2 .bf16mx4 16 ⟨0, 0⟩),
      (0xE2000000, 0x128A1000, .mdrain 0 1 2 ⟨true, false, false, .relu, .i8, false, ⟨false, .rne⟩⟩ ⟨1, 0⟩), (0xE3800000, 0x38000000, .mstat 7 0 ⟨0, 0⟩),
      (0xE5856040, 0x48240000, .rsoftmax ⟨5, 6, 64, 9, 0, .bf16, .bf16, ⟨0, 0⟩, ⟨false, .rne⟩⟩), (0xE8C20000, 0, .fset 3 2), (0xE8510000, 0, .fwait 1 1),
      (0, 0, .illegalZeroWord), (0xFC001234, 0, .definedIllegal 0x1234)],
    (decodeWords x.1 x.2.1).toOption = some x.2.2) ∧
  (∀ x ∈ [(0xC0404204, 0x0C552108), (0x30A00401, 0x12345678), (0xD4204000, 0x00050001), (0xD4204000, 0x000D0000), (0xE1010006, 0x20000010), (0xE2000000, 0x128A1004)],
    (decodeWords x.1 x.2).toOption = none)

/-- The encoding of fset and fwait (R101): the fields of word 0, and what is unallocated. -/
def Obligations.FlagEncoding : Prop :=
  ∀ (w0 w1 : BitVec 32), w0.toNat / 2 ^ 26 = 0x3A →
    let f : Fin 16 := Fin.ofNat 16 (w0.toNat / 2 ^ 22)
    let op := w0.toNat / 2 ^ 20 % 4
    let cnt : Fin 16 := Fin.ofNat 16 (w0.toNat / 2 ^ 16)
    decodeWords w0.toNat w1.toNat = if w0.toNat % 2 ^ 16 = 0 ∧ w1 = 0 ∧ cnt ≠ 0 ∧ op < 2 then .ok (if op = 0 then .fset f cnt else .fwait f cnt)
      else .error .unallocated

/-- Decoding and encoding agree (R78 to R101): every well-formed instruction that has an encoding is read back from its words, with every
operand, and with the length of its words. -/
def Obligations.DecodeOfEncode : Prop :=
  ∀ i : Instr, i.wf = true → i.hasEncoding = true → decode (encodeBytes i) = .ok (i, 4 * (encode i).length) ∧ ∀ w ∈ encode i, w < 2 ^ 32

/-- The memories keep their canonical form, addresses rising and no zero listed, through every step (log 5), so that equal memories are equal. -/
def Obligations.MemoryStaysCanonical : Prop :=
  ∀ s t : State, Memory.wf s.mem = true → Memory.wf s.media = true → step s = .next t → Memory.wf t.mem = true ∧ Memory.wf t.media = true

/-- What reset leaves (R25, R36, R293, R324, R366, R390): phase 0, nothing running, both memories canonical; the registers of R324 in a new
partition's block and those of a new VD's block; p0 all ones and every other register of a new context zero. Registers to which the spec gives no
reset value are zero by the model's choice (log 3), memory is empty (log 5). -/
def Obligations.ResetState : Prop :=
  let s := State.reset
  s.pkg.phase = .reset ∧ s.live = false ∧ s.tasks = [] ∧ s.queues = [] ∧ s.vds = [] ∧ s.parts = [] ∧ s.tiles = [] ∧ s.recs = [] ∧ s.gangs = [] ∧
  (∀ c ∈ s.cores, c.active = none ∧ c.shadow = none ∧ c.deque = []) ∧ Memory.wf s.mem = true ∧ Memory.wf s.media = true ∧
  (∀ n < 48, let u := { s with parts := [Partition.new n] };
    [0, 8, 0x10, 0x18, 0x20, 0x38].map (devReg u (.sched n)) = [some 65536, some 120000, some 12000, some 12000, some 0, some 0]) ∧
  (∀ n < 512, let u := { s with vds := [Vd.new n 0] };
    [0, 8, 0x10, 0x18, 0x40, 0x48, 0xC0, 0xC8, 0x100, 0x108, 0x110, 0x118].map (devReg u (.vdCtl n)) = List.replicate 12 (some 0)) ∧
  (let x := Context.reset;
    x.a.regs = Vector.replicate 32 0 ∧ x.c.regs = Vector.replicate 32 0 ∧ x.c.v = Vector.replicate 48 0 ∧ x.c.m = Vector.replicate 8 0 ∧
    x.c.f = Vector.replicate 16 0 ∧ x.c.vflg = 0 ∧ pRead { s with ctx := x } 0 = Pred.ones ∧ pRead { s with ctx := x } 1 = 0)

/-- What events of the fabric, of registers and of management leave alone: memory, the durable media, every context, task, tile and record. That
these are steps of their own is the model's (log 1). -/
def Obligations.EventFrames : Prop :=
  ∀ i ∈ [Instr.gangReserving, .vdCmpl, .vdReheat, .xinvStage1Page, .xinvStage1All, .xinvStage2Page,
      .xinvStage2All, .xinvComplete, .ack, .nack, .heartbeat, .resendTimeout, .heartbeatTimer, .rateIncrease, .linkDown, .linkRecovery, .pathFailed,
      .pathLive, .serdesLaneRecal, .frameTypeUnallocated, .regrsp, .memrsp, .cmpl, .fenceFrame, .fenceCommand, .portRoleAssignment, .peerTable,
      .patchApplied, .firmwareImage, .mgmtFirmwareRestart, .recalStart, .thermal, .thermalRecovery, .journalReplay, .unitProgrammed, .hostLost],
    ∀ s t : State, exec i s = .next t → t.mem = s.mem ∧ t.media = s.media ∧ t.ctx = s.ctx ∧ t.parked = s.parked ∧ t.live = s.live ∧
      t.tasks = s.tasks ∧ t.tiles = s.tiles ∧ t.recs = s.recs ∧ t.durPend = s.durPend
end

