-- ==== Sys2Proof/Laws/Memory.lean ====
section
/-!
SUPPORT. Byte memories: every operation keeps the canonical form, and a read after a write gives what was written there and leaves every
other byte alone.
-/

namespace Sys2Proof.Machine

/-! The canonical form. -/

theorem memWfFrom_mono : ∀ (m : Memory) (lo hi : Nat), lo ≤ hi → memWfFrom hi m = true → memWfFrom lo m = true
  | [], _, _, _, _ => rfl
  | (a, v) :: m, lo, hi, h, w => by
    simp only [memWfFrom, Bool.and_eq_true, decide_eq_true_eq] at w ⊢
    exact ⟨⟨by omega, w.1.2⟩, w.2⟩

theorem memWfFrom_append : ∀ (m n : Memory) (lo hi : Nat), memWfFrom lo m = true → (∀ c ∈ m, c.1 < hi) → memWfFrom hi n = true → lo ≤ hi →
    memWfFrom lo (m ++ n) = true
  | [], n, lo, hi, _, _, hn, h => memWfFrom_mono n lo hi h hn
  | (a, v) :: m, n, lo, hi, hm, hb, hn, h => by
    simp only [memWfFrom, Bool.and_eq_true, decide_eq_true_eq, List.cons_append] at hm ⊢
    have ha : a < hi := hb (a, v) (by simp)
    exact ⟨hm.1, memWfFrom_append m n (a + 1) hi hm.2 (fun c hc => hb c (by simp [hc])) hn (by omega)⟩

theorem memSet_wfFrom : ∀ (m : Memory) (lo a : Nat) (v : Byte), memWfFrom lo m = true → lo ≤ a → memWfFrom lo (memSet m a v) = true
  | [], lo, a, v, _, h => by
    unfold memSet; split
    · rfl
    · rename_i hv; simp only [memWfFrom, Bool.and_eq_true, decide_eq_true_eq, bne_iff_ne]; exact ⟨⟨h, hv⟩, trivial⟩
  | (b, w) :: m, lo, a, v, hm, h => by
    have hm' := hm
    simp only [memWfFrom, Bool.and_eq_true, decide_eq_true_eq] at hm
    unfold memSet; split
    · simp only [memWfFrom, Bool.and_eq_true, decide_eq_true_eq]
      exact ⟨hm.1, memSet_wfFrom m (b + 1) a v hm.2 (by omega)⟩
    · split
      · rename_i hb; split
        · exact memWfFrom_mono m lo (b + 1) (by omega) hm.2
        · rename_i hv; subst hb
          simp only [memWfFrom, Bool.and_eq_true, decide_eq_true_eq, bne_iff_ne]; exact ⟨⟨h, hv⟩, hm.2⟩
      · split
        · exact hm'
        · rename_i h1 h2 hv
          simp only [memWfFrom, Bool.and_eq_true, decide_eq_true_eq, bne_iff_ne] at hm ⊢
          exact ⟨⟨h, hv⟩, ⟨by omega, hm.1.2⟩, hm.2⟩

/-- Writing a byte keeps the canonical form. -/
theorem memSet_wf (m : Memory) (a : Nat) (v : Byte) (h : Memory.wf m = true) : Memory.wf (memSet m a v) = true :=
  memSet_wfFrom m 0 a v h (Nat.zero_le a)

/-- Writing cells keeps it. -/
theorem memSetCells_wf (m : Memory) (cs : List Host.Cell) (h : Memory.wf m = true) : Memory.wf (memSetCells m cs) = true := by
  unfold memSetCells
  induction cs generalizing m with
  | nil => exact h
  | cons c cs ih => exact ih _ (memSet_wf m c.1 c.2 h)

theorem memBelow_lt : ∀ (m : Memory) (a : Nat), ∀ c ∈ memBelow m a, c.1 < a
  | [], _, c, h => by simp [memBelow] at h
  | (b, v) :: m, a, c, h => by
    unfold memBelow at h; split at h
    · rename_i hb
      rcases List.mem_cons.1 h with rfl | h
      · exact hb
      · exact memBelow_lt m a c h
    · simp at h

theorem memBelow_wfFrom : ∀ (m : Memory) (lo a : Nat), memWfFrom lo m = true → memWfFrom lo (memBelow m a) = true
  | [], _, _, _ => rfl
  | (b, v) :: m, lo, a, h => by
    simp only [memWfFrom, Bool.and_eq_true, decide_eq_true_eq] at h
    unfold memBelow; split
    · simp only [memWfFrom, Bool.and_eq_true, decide_eq_true_eq]
      exact ⟨h.1, memBelow_wfFrom m (b + 1) a h.2⟩
    · rfl

theorem memFrom_wfFrom : ∀ (m : Memory) (lo a : Nat), memWfFrom lo m = true → memWfFrom a (memFrom m a) = true
  | [], _, _, _ => rfl
  | (b, v) :: m, lo, a, h => by
    simp only [memWfFrom, Bool.and_eq_true, decide_eq_true_eq] at h
    unfold memFrom; split
    · exact memFrom_wfFrom m (b + 1) a h.2
    · simp only [memWfFrom, Bool.and_eq_true, decide_eq_true_eq]
      exact ⟨⟨by omega, h.1.2⟩, h.2⟩

theorem runCells_bound : ∀ (bs : List Byte) (a : Nat), ∀ c ∈ runCells a bs, c.1 < a + bs.length
  | [], _, c, h => by simp [runCells] at h
  | b :: bs, a, c, h => by
    unfold runCells at h; split at h
    · have := runCells_bound bs (a + 1) c h; simp only [List.length_cons]; omega
    · rcases List.mem_cons.1 h with rfl | h
      · simp only [List.length_cons]; omega
      · have := runCells_bound bs (a + 1) c h; simp only [List.length_cons]; omega

theorem runCells_wfFrom : ∀ (bs : List Byte) (a : Nat), memWfFrom a (runCells a bs) = true
  | [], _ => rfl
  | b :: bs, a => by
    unfold runCells; split
    · exact memWfFrom_mono _ a (a + 1) (by omega) (runCells_wfFrom bs (a + 1))
    · rename_i hb
      simp only [memWfFrom, Bool.and_eq_true, decide_eq_true_eq, bne_iff_ne]
      exact ⟨⟨Nat.le_refl a, hb⟩, runCells_wfFrom bs (a + 1)⟩

/-- Writing a run of bytes keeps it. -/
theorem memSetN_wf (m : Memory) (a : Nat) (bs : List Byte) (h : Memory.wf m = true) : Memory.wf (memSetN m a bs) = true := by
  unfold memSetN Memory.wf
  rw [List.append_assoc]
  refine memWfFrom_append _ _ 0 a (memBelow_wfFrom m 0 a h) (memBelow_lt m a) ?_ (Nat.zero_le a)
  exact memWfFrom_append _ _ a (a + bs.length) (runCells_wfFrom bs a) (runCells_bound bs a) (memFrom_wfFrom m 0 _ h) (by omega)

/-- Keeping only some cells keeps it. -/
theorem memFilter_wfFrom (p : Host.Cell → Bool) : ∀ (m : Memory) (lo : Nat), memWfFrom lo m = true → memWfFrom lo (m.filter p) = true
  | [], _, _ => rfl
  | (a, v) :: m, lo, h => by
    simp only [memWfFrom, Bool.and_eq_true, decide_eq_true_eq] at h
    rw [List.filter_cons]; split
    · simp only [memWfFrom, Bool.and_eq_true, decide_eq_true_eq]
      exact ⟨h.1, memFilter_wfFrom p m (a + 1) h.2⟩
    · exact memWfFrom_mono _ lo (a + 1) (by omega) (memFilter_wfFrom p m (a + 1) h.2)

theorem memFilter_wf (p : Host.Cell → Bool) (m : Memory) (h : Memory.wf m = true) : Memory.wf (m.filter p) = true :=
  memFilter_wfFrom p m 0 h

/-! Reads after writes. -/

theorem memGet_below : ∀ (m : Memory) (lo x : Nat), memWfFrom lo m = true → x < lo → memGet m x = 0
  | [], _, _, _, _ => rfl
  | (b, v) :: m, lo, x, h, hx => by
    simp only [memWfFrom, Bool.and_eq_true, decide_eq_true_eq] at h
    unfold memGet; rw [if_neg (by omega), if_neg (by omega)]

theorem memGet_memSet_from : ∀ (m : Memory) (lo a x : Nat) (v : Byte), memWfFrom lo m = true →
    memGet (memSet m a v) x = if x = a then v else memGet m x
  | [], _, a, x, v, _ => by
    unfold memSet
    by_cases hv : v = 0
    · simp [hv, memGet]
    · simp only [hv, if_false, memGet]
      by_cases h1 : x = a
      · subst h1; simp
      · have : ¬ a = x := fun h => h1 h.symm
        simp [h1, this]
  | (b, w) :: m, lo, a, x, v, h => by
    simp only [memWfFrom, Bool.and_eq_true, decide_eq_true_eq] at h
    unfold memSet; split
    · rename_i hba
      simp only [memGet]
      split
      · rw [memGet_memSet_from m (b + 1) a x v h.2]
      · split
        · rename_i h1 h2; rw [if_neg (by omega)]
        · rename_i h1 h2; rw [if_neg (by omega)]
    · split
      · rename_i h1 hab; subst hab
        split
        · rename_i hv
          by_cases hx : x = b
          · subst hx; rw [if_pos rfl, hv]; exact memGet_below m (x + 1) x h.2 (by omega)
          · rw [if_neg hx]; simp only [memGet]
            split
            · rfl
            · rw [if_neg (by omega)]; exact memGet_below m (b + 1) x h.2 (by omega)
        · simp only [memGet]
          by_cases hx : x = b
          · subst hx; simp
          · rw [if_neg hx]; split
            · rfl
            · rw [if_neg (by omega), if_neg (by omega)]
      · rename_i h1 h2
        split
        · rename_i hv
          by_cases hx : x = a
          · subst hx; rw [if_pos rfl, hv]; simp only [memGet]; rw [if_neg (by omega), if_neg (by omega)]
          · rw [if_neg hx]
        · show memGet ((a, v) :: (b, w) :: m) x = _
          by_cases hx : x = a
          · subst hx; simp [memGet]
          · rw [if_neg hx]
            rw [memGet]
            split
            · rfl
            · rw [if_neg (by omega)]; simp only [memGet]; rw [if_neg (by omega), if_neg (by omega)]

/-- A read after a write. -/
theorem memGet_memSet (m : Memory) (a x : Nat) (v : Byte) (h : Memory.wf m = true) :
    memGet (memSet m a v) x = if x = a then v else memGet m x :=
  memGet_memSet_from m 0 a x v h

/-- A write of cells leaves the addresses that it does not name alone. -/
theorem memGet_memSetCells_other (m : Memory) (cs : List Host.Cell) (x : Nat) (h : Memory.wf m = true) (hx : ∀ c ∈ cs, c.1 ≠ x) :
    memGet (memSetCells m cs) x = memGet m x := by
  unfold memSetCells
  induction cs generalizing m with
  | nil => rfl
  | cons c cs ih =>
    rw [List.foldl_cons, ih _ (memSet_wf m c.1 c.2 h) fun d hd => hx d (by simp [hd]), memGet_memSet m c.1 x c.2 h,
      if_neg fun he => hx c (by simp) he.symm]

/-! The operations that write physical memory. -/

/-- Stores performed keep the canonical form of memory, and change nothing but memory, the units in error and the stores that await
acceptance. -/
theorem performAt_spec (s : State) (uid epoch : Nat) (cells : List Host.Cell) (h : Memory.wf s.mem = true) :
    Memory.wf (performAt s uid epoch cells).mem = true ∧ (performAt s uid epoch cells).mem = memSetCells s.mem cells ∧
    ∃ m e d, performAt s uid epoch cells = { s with mem := m, errs := e, durPend := d } :=
  ⟨memSetCells_wf s.mem cells h, rfl, _, _, _, rfl⟩

/-- A run of bytes performed at once, likewise. -/
theorem performRun_spec (s : State) (uid epoch pa : Nat) (bs : List Byte) (h : Memory.wf s.mem = true) :
    Memory.wf (performRun s uid epoch pa bs).mem = true ∧ ∃ m e d, performRun s uid epoch pa bs = { s with mem := m, errs := e, durPend := d } := by
  unfold performRun; split
  · exact ⟨memSetCells_wf _ _ h, _, _, _, rfl⟩
  · exact ⟨memSetN_wf _ _ _ h, _, _, _, rfl⟩

/-- Writes of the part itself, likewise. -/
theorem hwWrite_spec (s : State) (vd va : Nat) (bs : List Byte) (h : Memory.wf s.mem = true) :
    Memory.wf (hwWrite s vd va bs).mem = true ∧ ∃ m e d, hwWrite s vd va bs = { s with mem := m, errs := e, durPend := d } := by
  unfold hwWrite
  generalize pieces va bs.length = l
  induction l generalizing s with
  | nil => exact ⟨h, s.mem, s.errs, s.durPend, rfl⟩
  | cons p l ih =>
    rw [List.foldl_cons]
    cases ht : hwTranslate s vd p.1 with
    | none => exact ih s h
    | some pa =>
      obtain ⟨hw, m, e, d, he⟩ := performRun_spec s 0 0 pa ((bs.drop (p.1 - va)).take p.2) h
      obtain ⟨hw', m', e', d', he'⟩ := ih (performRun s 0 0 pa ((bs.drop (p.1 - va)).take p.2)) hw
      refine ⟨hw', m', e', d', ?_⟩
      show List.foldl _ (performRun s 0 0 pa ((bs.drop (p.1 - va)).take p.2)) l = _
      rw [he', he]

end Sys2Proof.Machine
end

