-- ==== Sys2Proof/Laws/State.lean ====
section
/-!
SUPPORT. What each update of one part of the state leaves in every field: true by rfl, so that no proof unfolds a record update.
-/

namespace Sys2Proof.Machine

@[simp] theorem State.modCtx_ctx (s : State) (f : Context → Context) : (s.modCtx f).ctx = f s.ctx := rfl
@[simp] theorem State.modCtx_slice (s : State) (f : Context → Context) : (s.modCtx f).slice = s.slice := rfl
@[simp] theorem State.modCtx_live (s : State) (f : Context → Context) : (s.modCtx f).live = s.live := rfl
@[simp] theorem State.modCtx_parked (s : State) (f : Context → Context) : (s.modCtx f).parked = s.parked := rfl
@[simp] theorem State.modCtx_mem (s : State) (f : Context → Context) : (s.modCtx f).mem = s.mem := rfl
@[simp] theorem State.modCtx_media (s : State) (f : Context → Context) : (s.modCtx f).media = s.media := rfl
@[simp] theorem State.modCtx_durPend (s : State) (f : Context → Context) : (s.modCtx f).durPend = s.durPend := rfl
@[simp] theorem State.modCtx_errs (s : State) (f : Context → Context) : (s.modCtx f).errs = s.errs := rfl
@[simp] theorem State.modCtx_pkg (s : State) (f : Context → Context) : (s.modCtx f).pkg = s.pkg := rfl
@[simp] theorem State.modCtx_parts (s : State) (f : Context → Context) : (s.modCtx f).parts = s.parts := rfl
@[simp] theorem State.modCtx_vds (s : State) (f : Context → Context) : (s.modCtx f).vds = s.vds := rfl
@[simp] theorem State.modCtx_queues (s : State) (f : Context → Context) : (s.modCtx f).queues = s.queues := rfl
@[simp] theorem State.modCtx_tasks (s : State) (f : Context → Context) : (s.modCtx f).tasks = s.tasks := rfl
@[simp] theorem State.modCtx_cores (s : State) (f : Context → Context) : (s.modCtx f).cores = s.cores := rfl
@[simp] theorem State.modCtx_gangs (s : State) (f : Context → Context) : (s.modCtx f).gangs = s.gangs := rfl
@[simp] theorem State.modCtx_tiles (s : State) (f : Context → Context) : (s.modCtx f).tiles = s.tiles := rfl
@[simp] theorem State.modCtx_recs (s : State) (f : Context → Context) : (s.modCtx f).recs = s.recs := rfl
@[simp] theorem State.modCtx_kept (s : State) (f : Context → Context) : (s.modCtx f).kept = s.kept := rfl
@[simp] theorem State.modCtx_keeps (s : State) (f : Context → Context) : (s.modCtx f).keeps = s.keeps := rfl
@[simp] theorem State.modCtx_rests (s : State) (f : Context → Context) : (s.modCtx f).rests = s.rests := rfl
@[simp] theorem State.modCtx_pairs (s : State) (f : Context → Context) : (s.modCtx f).pairs = s.pairs := rfl
@[simp] theorem State.modCtx_sites (s : State) (f : Context → Context) : (s.modCtx f).sites = s.sites := rfl
@[simp] theorem State.modCtx_ports (s : State) (f : Context → Context) : (s.modCtx f).ports = s.ports := rfl
@[simp] theorem State.modCtx_flows (s : State) (f : Context → Context) : (s.modCtx f).flows = s.flows := rfl
@[simp] theorem State.modCtx_peers (s : State) (f : Context → Context) : (s.modCtx f).peers = s.peers := rfl
@[simp] theorem State.modCtx_paths (s : State) (f : Context → Context) : (s.modCtx f).paths = s.paths := rfl
@[simp] theorem State.modCtx_hosts (s : State) (f : Context → Context) : (s.modCtx f).hosts = s.hosts := rfl
@[simp] theorem State.modCtx_asked (s : State) (f : Context → Context) : (s.modCtx f).asked = s.asked := rfl
@[simp] theorem State.modCtx_hostQ (s : State) (f : Context → Context) : (s.modCtx f).hostQ = s.hostQ := rfl
@[simp] theorem State.modCtx_hands (s : State) (f : Context → Context) : (s.modCtx f).hands = s.hands := rfl
@[simp] theorem State.modCtx_far (s : State) (f : Context → Context) : (s.modCtx f).far = s.far := rfl
@[simp] theorem State.modCtx_out (s : State) (f : Context → Context) : (s.modCtx f).out = s.out := rfl
@[simp] theorem State.modCtx_nextUid (s : State) (f : Context → Context) : (s.modCtx f).nextUid = s.nextUid := rfl
@[simp] theorem State.modCtx_stamp (s : State) (f : Context → Context) : (s.modCtx f).stamp = s.stamp := rfl
@[simp] theorem State.modCtx_input (s : State) (f : Context → Context) : (s.modCtx f).input = s.input := rfl
@[simp] theorem State.modCtx_agenda (s : State) (f : Context → Context) : (s.modCtx f).agenda = s.agenda := rfl
@[simp] theorem State.modCtx_fresh (s : State) (f : Context → Context) : (s.modCtx f).fresh = s.fresh := rfl

@[simp] theorem State.modA_ctx_uid (s : State) (f : ASide → ASide) : (s.modA f).ctx.uid = s.ctx.uid := rfl
@[simp] theorem State.modA_ctx_vd (s : State) (f : ASide → ASide) : (s.modA f).ctx.vd = s.ctx.vd := rfl
@[simp] theorem State.modA_ctx_part (s : State) (f : ASide → ASide) : (s.modA f).ctx.part = s.ctx.part := rfl
@[simp] theorem State.modA_ctx_core (s : State) (f : ASide → ASide) : (s.modA f).ctx.core = s.ctx.core := rfl
@[simp] theorem State.modA_ctx_bank (s : State) (f : ASide → ASide) : (s.modA f).ctx.bank = s.ctx.bank := rfl
@[simp] theorem State.modA_ctx_sup (s : State) (f : ASide → ASide) : (s.modA f).ctx.sup = s.ctx.sup := rfl
@[simp] theorem State.modA_ctx_sb (s : State) (f : ASide → ASide) : (s.modA f).ctx.sb = s.ctx.sb := rfl
@[simp] theorem State.modA_ctx_sbTill (s : State) (f : ASide → ASide) : (s.modA f).ctx.sbTill = s.ctx.sbTill := rfl
@[simp] theorem State.modA_ctx_det (s : State) (f : ASide → ASide) : (s.modA f).ctx.det = s.ctx.det := rfl
@[simp] theorem State.modA_ctx_dom (s : State) (f : ASide → ASide) : (s.modA f).ctx.dom = s.ctx.dom := rfl
@[simp] theorem State.modA_ctx_tdesc (s : State) (f : ASide → ASide) : (s.modA f).ctx.tdesc = s.ctx.tdesc := rfl
@[simp] theorem State.modA_ctx_trapRec (s : State) (f : ASide → ASide) : (s.modA f).ctx.trapRec = s.ctx.trapRec := rfl
@[simp] theorem State.modA_ctx_vec (s : State) (f : ASide → ASide) : (s.modA f).ctx.vec = s.ctx.vec := rfl
@[simp] theorem State.modA_ctx_lodcnt (s : State) (f : ASide → ASide) : (s.modA f).ctx.lodcnt = s.ctx.lodcnt := rfl
@[simp] theorem State.modA_ctx_cycle (s : State) (f : ASide → ASide) : (s.modA f).ctx.cycle = s.ctx.cycle := rfl
@[simp] theorem State.modA_ctx_decl (s : State) (f : ASide → ASide) : (s.modA f).ctx.decl = s.ctx.decl := rfl
@[simp] theorem State.modA_ctx_code (s : State) (f : ASide → ASide) : (s.modA f).ctx.code = s.ctx.code := rfl
@[simp] theorem State.modA_ctx_save (s : State) (f : ASide → ASide) : (s.modA f).ctx.save = s.ctx.save := rfl
@[simp] theorem State.modA_ctx_onCore (s : State) (f : ASide → ASide) : (s.modA f).ctx.onCore = s.ctx.onCore := rfl
@[simp] theorem State.modA_ctx_phase (s : State) (f : ASide → ASide) : (s.modA f).ctx.phase = s.ctx.phase := rfl
@[simp] theorem State.modA_ctx_rebuild (s : State) (f : ASide → ASide) : (s.modA f).ctx.rebuild = s.ctx.rebuild := rfl
@[simp] theorem State.modA_ctx_skipSpawn (s : State) (f : ASide → ASide) : (s.modA f).ctx.skipSpawn = s.ctx.skipSpawn := rfl
@[simp] theorem State.modA_ctx_spawned (s : State) (f : ASide → ASide) : (s.modA f).ctx.spawned = s.ctx.spawned := rfl
@[simp] theorem State.modA_ctx_record (s : State) (f : ASide → ASide) : (s.modA f).ctx.record = s.ctx.record := rfl
@[simp] theorem State.modA_ctx_a (s : State) (f : ASide → ASide) : (s.modA f).ctx.a = f s.ctx.a := rfl
@[simp] theorem State.modA_ctx_c (s : State) (f : ASide → ASide) : (s.modA f).ctx.c = s.ctx.c := rfl
@[simp] theorem State.modA_ctx_q (s : State) (f : ASide → ASide) : (s.modA f).ctx.q = s.ctx.q := rfl
@[simp] theorem State.modA_ctx_m (s : State) (f : ASide → ASide) : (s.modA f).ctx.m = s.ctx.m := rfl
@[simp] theorem State.modA_slice (s : State) (f : ASide → ASide) : (s.modA f).slice = s.slice := rfl
@[simp] theorem State.modA_live (s : State) (f : ASide → ASide) : (s.modA f).live = s.live := rfl
@[simp] theorem State.modA_parked (s : State) (f : ASide → ASide) : (s.modA f).parked = s.parked := rfl
@[simp] theorem State.modA_mem (s : State) (f : ASide → ASide) : (s.modA f).mem = s.mem := rfl
@[simp] theorem State.modA_media (s : State) (f : ASide → ASide) : (s.modA f).media = s.media := rfl
@[simp] theorem State.modA_durPend (s : State) (f : ASide → ASide) : (s.modA f).durPend = s.durPend := rfl
@[simp] theorem State.modA_errs (s : State) (f : ASide → ASide) : (s.modA f).errs = s.errs := rfl
@[simp] theorem State.modA_pkg (s : State) (f : ASide → ASide) : (s.modA f).pkg = s.pkg := rfl
@[simp] theorem State.modA_parts (s : State) (f : ASide → ASide) : (s.modA f).parts = s.parts := rfl
@[simp] theorem State.modA_vds (s : State) (f : ASide → ASide) : (s.modA f).vds = s.vds := rfl
@[simp] theorem State.modA_queues (s : State) (f : ASide → ASide) : (s.modA f).queues = s.queues := rfl
@[simp] theorem State.modA_tasks (s : State) (f : ASide → ASide) : (s.modA f).tasks = s.tasks := rfl
@[simp] theorem State.modA_cores (s : State) (f : ASide → ASide) : (s.modA f).cores = s.cores := rfl
@[simp] theorem State.modA_gangs (s : State) (f : ASide → ASide) : (s.modA f).gangs = s.gangs := rfl
@[simp] theorem State.modA_tiles (s : State) (f : ASide → ASide) : (s.modA f).tiles = s.tiles := rfl
@[simp] theorem State.modA_recs (s : State) (f : ASide → ASide) : (s.modA f).recs = s.recs := rfl
@[simp] theorem State.modA_kept (s : State) (f : ASide → ASide) : (s.modA f).kept = s.kept := rfl
@[simp] theorem State.modA_keeps (s : State) (f : ASide → ASide) : (s.modA f).keeps = s.keeps := rfl
@[simp] theorem State.modA_rests (s : State) (f : ASide → ASide) : (s.modA f).rests = s.rests := rfl
@[simp] theorem State.modA_pairs (s : State) (f : ASide → ASide) : (s.modA f).pairs = s.pairs := rfl
@[simp] theorem State.modA_sites (s : State) (f : ASide → ASide) : (s.modA f).sites = s.sites := rfl
@[simp] theorem State.modA_ports (s : State) (f : ASide → ASide) : (s.modA f).ports = s.ports := rfl
@[simp] theorem State.modA_flows (s : State) (f : ASide → ASide) : (s.modA f).flows = s.flows := rfl
@[simp] theorem State.modA_peers (s : State) (f : ASide → ASide) : (s.modA f).peers = s.peers := rfl
@[simp] theorem State.modA_paths (s : State) (f : ASide → ASide) : (s.modA f).paths = s.paths := rfl
@[simp] theorem State.modA_hosts (s : State) (f : ASide → ASide) : (s.modA f).hosts = s.hosts := rfl
@[simp] theorem State.modA_asked (s : State) (f : ASide → ASide) : (s.modA f).asked = s.asked := rfl
@[simp] theorem State.modA_hostQ (s : State) (f : ASide → ASide) : (s.modA f).hostQ = s.hostQ := rfl
@[simp] theorem State.modA_hands (s : State) (f : ASide → ASide) : (s.modA f).hands = s.hands := rfl
@[simp] theorem State.modA_far (s : State) (f : ASide → ASide) : (s.modA f).far = s.far := rfl
@[simp] theorem State.modA_out (s : State) (f : ASide → ASide) : (s.modA f).out = s.out := rfl
@[simp] theorem State.modA_nextUid (s : State) (f : ASide → ASide) : (s.modA f).nextUid = s.nextUid := rfl
@[simp] theorem State.modA_stamp (s : State) (f : ASide → ASide) : (s.modA f).stamp = s.stamp := rfl
@[simp] theorem State.modA_input (s : State) (f : ASide → ASide) : (s.modA f).input = s.input := rfl
@[simp] theorem State.modA_agenda (s : State) (f : ASide → ASide) : (s.modA f).agenda = s.agenda := rfl
@[simp] theorem State.modA_fresh (s : State) (f : ASide → ASide) : (s.modA f).fresh = s.fresh := rfl

@[simp] theorem State.modC_ctx_uid (s : State) (f : CSide → CSide) : (s.modC f).ctx.uid = s.ctx.uid := rfl
@[simp] theorem State.modC_ctx_vd (s : State) (f : CSide → CSide) : (s.modC f).ctx.vd = s.ctx.vd := rfl
@[simp] theorem State.modC_ctx_part (s : State) (f : CSide → CSide) : (s.modC f).ctx.part = s.ctx.part := rfl
@[simp] theorem State.modC_ctx_core (s : State) (f : CSide → CSide) : (s.modC f).ctx.core = s.ctx.core := rfl
@[simp] theorem State.modC_ctx_bank (s : State) (f : CSide → CSide) : (s.modC f).ctx.bank = s.ctx.bank := rfl
@[simp] theorem State.modC_ctx_sup (s : State) (f : CSide → CSide) : (s.modC f).ctx.sup = s.ctx.sup := rfl
@[simp] theorem State.modC_ctx_sb (s : State) (f : CSide → CSide) : (s.modC f).ctx.sb = s.ctx.sb := rfl
@[simp] theorem State.modC_ctx_sbTill (s : State) (f : CSide → CSide) : (s.modC f).ctx.sbTill = s.ctx.sbTill := rfl
@[simp] theorem State.modC_ctx_det (s : State) (f : CSide → CSide) : (s.modC f).ctx.det = s.ctx.det := rfl
@[simp] theorem State.modC_ctx_dom (s : State) (f : CSide → CSide) : (s.modC f).ctx.dom = s.ctx.dom := rfl
@[simp] theorem State.modC_ctx_tdesc (s : State) (f : CSide → CSide) : (s.modC f).ctx.tdesc = s.ctx.tdesc := rfl
@[simp] theorem State.modC_ctx_trapRec (s : State) (f : CSide → CSide) : (s.modC f).ctx.trapRec = s.ctx.trapRec := rfl
@[simp] theorem State.modC_ctx_vec (s : State) (f : CSide → CSide) : (s.modC f).ctx.vec = s.ctx.vec := rfl
@[simp] theorem State.modC_ctx_lodcnt (s : State) (f : CSide → CSide) : (s.modC f).ctx.lodcnt = s.ctx.lodcnt := rfl
@[simp] theorem State.modC_ctx_cycle (s : State) (f : CSide → CSide) : (s.modC f).ctx.cycle = s.ctx.cycle := rfl
@[simp] theorem State.modC_ctx_decl (s : State) (f : CSide → CSide) : (s.modC f).ctx.decl = s.ctx.decl := rfl
@[simp] theorem State.modC_ctx_code (s : State) (f : CSide → CSide) : (s.modC f).ctx.code = s.ctx.code := rfl
@[simp] theorem State.modC_ctx_save (s : State) (f : CSide → CSide) : (s.modC f).ctx.save = s.ctx.save := rfl
@[simp] theorem State.modC_ctx_onCore (s : State) (f : CSide → CSide) : (s.modC f).ctx.onCore = s.ctx.onCore := rfl
@[simp] theorem State.modC_ctx_phase (s : State) (f : CSide → CSide) : (s.modC f).ctx.phase = s.ctx.phase := rfl
@[simp] theorem State.modC_ctx_rebuild (s : State) (f : CSide → CSide) : (s.modC f).ctx.rebuild = s.ctx.rebuild := rfl
@[simp] theorem State.modC_ctx_skipSpawn (s : State) (f : CSide → CSide) : (s.modC f).ctx.skipSpawn = s.ctx.skipSpawn := rfl
@[simp] theorem State.modC_ctx_spawned (s : State) (f : CSide → CSide) : (s.modC f).ctx.spawned = s.ctx.spawned := rfl
@[simp] theorem State.modC_ctx_record (s : State) (f : CSide → CSide) : (s.modC f).ctx.record = s.ctx.record := rfl
@[simp] theorem State.modC_ctx_a (s : State) (f : CSide → CSide) : (s.modC f).ctx.a = s.ctx.a := rfl
@[simp] theorem State.modC_ctx_c (s : State) (f : CSide → CSide) : (s.modC f).ctx.c = f s.ctx.c := rfl
@[simp] theorem State.modC_ctx_q (s : State) (f : CSide → CSide) : (s.modC f).ctx.q = s.ctx.q := rfl
@[simp] theorem State.modC_ctx_m (s : State) (f : CSide → CSide) : (s.modC f).ctx.m = s.ctx.m := rfl
@[simp] theorem State.modC_slice (s : State) (f : CSide → CSide) : (s.modC f).slice = s.slice := rfl
@[simp] theorem State.modC_live (s : State) (f : CSide → CSide) : (s.modC f).live = s.live := rfl
@[simp] theorem State.modC_parked (s : State) (f : CSide → CSide) : (s.modC f).parked = s.parked := rfl
@[simp] theorem State.modC_mem (s : State) (f : CSide → CSide) : (s.modC f).mem = s.mem := rfl
@[simp] theorem State.modC_media (s : State) (f : CSide → CSide) : (s.modC f).media = s.media := rfl
@[simp] theorem State.modC_durPend (s : State) (f : CSide → CSide) : (s.modC f).durPend = s.durPend := rfl
@[simp] theorem State.modC_errs (s : State) (f : CSide → CSide) : (s.modC f).errs = s.errs := rfl
@[simp] theorem State.modC_pkg (s : State) (f : CSide → CSide) : (s.modC f).pkg = s.pkg := rfl
@[simp] theorem State.modC_parts (s : State) (f : CSide → CSide) : (s.modC f).parts = s.parts := rfl
@[simp] theorem State.modC_vds (s : State) (f : CSide → CSide) : (s.modC f).vds = s.vds := rfl
@[simp] theorem State.modC_queues (s : State) (f : CSide → CSide) : (s.modC f).queues = s.queues := rfl
@[simp] theorem State.modC_tasks (s : State) (f : CSide → CSide) : (s.modC f).tasks = s.tasks := rfl
@[simp] theorem State.modC_cores (s : State) (f : CSide → CSide) : (s.modC f).cores = s.cores := rfl
@[simp] theorem State.modC_gangs (s : State) (f : CSide → CSide) : (s.modC f).gangs = s.gangs := rfl
@[simp] theorem State.modC_tiles (s : State) (f : CSide → CSide) : (s.modC f).tiles = s.tiles := rfl
@[simp] theorem State.modC_recs (s : State) (f : CSide → CSide) : (s.modC f).recs = s.recs := rfl
@[simp] theorem State.modC_kept (s : State) (f : CSide → CSide) : (s.modC f).kept = s.kept := rfl
@[simp] theorem State.modC_keeps (s : State) (f : CSide → CSide) : (s.modC f).keeps = s.keeps := rfl
@[simp] theorem State.modC_rests (s : State) (f : CSide → CSide) : (s.modC f).rests = s.rests := rfl
@[simp] theorem State.modC_pairs (s : State) (f : CSide → CSide) : (s.modC f).pairs = s.pairs := rfl
@[simp] theorem State.modC_sites (s : State) (f : CSide → CSide) : (s.modC f).sites = s.sites := rfl
@[simp] theorem State.modC_ports (s : State) (f : CSide → CSide) : (s.modC f).ports = s.ports := rfl
@[simp] theorem State.modC_flows (s : State) (f : CSide → CSide) : (s.modC f).flows = s.flows := rfl
@[simp] theorem State.modC_peers (s : State) (f : CSide → CSide) : (s.modC f).peers = s.peers := rfl
@[simp] theorem State.modC_paths (s : State) (f : CSide → CSide) : (s.modC f).paths = s.paths := rfl
@[simp] theorem State.modC_hosts (s : State) (f : CSide → CSide) : (s.modC f).hosts = s.hosts := rfl
@[simp] theorem State.modC_asked (s : State) (f : CSide → CSide) : (s.modC f).asked = s.asked := rfl
@[simp] theorem State.modC_hostQ (s : State) (f : CSide → CSide) : (s.modC f).hostQ = s.hostQ := rfl
@[simp] theorem State.modC_hands (s : State) (f : CSide → CSide) : (s.modC f).hands = s.hands := rfl
@[simp] theorem State.modC_far (s : State) (f : CSide → CSide) : (s.modC f).far = s.far := rfl
@[simp] theorem State.modC_out (s : State) (f : CSide → CSide) : (s.modC f).out = s.out := rfl
@[simp] theorem State.modC_nextUid (s : State) (f : CSide → CSide) : (s.modC f).nextUid = s.nextUid := rfl
@[simp] theorem State.modC_stamp (s : State) (f : CSide → CSide) : (s.modC f).stamp = s.stamp := rfl
@[simp] theorem State.modC_input (s : State) (f : CSide → CSide) : (s.modC f).input = s.input := rfl
@[simp] theorem State.modC_agenda (s : State) (f : CSide → CSide) : (s.modC f).agenda = s.agenda := rfl
@[simp] theorem State.modC_fresh (s : State) (f : CSide → CSide) : (s.modC f).fresh = s.fresh := rfl

@[simp] theorem State.modQ_ctx_uid (s : State) (f : Couple → Couple) : (s.modQ f).ctx.uid = s.ctx.uid := rfl
@[simp] theorem State.modQ_ctx_vd (s : State) (f : Couple → Couple) : (s.modQ f).ctx.vd = s.ctx.vd := rfl
@[simp] theorem State.modQ_ctx_part (s : State) (f : Couple → Couple) : (s.modQ f).ctx.part = s.ctx.part := rfl
@[simp] theorem State.modQ_ctx_core (s : State) (f : Couple → Couple) : (s.modQ f).ctx.core = s.ctx.core := rfl
@[simp] theorem State.modQ_ctx_bank (s : State) (f : Couple → Couple) : (s.modQ f).ctx.bank = s.ctx.bank := rfl
@[simp] theorem State.modQ_ctx_sup (s : State) (f : Couple → Couple) : (s.modQ f).ctx.sup = s.ctx.sup := rfl
@[simp] theorem State.modQ_ctx_sb (s : State) (f : Couple → Couple) : (s.modQ f).ctx.sb = s.ctx.sb := rfl
@[simp] theorem State.modQ_ctx_sbTill (s : State) (f : Couple → Couple) : (s.modQ f).ctx.sbTill = s.ctx.sbTill := rfl
@[simp] theorem State.modQ_ctx_det (s : State) (f : Couple → Couple) : (s.modQ f).ctx.det = s.ctx.det := rfl
@[simp] theorem State.modQ_ctx_dom (s : State) (f : Couple → Couple) : (s.modQ f).ctx.dom = s.ctx.dom := rfl
@[simp] theorem State.modQ_ctx_tdesc (s : State) (f : Couple → Couple) : (s.modQ f).ctx.tdesc = s.ctx.tdesc := rfl
@[simp] theorem State.modQ_ctx_trapRec (s : State) (f : Couple → Couple) : (s.modQ f).ctx.trapRec = s.ctx.trapRec := rfl
@[simp] theorem State.modQ_ctx_vec (s : State) (f : Couple → Couple) : (s.modQ f).ctx.vec = s.ctx.vec := rfl
@[simp] theorem State.modQ_ctx_lodcnt (s : State) (f : Couple → Couple) : (s.modQ f).ctx.lodcnt = s.ctx.lodcnt := rfl
@[simp] theorem State.modQ_ctx_cycle (s : State) (f : Couple → Couple) : (s.modQ f).ctx.cycle = s.ctx.cycle := rfl
@[simp] theorem State.modQ_ctx_decl (s : State) (f : Couple → Couple) : (s.modQ f).ctx.decl = s.ctx.decl := rfl
@[simp] theorem State.modQ_ctx_code (s : State) (f : Couple → Couple) : (s.modQ f).ctx.code = s.ctx.code := rfl
@[simp] theorem State.modQ_ctx_save (s : State) (f : Couple → Couple) : (s.modQ f).ctx.save = s.ctx.save := rfl
@[simp] theorem State.modQ_ctx_onCore (s : State) (f : Couple → Couple) : (s.modQ f).ctx.onCore = s.ctx.onCore := rfl
@[simp] theorem State.modQ_ctx_phase (s : State) (f : Couple → Couple) : (s.modQ f).ctx.phase = s.ctx.phase := rfl
@[simp] theorem State.modQ_ctx_rebuild (s : State) (f : Couple → Couple) : (s.modQ f).ctx.rebuild = s.ctx.rebuild := rfl
@[simp] theorem State.modQ_ctx_skipSpawn (s : State) (f : Couple → Couple) : (s.modQ f).ctx.skipSpawn = s.ctx.skipSpawn := rfl
@[simp] theorem State.modQ_ctx_spawned (s : State) (f : Couple → Couple) : (s.modQ f).ctx.spawned = s.ctx.spawned := rfl
@[simp] theorem State.modQ_ctx_record (s : State) (f : Couple → Couple) : (s.modQ f).ctx.record = s.ctx.record := rfl
@[simp] theorem State.modQ_ctx_a (s : State) (f : Couple → Couple) : (s.modQ f).ctx.a = s.ctx.a := rfl
@[simp] theorem State.modQ_ctx_c (s : State) (f : Couple → Couple) : (s.modQ f).ctx.c = s.ctx.c := rfl
@[simp] theorem State.modQ_ctx_q (s : State) (f : Couple → Couple) : (s.modQ f).ctx.q = f s.ctx.q := rfl
@[simp] theorem State.modQ_ctx_m (s : State) (f : Couple → Couple) : (s.modQ f).ctx.m = s.ctx.m := rfl
@[simp] theorem State.modQ_slice (s : State) (f : Couple → Couple) : (s.modQ f).slice = s.slice := rfl
@[simp] theorem State.modQ_live (s : State) (f : Couple → Couple) : (s.modQ f).live = s.live := rfl
@[simp] theorem State.modQ_parked (s : State) (f : Couple → Couple) : (s.modQ f).parked = s.parked := rfl
@[simp] theorem State.modQ_mem (s : State) (f : Couple → Couple) : (s.modQ f).mem = s.mem := rfl
@[simp] theorem State.modQ_media (s : State) (f : Couple → Couple) : (s.modQ f).media = s.media := rfl
@[simp] theorem State.modQ_durPend (s : State) (f : Couple → Couple) : (s.modQ f).durPend = s.durPend := rfl
@[simp] theorem State.modQ_errs (s : State) (f : Couple → Couple) : (s.modQ f).errs = s.errs := rfl
@[simp] theorem State.modQ_pkg (s : State) (f : Couple → Couple) : (s.modQ f).pkg = s.pkg := rfl
@[simp] theorem State.modQ_parts (s : State) (f : Couple → Couple) : (s.modQ f).parts = s.parts := rfl
@[simp] theorem State.modQ_vds (s : State) (f : Couple → Couple) : (s.modQ f).vds = s.vds := rfl
@[simp] theorem State.modQ_queues (s : State) (f : Couple → Couple) : (s.modQ f).queues = s.queues := rfl
@[simp] theorem State.modQ_tasks (s : State) (f : Couple → Couple) : (s.modQ f).tasks = s.tasks := rfl
@[simp] theorem State.modQ_cores (s : State) (f : Couple → Couple) : (s.modQ f).cores = s.cores := rfl
@[simp] theorem State.modQ_gangs (s : State) (f : Couple → Couple) : (s.modQ f).gangs = s.gangs := rfl
@[simp] theorem State.modQ_tiles (s : State) (f : Couple → Couple) : (s.modQ f).tiles = s.tiles := rfl
@[simp] theorem State.modQ_recs (s : State) (f : Couple → Couple) : (s.modQ f).recs = s.recs := rfl
@[simp] theorem State.modQ_kept (s : State) (f : Couple → Couple) : (s.modQ f).kept = s.kept := rfl
@[simp] theorem State.modQ_keeps (s : State) (f : Couple → Couple) : (s.modQ f).keeps = s.keeps := rfl
@[simp] theorem State.modQ_rests (s : State) (f : Couple → Couple) : (s.modQ f).rests = s.rests := rfl
@[simp] theorem State.modQ_pairs (s : State) (f : Couple → Couple) : (s.modQ f).pairs = s.pairs := rfl
@[simp] theorem State.modQ_sites (s : State) (f : Couple → Couple) : (s.modQ f).sites = s.sites := rfl
@[simp] theorem State.modQ_ports (s : State) (f : Couple → Couple) : (s.modQ f).ports = s.ports := rfl
@[simp] theorem State.modQ_flows (s : State) (f : Couple → Couple) : (s.modQ f).flows = s.flows := rfl
@[simp] theorem State.modQ_peers (s : State) (f : Couple → Couple) : (s.modQ f).peers = s.peers := rfl
@[simp] theorem State.modQ_paths (s : State) (f : Couple → Couple) : (s.modQ f).paths = s.paths := rfl
@[simp] theorem State.modQ_hosts (s : State) (f : Couple → Couple) : (s.modQ f).hosts = s.hosts := rfl
@[simp] theorem State.modQ_asked (s : State) (f : Couple → Couple) : (s.modQ f).asked = s.asked := rfl
@[simp] theorem State.modQ_hostQ (s : State) (f : Couple → Couple) : (s.modQ f).hostQ = s.hostQ := rfl
@[simp] theorem State.modQ_hands (s : State) (f : Couple → Couple) : (s.modQ f).hands = s.hands := rfl
@[simp] theorem State.modQ_far (s : State) (f : Couple → Couple) : (s.modQ f).far = s.far := rfl
@[simp] theorem State.modQ_out (s : State) (f : Couple → Couple) : (s.modQ f).out = s.out := rfl
@[simp] theorem State.modQ_nextUid (s : State) (f : Couple → Couple) : (s.modQ f).nextUid = s.nextUid := rfl
@[simp] theorem State.modQ_stamp (s : State) (f : Couple → Couple) : (s.modQ f).stamp = s.stamp := rfl
@[simp] theorem State.modQ_input (s : State) (f : Couple → Couple) : (s.modQ f).input = s.input := rfl
@[simp] theorem State.modQ_agenda (s : State) (f : Couple → Couple) : (s.modQ f).agenda = s.agenda := rfl
@[simp] theorem State.modQ_fresh (s : State) (f : Couple → Couple) : (s.modQ f).fresh = s.fresh := rfl

@[simp] theorem State.modM_ctx_uid (s : State) (f : MemSide → MemSide) : (s.modM f).ctx.uid = s.ctx.uid := rfl
@[simp] theorem State.modM_ctx_vd (s : State) (f : MemSide → MemSide) : (s.modM f).ctx.vd = s.ctx.vd := rfl
@[simp] theorem State.modM_ctx_part (s : State) (f : MemSide → MemSide) : (s.modM f).ctx.part = s.ctx.part := rfl
@[simp] theorem State.modM_ctx_core (s : State) (f : MemSide → MemSide) : (s.modM f).ctx.core = s.ctx.core := rfl
@[simp] theorem State.modM_ctx_bank (s : State) (f : MemSide → MemSide) : (s.modM f).ctx.bank = s.ctx.bank := rfl
@[simp] theorem State.modM_ctx_sup (s : State) (f : MemSide → MemSide) : (s.modM f).ctx.sup = s.ctx.sup := rfl
@[simp] theorem State.modM_ctx_sb (s : State) (f : MemSide → MemSide) : (s.modM f).ctx.sb = s.ctx.sb := rfl
@[simp] theorem State.modM_ctx_sbTill (s : State) (f : MemSide → MemSide) : (s.modM f).ctx.sbTill = s.ctx.sbTill := rfl
@[simp] theorem State.modM_ctx_det (s : State) (f : MemSide → MemSide) : (s.modM f).ctx.det = s.ctx.det := rfl
@[simp] theorem State.modM_ctx_dom (s : State) (f : MemSide → MemSide) : (s.modM f).ctx.dom = s.ctx.dom := rfl
@[simp] theorem State.modM_ctx_tdesc (s : State) (f : MemSide → MemSide) : (s.modM f).ctx.tdesc = s.ctx.tdesc := rfl
@[simp] theorem State.modM_ctx_trapRec (s : State) (f : MemSide → MemSide) : (s.modM f).ctx.trapRec = s.ctx.trapRec := rfl
@[simp] theorem State.modM_ctx_vec (s : State) (f : MemSide → MemSide) : (s.modM f).ctx.vec = s.ctx.vec := rfl
@[simp] theorem State.modM_ctx_lodcnt (s : State) (f : MemSide → MemSide) : (s.modM f).ctx.lodcnt = s.ctx.lodcnt := rfl
@[simp] theorem State.modM_ctx_cycle (s : State) (f : MemSide → MemSide) : (s.modM f).ctx.cycle = s.ctx.cycle := rfl
@[simp] theorem State.modM_ctx_decl (s : State) (f : MemSide → MemSide) : (s.modM f).ctx.decl = s.ctx.decl := rfl
@[simp] theorem State.modM_ctx_code (s : State) (f : MemSide → MemSide) : (s.modM f).ctx.code = s.ctx.code := rfl
@[simp] theorem State.modM_ctx_save (s : State) (f : MemSide → MemSide) : (s.modM f).ctx.save = s.ctx.save := rfl
@[simp] theorem State.modM_ctx_onCore (s : State) (f : MemSide → MemSide) : (s.modM f).ctx.onCore = s.ctx.onCore := rfl
@[simp] theorem State.modM_ctx_phase (s : State) (f : MemSide → MemSide) : (s.modM f).ctx.phase = s.ctx.phase := rfl
@[simp] theorem State.modM_ctx_rebuild (s : State) (f : MemSide → MemSide) : (s.modM f).ctx.rebuild = s.ctx.rebuild := rfl
@[simp] theorem State.modM_ctx_skipSpawn (s : State) (f : MemSide → MemSide) : (s.modM f).ctx.skipSpawn = s.ctx.skipSpawn := rfl
@[simp] theorem State.modM_ctx_spawned (s : State) (f : MemSide → MemSide) : (s.modM f).ctx.spawned = s.ctx.spawned := rfl
@[simp] theorem State.modM_ctx_record (s : State) (f : MemSide → MemSide) : (s.modM f).ctx.record = s.ctx.record := rfl
@[simp] theorem State.modM_ctx_a (s : State) (f : MemSide → MemSide) : (s.modM f).ctx.a = s.ctx.a := rfl
@[simp] theorem State.modM_ctx_c (s : State) (f : MemSide → MemSide) : (s.modM f).ctx.c = s.ctx.c := rfl
@[simp] theorem State.modM_ctx_q (s : State) (f : MemSide → MemSide) : (s.modM f).ctx.q = s.ctx.q := rfl
@[simp] theorem State.modM_ctx_m (s : State) (f : MemSide → MemSide) : (s.modM f).ctx.m = f s.ctx.m := rfl
@[simp] theorem State.modM_slice (s : State) (f : MemSide → MemSide) : (s.modM f).slice = s.slice := rfl
@[simp] theorem State.modM_live (s : State) (f : MemSide → MemSide) : (s.modM f).live = s.live := rfl
@[simp] theorem State.modM_parked (s : State) (f : MemSide → MemSide) : (s.modM f).parked = s.parked := rfl
@[simp] theorem State.modM_mem (s : State) (f : MemSide → MemSide) : (s.modM f).mem = s.mem := rfl
@[simp] theorem State.modM_media (s : State) (f : MemSide → MemSide) : (s.modM f).media = s.media := rfl
@[simp] theorem State.modM_durPend (s : State) (f : MemSide → MemSide) : (s.modM f).durPend = s.durPend := rfl
@[simp] theorem State.modM_errs (s : State) (f : MemSide → MemSide) : (s.modM f).errs = s.errs := rfl
@[simp] theorem State.modM_pkg (s : State) (f : MemSide → MemSide) : (s.modM f).pkg = s.pkg := rfl
@[simp] theorem State.modM_parts (s : State) (f : MemSide → MemSide) : (s.modM f).parts = s.parts := rfl
@[simp] theorem State.modM_vds (s : State) (f : MemSide → MemSide) : (s.modM f).vds = s.vds := rfl
@[simp] theorem State.modM_queues (s : State) (f : MemSide → MemSide) : (s.modM f).queues = s.queues := rfl
@[simp] theorem State.modM_tasks (s : State) (f : MemSide → MemSide) : (s.modM f).tasks = s.tasks := rfl
@[simp] theorem State.modM_cores (s : State) (f : MemSide → MemSide) : (s.modM f).cores = s.cores := rfl
@[simp] theorem State.modM_gangs (s : State) (f : MemSide → MemSide) : (s.modM f).gangs = s.gangs := rfl
@[simp] theorem State.modM_tiles (s : State) (f : MemSide → MemSide) : (s.modM f).tiles = s.tiles := rfl
@[simp] theorem State.modM_recs (s : State) (f : MemSide → MemSide) : (s.modM f).recs = s.recs := rfl
@[simp] theorem State.modM_kept (s : State) (f : MemSide → MemSide) : (s.modM f).kept = s.kept := rfl
@[simp] theorem State.modM_keeps (s : State) (f : MemSide → MemSide) : (s.modM f).keeps = s.keeps := rfl
@[simp] theorem State.modM_rests (s : State) (f : MemSide → MemSide) : (s.modM f).rests = s.rests := rfl
@[simp] theorem State.modM_pairs (s : State) (f : MemSide → MemSide) : (s.modM f).pairs = s.pairs := rfl
@[simp] theorem State.modM_sites (s : State) (f : MemSide → MemSide) : (s.modM f).sites = s.sites := rfl
@[simp] theorem State.modM_ports (s : State) (f : MemSide → MemSide) : (s.modM f).ports = s.ports := rfl
@[simp] theorem State.modM_flows (s : State) (f : MemSide → MemSide) : (s.modM f).flows = s.flows := rfl
@[simp] theorem State.modM_peers (s : State) (f : MemSide → MemSide) : (s.modM f).peers = s.peers := rfl
@[simp] theorem State.modM_paths (s : State) (f : MemSide → MemSide) : (s.modM f).paths = s.paths := rfl
@[simp] theorem State.modM_hosts (s : State) (f : MemSide → MemSide) : (s.modM f).hosts = s.hosts := rfl
@[simp] theorem State.modM_asked (s : State) (f : MemSide → MemSide) : (s.modM f).asked = s.asked := rfl
@[simp] theorem State.modM_hostQ (s : State) (f : MemSide → MemSide) : (s.modM f).hostQ = s.hostQ := rfl
@[simp] theorem State.modM_hands (s : State) (f : MemSide → MemSide) : (s.modM f).hands = s.hands := rfl
@[simp] theorem State.modM_far (s : State) (f : MemSide → MemSide) : (s.modM f).far = s.far := rfl
@[simp] theorem State.modM_out (s : State) (f : MemSide → MemSide) : (s.modM f).out = s.out := rfl
@[simp] theorem State.modM_nextUid (s : State) (f : MemSide → MemSide) : (s.modM f).nextUid = s.nextUid := rfl
@[simp] theorem State.modM_stamp (s : State) (f : MemSide → MemSide) : (s.modM f).stamp = s.stamp := rfl
@[simp] theorem State.modM_input (s : State) (f : MemSide → MemSide) : (s.modM f).input = s.input := rfl
@[simp] theorem State.modM_agenda (s : State) (f : MemSide → MemSide) : (s.modM f).agenda = s.agenda := rfl
@[simp] theorem State.modM_fresh (s : State) (f : MemSide → MemSide) : (s.modM f).fresh = s.fresh := rfl

@[simp] theorem State.modPkg_ctx (s : State) (f : Pkg → Pkg) : (s.modPkg f).ctx = s.ctx := rfl
@[simp] theorem State.modPkg_slice (s : State) (f : Pkg → Pkg) : (s.modPkg f).slice = s.slice := rfl
@[simp] theorem State.modPkg_live (s : State) (f : Pkg → Pkg) : (s.modPkg f).live = s.live := rfl
@[simp] theorem State.modPkg_parked (s : State) (f : Pkg → Pkg) : (s.modPkg f).parked = s.parked := rfl
@[simp] theorem State.modPkg_mem (s : State) (f : Pkg → Pkg) : (s.modPkg f).mem = s.mem := rfl
@[simp] theorem State.modPkg_media (s : State) (f : Pkg → Pkg) : (s.modPkg f).media = s.media := rfl
@[simp] theorem State.modPkg_durPend (s : State) (f : Pkg → Pkg) : (s.modPkg f).durPend = s.durPend := rfl
@[simp] theorem State.modPkg_errs (s : State) (f : Pkg → Pkg) : (s.modPkg f).errs = s.errs := rfl
@[simp] theorem State.modPkg_pkg (s : State) (f : Pkg → Pkg) : (s.modPkg f).pkg = f s.pkg := rfl
@[simp] theorem State.modPkg_parts (s : State) (f : Pkg → Pkg) : (s.modPkg f).parts = s.parts := rfl
@[simp] theorem State.modPkg_vds (s : State) (f : Pkg → Pkg) : (s.modPkg f).vds = s.vds := rfl
@[simp] theorem State.modPkg_queues (s : State) (f : Pkg → Pkg) : (s.modPkg f).queues = s.queues := rfl
@[simp] theorem State.modPkg_tasks (s : State) (f : Pkg → Pkg) : (s.modPkg f).tasks = s.tasks := rfl
@[simp] theorem State.modPkg_cores (s : State) (f : Pkg → Pkg) : (s.modPkg f).cores = s.cores := rfl
@[simp] theorem State.modPkg_gangs (s : State) (f : Pkg → Pkg) : (s.modPkg f).gangs = s.gangs := rfl
@[simp] theorem State.modPkg_tiles (s : State) (f : Pkg → Pkg) : (s.modPkg f).tiles = s.tiles := rfl
@[simp] theorem State.modPkg_recs (s : State) (f : Pkg → Pkg) : (s.modPkg f).recs = s.recs := rfl
@[simp] theorem State.modPkg_kept (s : State) (f : Pkg → Pkg) : (s.modPkg f).kept = s.kept := rfl
@[simp] theorem State.modPkg_keeps (s : State) (f : Pkg → Pkg) : (s.modPkg f).keeps = s.keeps := rfl
@[simp] theorem State.modPkg_rests (s : State) (f : Pkg → Pkg) : (s.modPkg f).rests = s.rests := rfl
@[simp] theorem State.modPkg_pairs (s : State) (f : Pkg → Pkg) : (s.modPkg f).pairs = s.pairs := rfl
@[simp] theorem State.modPkg_sites (s : State) (f : Pkg → Pkg) : (s.modPkg f).sites = s.sites := rfl
@[simp] theorem State.modPkg_ports (s : State) (f : Pkg → Pkg) : (s.modPkg f).ports = s.ports := rfl
@[simp] theorem State.modPkg_flows (s : State) (f : Pkg → Pkg) : (s.modPkg f).flows = s.flows := rfl
@[simp] theorem State.modPkg_peers (s : State) (f : Pkg → Pkg) : (s.modPkg f).peers = s.peers := rfl
@[simp] theorem State.modPkg_paths (s : State) (f : Pkg → Pkg) : (s.modPkg f).paths = s.paths := rfl
@[simp] theorem State.modPkg_hosts (s : State) (f : Pkg → Pkg) : (s.modPkg f).hosts = s.hosts := rfl
@[simp] theorem State.modPkg_asked (s : State) (f : Pkg → Pkg) : (s.modPkg f).asked = s.asked := rfl
@[simp] theorem State.modPkg_hostQ (s : State) (f : Pkg → Pkg) : (s.modPkg f).hostQ = s.hostQ := rfl
@[simp] theorem State.modPkg_hands (s : State) (f : Pkg → Pkg) : (s.modPkg f).hands = s.hands := rfl
@[simp] theorem State.modPkg_far (s : State) (f : Pkg → Pkg) : (s.modPkg f).far = s.far := rfl
@[simp] theorem State.modPkg_out (s : State) (f : Pkg → Pkg) : (s.modPkg f).out = s.out := rfl
@[simp] theorem State.modPkg_nextUid (s : State) (f : Pkg → Pkg) : (s.modPkg f).nextUid = s.nextUid := rfl
@[simp] theorem State.modPkg_stamp (s : State) (f : Pkg → Pkg) : (s.modPkg f).stamp = s.stamp := rfl
@[simp] theorem State.modPkg_input (s : State) (f : Pkg → Pkg) : (s.modPkg f).input = s.input := rfl
@[simp] theorem State.modPkg_agenda (s : State) (f : Pkg → Pkg) : (s.modPkg f).agenda = s.agenda := rfl
@[simp] theorem State.modPkg_fresh (s : State) (f : Pkg → Pkg) : (s.modPkg f).fresh = s.fresh := rfl

@[simp] theorem State.modPart_ctx (s : State) (n : Nat) (f : Partition → Partition) : (s.modPart n f).ctx = s.ctx := rfl
@[simp] theorem State.modPart_slice (s : State) (n : Nat) (f : Partition → Partition) : (s.modPart n f).slice = s.slice := rfl
@[simp] theorem State.modPart_live (s : State) (n : Nat) (f : Partition → Partition) : (s.modPart n f).live = s.live := rfl
@[simp] theorem State.modPart_parked (s : State) (n : Nat) (f : Partition → Partition) : (s.modPart n f).parked = s.parked := rfl
@[simp] theorem State.modPart_mem (s : State) (n : Nat) (f : Partition → Partition) : (s.modPart n f).mem = s.mem := rfl
@[simp] theorem State.modPart_media (s : State) (n : Nat) (f : Partition → Partition) : (s.modPart n f).media = s.media := rfl
@[simp] theorem State.modPart_durPend (s : State) (n : Nat) (f : Partition → Partition) : (s.modPart n f).durPend = s.durPend := rfl
@[simp] theorem State.modPart_errs (s : State) (n : Nat) (f : Partition → Partition) : (s.modPart n f).errs = s.errs := rfl
@[simp] theorem State.modPart_pkg (s : State) (n : Nat) (f : Partition → Partition) : (s.modPart n f).pkg = s.pkg := rfl
@[simp] theorem State.modPart_parts (s : State) (n : Nat) (f : Partition → Partition) : (s.modPart n f).parts = mapIf (fun p => p.num == n) f s.parts := rfl
@[simp] theorem State.modPart_vds (s : State) (n : Nat) (f : Partition → Partition) : (s.modPart n f).vds = s.vds := rfl
@[simp] theorem State.modPart_queues (s : State) (n : Nat) (f : Partition → Partition) : (s.modPart n f).queues = s.queues := rfl
@[simp] theorem State.modPart_tasks (s : State) (n : Nat) (f : Partition → Partition) : (s.modPart n f).tasks = s.tasks := rfl
@[simp] theorem State.modPart_cores (s : State) (n : Nat) (f : Partition → Partition) : (s.modPart n f).cores = s.cores := rfl
@[simp] theorem State.modPart_gangs (s : State) (n : Nat) (f : Partition → Partition) : (s.modPart n f).gangs = s.gangs := rfl
@[simp] theorem State.modPart_tiles (s : State) (n : Nat) (f : Partition → Partition) : (s.modPart n f).tiles = s.tiles := rfl
@[simp] theorem State.modPart_recs (s : State) (n : Nat) (f : Partition → Partition) : (s.modPart n f).recs = s.recs := rfl
@[simp] theorem State.modPart_kept (s : State) (n : Nat) (f : Partition → Partition) : (s.modPart n f).kept = s.kept := rfl
@[simp] theorem State.modPart_keeps (s : State) (n : Nat) (f : Partition → Partition) : (s.modPart n f).keeps = s.keeps := rfl
@[simp] theorem State.modPart_rests (s : State) (n : Nat) (f : Partition → Partition) : (s.modPart n f).rests = s.rests := rfl
@[simp] theorem State.modPart_pairs (s : State) (n : Nat) (f : Partition → Partition) : (s.modPart n f).pairs = s.pairs := rfl
@[simp] theorem State.modPart_sites (s : State) (n : Nat) (f : Partition → Partition) : (s.modPart n f).sites = s.sites := rfl
@[simp] theorem State.modPart_ports (s : State) (n : Nat) (f : Partition → Partition) : (s.modPart n f).ports = s.ports := rfl
@[simp] theorem State.modPart_flows (s : State) (n : Nat) (f : Partition → Partition) : (s.modPart n f).flows = s.flows := rfl
@[simp] theorem State.modPart_peers (s : State) (n : Nat) (f : Partition → Partition) : (s.modPart n f).peers = s.peers := rfl
@[simp] theorem State.modPart_paths (s : State) (n : Nat) (f : Partition → Partition) : (s.modPart n f).paths = s.paths := rfl
@[simp] theorem State.modPart_hosts (s : State) (n : Nat) (f : Partition → Partition) : (s.modPart n f).hosts = s.hosts := rfl
@[simp] theorem State.modPart_asked (s : State) (n : Nat) (f : Partition → Partition) : (s.modPart n f).asked = s.asked := rfl
@[simp] theorem State.modPart_hostQ (s : State) (n : Nat) (f : Partition → Partition) : (s.modPart n f).hostQ = s.hostQ := rfl
@[simp] theorem State.modPart_hands (s : State) (n : Nat) (f : Partition → Partition) : (s.modPart n f).hands = s.hands := rfl
@[simp] theorem State.modPart_far (s : State) (n : Nat) (f : Partition → Partition) : (s.modPart n f).far = s.far := rfl
@[simp] theorem State.modPart_out (s : State) (n : Nat) (f : Partition → Partition) : (s.modPart n f).out = s.out := rfl
@[simp] theorem State.modPart_nextUid (s : State) (n : Nat) (f : Partition → Partition) : (s.modPart n f).nextUid = s.nextUid := rfl
@[simp] theorem State.modPart_stamp (s : State) (n : Nat) (f : Partition → Partition) : (s.modPart n f).stamp = s.stamp := rfl
@[simp] theorem State.modPart_input (s : State) (n : Nat) (f : Partition → Partition) : (s.modPart n f).input = s.input := rfl
@[simp] theorem State.modPart_agenda (s : State) (n : Nat) (f : Partition → Partition) : (s.modPart n f).agenda = s.agenda := rfl
@[simp] theorem State.modPart_fresh (s : State) (n : Nat) (f : Partition → Partition) : (s.modPart n f).fresh = s.fresh := rfl

@[simp] theorem State.modVd_ctx (s : State) (n : Nat) (f : Vd → Vd) : (s.modVd n f).ctx = s.ctx := rfl
@[simp] theorem State.modVd_slice (s : State) (n : Nat) (f : Vd → Vd) : (s.modVd n f).slice = s.slice := rfl
@[simp] theorem State.modVd_live (s : State) (n : Nat) (f : Vd → Vd) : (s.modVd n f).live = s.live := rfl
@[simp] theorem State.modVd_parked (s : State) (n : Nat) (f : Vd → Vd) : (s.modVd n f).parked = s.parked := rfl
@[simp] theorem State.modVd_mem (s : State) (n : Nat) (f : Vd → Vd) : (s.modVd n f).mem = s.mem := rfl
@[simp] theorem State.modVd_media (s : State) (n : Nat) (f : Vd → Vd) : (s.modVd n f).media = s.media := rfl
@[simp] theorem State.modVd_durPend (s : State) (n : Nat) (f : Vd → Vd) : (s.modVd n f).durPend = s.durPend := rfl
@[simp] theorem State.modVd_errs (s : State) (n : Nat) (f : Vd → Vd) : (s.modVd n f).errs = s.errs := rfl
@[simp] theorem State.modVd_pkg (s : State) (n : Nat) (f : Vd → Vd) : (s.modVd n f).pkg = s.pkg := rfl
@[simp] theorem State.modVd_parts (s : State) (n : Nat) (f : Vd → Vd) : (s.modVd n f).parts = s.parts := rfl
@[simp] theorem State.modVd_vds (s : State) (n : Nat) (f : Vd → Vd) : (s.modVd n f).vds = mapIf (fun x => x.num == n) f s.vds := rfl
@[simp] theorem State.modVd_queues (s : State) (n : Nat) (f : Vd → Vd) : (s.modVd n f).queues = s.queues := rfl
@[simp] theorem State.modVd_tasks (s : State) (n : Nat) (f : Vd → Vd) : (s.modVd n f).tasks = s.tasks := rfl
@[simp] theorem State.modVd_cores (s : State) (n : Nat) (f : Vd → Vd) : (s.modVd n f).cores = s.cores := rfl
@[simp] theorem State.modVd_gangs (s : State) (n : Nat) (f : Vd → Vd) : (s.modVd n f).gangs = s.gangs := rfl
@[simp] theorem State.modVd_tiles (s : State) (n : Nat) (f : Vd → Vd) : (s.modVd n f).tiles = s.tiles := rfl
@[simp] theorem State.modVd_recs (s : State) (n : Nat) (f : Vd → Vd) : (s.modVd n f).recs = s.recs := rfl
@[simp] theorem State.modVd_kept (s : State) (n : Nat) (f : Vd → Vd) : (s.modVd n f).kept = s.kept := rfl
@[simp] theorem State.modVd_keeps (s : State) (n : Nat) (f : Vd → Vd) : (s.modVd n f).keeps = s.keeps := rfl
@[simp] theorem State.modVd_rests (s : State) (n : Nat) (f : Vd → Vd) : (s.modVd n f).rests = s.rests := rfl
@[simp] theorem State.modVd_pairs (s : State) (n : Nat) (f : Vd → Vd) : (s.modVd n f).pairs = s.pairs := rfl
@[simp] theorem State.modVd_sites (s : State) (n : Nat) (f : Vd → Vd) : (s.modVd n f).sites = s.sites := rfl
@[simp] theorem State.modVd_ports (s : State) (n : Nat) (f : Vd → Vd) : (s.modVd n f).ports = s.ports := rfl
@[simp] theorem State.modVd_flows (s : State) (n : Nat) (f : Vd → Vd) : (s.modVd n f).flows = s.flows := rfl
@[simp] theorem State.modVd_peers (s : State) (n : Nat) (f : Vd → Vd) : (s.modVd n f).peers = s.peers := rfl
@[simp] theorem State.modVd_paths (s : State) (n : Nat) (f : Vd → Vd) : (s.modVd n f).paths = s.paths := rfl
@[simp] theorem State.modVd_hosts (s : State) (n : Nat) (f : Vd → Vd) : (s.modVd n f).hosts = s.hosts := rfl
@[simp] theorem State.modVd_asked (s : State) (n : Nat) (f : Vd → Vd) : (s.modVd n f).asked = s.asked := rfl
@[simp] theorem State.modVd_hostQ (s : State) (n : Nat) (f : Vd → Vd) : (s.modVd n f).hostQ = s.hostQ := rfl
@[simp] theorem State.modVd_hands (s : State) (n : Nat) (f : Vd → Vd) : (s.modVd n f).hands = s.hands := rfl
@[simp] theorem State.modVd_far (s : State) (n : Nat) (f : Vd → Vd) : (s.modVd n f).far = s.far := rfl
@[simp] theorem State.modVd_out (s : State) (n : Nat) (f : Vd → Vd) : (s.modVd n f).out = s.out := rfl
@[simp] theorem State.modVd_nextUid (s : State) (n : Nat) (f : Vd → Vd) : (s.modVd n f).nextUid = s.nextUid := rfl
@[simp] theorem State.modVd_stamp (s : State) (n : Nat) (f : Vd → Vd) : (s.modVd n f).stamp = s.stamp := rfl
@[simp] theorem State.modVd_input (s : State) (n : Nat) (f : Vd → Vd) : (s.modVd n f).input = s.input := rfl
@[simp] theorem State.modVd_agenda (s : State) (n : Nat) (f : Vd → Vd) : (s.modVd n f).agenda = s.agenda := rfl
@[simp] theorem State.modVd_fresh (s : State) (n : Nat) (f : Vd → Vd) : (s.modVd n f).fresh = s.fresh := rfl

@[simp] theorem State.modQueue_ctx (s : State) (v q : Nat) (f : Queue → Queue) : (s.modQueue v q f).ctx = s.ctx := rfl
@[simp] theorem State.modQueue_slice (s : State) (v q : Nat) (f : Queue → Queue) : (s.modQueue v q f).slice = s.slice := rfl
@[simp] theorem State.modQueue_live (s : State) (v q : Nat) (f : Queue → Queue) : (s.modQueue v q f).live = s.live := rfl
@[simp] theorem State.modQueue_parked (s : State) (v q : Nat) (f : Queue → Queue) : (s.modQueue v q f).parked = s.parked := rfl
@[simp] theorem State.modQueue_mem (s : State) (v q : Nat) (f : Queue → Queue) : (s.modQueue v q f).mem = s.mem := rfl
@[simp] theorem State.modQueue_media (s : State) (v q : Nat) (f : Queue → Queue) : (s.modQueue v q f).media = s.media := rfl
@[simp] theorem State.modQueue_durPend (s : State) (v q : Nat) (f : Queue → Queue) : (s.modQueue v q f).durPend = s.durPend := rfl
@[simp] theorem State.modQueue_errs (s : State) (v q : Nat) (f : Queue → Queue) : (s.modQueue v q f).errs = s.errs := rfl
@[simp] theorem State.modQueue_pkg (s : State) (v q : Nat) (f : Queue → Queue) : (s.modQueue v q f).pkg = s.pkg := rfl
@[simp] theorem State.modQueue_parts (s : State) (v q : Nat) (f : Queue → Queue) : (s.modQueue v q f).parts = s.parts := rfl
@[simp] theorem State.modQueue_vds (s : State) (v q : Nat) (f : Queue → Queue) : (s.modQueue v q f).vds = s.vds := rfl
@[simp] theorem State.modQueue_queues (s : State) (v q : Nat) (f : Queue → Queue) : (s.modQueue v q f).queues = mapIf (fun x => x.vd == v && x.qidx == q) f s.queues := rfl
@[simp] theorem State.modQueue_tasks (s : State) (v q : Nat) (f : Queue → Queue) : (s.modQueue v q f).tasks = s.tasks := rfl
@[simp] theorem State.modQueue_cores (s : State) (v q : Nat) (f : Queue → Queue) : (s.modQueue v q f).cores = s.cores := rfl
@[simp] theorem State.modQueue_gangs (s : State) (v q : Nat) (f : Queue → Queue) : (s.modQueue v q f).gangs = s.gangs := rfl
@[simp] theorem State.modQueue_tiles (s : State) (v q : Nat) (f : Queue → Queue) : (s.modQueue v q f).tiles = s.tiles := rfl
@[simp] theorem State.modQueue_recs (s : State) (v q : Nat) (f : Queue → Queue) : (s.modQueue v q f).recs = s.recs := rfl
@[simp] theorem State.modQueue_kept (s : State) (v q : Nat) (f : Queue → Queue) : (s.modQueue v q f).kept = s.kept := rfl
@[simp] theorem State.modQueue_keeps (s : State) (v q : Nat) (f : Queue → Queue) : (s.modQueue v q f).keeps = s.keeps := rfl
@[simp] theorem State.modQueue_rests (s : State) (v q : Nat) (f : Queue → Queue) : (s.modQueue v q f).rests = s.rests := rfl
@[simp] theorem State.modQueue_pairs (s : State) (v q : Nat) (f : Queue → Queue) : (s.modQueue v q f).pairs = s.pairs := rfl
@[simp] theorem State.modQueue_sites (s : State) (v q : Nat) (f : Queue → Queue) : (s.modQueue v q f).sites = s.sites := rfl
@[simp] theorem State.modQueue_ports (s : State) (v q : Nat) (f : Queue → Queue) : (s.modQueue v q f).ports = s.ports := rfl
@[simp] theorem State.modQueue_flows (s : State) (v q : Nat) (f : Queue → Queue) : (s.modQueue v q f).flows = s.flows := rfl
@[simp] theorem State.modQueue_peers (s : State) (v q : Nat) (f : Queue → Queue) : (s.modQueue v q f).peers = s.peers := rfl
@[simp] theorem State.modQueue_paths (s : State) (v q : Nat) (f : Queue → Queue) : (s.modQueue v q f).paths = s.paths := rfl
@[simp] theorem State.modQueue_hosts (s : State) (v q : Nat) (f : Queue → Queue) : (s.modQueue v q f).hosts = s.hosts := rfl
@[simp] theorem State.modQueue_asked (s : State) (v q : Nat) (f : Queue → Queue) : (s.modQueue v q f).asked = s.asked := rfl
@[simp] theorem State.modQueue_hostQ (s : State) (v q : Nat) (f : Queue → Queue) : (s.modQueue v q f).hostQ = s.hostQ := rfl
@[simp] theorem State.modQueue_hands (s : State) (v q : Nat) (f : Queue → Queue) : (s.modQueue v q f).hands = s.hands := rfl
@[simp] theorem State.modQueue_far (s : State) (v q : Nat) (f : Queue → Queue) : (s.modQueue v q f).far = s.far := rfl
@[simp] theorem State.modQueue_out (s : State) (v q : Nat) (f : Queue → Queue) : (s.modQueue v q f).out = s.out := rfl
@[simp] theorem State.modQueue_nextUid (s : State) (v q : Nat) (f : Queue → Queue) : (s.modQueue v q f).nextUid = s.nextUid := rfl
@[simp] theorem State.modQueue_stamp (s : State) (v q : Nat) (f : Queue → Queue) : (s.modQueue v q f).stamp = s.stamp := rfl
@[simp] theorem State.modQueue_input (s : State) (v q : Nat) (f : Queue → Queue) : (s.modQueue v q f).input = s.input := rfl
@[simp] theorem State.modQueue_agenda (s : State) (v q : Nat) (f : Queue → Queue) : (s.modQueue v q f).agenda = s.agenda := rfl
@[simp] theorem State.modQueue_fresh (s : State) (v q : Nat) (f : Queue → Queue) : (s.modQueue v q f).fresh = s.fresh := rfl

@[simp] theorem State.modTask_ctx (s : State) (u : Nat) (f : Task → Task) : (s.modTask u f).ctx = s.ctx := rfl
@[simp] theorem State.modTask_slice (s : State) (u : Nat) (f : Task → Task) : (s.modTask u f).slice = s.slice := rfl
@[simp] theorem State.modTask_live (s : State) (u : Nat) (f : Task → Task) : (s.modTask u f).live = s.live := rfl
@[simp] theorem State.modTask_parked (s : State) (u : Nat) (f : Task → Task) : (s.modTask u f).parked = s.parked := rfl
@[simp] theorem State.modTask_mem (s : State) (u : Nat) (f : Task → Task) : (s.modTask u f).mem = s.mem := rfl
@[simp] theorem State.modTask_media (s : State) (u : Nat) (f : Task → Task) : (s.modTask u f).media = s.media := rfl
@[simp] theorem State.modTask_durPend (s : State) (u : Nat) (f : Task → Task) : (s.modTask u f).durPend = s.durPend := rfl
@[simp] theorem State.modTask_errs (s : State) (u : Nat) (f : Task → Task) : (s.modTask u f).errs = s.errs := rfl
@[simp] theorem State.modTask_pkg (s : State) (u : Nat) (f : Task → Task) : (s.modTask u f).pkg = s.pkg := rfl
@[simp] theorem State.modTask_parts (s : State) (u : Nat) (f : Task → Task) : (s.modTask u f).parts = s.parts := rfl
@[simp] theorem State.modTask_vds (s : State) (u : Nat) (f : Task → Task) : (s.modTask u f).vds = s.vds := rfl
@[simp] theorem State.modTask_queues (s : State) (u : Nat) (f : Task → Task) : (s.modTask u f).queues = s.queues := rfl
@[simp] theorem State.modTask_tasks (s : State) (u : Nat) (f : Task → Task) : (s.modTask u f).tasks = mapIf (fun t => t.uid == u) f s.tasks := rfl
@[simp] theorem State.modTask_cores (s : State) (u : Nat) (f : Task → Task) : (s.modTask u f).cores = s.cores := rfl
@[simp] theorem State.modTask_gangs (s : State) (u : Nat) (f : Task → Task) : (s.modTask u f).gangs = s.gangs := rfl
@[simp] theorem State.modTask_tiles (s : State) (u : Nat) (f : Task → Task) : (s.modTask u f).tiles = s.tiles := rfl
@[simp] theorem State.modTask_recs (s : State) (u : Nat) (f : Task → Task) : (s.modTask u f).recs = s.recs := rfl
@[simp] theorem State.modTask_kept (s : State) (u : Nat) (f : Task → Task) : (s.modTask u f).kept = s.kept := rfl
@[simp] theorem State.modTask_keeps (s : State) (u : Nat) (f : Task → Task) : (s.modTask u f).keeps = s.keeps := rfl
@[simp] theorem State.modTask_rests (s : State) (u : Nat) (f : Task → Task) : (s.modTask u f).rests = s.rests := rfl
@[simp] theorem State.modTask_pairs (s : State) (u : Nat) (f : Task → Task) : (s.modTask u f).pairs = s.pairs := rfl
@[simp] theorem State.modTask_sites (s : State) (u : Nat) (f : Task → Task) : (s.modTask u f).sites = s.sites := rfl
@[simp] theorem State.modTask_ports (s : State) (u : Nat) (f : Task → Task) : (s.modTask u f).ports = s.ports := rfl
@[simp] theorem State.modTask_flows (s : State) (u : Nat) (f : Task → Task) : (s.modTask u f).flows = s.flows := rfl
@[simp] theorem State.modTask_peers (s : State) (u : Nat) (f : Task → Task) : (s.modTask u f).peers = s.peers := rfl
@[simp] theorem State.modTask_paths (s : State) (u : Nat) (f : Task → Task) : (s.modTask u f).paths = s.paths := rfl
@[simp] theorem State.modTask_hosts (s : State) (u : Nat) (f : Task → Task) : (s.modTask u f).hosts = s.hosts := rfl
@[simp] theorem State.modTask_asked (s : State) (u : Nat) (f : Task → Task) : (s.modTask u f).asked = s.asked := rfl
@[simp] theorem State.modTask_hostQ (s : State) (u : Nat) (f : Task → Task) : (s.modTask u f).hostQ = s.hostQ := rfl
@[simp] theorem State.modTask_hands (s : State) (u : Nat) (f : Task → Task) : (s.modTask u f).hands = s.hands := rfl
@[simp] theorem State.modTask_far (s : State) (u : Nat) (f : Task → Task) : (s.modTask u f).far = s.far := rfl
@[simp] theorem State.modTask_out (s : State) (u : Nat) (f : Task → Task) : (s.modTask u f).out = s.out := rfl
@[simp] theorem State.modTask_nextUid (s : State) (u : Nat) (f : Task → Task) : (s.modTask u f).nextUid = s.nextUid := rfl
@[simp] theorem State.modTask_stamp (s : State) (u : Nat) (f : Task → Task) : (s.modTask u f).stamp = s.stamp := rfl
@[simp] theorem State.modTask_input (s : State) (u : Nat) (f : Task → Task) : (s.modTask u f).input = s.input := rfl
@[simp] theorem State.modTask_agenda (s : State) (u : Nat) (f : Task → Task) : (s.modTask u f).agenda = s.agenda := rfl
@[simp] theorem State.modTask_fresh (s : State) (u : Nat) (f : Task → Task) : (s.modTask u f).fresh = s.fresh := rfl

@[simp] theorem State.modCore_ctx (s : State) (n : Nat) (f : Core → Core) : (s.modCore n f).ctx = s.ctx := rfl
@[simp] theorem State.modCore_slice (s : State) (n : Nat) (f : Core → Core) : (s.modCore n f).slice = s.slice := rfl
@[simp] theorem State.modCore_live (s : State) (n : Nat) (f : Core → Core) : (s.modCore n f).live = s.live := rfl
@[simp] theorem State.modCore_parked (s : State) (n : Nat) (f : Core → Core) : (s.modCore n f).parked = s.parked := rfl
@[simp] theorem State.modCore_mem (s : State) (n : Nat) (f : Core → Core) : (s.modCore n f).mem = s.mem := rfl
@[simp] theorem State.modCore_media (s : State) (n : Nat) (f : Core → Core) : (s.modCore n f).media = s.media := rfl
@[simp] theorem State.modCore_durPend (s : State) (n : Nat) (f : Core → Core) : (s.modCore n f).durPend = s.durPend := rfl
@[simp] theorem State.modCore_errs (s : State) (n : Nat) (f : Core → Core) : (s.modCore n f).errs = s.errs := rfl
@[simp] theorem State.modCore_pkg (s : State) (n : Nat) (f : Core → Core) : (s.modCore n f).pkg = s.pkg := rfl
@[simp] theorem State.modCore_parts (s : State) (n : Nat) (f : Core → Core) : (s.modCore n f).parts = s.parts := rfl
@[simp] theorem State.modCore_vds (s : State) (n : Nat) (f : Core → Core) : (s.modCore n f).vds = s.vds := rfl
@[simp] theorem State.modCore_queues (s : State) (n : Nat) (f : Core → Core) : (s.modCore n f).queues = s.queues := rfl
@[simp] theorem State.modCore_tasks (s : State) (n : Nat) (f : Core → Core) : (s.modCore n f).tasks = s.tasks := rfl
@[simp] theorem State.modCore_cores (s : State) (n : Nat) (f : Core → Core) : (s.modCore n f).cores = mapIf (fun c => c.num == n) f s.cores := rfl
@[simp] theorem State.modCore_gangs (s : State) (n : Nat) (f : Core → Core) : (s.modCore n f).gangs = s.gangs := rfl
@[simp] theorem State.modCore_tiles (s : State) (n : Nat) (f : Core → Core) : (s.modCore n f).tiles = s.tiles := rfl
@[simp] theorem State.modCore_recs (s : State) (n : Nat) (f : Core → Core) : (s.modCore n f).recs = s.recs := rfl
@[simp] theorem State.modCore_kept (s : State) (n : Nat) (f : Core → Core) : (s.modCore n f).kept = s.kept := rfl
@[simp] theorem State.modCore_keeps (s : State) (n : Nat) (f : Core → Core) : (s.modCore n f).keeps = s.keeps := rfl
@[simp] theorem State.modCore_rests (s : State) (n : Nat) (f : Core → Core) : (s.modCore n f).rests = s.rests := rfl
@[simp] theorem State.modCore_pairs (s : State) (n : Nat) (f : Core → Core) : (s.modCore n f).pairs = s.pairs := rfl
@[simp] theorem State.modCore_sites (s : State) (n : Nat) (f : Core → Core) : (s.modCore n f).sites = s.sites := rfl
@[simp] theorem State.modCore_ports (s : State) (n : Nat) (f : Core → Core) : (s.modCore n f).ports = s.ports := rfl
@[simp] theorem State.modCore_flows (s : State) (n : Nat) (f : Core → Core) : (s.modCore n f).flows = s.flows := rfl
@[simp] theorem State.modCore_peers (s : State) (n : Nat) (f : Core → Core) : (s.modCore n f).peers = s.peers := rfl
@[simp] theorem State.modCore_paths (s : State) (n : Nat) (f : Core → Core) : (s.modCore n f).paths = s.paths := rfl
@[simp] theorem State.modCore_hosts (s : State) (n : Nat) (f : Core → Core) : (s.modCore n f).hosts = s.hosts := rfl
@[simp] theorem State.modCore_asked (s : State) (n : Nat) (f : Core → Core) : (s.modCore n f).asked = s.asked := rfl
@[simp] theorem State.modCore_hostQ (s : State) (n : Nat) (f : Core → Core) : (s.modCore n f).hostQ = s.hostQ := rfl
@[simp] theorem State.modCore_hands (s : State) (n : Nat) (f : Core → Core) : (s.modCore n f).hands = s.hands := rfl
@[simp] theorem State.modCore_far (s : State) (n : Nat) (f : Core → Core) : (s.modCore n f).far = s.far := rfl
@[simp] theorem State.modCore_out (s : State) (n : Nat) (f : Core → Core) : (s.modCore n f).out = s.out := rfl
@[simp] theorem State.modCore_nextUid (s : State) (n : Nat) (f : Core → Core) : (s.modCore n f).nextUid = s.nextUid := rfl
@[simp] theorem State.modCore_stamp (s : State) (n : Nat) (f : Core → Core) : (s.modCore n f).stamp = s.stamp := rfl
@[simp] theorem State.modCore_input (s : State) (n : Nat) (f : Core → Core) : (s.modCore n f).input = s.input := rfl
@[simp] theorem State.modCore_agenda (s : State) (n : Nat) (f : Core → Core) : (s.modCore n f).agenda = s.agenda := rfl
@[simp] theorem State.modCore_fresh (s : State) (n : Nat) (f : Core → Core) : (s.modCore n f).fresh = s.fresh := rfl

@[simp] theorem State.modTile_ctx (s : State) (v : Nat) (n : Word) (f : Tile → Tile) : (s.modTile v n f).ctx = s.ctx := rfl
@[simp] theorem State.modTile_slice (s : State) (v : Nat) (n : Word) (f : Tile → Tile) : (s.modTile v n f).slice = s.slice := rfl
@[simp] theorem State.modTile_live (s : State) (v : Nat) (n : Word) (f : Tile → Tile) : (s.modTile v n f).live = s.live := rfl
@[simp] theorem State.modTile_parked (s : State) (v : Nat) (n : Word) (f : Tile → Tile) : (s.modTile v n f).parked = s.parked := rfl
@[simp] theorem State.modTile_mem (s : State) (v : Nat) (n : Word) (f : Tile → Tile) : (s.modTile v n f).mem = s.mem := rfl
@[simp] theorem State.modTile_media (s : State) (v : Nat) (n : Word) (f : Tile → Tile) : (s.modTile v n f).media = s.media := rfl
@[simp] theorem State.modTile_durPend (s : State) (v : Nat) (n : Word) (f : Tile → Tile) : (s.modTile v n f).durPend = s.durPend := rfl
@[simp] theorem State.modTile_errs (s : State) (v : Nat) (n : Word) (f : Tile → Tile) : (s.modTile v n f).errs = s.errs := rfl
@[simp] theorem State.modTile_pkg (s : State) (v : Nat) (n : Word) (f : Tile → Tile) : (s.modTile v n f).pkg = s.pkg := rfl
@[simp] theorem State.modTile_parts (s : State) (v : Nat) (n : Word) (f : Tile → Tile) : (s.modTile v n f).parts = s.parts := rfl
@[simp] theorem State.modTile_vds (s : State) (v : Nat) (n : Word) (f : Tile → Tile) : (s.modTile v n f).vds = s.vds := rfl
@[simp] theorem State.modTile_queues (s : State) (v : Nat) (n : Word) (f : Tile → Tile) : (s.modTile v n f).queues = s.queues := rfl
@[simp] theorem State.modTile_tasks (s : State) (v : Nat) (n : Word) (f : Tile → Tile) : (s.modTile v n f).tasks = s.tasks := rfl
@[simp] theorem State.modTile_cores (s : State) (v : Nat) (n : Word) (f : Tile → Tile) : (s.modTile v n f).cores = s.cores := rfl
@[simp] theorem State.modTile_gangs (s : State) (v : Nat) (n : Word) (f : Tile → Tile) : (s.modTile v n f).gangs = s.gangs := rfl
@[simp] theorem State.modTile_tiles (s : State) (v : Nat) (n : Word) (f : Tile → Tile) : (s.modTile v n f).tiles = mapIf (fun t => t.vd == v && t.name == n && !t.shadow && !t.stale) f s.tiles := rfl
@[simp] theorem State.modTile_recs (s : State) (v : Nat) (n : Word) (f : Tile → Tile) : (s.modTile v n f).recs = s.recs := rfl
@[simp] theorem State.modTile_kept (s : State) (v : Nat) (n : Word) (f : Tile → Tile) : (s.modTile v n f).kept = s.kept := rfl
@[simp] theorem State.modTile_keeps (s : State) (v : Nat) (n : Word) (f : Tile → Tile) : (s.modTile v n f).keeps = s.keeps := rfl
@[simp] theorem State.modTile_rests (s : State) (v : Nat) (n : Word) (f : Tile → Tile) : (s.modTile v n f).rests = s.rests := rfl
@[simp] theorem State.modTile_pairs (s : State) (v : Nat) (n : Word) (f : Tile → Tile) : (s.modTile v n f).pairs = s.pairs := rfl
@[simp] theorem State.modTile_sites (s : State) (v : Nat) (n : Word) (f : Tile → Tile) : (s.modTile v n f).sites = s.sites := rfl
@[simp] theorem State.modTile_ports (s : State) (v : Nat) (n : Word) (f : Tile → Tile) : (s.modTile v n f).ports = s.ports := rfl
@[simp] theorem State.modTile_flows (s : State) (v : Nat) (n : Word) (f : Tile → Tile) : (s.modTile v n f).flows = s.flows := rfl
@[simp] theorem State.modTile_peers (s : State) (v : Nat) (n : Word) (f : Tile → Tile) : (s.modTile v n f).peers = s.peers := rfl
@[simp] theorem State.modTile_paths (s : State) (v : Nat) (n : Word) (f : Tile → Tile) : (s.modTile v n f).paths = s.paths := rfl
@[simp] theorem State.modTile_hosts (s : State) (v : Nat) (n : Word) (f : Tile → Tile) : (s.modTile v n f).hosts = s.hosts := rfl
@[simp] theorem State.modTile_asked (s : State) (v : Nat) (n : Word) (f : Tile → Tile) : (s.modTile v n f).asked = s.asked := rfl
@[simp] theorem State.modTile_hostQ (s : State) (v : Nat) (n : Word) (f : Tile → Tile) : (s.modTile v n f).hostQ = s.hostQ := rfl
@[simp] theorem State.modTile_hands (s : State) (v : Nat) (n : Word) (f : Tile → Tile) : (s.modTile v n f).hands = s.hands := rfl
@[simp] theorem State.modTile_far (s : State) (v : Nat) (n : Word) (f : Tile → Tile) : (s.modTile v n f).far = s.far := rfl
@[simp] theorem State.modTile_out (s : State) (v : Nat) (n : Word) (f : Tile → Tile) : (s.modTile v n f).out = s.out := rfl
@[simp] theorem State.modTile_nextUid (s : State) (v : Nat) (n : Word) (f : Tile → Tile) : (s.modTile v n f).nextUid = s.nextUid := rfl
@[simp] theorem State.modTile_stamp (s : State) (v : Nat) (n : Word) (f : Tile → Tile) : (s.modTile v n f).stamp = s.stamp := rfl
@[simp] theorem State.modTile_input (s : State) (v : Nat) (n : Word) (f : Tile → Tile) : (s.modTile v n f).input = s.input := rfl
@[simp] theorem State.modTile_agenda (s : State) (v : Nat) (n : Word) (f : Tile → Tile) : (s.modTile v n f).agenda = s.agenda := rfl
@[simp] theorem State.modTile_fresh (s : State) (v : Nat) (n : Word) (f : Tile → Tile) : (s.modTile v n f).fresh = s.fresh := rfl

@[simp] theorem State.modExtent_ctx (s : State) (v : Nat) (a : Nat) (f : Tile → Tile) : (s.modExtent v a f).ctx = s.ctx := rfl
@[simp] theorem State.modExtent_slice (s : State) (v : Nat) (a : Nat) (f : Tile → Tile) : (s.modExtent v a f).slice = s.slice := rfl
@[simp] theorem State.modExtent_live (s : State) (v : Nat) (a : Nat) (f : Tile → Tile) : (s.modExtent v a f).live = s.live := rfl
@[simp] theorem State.modExtent_parked (s : State) (v : Nat) (a : Nat) (f : Tile → Tile) : (s.modExtent v a f).parked = s.parked := rfl
@[simp] theorem State.modExtent_mem (s : State) (v : Nat) (a : Nat) (f : Tile → Tile) : (s.modExtent v a f).mem = s.mem := rfl
@[simp] theorem State.modExtent_media (s : State) (v : Nat) (a : Nat) (f : Tile → Tile) : (s.modExtent v a f).media = s.media := rfl
@[simp] theorem State.modExtent_durPend (s : State) (v : Nat) (a : Nat) (f : Tile → Tile) : (s.modExtent v a f).durPend = s.durPend := rfl
@[simp] theorem State.modExtent_errs (s : State) (v : Nat) (a : Nat) (f : Tile → Tile) : (s.modExtent v a f).errs = s.errs := rfl
@[simp] theorem State.modExtent_pkg (s : State) (v : Nat) (a : Nat) (f : Tile → Tile) : (s.modExtent v a f).pkg = s.pkg := rfl
@[simp] theorem State.modExtent_parts (s : State) (v : Nat) (a : Nat) (f : Tile → Tile) : (s.modExtent v a f).parts = s.parts := rfl
@[simp] theorem State.modExtent_vds (s : State) (v : Nat) (a : Nat) (f : Tile → Tile) : (s.modExtent v a f).vds = s.vds := rfl
@[simp] theorem State.modExtent_queues (s : State) (v : Nat) (a : Nat) (f : Tile → Tile) : (s.modExtent v a f).queues = s.queues := rfl
@[simp] theorem State.modExtent_tasks (s : State) (v : Nat) (a : Nat) (f : Tile → Tile) : (s.modExtent v a f).tasks = s.tasks := rfl
@[simp] theorem State.modExtent_cores (s : State) (v : Nat) (a : Nat) (f : Tile → Tile) : (s.modExtent v a f).cores = s.cores := rfl
@[simp] theorem State.modExtent_gangs (s : State) (v : Nat) (a : Nat) (f : Tile → Tile) : (s.modExtent v a f).gangs = s.gangs := rfl
@[simp] theorem State.modExtent_tiles (s : State) (v : Nat) (a : Nat) (f : Tile → Tile) : (s.modExtent v a f).tiles = mapIf (fun t => t.vd == v && t.va == a && !t.shadow) f s.tiles := rfl
@[simp] theorem State.modExtent_recs (s : State) (v : Nat) (a : Nat) (f : Tile → Tile) : (s.modExtent v a f).recs = s.recs := rfl
@[simp] theorem State.modExtent_kept (s : State) (v : Nat) (a : Nat) (f : Tile → Tile) : (s.modExtent v a f).kept = s.kept := rfl
@[simp] theorem State.modExtent_keeps (s : State) (v : Nat) (a : Nat) (f : Tile → Tile) : (s.modExtent v a f).keeps = s.keeps := rfl
@[simp] theorem State.modExtent_rests (s : State) (v : Nat) (a : Nat) (f : Tile → Tile) : (s.modExtent v a f).rests = s.rests := rfl
@[simp] theorem State.modExtent_pairs (s : State) (v : Nat) (a : Nat) (f : Tile → Tile) : (s.modExtent v a f).pairs = s.pairs := rfl
@[simp] theorem State.modExtent_sites (s : State) (v : Nat) (a : Nat) (f : Tile → Tile) : (s.modExtent v a f).sites = s.sites := rfl
@[simp] theorem State.modExtent_ports (s : State) (v : Nat) (a : Nat) (f : Tile → Tile) : (s.modExtent v a f).ports = s.ports := rfl
@[simp] theorem State.modExtent_flows (s : State) (v : Nat) (a : Nat) (f : Tile → Tile) : (s.modExtent v a f).flows = s.flows := rfl
@[simp] theorem State.modExtent_peers (s : State) (v : Nat) (a : Nat) (f : Tile → Tile) : (s.modExtent v a f).peers = s.peers := rfl
@[simp] theorem State.modExtent_paths (s : State) (v : Nat) (a : Nat) (f : Tile → Tile) : (s.modExtent v a f).paths = s.paths := rfl
@[simp] theorem State.modExtent_hosts (s : State) (v : Nat) (a : Nat) (f : Tile → Tile) : (s.modExtent v a f).hosts = s.hosts := rfl
@[simp] theorem State.modExtent_asked (s : State) (v : Nat) (a : Nat) (f : Tile → Tile) : (s.modExtent v a f).asked = s.asked := rfl
@[simp] theorem State.modExtent_hostQ (s : State) (v : Nat) (a : Nat) (f : Tile → Tile) : (s.modExtent v a f).hostQ = s.hostQ := rfl
@[simp] theorem State.modExtent_hands (s : State) (v : Nat) (a : Nat) (f : Tile → Tile) : (s.modExtent v a f).hands = s.hands := rfl
@[simp] theorem State.modExtent_far (s : State) (v : Nat) (a : Nat) (f : Tile → Tile) : (s.modExtent v a f).far = s.far := rfl
@[simp] theorem State.modExtent_out (s : State) (v : Nat) (a : Nat) (f : Tile → Tile) : (s.modExtent v a f).out = s.out := rfl
@[simp] theorem State.modExtent_nextUid (s : State) (v : Nat) (a : Nat) (f : Tile → Tile) : (s.modExtent v a f).nextUid = s.nextUid := rfl
@[simp] theorem State.modExtent_stamp (s : State) (v : Nat) (a : Nat) (f : Tile → Tile) : (s.modExtent v a f).stamp = s.stamp := rfl
@[simp] theorem State.modExtent_input (s : State) (v : Nat) (a : Nat) (f : Tile → Tile) : (s.modExtent v a f).input = s.input := rfl
@[simp] theorem State.modExtent_agenda (s : State) (v : Nat) (a : Nat) (f : Tile → Tile) : (s.modExtent v a f).agenda = s.agenda := rfl
@[simp] theorem State.modExtent_fresh (s : State) (v : Nat) (a : Nat) (f : Tile → Tile) : (s.modExtent v a f).fresh = s.fresh := rfl

@[simp] theorem State.modRec_ctx (s : State) (n : Word) (f : LinRec → LinRec) : (s.modRec n f).ctx = s.ctx := rfl
@[simp] theorem State.modRec_slice (s : State) (n : Word) (f : LinRec → LinRec) : (s.modRec n f).slice = s.slice := rfl
@[simp] theorem State.modRec_live (s : State) (n : Word) (f : LinRec → LinRec) : (s.modRec n f).live = s.live := rfl
@[simp] theorem State.modRec_parked (s : State) (n : Word) (f : LinRec → LinRec) : (s.modRec n f).parked = s.parked := rfl
@[simp] theorem State.modRec_mem (s : State) (n : Word) (f : LinRec → LinRec) : (s.modRec n f).mem = s.mem := rfl
@[simp] theorem State.modRec_media (s : State) (n : Word) (f : LinRec → LinRec) : (s.modRec n f).media = s.media := rfl
@[simp] theorem State.modRec_durPend (s : State) (n : Word) (f : LinRec → LinRec) : (s.modRec n f).durPend = s.durPend := rfl
@[simp] theorem State.modRec_errs (s : State) (n : Word) (f : LinRec → LinRec) : (s.modRec n f).errs = s.errs := rfl
@[simp] theorem State.modRec_pkg (s : State) (n : Word) (f : LinRec → LinRec) : (s.modRec n f).pkg = s.pkg := rfl
@[simp] theorem State.modRec_parts (s : State) (n : Word) (f : LinRec → LinRec) : (s.modRec n f).parts = s.parts := rfl
@[simp] theorem State.modRec_vds (s : State) (n : Word) (f : LinRec → LinRec) : (s.modRec n f).vds = s.vds := rfl
@[simp] theorem State.modRec_queues (s : State) (n : Word) (f : LinRec → LinRec) : (s.modRec n f).queues = s.queues := rfl
@[simp] theorem State.modRec_tasks (s : State) (n : Word) (f : LinRec → LinRec) : (s.modRec n f).tasks = s.tasks := rfl
@[simp] theorem State.modRec_cores (s : State) (n : Word) (f : LinRec → LinRec) : (s.modRec n f).cores = s.cores := rfl
@[simp] theorem State.modRec_gangs (s : State) (n : Word) (f : LinRec → LinRec) : (s.modRec n f).gangs = s.gangs := rfl
@[simp] theorem State.modRec_tiles (s : State) (n : Word) (f : LinRec → LinRec) : (s.modRec n f).tiles = s.tiles := rfl
@[simp] theorem State.modRec_recs (s : State) (n : Word) (f : LinRec → LinRec) : (s.modRec n f).recs = mapIf (fun r => r.name == n) f s.recs := rfl
@[simp] theorem State.modRec_kept (s : State) (n : Word) (f : LinRec → LinRec) : (s.modRec n f).kept = s.kept := rfl
@[simp] theorem State.modRec_keeps (s : State) (n : Word) (f : LinRec → LinRec) : (s.modRec n f).keeps = s.keeps := rfl
@[simp] theorem State.modRec_rests (s : State) (n : Word) (f : LinRec → LinRec) : (s.modRec n f).rests = s.rests := rfl
@[simp] theorem State.modRec_pairs (s : State) (n : Word) (f : LinRec → LinRec) : (s.modRec n f).pairs = s.pairs := rfl
@[simp] theorem State.modRec_sites (s : State) (n : Word) (f : LinRec → LinRec) : (s.modRec n f).sites = s.sites := rfl
@[simp] theorem State.modRec_ports (s : State) (n : Word) (f : LinRec → LinRec) : (s.modRec n f).ports = s.ports := rfl
@[simp] theorem State.modRec_flows (s : State) (n : Word) (f : LinRec → LinRec) : (s.modRec n f).flows = s.flows := rfl
@[simp] theorem State.modRec_peers (s : State) (n : Word) (f : LinRec → LinRec) : (s.modRec n f).peers = s.peers := rfl
@[simp] theorem State.modRec_paths (s : State) (n : Word) (f : LinRec → LinRec) : (s.modRec n f).paths = s.paths := rfl
@[simp] theorem State.modRec_hosts (s : State) (n : Word) (f : LinRec → LinRec) : (s.modRec n f).hosts = s.hosts := rfl
@[simp] theorem State.modRec_asked (s : State) (n : Word) (f : LinRec → LinRec) : (s.modRec n f).asked = s.asked := rfl
@[simp] theorem State.modRec_hostQ (s : State) (n : Word) (f : LinRec → LinRec) : (s.modRec n f).hostQ = s.hostQ := rfl
@[simp] theorem State.modRec_hands (s : State) (n : Word) (f : LinRec → LinRec) : (s.modRec n f).hands = s.hands := rfl
@[simp] theorem State.modRec_far (s : State) (n : Word) (f : LinRec → LinRec) : (s.modRec n f).far = s.far := rfl
@[simp] theorem State.modRec_out (s : State) (n : Word) (f : LinRec → LinRec) : (s.modRec n f).out = s.out := rfl
@[simp] theorem State.modRec_nextUid (s : State) (n : Word) (f : LinRec → LinRec) : (s.modRec n f).nextUid = s.nextUid := rfl
@[simp] theorem State.modRec_stamp (s : State) (n : Word) (f : LinRec → LinRec) : (s.modRec n f).stamp = s.stamp := rfl
@[simp] theorem State.modRec_input (s : State) (n : Word) (f : LinRec → LinRec) : (s.modRec n f).input = s.input := rfl
@[simp] theorem State.modRec_agenda (s : State) (n : Word) (f : LinRec → LinRec) : (s.modRec n f).agenda = s.agenda := rfl
@[simp] theorem State.modRec_fresh (s : State) (n : Word) (f : LinRec → LinRec) : (s.modRec n f).fresh = s.fresh := rfl

@[simp] theorem State.tick_ctx (s : State) : (s.tick).ctx = s.ctx := rfl
@[simp] theorem State.tick_slice (s : State) : (s.tick).slice = s.slice := rfl
@[simp] theorem State.tick_live (s : State) : (s.tick).live = s.live := rfl
@[simp] theorem State.tick_parked (s : State) : (s.tick).parked = s.parked := rfl
@[simp] theorem State.tick_mem (s : State) : (s.tick).mem = s.mem := rfl
@[simp] theorem State.tick_media (s : State) : (s.tick).media = s.media := rfl
@[simp] theorem State.tick_durPend (s : State) : (s.tick).durPend = s.durPend := rfl
@[simp] theorem State.tick_errs (s : State) : (s.tick).errs = s.errs := rfl
@[simp] theorem State.tick_pkg (s : State) : (s.tick).pkg = s.pkg := rfl
@[simp] theorem State.tick_parts (s : State) : (s.tick).parts = s.parts := rfl
@[simp] theorem State.tick_vds (s : State) : (s.tick).vds = s.vds := rfl
@[simp] theorem State.tick_queues (s : State) : (s.tick).queues = s.queues := rfl
@[simp] theorem State.tick_tasks (s : State) : (s.tick).tasks = s.tasks := rfl
@[simp] theorem State.tick_cores (s : State) : (s.tick).cores = s.cores := rfl
@[simp] theorem State.tick_gangs (s : State) : (s.tick).gangs = s.gangs := rfl
@[simp] theorem State.tick_tiles (s : State) : (s.tick).tiles = s.tiles := rfl
@[simp] theorem State.tick_recs (s : State) : (s.tick).recs = s.recs := rfl
@[simp] theorem State.tick_kept (s : State) : (s.tick).kept = s.kept := rfl
@[simp] theorem State.tick_keeps (s : State) : (s.tick).keeps = s.keeps := rfl
@[simp] theorem State.tick_rests (s : State) : (s.tick).rests = s.rests := rfl
@[simp] theorem State.tick_pairs (s : State) : (s.tick).pairs = s.pairs := rfl
@[simp] theorem State.tick_sites (s : State) : (s.tick).sites = s.sites := rfl
@[simp] theorem State.tick_ports (s : State) : (s.tick).ports = s.ports := rfl
@[simp] theorem State.tick_flows (s : State) : (s.tick).flows = s.flows := rfl
@[simp] theorem State.tick_peers (s : State) : (s.tick).peers = s.peers := rfl
@[simp] theorem State.tick_paths (s : State) : (s.tick).paths = s.paths := rfl
@[simp] theorem State.tick_hosts (s : State) : (s.tick).hosts = s.hosts := rfl
@[simp] theorem State.tick_asked (s : State) : (s.tick).asked = s.asked := rfl
@[simp] theorem State.tick_hostQ (s : State) : (s.tick).hostQ = s.hostQ := rfl
@[simp] theorem State.tick_hands (s : State) : (s.tick).hands = s.hands := rfl
@[simp] theorem State.tick_far (s : State) : (s.tick).far = s.far := rfl
@[simp] theorem State.tick_out (s : State) : (s.tick).out = s.out := rfl
@[simp] theorem State.tick_nextUid (s : State) : (s.tick).nextUid = s.nextUid := rfl
@[simp] theorem State.tick_stamp (s : State) : (s.tick).stamp = s.stamp := rfl
@[simp] theorem State.tick_input (s : State) : (s.tick).input = s.input := rfl
@[simp] theorem State.tick_agenda (s : State) : (s.tick).agenda = s.agenda := rfl
@[simp] theorem State.tick_fresh (s : State) : (s.tick).fresh = s.fresh + 1 := rfl

end Sys2Proof.Machine
end

