-- ==== Sys2Proof/Laws/Ops.lean ====
section
/-!
SUPPORT. Once for each shared operation, what it does: the checks of declarations, the operation of a scalar instruction, branches, the count of
losses of decoupling, and the writes of a save area.
-/

namespace Sys2Proof.Machine

/-! Checks (R102). -/

/-- Items that the kernel header declares pass the check. -/
theorem checkItems_declared (s : State) (l : List Item) (h : Declared s l = true) : checkItems s none l = none := by
  unfold checkItems; simp only [Option.isSome_none, Bool.false_and, Bool.false_eq_true, if_false]
  simp only [Declared] at h; rw [h]; rfl

/-- An instruction whose items are declared runs. -/
theorem checked_declared (s : State) (l : List Item) (h : Declared s l = true) (k : Out) : checked s none l k = k := by
  unfold checked; rw [checkItems_declared s _ h]

/-- A scalar instruction in both slices, with and without its predicate (R115, R116, R117): its result, and nothing else. -/
theorem scalarOp_gives (s : State) (i : Instr) (q : Pq) (regs : List Reg) (gd : Reg) (lat n : Nat) (v : Word)
   (hd : Declared s (.p (pqPred q) :: regs.map Item.g) = true) (he : exec i s = scalarOp s q regs gd lat n v) : ScalarGives s i q gd lat n v := by
  unfold ScalarGives; rw [he]
  have h1 : ∀ (x : State), checked s none (Item.p (pqPred q) :: List.map Item.g regs) (.next x) = .next x := by
    intro x; unfold checked; rw [checkItems_declared s _ hd]
  refine ⟨fun hs hq => ?_, fun hs hq => ?_, fun hs hq => ?_⟩
  · subst hq; unfold scalarOp; rw [h1, hs]
    have : pqActive s ⟨false, 0⟩ = true := by unfold pqActive; rw [hs]
    rw [this]
    simp only [pqSome, putG, hs, aWrite, aWriteFrom, aAfter, State.modA]
    by_cases h0 : gd = 0 <;> simp [h0, hs, finish, State.modA, aNext, aSet, aGoes]
  · simp only [PlainIssue, Bool.and_eq_true, beq_iff_eq, Bool.not_eq_true'] at hs
    unfold scalarOp; rw [h1, hs.1]
    have : pqActive s q = true := by unfold pqActive; rw [hs.1]; simp only [hq]; cases q.pn <;> rfl
    rw [this]
    simp [hs.1, putG, pend, finish, State.modC, hs.2, cAfter, Effect.early, cIdle, cPend]
  · simp only [PlainIssue, Bool.and_eq_true, beq_iff_eq, Bool.not_eq_true'] at hs
    unfold scalarOp; rw [h1, hs.1]
    have : pqActive s q = false := by unfold pqActive; rw [hs.1]; simp only [hq]; cases q.pn <;> rfl
    rw [this]
    simp [hs.1, finish, State.modC, hs.2, cIdle]

/-- A branch on registers that no pop of yq has written counts no loss of decoupling (R35, R127). -/
theorem lossOfDecoupling_none (s : State) (regs : List Reg) (h : regs.all (fun r => !s.ctx.a.fromYq[r]) = true) : lossOfDecoupling s regs = s := by
  unfold lossOfDecoupling
  have : (regs.any fun r => s.ctx.a.fromYq[r]) = false := by simpa using h
  rw [this]; simp

/-- A branch on one that a pop has written adds the wait, a free value, to LODCNT. -/
theorem lossOfDecoupling_waits (s : State) (regs : List Reg) (hs : s.slice = .a) (h : regs.any (fun r => s.ctx.a.fromYq[r]) = true) : lossOfDecoupling s regs = waitedFor s (Config.freeWord s.fresh) := by
  unfold lossOfDecoupling
  rw [h,hs]; rfl

/-- The C-slice has no losses of decoupling. -/
theorem lossOfDecoupling_c (s : State) (regs : List Reg) (hs : s.slice = .c) : lossOfDecoupling s regs = s := by
  unfold lossOfDecoupling
  rw [hs]; rfl

/-- A conditional branch goes on at its target or at the next instruction (R123). -/
theorem branch_goes (s : State) (i : Instr) (ga gb : Reg) (off : Word) (n : Nat) (m : Int) (tk : Bool) (hd : Declared s [.g ga, .g gb] = true)
  (he : exec i s = branch s ga gb off n tk) (hn : BitVec.ofNat 64 n = BitVec.ofInt 64 (4*m)) (o : Int) (ho : 4 * off = BitVec.ofInt 64 (4 * o)) :
  GoesTo s i [ga, gb] (wordsOn s (if tk then o else m)) := by
  have ho' : 4#64 * off = BitVec.ofInt 64 (4 * o) := ho
  refine ⟨fun h1 h2 => ?_, fun h1 h2 => ?_, fun h1 => ?_⟩ <;> rw [he] <;> unfold branch <;> rw [checked_declared s _ hd]
  · rw [lossOfDecoupling_none s _ h2]; cases tk <;> simp [finish, jumpTo, wordsOn, instrPc, h1, aGoes, State.modA, hn, ho']
  · refine ⟨Config.freeWord s.fresh, ?_⟩
    rw [lossOfDecoupling_waits s _ h1 h2]; cases tk <;> simp [finish, jumpTo, wordsOn, instrPc, h1, aGoes, State.modA, hn, ho', waitedFor]
  · simp only [ControlIssue, Bool.and_eq_true, beq_iff_eq] at h1
    rw [lossOfDecoupling_c s _ h1.1]; cases tk <;> simp [finish, jumpTo, wordsOn, instrPc, h1.1,h1.2, cGoes, State.modC, hn, ho']

/-- Writes of the part itself change no context. -/
theorem hwWrite_ctx (s : State) (vd va : Nat) (bs : List Byte) : (hwWrite s vd va bs).ctx = s.ctx := by
  unfold hwWrite
  generalize pieces va bs.length = l
  revert s; induction l with
  | nil => intro s; rfl
  | cons p l ih =>
    intro s; rw [List.foldl_cons, ih]; split
    · unfold performRun performAt; split <;> rfl
    · rfl

/-- Writing a save area changes no context. -/
theorem writeSave_ctx (s : State) (x : Context) (r : Record) : (writeSave s x r).ctx = s.ctx := by
  unfold writeSave
  split
  · rfl
  · rename_i base _
    show (List.foldl _ (hwWrite s x.vd base (recordBytes x r)) _).ctx = _
    rw [← hwWrite_ctx s x.vd base (recordBytes x r)]
    generalize hwWrite s x.vd base (recordBytes x r) = s
    generalize layoutFrom x.decl x.det sections 0 = l
    revert s; induction l with
    | nil => intro s; rfl
    | cons p l ih => intro s; rw [List.foldl_cons, ih]; split
                     · exact hwWrite_ctx ..
                     · rfl

end Sys2Proof.Machine
end

