-- ==== Sys2Proof/Tests/Slice0.lean ====
section
/-!
SUPPORT. Tests: ill-formed instructions that WellFormed refuses; words of the spec and what they decode to; a state that meets the hypotheses of
each clause of each statement; and single steps with results from the spec's rules.
-/

set_option Elab.async false
set_option maxRecDepth 100000

namespace Sys2Proof.Tests
open Sys2Proof Sys2Proof.Machine

/-! States. -/

/-- A task at user level with everything declared, at an A-slice instruction; at a C-slice instruction; at one that transfers control. -/
def slA : State := { State.reset with ctx := fetchContext, slice := .a, live := true }
def slC : State := { slA with slice := .c }
def slCtl : State := { slC with ctx := { slC.ctx with c := { slC.ctx.c with cur := ⟨0x202000, 0x40E0C000, 0, 0⟩ } } }

/-- Changes of a state: its level, its determinism bit, an A or C register, its queues, what it holds for memory, its C-slice. -/
def sup (s : State) : State := { s with ctx := { s.ctx with sup := true } }
def det (s : State) : State := { s with ctx := { s.ctx with det := true } }
def setA (s : State) (r : Reg) (v : Word) : State := { s with ctx := { s.ctx with a := { s.ctx.a with regs := s.ctx.a.regs.set r v } } }
def setC (s : State) (r : Reg) (v : Word) : State := { s with ctx := { s.ctx with c := { s.ctx.c with regs := s.ctx.c.regs.set r v } } }
def withQ (s : State) (q : Couple) : State := { s with ctx := { s.ctx with q := q } }
def withM (s : State) (f : MemSide → MemSide) : State := { s with ctx := { s.ctx with m := f s.ctx.m } }
def withC (s : State) (f : CSide → CSide) : State := { s with ctx := { s.ctx with c := f s.ctx.c } }
def inp (s : State) (i : Input) : State := { s with input := i }
def pkgBe (s : State) (f : Pkg → Pkg) : State := { s with pkg := f s.pkg }

/-- A leaf of 1 GiB, readable and writable, of a memory type (R281, R282). -/
def leaf (mt out : Nat) : List Byte := leBytes 8 (1 + 8 * 4 + 2 ^ 9 + mt * 64 + out)

/-- A VD whose GiB k of addresses is 0 PRIV, 1 SHRD, 2 SYNC, 3 TILE, 4 DUR, 5 DEV, 6 TILE with a durable pool. -/
def world : State :=
  let s := State.reset.withFetchWord 32 0x5000
  let dur := 2 ^ 42
  let m := memSetN s.mem 0x104008 (leaf 2 0 ++ leaf 3 0 ++ leaf 1 0 ++ leaf 4 dur ++ leaf 5 (5 * 2 ^ 30) ++ leaf 1 dur)
  let m := memSetN m 0x101028 (leaf 0 0xF000000000000)
  let m := memSetN m 0x100040 (leBytes 8 0x105003)
  let m := memSetN m 0x105000 (leaf 0 dur)
  { s with
    mem := m
    parts := s.parts.map fun p => { p with fence := { p.fence with dur := #v[(0, 1), (0, 0), (0, 0), (0, 0)], cores := 0xFF, slots := 4, ports := 3 } }
    vds := s.vds.map fun v => { v with dtpool := 6 * 2 ^ 30 + 2 ^ 20, dtlen := 2 ^ 20 } }

def priv : Nat := 0x300000
def shrd : Nat := 2 ^ 30 + 0x300000
def sync : Nat := 2 ^ 31 + 0x300000
def durA : Nat := 4 * 2 ^ 30 + 2 ^ 20
def devA : Nat := 5 * 2 ^ 30

/-! Hypotheses of the statements about instructions. -/

theorem wit_ScalarOperations :
    Declared slA [.p (pqPred ⟨false, 0⟩), .g 31, .g 0, .g 5] = true ∧ Declared slC [.p (pqPred ⟨true, 7⟩), .g 31, .g 0, .g 5] = true ∧
    PlainIssue slC = true ∧ (pRead slC (pqPred ⟨true, 7⟩)).getLsbD 0 = !true ∧ (pRead slC (pqPred ⟨false, 7⟩)).getLsbD 0 = false := by decide +kernel

theorem wit_ScalarImmediates :
    Declared slA [.p (pqPred ⟨false, 0⟩), .g 31, .g 0] = true ∧ Declared slC [.p (pqPred ⟨true, 15⟩), .g 31] = true ∧
    (0 ≤ (0 : BitVec 10).toInt ∧ (63 : BitVec 32).toInt ≤ 63) ∧ (0 : Fin 64).val + (63 : Fin 64).val + 1 ≤ 64 ∧
    (63 : Fin 64).val + (0 : Fin 64).val + 1 ≤ 64 ∧ Declared slC [.p 0, .g 1, .g 2] = true := by decide +kernel

theorem wit_ControlFlow :
    Declared slA [.g 31, .g 0] = true ∧ Declared slCtl [.g 31, .g 0] = true ∧ ControlIssue slCtl = true ∧
    [(31 : Reg), 0].all (fun r => !slA.ctx.a.fromYq[r]) = true ∧
    (let s := { slA with ctx := { slA.ctx with a := { slA.ctx.a with fromYq := slA.ctx.a.fromYq.set 31 true } } }
     s.slice = .a ∧ [(31 : Reg), 0].any (fun r => s.ctx.a.fromYq[r]) = true) := by decide +kernel

theorem wit_SystemRegisters :
    (∀ s ∈ [slA, slC, sup slA, sup slC], Declared s [.g 31] = true) ∧ (sup slA).slice = .a ∧ (sup slA).ctx.sup = true ∧
    PlainIssue (sup slC) = true ∧ some Slice.c = some slC.slice := by decide +kernel

theorem wit_VflgWriteClears : Declared slC [.g 0] = true ∧ PlainIssue slC = true := by decide +kernel

/-- The same with five registers declared. -/
def fewRegs (s : State) : State := { s with ctx := { s.ctx with decl := { s.ctx.decl with nareg := 5, ncreg := 5 } } }

theorem wit_SystemFaults :
    ((7 : BitVec 12).toNat ∉ [0, 1, 2, 3, 4, 5, 6, 8, 9, 0x10, 0x11] ∧ (0xFFF : BitVec 12).toNat ∉ [0, 1, 2, 3, 4, 5, 6, 8, 9, 0x10, 0x11]) ∧
    slC.slice = .c ∧ slA.slice = .a ∧ slA.ctx.sup = false ∧ slC.ctx.sup = false ∧ (0x11 : BitVec 12).toNat ∈ [4, 8, 0x10, 0x11] ∧
    (⟨false, 1⟩ : Pq) ≠ ⟨false, 0⟩ ∧ Declared (fewRegs slA) [.p (pqPred ⟨false, 0⟩), .g 5, .g 1, .g 1] = false ∧ Declared (fewRegs slA) [.g 1, .g 5] = false := by
  decide

/-- A task at user level with its context. -/
def task1 : Task := { newTask 0 0 (Vector.replicate 16 0) [] 0 0 none with uid := 1, state := .running, core := some 0 }
def busy : State :=
  { world with
    tasks := [task1], nextUid := 2
    cores := world.cores.map fun c => if c.num = 0 then { c with active := some 1 } else c }
def busyC : State := { busy with slice := .c }

theorem wit_FaultsStop :
    AFaults slA = true ∧ CFaults slC = true ∧ classF .illegal = false ∧
    (sup busy).ctx.sup = true ∧ isAlive (sup busy) (handledCtx (sup busy)).uid = true := by decide +kernel

theorem wit_TrapsAndDone :
    AFaults slA = true ∧ slC.ctx.sup = false ∧ EarlierIssued slC = true ∧ (sup slA).ctx.sup = true ∧ PlainIssue slC = true := by decide +kernel

def xqEntry : AEntry := ⟨4, 9, 0, false, true⟩
theorem wit_CouplingQueues :
    Declared slA [.g 31] = true ∧ PushReady slA 4 = true ∧
    PushReady (withQ slA { Couple.reset with toC := List.replicate 32 xqEntry }) 4 = false ∧
    PushReady (withQ slA { Couple.reset with toC := List.replicate 31 xqEntry }) 4 = true ∧
    PlainIssue slC = true ∧ Declared slC [.g 0] = true ∧ (List.replicate 31 (⟨0, 0, 0⟩ : YEntry)).length < 32 ∧
    (let s := withQ slA { Couple.reset with yq := [⟨7, 0, 1⟩] }
     ∃ e l, s.ctx.q.yq = e :: l ∧ e.readyAt ≤ s.ctx.c.cc) ∧ slA.ctx.q.yq = [] ∧
    (let s := withQ slA { Couple.reset with yq := [⟨7, 1, 1⟩] }
     ∃ e l, s.ctx.q.yq = e :: l ∧ s.ctx.c.cc < e.readyAt) ∧
    (let s := withQ slC { Couple.reset with toC := [⟨0, 0, 0, false, true⟩, xqEntry] }
     (s.ctx.q.toC.find? fun x => x.queue == 4) = some xqEntry ∧ xqEntry.poison = false ∧ xqEntry.ready = true) ∧
    (slC.slice = .c ∧ 32 ≤ (List.replicate 32 (⟨0, 0, 0⟩ : YEntry)).length ∧ (slC.ctx.q.toC.find? fun x => x.queue == 4) = none) ∧
    (∀ e ∈ [{ xqEntry with poison := true }, { xqEntry with ready := false }], let s := withQ slC { Couple.reset with toC := [e] }
     (s.ctx.q.toC.find? fun x => x.queue == 4) = some e ∧ (e.poison = true ∨ e.ready = false)) := by
  refine ⟨?_, ?_, ?_, ?_, ?_, ?_, ?_, ⟨_, _, rfl, ?_⟩, ?_, ⟨_, _, rfl, ?_⟩, ?_, ?_, ?_⟩ <;> decide +kernel

theorem wit_SpillSlotsAndBarriers :
    PlainIssue slC = true ∧ Declared slC [.g 31, .k 255] = true ∧ Declared slA [.bar 7, .g 31] = true ∧
    0 < ((withM slA fun m => { m with bars := m.bars.set 7 1 }).ctx.m.bars[7]).toInt ∧ (slA.ctx.m.bars[7]).toInt ≤ 0 := by decide +kernel

/-- A stream of 64 bytes at offset 0: elements of FP32, one loop point of each level (R145). -/
def oneBlock : Desc := { Desc.zero with etype := 5, blen := 64, loops := Vector.replicate 6 ⟨1, 0⟩ }
def withShadow (s : State) (n : Fin 16) (d : Desc) : State :=
  withM s fun m => { m with streams := m.streams.set n { m.streams[n] with shadow := d } }

theorem wit_Streams :
    Declared slA [.strm 15, .g 31] = true ∧ Declared slA [.strm 15] = true ∧
    (let s := withShadow slA 15 oneBlock
     s.ctx.m.streams[15].shadow.bad s.ctx.decl.spad = false ∧ s.ctx.m.streams[15].armed.length ≤ s.ctx.decl.slipl) ∧
    slA.ctx.m.streams[15].shadow.bad slA.ctx.decl.spad = true := by decide +kernel

theorem wit_ScalarLoadsAndStores :
    (let s := setA world 5 (BitVec.ofNat 64 priv)
     Declared s [.g 31, .g 5] = true ∧ s.slice = .a ∧ (logStuck s = false ∧ ∀ ps bs, logStuck s = false → logFlt s ps bs = false) ∧
     (∀ n ∈ [(1, AKind.load), (2, .load), (4, .devLoad), (8, .devLoad)],
       Reads s n.2 (addressOf s 5 (-8)) n.1 n.1 [(⟨priv - 8, priv - 8, .priv, 1569, none⟩, n.1)] ∧ devPlace s (addressOf s 5 (-8)) n.1 n.2 = none) ∧
     (∀ n ∈ [(1, AKind.store), (2, .store), (4, .devStore), (8, .devStore)],
       checkAccess s n.2 (addressOf s 5 8) n.1 [((addressOf s 5 8).toNat, n.1)] = .ok [(⟨priv + 8, priv + 8, .priv, 1569, none⟩, n.1)] ∧
       AllHere s [(⟨priv + 8, priv + 8, .priv, 1569, none⟩, n.1)] [((addressOf s 5 8).toNat, n.1)] ∧
       devPlace s (addressOf s 5 8) n.1 n.2 = none)) := by
  refine ⟨?_, ?_, ⟨?_, fun ps bs h => by unfold logFlt; rw [h]; rfl⟩, ?_, ?_⟩
  · decide +kernel
  · decide +kernel
  · decide +kernel
  · unfold Reads AllHere; decide +kernel
  · unfold AllHere; decide +kernel

/-- The one place of a store by its type. -/
def placeOf (s : State) (k : AKind) (va n : Nat) : Option Place :=
  match checkAccess s k (BitVec.ofNat 64 va) 1 [(va, n)] with
  | .ok [(p, _)] => some p
  | _ => none

theorem wit_StoreChangesItsBytes :
    Memory.wf world.mem = true ∧ [(7 : Byte)] ≠ [] ∧ ((placeOf world .store priv 1).any fun p => p.mt == .priv) = true ∧
    ((placeOf world .store shrd 1).any fun p => p.mt == .shrd && p.obj == none) = true ∧
    (((placeOf world .store durA 1).any fun p => p.mt == .dur && isDur p.pa) = true ∧ isDur priv = false ∧ world.ctx.rebuild = false ∧
      ({ world with ctx := { world.ctx with rebuild := true } } : State).ctx.rebuild = true) ∧
    (∀ (p : Place) (va : Nat), p.obj = some sync → boundTo world { p with va := va } va = some (canonVa world world.ctx.vd sync)) ∧
    ∀ (p : Place) (va : Nat), p.obj = none → boundTo world { p with va := va } va = none := by
  refine ⟨?_, ?_, ?_, ?_, ?_, ?_, ?_⟩
  · decide +kernel
  · decide
  · decide +kernel
  · decide +kernel
  · decide +kernel
  · intro p va h
    have hb : world.ctx.m.bindings = [] := by decide +kernel
    unfold boundTo; rw [hb]; simp [h]
  · intro p va h
    have hb : world.ctx.m.bindings = [] := by decide +kernel
    unfold boundTo; rw [hb]; simp [h]

/-- No page is left for a commit log of the VD. -/
def noLogs : State := { world with vds := world.vds.map fun v => { v with noLog := true } }

theorem wit_AddressFaults :
    (let s := setA slA 5 (2 ^ 56); Declared s [.g 1, .g 5] = true ∧ 2 ^ 56 ≤ (addressOf s 5 0).toNat) ∧
    (let s := setA slA 5 (2 ^ 55 - 9); (addressOf s 5 0).toNat + 8 ≤ 2 ^ 55 ∧ (addressOf s 5 0).toNat % 2 ≠ 0 ∧
      (addressOf s 5 0).toNat % 4 ≠ 0 ∧ (addressOf s 5 0).toNat % 8 ≠ 0) ∧
    (let s := setA noLogs 5 (BitVec.ofNat 64 shrd)
     Declared s [.g 1, .g 5] = true ∧ (addressOf s 5 0).toNat < 2 ^ 55 ∧ (s.vd? s.ctx.vd).any Vd.noLog = true ∧
     (match checkAccess s .store (addressOf s 5 0) 1 [((addressOf s 5 0).toNat, 1)] with
      | .ok [(p, n)] => p.mt == .shrd && n == 1 && boundTo s p p.va == none && s.ctx.m.answers.isEmpty && slA.ctx.m.answers.isEmpty &&
          objectToAsk s (.ok [(p, 1)]) [((addressOf s 5 0).toNat, 1)] == none
      | _ => false) = true) := by decide +kernel

/-- With no active byte a vector store accesses nothing (R144). -/
theorem test_noActiveBytes (v : Vec) : activeRanges priv ((vecBytes v).mapIdx fun j b => (b, (0 : Pred).getLsbD j)) = [] := by
  unfold activeRanges; rw [List.filterMap_eq_nil_iff]; intro p _
  have : ((((vecBytes v).mapIdx fun j b => (b, (0 : Pred).getLsbD j)).drop (p.1 - priv)).take p.2).findIdx? (·.2) = none := by
    rw [List.findIdx?_eq_none_iff]; intro x hx
    have h := List.mem_of_mem_drop (List.mem_of_mem_take hx)
    rw [List.mem_mapIdx] at h; obtain ⟨i, _, rfl⟩ := h; simp
  simp only [this]

/-- With byte 0 alone active it accesses that byte (R144). -/
theorem test_firstByteActive : activeRanges priv ((vecBytes 5).mapIdx fun j b => (b, (1 : Pred).getLsbD j)) = [(priv, 1)] := by
  rw [List.mapIdx_eq_zipIdx_map]; decide +kernel

theorem wit_QueueLoadsAndStores :
    (let s := setA world 5 (BitVec.ofNat 64 priv)
     Declared s [.g 5] = true ∧ PushReady s 0 = true ∧ PushReady s 4 = true ∧
     Reads s .load (addressOf s 5 0) 1 512 [(⟨priv, priv, .priv, 1569, none⟩, 512)] ∧
     Reads s .load (addressOf s 5 8) 8 8 [(⟨priv + 8, priv + 8, .priv, 1569, none⟩, 8)] ∧
     checkAccess s .load (addressOf s 5 1) 8 (pieces (addressOf s 5 1).toNat 8) = .flt .misaligned (priv + 1)) ∧
    (let s := withQ (setA world 5 (BitVec.ofNat 64 priv)) { Couple.reset with sq := #v[[⟨1, 0, 0, 1⟩], [⟨5, 1, 0, 2⟩]], yq := [⟨7, 0, 1⟩] }
     s.ctx.q.sq[(0 : Fin 2)] = [⟨1, 0, 0, 1⟩] ∧ s.ctx.q.sq[(1 : Fin 2)] = [⟨5, 1, 0, 2⟩] ∧ s.ctx.q.yq = [⟨7, 0, 1⟩] ∧
     checkAccess s .store (addressOf s 5 0) 1 [(priv, 1)] = .ok [(⟨priv, priv, .priv, 1569, none⟩, 1)] ∧
     checkAccess s .store (addressOf s 5 0) 8 [((addressOf s 5 0).toNat, 8)] = .ok [(⟨priv, priv, .priv, 1569, none⟩, 8)] ∧
     AllHere s [(⟨priv, priv, .priv, 1569, none⟩, 1)] [(priv, 1)] ∧ AllHere s [(⟨priv, priv, .priv, 1569, none⟩, 8)] [((addressOf s 5 0).toNat, 8)]) ∧
    slA.ctx.q.sq[(1 : Fin 2)] = [] ∧ slA.ctx.q.yq = [] ∧ logStuck world = false ∧
    PushReady (withQ slA { Couple.reset with toC := List.replicate 16 { xqEntry with queue := 0 } }) 0 = false ∧
    (∀ q : Fin 2, (withQ slA { Couple.reset with sq := #v[[⟨1, 0, 1, 1⟩], [⟨5, 1, 1, 2⟩]] }).ctx.q.sq[q].any (fun e => 0 < e.readyAt) = true) ∧
    world.ctx.m.answers = [] := by
  unfold Reads AllHere; decide +kernel

theorem wit_AtomicOperations :
    (let s := setA world 5 (BitVec.ofNat 64 sync)
     Declared s [.g 1, .g 5, .g 2] = true ∧ (placeOf s .amo sync 8).isSome = true ∧
     (∀ n ∈ [4, 8], checkAccess s .amo (gRead s 5) n [((gRead s 5).toNat, n)] = .ok [(⟨sync, priv, .sync, 737, none⟩, n)])) ∧
    (det slA).ctx.det = true ∧ (0 : Reg) = 0 ∧
    (let s := setA { world with ctx := { world.ctx with rebuild := true } } 5 (BitVec.ofNat 64 sync)
     s.ctx.rebuild = true ∧ checkAccess s .amo (gRead s 5) 4 [((gRead s 5).toNat, 4)] = .ok [(⟨sync, priv, .sync, 737, none⟩, 4)]) ∧
    (∀ x ∈ [(world, false), (noLogs, true)], let s := setA x.1 5 (BitVec.ofNat 64 shrd)
     logStuck s = x.2 ∧ checkAccess s .damo (gRead s 5) 8 [((gRead s 5).toNat, 8)] = .ok [(⟨shrd, priv, .shrd, 673, none⟩, 8)]) := by decide +kernel

/-! DEV registers, wherever the part lays their blocks (log 4). -/

/-- The same with partition p and a VD v of it, at supervisor level, and with a copy in flight or none. -/
def devWorld (b : Bool) (p v : Nat) : State :=
  { world with
    parts := { Partition.new p with fence := { Fence.none with pch := BitVec.allOnes 768, s2root := 0x100000 } } :: []
    vds := { Vd.new v p with s1root := 0x102000 } :: []
    ctx := { world.ctx with
      vd := v, sup := true
      a := { world.ctx.a with regs := world.ctx.a.regs.set 5 (BitVec.ofNat 64 devA) }
      m := { world.ctx.m with slots := if b then world.ctx.m.slots.set 9 { Slot.free with state := .active } else world.ctx.m.slots } }
    live := true }

def devPa : Nat := 0xF000000000000

/-- The entries of the page at both stages. -/
def devLeaf1 : Nat := 5368709985
def devLeaf2 : Nat := 4222124650660385

theorem devWorld_vd (b : Bool) (p v : Nat) : (devWorld b p v).vd? v = some { Vd.new v p with s1root := 0x102000 } := by
  simp [State.vd?, devWorld, Vd.new]

theorem devWorld_part (b : Bool) (p v : Nat) :
    (devWorld b p v).part? p = some { Partition.new p with fence := { Fence.none with pch := BitVec.allOnes 768, s2root := 0x100000 } } := by
  simp [State.part?, devWorld, Partition.new]

/-- A walk of stage 2 whose tables all lie in the first channel. -/
def memWalk (m : Memory) (ipa : Nat) : Nat → Nat → Option Page
  | level, table =>
    if target (entryAddr table level ipa) != .hbm 0 0 then none else
    let e := memWord m (entryAddr table level ipa) 8
    if e % 2 = 0 then none else match readEntry false level ipa e with
      | some (.inr g) => some g
      | some (.inl t) => match level with
        | 0 => none
        | l + 1 => memWalk m ipa l t
      | none => none

theorem memWalk_ok {s : State} {p : Partition} {ipa : Nat} (h : ∀ pa, target pa = .hbm 0 0 → tableFlt s p pa = none) :
    ∀ {l table g}, memWalk s.mem ipa l table = some g → walk2 s p ipa l table = .ok g
  | 0, table, g, w => by
    unfold memWalk at w; unfold walk2
    by_cases ht : target (entryAddr table 0 ipa) = .hbm 0 0
    · simp only [h _ ht]
      simp only [ht, bne_self_eq_false, Bool.false_eq_true, if_false] at w
      split at w
      · cases w
      · rename_i e; simp only [e, if_false]
        split at w <;> simp_all
    · simp [ht] at w
  | l + 1, table, g, w => by
    unfold memWalk at w; unfold walk2
    by_cases ht : target (entryAddr table (l + 1) ipa) = .hbm 0 0
    · simp only [h _ ht]
      simp only [ht, bne_self_eq_false, Bool.false_eq_true, if_false] at w
      split at w
      · cases w
      · rename_i e; simp only [e, if_false]
        split at w <;> simp_all [memWalk_ok h]
    · simp [ht] at w

/-- The fence of the partition. -/
def devFence : Fence := { Fence.none with pch := BitVec.allOnes 768, s2root := 0x100000 }
def devPart (p : Nat) : Partition := { Partition.new p with fence := devFence }

theorem devTables (b : Bool) (p v pa : Nat) (h : target pa = .hbm 0 0) : tableFlt (devWorld b p v) (devPart p) pa = none := by
  unfold tableFlt inFences retiredPa inRecal
  rw [h]
  exact (by decide +kernel : (if !(world.pkg.phase == .full && devFence.pch.getLsbD (64 * 0 + 0)) ||
      (world.pkg.hret.getLsbD 0 || world.pkg.pchOut.any fun r => r == (0, 0)) then some 4
    else if (world.pkg.recal.any fun r => r == (0, 0)) then some 5 else none : Option Nat) = none)

theorem devTable (b : Bool) (p v ipa : Nat) (h : (match memWalk world.mem ipa 3 0x100000 with
    | some g => g.out == ipa && (target ipa == .hbm 0 0)
    | _ => false) = true) : stage2 (devWorld b p v) (devPart p) ipa false false = .ok ipa := by
  unfold stage2
  rw [show (devPart p).fence.s2root = 0x100000 from rfl]
  split at h
  · rename_i g hg
    simp only [Bool.and_eq_true, beq_iff_eq] at h
    rw [memWalk_ok (s := devWorld b p v) (devTables b p v) hg]
    have hf : inFences (devWorld b p v) (devPart p) ipa = true := by
      unfold inFences; rw [h.2]; exact (by decide +kernel : (world.pkg.phase == .full && devFence.pch.getLsbD (64 * 0 + 0)) = true)
    have hr : inRecal (devWorld b p v) ipa = false := by
      unfold inRecal; rw [h.2]; exact (by decide +kernel : (world.pkg.recal.any fun r => r == (0, 0)) = false)
    simp [h.1, hf, hr]
  · cases h

theorem walk1_table {s : State} {p : Partition} {va l table pa e t : Nat} (h : stage2 s p (entryAddr table (l + 1) va) false false = .ok pa)
    (g : retiredPa s pa = false) (m : memWord s.mem pa 8 = e) (v : e % 2 ≠ 0) (r : readEntry true (l + 1) va e = some (.inl t)) : walk1 s p va (l + 1) table = walk1 s p va l t := by
  rw [walk1]; simp only [h, g, m, v, r, if_false, Bool.false_eq_true]

theorem walk1_leaf {s : State} {p : Partition} {va l table pa e : Nat} {g : Page} (h : stage2 s p (entryAddr table l va) false false = .ok pa)
    (n : retiredPa s pa = false) (m : memWord s.mem pa 8 = e) (v : e % 2 ≠ 0) (r : readEntry true l va e = some (.inr g)) : walk1 s p va l table = .ok g := by
  rw [walk1.eq_def]; simp only [h, n, m, v, r, if_false, Bool.false_eq_true]

theorem devTable2 (b : Bool) (p v : Nat) : stage2 (devWorld b p v) (devPart p) (entryAddr 0x104000 2 devA) false false = .ok 0x104028 := by
  have e : entryAddr 0x104000 2 devA = 0x104028 := by decide +kernel
  rw [e]; exact devTable b p v _ (by decide +kernel)

theorem devWalk (b : Bool) (p v : Nat) : walk1 (devWorld b p v) (devPart p) devA 4 0x102000 = .ok ⟨devA, 2 ^ 30, devLeaf1⟩ := by
  have m1 : memWord (devWorld b p v).mem 0x102000 8 = 0x103003 := (by decide +kernel : memWord world.mem 0x102000 8 = 0x103003)
  have m2 : memWord (devWorld b p v).mem 0x103000 8 = 0x104003 := (by decide +kernel : memWord world.mem 0x103000 8 = 0x104003)
  have m3 : memWord (devWorld b p v).mem 0x104028 8 = devLeaf1 := (by decide +kernel : memWord world.mem 0x104028 8 = devLeaf1)
  have g : ∀ pa, retiredPa (devWorld b p v) pa = retiredPa world pa := fun _ => rfl
  exact (walk1_table (l := 3) (devTable b p v 0x102000 (by decide +kernel)) (by rw [g]; decide +kernel) m1 (by decide) (t := 0x103000)
      (by decide +kernel)).trans
    ((walk1_table (l := 2) (devTable b p v 0x103000 (by decide +kernel)) (by rw [g]; decide +kernel) m2 (by decide) (t := 0x104000)
      (by decide +kernel)).trans
      (walk1_leaf (devTable2 b p v) (by rw [g]; decide +kernel) m3 (by decide) (by decide +kernel)))

theorem stage2_ok {s : State} {p : Partition} {ipa : Nat} {w : Bool} {g : Page} (h : walk2 s p ipa 3 p.fence.s2root = .ok g) (b : bits g.entry 9 9 = 1)
    (f : inFences s p g.out = true) (r : inRecal s g.out = false) : stage2 s p ipa w false = .ok g.out := by
  unfold stage2; rw [h]; simp [b, f, r]

theorem devRoot : memWalk world.mem devA 3 0x100000 = some ⟨devPa, 2 ^ 30, devLeaf2⟩ := by decide +kernel

theorem devRecal (b : Bool) (p v : Nat) : inRecal (devWorld b p v) devPa = false := by
  have h : target devPa = .dev := by decide +kernel
  unfold inRecal; rw [h]

theorem devStage2 (b : Bool) (p v : Nat) (w : Bool) (h : inFences (devWorld b p v) (devPart p) devPa = true) :
    stage2 (devWorld b p v) (devPart p) devA w false = .ok devPa := by
  have e : walk2 (devWorld b p v) (devPart p) devA 3 (devPart p).fence.s2root = .ok ⟨devPa, 2 ^ 30, devLeaf2⟩ :=
    memWalk_ok (s := devWorld b p v) (devTables b p v) devRoot
  exact stage2_ok e (by decide +kernel) h (devRecal b p v)

def devVd (p v : Nat) : Vd := { Vd.new v p with s1root := 0x102000 }
def devFound (p v : Nat) : Found := ⟨devA, devA, devPart p, devVd p v, devA, .dev, devLeaf1⟩

theorem findPage_ok {s : State} {vd va n : Nat} {v : Vd} {p : Partition} {g : Page} {mt : MemType} (hv : s.vd? vd = some v) (hn : v.part = n)
    (hp : s.part? n = some p) (hh : homeOf s vd va = none) (hw : walk1 s p (localVa va) 4 v.s1root = .ok g) (hm : memType (bits g.entry 8 6) = some mt) :
    findPage s vd va = .ok ⟨va, localVa va, p, v, g.out, mt, g.entry⟩ := by
  unfold findPage; simp only [hv, hn, hp, hh, hw, hm]

theorem devHome (b : Bool) (p v : Nat) : homeOf (devWorld b p v) v devA = none := by
  have h : bits devA 55 55 = 0 := by decide +kernel
  unfold homeOf; simp [h]

theorem devLocal : localVa devA = devA := by decide +kernel

theorem devFind (b : Bool) (p v : Nat) : findPage (devWorld b p v) v devA = .ok (devFound p v) := by
  have h := findPage_ok (devWorld_vd b p v) rfl (devWorld_part b p v) (devHome b p v) (by rw [devLocal]; exact devWalk b p v) (mt := .dev) (by decide +kernel)
  rw [devLocal] at h; exact h

theorem placePage_ok {s : State} {k : AKind} {f : Found} {pa : Nat} (ht : typeFlt k true f.mt = none) (hs : stage2 s f.part f.ipa k.writes (k == .fetch) = .ok pa)
    (ho : targetOk f.dev f.lva f.mt pa = true) : placePage s k true f = .ok ⟨f.lva, pa, f.mt, f.entry, pageObject s f.dev f.mt f.entry⟩ := by
  unfold placePage; simp only [ht, hs, ho, if_true]

theorem devPlacePage (b : Bool) (p v : Nat) (k : AKind) (hk : k = .devLoad ∨ k = .devStore) (h : inFences (devWorld b p v) (devPart p) devPa = true) :
    placePage (devWorld b p v) k true (devFound p v) = .ok ⟨devA, devPa, .dev, devLeaf1, none⟩ := by
  have hf : (k == .fetch) = false := by rcases hk with rfl | rfl <;> rfl
  have ho : pageObject (devWorld b p v) (devVd p v) .dev devLeaf1 = none := by unfold pageObject; rfl
  rw [← ho]
  refine placePage_ok (f := devFound p v) ?_ (by rw [hf]; exact devStage2 b p v k.writes h) ?_
  · rcases hk with rfl | rfl <;> rfl
  · have ht : target devPa = .dev := by decide +kernel
    unfold targetOk; rw [ht]; rfl

theorem devPlace_ok (b : Bool) (p v n : Nat) (k : AKind) (hk : k = .devLoad ∨ k = .devStore) (hn : n = 4 ∨ n = 8)
    (h : inFences (devWorld b p v) (devPart p) devPa = true) : devPlace (devWorld b p v) (BitVec.ofNat 64 devA) n k = some devPa := by
  have ha : (BitVec.ofNat 64 devA).toNat = devA := by decide +kernel
  have hr : rightsBad (devWorld b p v) k true (devFound p v) = false := by
    have h9 : bits devLeaf1 9 9 = 1 := by decide +kernel
    have hf : (k == .fetch) = false := by rcases hk with rfl | rfl <;> rfl
    have hm : (MemType.dev == MemType.dur) = false := rfl
    unfold rightsBad; simp [devFound, h9, hf, hm]
  have hs : soixBad (devWorld b p v) v ⟨devA, devPa, .dev, devLeaf1, none⟩ = false := by unfold soixBad; rfl
  have hp : checkPieces (devWorld b p v) (accessor (devWorld b p v) k) k [(devA, n)] = .ok [(⟨devA, devPa, .dev, devLeaf1, none⟩, n)] := by
    have e : accessor (devWorld b p v) k = ⟨v, true, extentOk (devWorld b p v).ctx.m k.stores⟩ := rfl
    have ht : (MemType.dev == MemType.tile) = false := rfl
    unfold checkPieces
    simp only [e, findPages, devFind, checkTypes, checkType, devPlacePage b p v k hk h, ht, hs, Bool.false_and, List.find?, hr, if_false, Bool.false_eq_true]
  have hb : accessBad (devWorld b p v) k (⟨devA, devPa, .dev, devLeaf1, none⟩, n) = false := by
    have e : ∀ x, accessBad (devWorld b p v) k x = accessBad world k x := fun _ => rfl
    rw [e]; rcases hk with rfl | rfl <;> rcases hn with rfl | rfl <;> decide +kernel
  have hg : homeBad (devWorld b p v) v devA = false := by unfold homeBad; rw [devHome]
  have hv : (devWorld b p v).ctx.vd = v := rfl
  have hc : checkAccess (devWorld b p v) k (BitVec.ofNat 64 devA) n [(devA, n)] = .ok [(⟨devA, devPa, .dev, devLeaf1, none⟩, n)] := by
    have h0 : (List.any [(devA, n)] fun r => decide (r.1 + r.2 > 2 ^ 56)) = false := by rcases hn with rfl | rfl <;> decide +kernel
    have h1 : devA % n = 0 := by rcases hn with rfl | rfl <;> decide +kernel
    have hl : decide (devA ≥ 2 ^ 56) = false := by decide +kernel
    unfold checkAccess; dsimp only
    have hw : (List.any [(devA, n)] fun r => protectedHit (devWorld b p v) r.1 r.2) = false := by
      have e : ∀ va len, protectedHit (devWorld b p v) va len = false := fun _ _ => by unfold protectedHit; rfl
      simp [e]
    rw [ha, hv, hg, hp, h0, h1, hl]; simp only [List.find?, hb, hw, ne_eq, not_true, Bool.or_self, Bool.false_eq_true, if_false,
      Bool.and_false]
  unfold devPlace; rw [ha, hc]; rfl

theorem devOwned : ∃ p v, ∀ b, inFences (devWorld b p v) (devPart p) devPa = true := by
  have ht : target devPa = .dev := by decide +kernel
  have hn : ∀ p, (devPart p).num = p := fun _ => rfl
  unfold inFences; rw [ht]; simp only [hn]
  cases Config.devBlock (devPa / 4096) with
  | none => exact ⟨0, 0, fun _ => rfl⟩
  | fence q => exact ⟨0, 0, fun _ => rfl⟩
  | xlate q => exact ⟨q, 0, fun _ => by simp [devOwner]⟩
  | sched q => exact ⟨q, 0, fun _ => by simp [devOwner]⟩
  | mgmt q => exact ⟨q, 0, fun _ => by simp [devOwner]⟩
  | vdCtl q => exact ⟨0, q, fun b => by simp [devOwner, devWorld_vd, Vd.new]⟩

theorem wit_DeviceAccess : ∃ s : Bool → State, Settled (s false) = true ∧ NoCopies (s true) = false ∧
    ∀ b, (s b).slice = .a ∧ Declared (s b) [.g 1, .g 5] = true ∧
      ∀ n ∈ [4, 8], ∀ k ∈ [AKind.devLoad, .devStore], devPlace (s b) (addressOf (s b) 5 0) n k = some devPa := by
  obtain ⟨p, v, h⟩ := devOwned
  refine ⟨fun b => devWorld b p v, (by decide +kernel : Settled (devWorld false 0 0) = true), (by decide +kernel : NoCopies (devWorld true 0 0) = false),
    fun b => ⟨rfl, (by cases b <;> decide +kernel : Declared (devWorld b 0 0) [.g 1, .g 5] = true), fun n hn k hk => ?_⟩⟩
  have ha : addressOf (devWorld b p v) 5 0 = BitVec.ofNat 64 devA :=
    (by cases b <;> decide +kernel : addressOf (devWorld b 0 0) 5 0 = BitVec.ofNat 64 devA)
  rw [ha]
  exact devPlace_ok b p v n k (by simpa using hk) (by simpa using hn) (h b)
/-- Three operand registers of a copy. -/
def abc (s : State) (d a b : Nat) : State := setA (setA (setA s 1 (BitVec.ofNat 64 d)) 2 (BitVec.ofNat 64 a)) 3 (BitVec.ofNat 64 b)
def slotBe (s : State) (i : Fin 48) (c : Slot) : State := withM s fun m => { m with slots := m.slots.set i c }
def okCopy (s : State) (k : Fin 8) : Bool :=
  let gd := gRead s 1
  let ga := gRead s 2
  let gb := gRead s 3
  rangesFlt s (issueRanges k gd ga gb) == none && copyOk s.ctx.decl.spad k gd ga gb && CheckerFree s 47 (copyExtents s.ctx.decl.spad k gd ga gb)

theorem wit_CopiesAndChains :
    Declared slA [.g 1, .g 2, .g 3, .bar 7] = true ∧ slA.ctx.m.slots[(47 : Fin 48)].state = .free ∧
    (slotBe slA 47 { Slot.free with state := .active }).ctx.m.slots[(47 : Fin 48)].state ≠ .free ∧
    okCopy (abc slA 0 priv 1) 0 = true ∧ okCopy (abc slA priv 0 (2 ^ 24)) 1 = false ∧ okCopy (abc slA priv 0 512) 1 = true ∧
    okCopy (abc slA 0 priv (2 ^ 32 * 64 + 2 ^ 16 * 2 + 64)) 2 = true ∧ okCopy (abc slA priv 0 (2 ^ 32 * 64 + 2 ^ 16 * 2 + 64)) 3 = true ∧
    okCopy (abc slA 0 priv 4096) 4 = true ∧ okCopy (abc slA 0 priv (2 ^ 20)) 5 = true ∧
    (∀ k ∈ [(0 : Fin 8), 1, 2, 3, 4, 5], let s := abc slA 0 0 0
      rangesFlt s (issueRanges k (gRead s 1) (gRead s 2) (gRead s 3)) = none ∧ copyOk s.ctx.decl.spad k (gRead s 1) (gRead s 2) (gRead s 3) = false) ∧
    (∀ x ∈ [(priv, true), (priv + 8, false)], let s := abc slA 0 x.1 0
      rangesFlt s [(gRead s 2, 64)] = none ∧ decide ((gRead s 2).toNat % 64 = 0) = x.2) ∧
    (let s := abc slA 0 (priv + 8) 4096
     rangesFlt s (issueRanges 4 (gRead s 1) (gRead s 2) (gRead s 3)) = none ∧ (gRead s 2).toNat % 16 ≠ 0) ∧
    (let s := slotBe slA 0 { Slot.free with state := .linked }
     s.ctx.m.slots[(0 : Fin 48)].state = .linked ∧ CheckerFree s 0 (chainExtents s.ctx.decl.spad) = true) := by decide +kernel

theorem wit_SyncAndBind :
    (let s := setA world 5 (BitVec.ofNat 64 sync)
     checkAccess s .load (gRead s 5) 8 [((gRead s 5).toNat, 8)] = .ok [(⟨sync, priv, .sync, 737, none⟩, 8)] ∧
     checkAccess s .amo (gRead s 5) 8 [((gRead s 5).toNat, 8)] = .ok [(⟨sync, priv, .sync, 737, none⟩, 8)] ∧
     s.ctx.rebuild = false ∧ ({ s.ctx with rebuild := true }).rebuild = true ∧ canonVa s s.ctx.vd (gRead s 5).toNat = sync ∧
     (s.ctx.m.slots.toList.any fun c => copyBound s sync c) = false ∧ s.ctx.m.asks = 0 ∧
     (let t := slotBe s 0 { Slot.free with state := .active, kind := 6, chain := true, binds := [⟨shrd, 64, sync⟩] }
      t.ctx.m.slots.toList.any (fun c => copyBound t sync c) = true) ∧
     (∀ l ∈ [[], [(⟨3, sync, [(priv + 64, 9)]⟩ : HeldStore)]], let t := withM s fun m => { m with held := l }
      (t.ctx.m.held.filter fun h => h.obj == sync) = l ∧ allHere l)) ∧
    (let s := abc world sync shrd 4096
     Declared s [.g 1, .g 2, .g 3] = true ∧ s.ctx.m.bindings.length < 16 ∧ gRead s 2 ≠ 0 ∧ (gRead s 2).toNat % 64 = 0 ∧ (gRead s 3).toNat % 64 = 0 ∧
     (gRead s 1).toNat % 8 = 0 ∧ (gRead s 2).toNat + (gRead s 3).toNat ≤ 2 ^ 55 ∧
     (gRead s 1).toNat + 8 ≤ 2 ^ 55 ∧ (gRead s 3).toNat ≠ 0 ∧
     (typedPages s .shrd shrd 4096).toOption.isSome = true ∧ (typedPages s .sync sync 8).toOption.isSome = true) ∧
    (let s := withM (abc world sync shrd 64) fun m => { m with bindings := (List.range 16).map fun i => ⟨64 * i, 64, sync⟩ }
     16 ≤ (s.ctx.m.bindings.filter fun x => !(x.base < shrd + 64 && shrd < x.base + x.len)).length) := by
  unfold allHere; decide +kernel

def gang1 : Gang :=
  ⟨0, 0, 0, 1, 0, .running, [⟨0, 1, 0, false, false, false, [], some (0, false)⟩], 0, 0, false, [], [], 0, 0, [], [], false, false, 0, []⟩
def gangBar (dbars : Nat) : Gang := { gang1 with members := [⟨0, 1, dbars, true, false, false, [], some (0, false)⟩] }

theorem wit_FencesAndFlush :
    Settled slA = true ∧ NoCopies slA = true ∧ slA.ctx.m.asks = 0 ∧ allHere slA.ctx.m.held ∧ allHere [⟨3, sync, [(priv + 64, 9)]⟩] ∧ NoCopies (slotBe slA 9 { Slot.free with state := .active }) = false ∧
    slA.durPend.any (fun d => d.uid == slA.ctx.uid) = false ∧
    ({ slA with durPend := [⟨1, 0, []⟩] } : State).durPend.any (fun d => d.uid == slA.ctx.uid) = true ∧
    slA.durAway.any (fun d => d.uid == slA.ctx.uid) = false ∧
    ({ slA with durAway := [⟨1, 0, 7, 0, false⟩] } : State).durAway.any (fun d => d.uid == slA.ctx.uid) = true ∧
    (gangOf { slA with gangs := [gang1] } 1).any (fun g => (g.members.find? fun m => m.uid == 1).any fun m => m.atBar == false) = true ∧
    Declared slA [.g 5, .g 6] = true ∧ gRead slA 6 = 0 ∧
    (let s := setA (setA world 5 (BitVec.ofNat 64 durA)) 6 64
     gRead s 6 ≠ 0 ∧ (gRead s 5).toNat + (gRead s 6).toNat ≤ 2 ^ 55 ∧
     (typedPages s .dur (gRead s 5).toNat (gRead s 6).toNat).toOption.isSome = true) := by unfold allHere; decide +kernel

theorem wit_BarrierAndYield :
    gangOf slA 1 = none ∧
    (∀ d ∈ [0, 1], let s := { slA with gangs := [gangBar d] }
      gangOf s 1 = some (gangBar d) ∧ ((gangBar d).members.find? fun m => m.uid == 1) = some ⟨0, 1, d, true, false, false, [], some (0, false)⟩ ∧
      (if d = 0 then d ≤ (gangBar d).phase else (gangBar d).phase < d)) ∧
    (gang1.members.find? fun m => m.uid == 1) = some ⟨0, 1, 0, false, false, false, [], some (0, false)⟩ ∧ gang1.level ≠ 3 ∧ NoCopies slA = true ∧
    busy.task? busy.ctx.uid = some task1 ∧ descDval task1.desc = false ∧ descDval (task1.desc.set 3 (2 ^ 50)) = true ∧
    (busy.core? busy.ctx.core).any (fun c => c.switchTo.isNone && !(c.shadow.bind fun u => bankCtx? busy u).any awaitsSpill) = true := by decide +kernel

/-- Version 5 of VD 0 at this home, sealed and resident, with its record; and the durable version of bit 43. -/
def tile5 : Tile := ⟨5, 0, 3 * 2 ^ 30 + 0x400000, 512, true, true, 9, false, false, true, 0, false⟩
def rec5 : LinRec :=
  { name := 5, kcopy := 0, digest := 0, root := false, taint := false, anchor := false, apend := false, durs := false, lost := false, rbld := false
    freed := false, depth := 1, ord := 0, size := 512, replica := 0, need := 0, tqidx := 0, tpseq := 0, acq := [] }
def withTile : State := { setA busy 5 5 with tiles := [tile5], recs := [rec5] }
def farName : Word := 7 * 2 ^ 53 + 5
def tile5H : Handle := ⟨.acquired, 5, 0, 512, false, 0⟩
def handleBe (s : State) (n : Fin 16) (h : Handle) : State := withM s fun m => { m with handles := m.handles.set n h }

theorem wit_TileAcquire :
    (let s := withTile
     Declared s [.g 5] = true ∧ (s.ctx.m.handles[(15 : Fin 16)].state == .empty) = true ∧ tileVd (gRead s 5) = s.ctx.vd ∧
     awayHome s (gRead s 5) = none ∧ s.task? s.ctx.uid = some task1 ∧ neverReady s task1 5 = false ∧ s.tile? task1.vd 5 = some tile5 ∧
     operandReady s task1 5 = true ∧ keptAccess s task1 5 = none ∧ tile5.check = false ∧
     (let k := { task1 with freed := [5] }
      let t := { tile5 with stale := true }
      let s := { s with tasks := [k], tiles := [t], recs := [] }
      neverReady s k 5 = false ∧ operandReady s k 5 = true ∧ keptAccess s k 5 = some t) ∧
     (let s := { s with mem := memSetN busy.mem 0x400000 [1], tiles := [{ tile5 with check := true }] }
      let s := { s with recs := [{ rec5 with digest := tileDigest s 0 tile5.va 512 }] }
      rangeGood s 0 tile5.va 512 = true ∧ (s.rec? 5).any (fun r => r.digest == tileDigest s 0 tile5.va 512) = true ∧ operandReady s task1 5 = true) ∧
     neverReady { s with recs := [{ rec5 with gone := true }] } task1 5 = true ∧
     operandReady { s with recs := [{ rec5 with lost := true }] } task1 5 = false ∧
     neverReady { s with recs := [{ rec5 with lost := true }] } task1 5 = false) ∧
    ((handleBe slA 15 tile5H).ctx.m.handles[(15 : Fin 16)].state == .empty) = false ∧
    (let s := withM (setA slA 5 9) fun m => { m with acquired := [1, 2, 3, 4, 5, 6, 7, 8] }
     s.ctx.m.acquired.contains (gRead s 5) = false ∧ decide (s.ctx.m.acquired.length < 8) = false) ∧
    tileVd (gRead (setA slA 5 (2 ^ 44)) 5) ≠ slA.ctx.vd ∧
    (let s := withM (setA busy 5 farName) fun m => { m with answers := [⟨tagA, 0, 0, leBytes 8 0x1000 ++ leBytes 8 512⟩] }
     awayHome s (gRead s 5) = some 7 ∧ (takeAnswer s tagA).1 = some ⟨tagA, 0, 0, leBytes 8 0x1000 ++ leBytes 8 512⟩) ∧
    (∀ n ∈ [1, 2], (takeAnswer (withM (setA busy 5 farName) fun m => { m with answers := [⟨tagA, n, 0, []⟩] }) tagA).1 = some ⟨tagA, n, 0, []⟩) ∧
    (∀ l ∈ [true, false], let s := { setA busy 5 farName with peers := [⟨7, 0, 0, 0, 0, 0, l, []⟩] }
     s.ctx.m.answers.any (fun r => r.tag == tagA) = false ∧ peerLost s 7 = l) := by decide +kernel

/-- A task with one output, version 6, or its durable version. -/
def maker (name : Word) : Task := { task1 with desc := (task1.desc.set 1 (2 ^ 61)).set 12 name }
def making (name : Word) (size : Nat) : State :=
  { setA (setA busy 5 name) 6 (BitVec.ofNat 64 size) with tasks := [maker name] }
def durName : Word := 2 ^ 43 + 6

theorem wit_TileAllocate :
    (∀ n ∈ [512, 4194304], let s := making 6 n
      Declared s [.g 5, .g 6] = true ∧
      ((s.task? s.ctx.uid).any (fun k => (outputs k.desc).contains (gRead s 5)) && !s.ctx.m.named.contains (gRead s 5)) = true ∧
      512 ≤ (gRead s 6).toNat ∧ (gRead s 6).toNat ≤ 4194304 ∧ (gRead s 6).toNat % 512 = 0 ∧ (s.vd? s.ctx.vd).isSome = true ∧ awayHome s 6 = none ∧ tileDur 6 = false) ∧
    (let s := { making 6 512 with tiles := [{ tile5 with name := 6, sealed := false, owner := 1 }] }
     (begunTile s 6).isSome = true) ∧
    (let s := { making 6 512 with tiles := [{ tile5 with name := 6 }] }
     begunTile s 6 = none ∧ runsAgain s = false ∧ (s.tile? 0 6).isSome = true ∧ s.pkg.phase ≠ .reduced) ∧
    ((openRec { making 6 512 with recs := [{ rec5 with name := 6 }] } 6).isSome = true ∧ (pkgBe world fun p => { p with phase := .reduced }).pkg.phase = .reduced) ∧
    (let s := making durName 512
     begunTile s durName = none ∧ s.tile? 0 durName = none ∧ openRec s durName = none ∧
       (s.vd? 0).any (fun v => (placeTile s { v with dtpool := 0 } durName 512).2 == none) = true) ∧
    (∀ l ∈ [[], [7]], let s := { making farName 512 with vds := world.vds.map fun v => { v with peers := l } }
     awayHome s farName = some 7 ∧ (s.vd? 0).any (fun v => v.num == s.ctx.vd && (v.peers.contains 7) == (l == [7])) = true ∧
       s.ctx.m.answers.any (fun r => r.tag == tagA) = false ∧ peerLost s 7 = false) ∧
    (∀ n ∈ [0, 2], (takeAnswer (withM (making farName 512) fun m => { m with answers := [⟨tagA, n, 0, []⟩] }) tagA).1 = some ⟨tagA, n, 0, []⟩) ∧
    (let s := { making durName 512 with mem := memSetN busy.mem (2 ^ 42 + 2 ^ 20 + 4096 + 0x90) (leBytes 4 0xFE000) }
     begunTile s durName = none ∧ (s.vd? 0).any (fun v => (allocTile s v s.ctx.uid (runsAgain s) durName 512).toOption.any fun x =>
       rangePending x.1 x.2.vd (x.2.va - 512) 512) = true) ∧
    (∀ n ∈ [0, 511, 513, 4194304 + 512], n < 512 ∨ 4194304 < n ∨ n % 512 ≠ 0) ∧
    ((busy.task? busy.ctx.uid).any fun k => (outputs k.desc).contains (6 : Word)) = false := by decide +kernel

def h6 : Handle := ⟨.allocated, 6, 3 * 2 ^ 30 + 0x400000, 512, false, 0⟩
def hDur (step : Nat) : Handle := ⟨.allocated, durName, 6 * 2 ^ 30 + 2 ^ 20 + 4096 + 512, 512, false, step⟩

theorem wit_TileSealAndRelease :
    (let s := handleBe busy 15 h6
     s.ctx.m.handles[(15 : Fin 16)].state = .allocated ∧ tileDur h6.name = false ∧ copiesInto s h6.va h6.size = false ∧ (s.vd? s.ctx.vd).isSome = true ∧
     awayHome s h6.name = none ∧ s.ctx.m.answers.any (fun r => r.tag == tagA) = false ∧ awayAcq s = [] ∧
     copiesInto (slotBe s 0 { Slot.free with state := .active, kind := 1, gd := BitVec.ofNat 64 h6.va, gb := 64 }) h6.va h6.size = true) ∧
    busy.ctx.m.handles[(15 : Fin 16)].state ≠ .allocated ∧ busy.ctx.m.handles[(15 : Fin 16)].state = .empty ∧
    (∀ n ∈ [1, 2], let s := handleBe busy 15 (hDur n)
      tileDur (hDur n).name = true ∧ (hDur n).step = n ∧ rangePending s 0 ((hDur n).va - 512) 512 = false ∧ awayHome s (hDur n).name = none) ∧
    (let s := withM (handleBe busy 15 { h6 with name := farName }) fun m => { m with answers := [⟨tagA, 0, 0, []⟩] }
     awayHome s farName = some 7 ∧ (takeAnswer s tagA).1 = some ⟨tagA, 0, 0, []⟩ ∧ s.ctx.m.answers.any (fun r => r.tag == tagA) = true ∧ (0 : Nat) ≠ 2) ∧
    (∀ h ∈ [h6, hDur 2], let s := { handleBe busy 15 h with tiles := [{ tile5 with name := h.name, va := h.va, sealed := false, owner := 1 }] }
     h.step ≠ 3 ∧ (s.tile? 0 h.name).isSome = true ∧ s.task? s.ctx.uid = some task1 ∧ s.rec? h.name = none ∧ h.shadow = false ∧ task1.rgth = false ∧
     task1.rerun = false ∧ s.ctx.rebuild = false ∧ (s.vd? 0).any Vd.pairs = false ∧ secondaryAt s (tileVd h.name) = none) ∧
    (let s := handleBe withTile 15 tile5H
     let h := { tile5H with va := tile5.va }
     h.shadow = false ∧ awayHome s 5 = none ∧ s.tile? s.ctx.vd 5 = some tile5 ∧ tile5.va = h.va ∧
     (s.tiles.filter fun y => y.vd == tile5.vd && y.name == tile5.name) = [tile5] ∧ s.rec? 5 = some rec5 ∧ rec5.freed = false) ∧
    (∀ x ∈ [HState.acquired, .sealed, .allocated], (handleBe busy 15 { h6 with state := x }).ctx.m.handles[(15 : Fin 16)].state = x) ∧
    Declared busy [.g 31] = true := by decide +kernel

/-- A descriptor in memory at `priv`, and what the hypotheses of a spawn ask of the state. -/
def spawning (w1 w3 : Nat) : State := { setA busy 5 (BitVec.ofNat 64 priv) with mem := memSetN (memSetN busy.mem (priv + 8) (leBytes 8 w1)) (priv + 24) (leBytes 8 w3) }
def spawnHyp (s : State) (params : Bool) (p : State → Vector Word 16 → Task → Core → Bool) : Bool :=
  match loadMem s .load (gRead s 5) 1 128 with
  | .got u bs =>
    let w1 := littleEndian ((bs.drop 8).take 8)
    let n := min (bits w1 60 56) 16
    let d : Vector Word 16 := Vector.ofFn fun i => BitVec.ofNat 64 (littleEndian ((bs.drop (8 * i.val)).take 8))
    (params == (n != 0)) && (match if n = 0 then .got u [] else loadMem u .load (BitVec.ofNat 64 (bits w1 55 0)) 1 (8 * n) id tagB with
      | .got v _ => (v.task? v.ctx.uid).any fun k => (v.core? v.ctx.core).any fun c => p v d k c
      | .stop _ => false)
  | .stop _ => false
def coreBe (s : State) (f : Core → Core) : State := { s with cores := s.cores.map fun c => if c.num = 0 then f c else c }

theorem wit_SpawnChild :
    Declared (spawning 0 0) [.g 5] = true ∧ (spawning 0 0).ctx.m.held = [] ∧ (spawning 0 0).ctx.m.asks = 0 ∧
    allHere [⟨3, sync, [(priv + 64, 9)]⟩] ∧
    spawnHyp (spawning 0 0) false (fun v d k c => !descInvalid v k.vd k.part d && !descDval d && !k.rebuild && k.skipSpawn ≤ v.ctx.spawned &&
      c.deque.length < 64 && v.ctx.uid < v.nextUid && v.tasks.all fun j => j.uid < v.nextUid) = true ∧
    spawnHyp (spawning (16 * 2 ^ 56 + priv) 0) true (fun v d k _ => !descInvalid v k.vd k.part d) = true ∧
    spawnHyp (spawning 0 (2 ^ 63)) false (fun v d k _ => descInvalid v k.vd k.part d) = true ∧
    spawnHyp (spawning 0 (2 ^ 50 + 2 ^ 16)) false (fun v d k _ => !descInvalid v k.vd k.part d && descDval d) = true ∧
    spawnHyp { spawning 0 0 with tasks := [{ task1 with rebuild := true }] } false (fun v d k _ => !descInvalid v k.vd k.part d && k.rebuild) = true ∧
    spawnHyp (coreBe { spawning 0 0 with tasks := [{ task1 with desc := task1.desc.set 2 (BitVec.ofNat 64 (2 ^ 56 + priv + 4096)) }] }
      fun c => { c with deque := List.replicate 64 9 }) false (fun v d k c => !descInvalid v k.vd k.part d && 64 ≤ c.deque.length &&
        match spillHead v v.ctx.core k with
        | .done _ => true
        | _ => false) = true := by unfold allHere; decide +kernel

/-! Vector and engine instructions: a form of each that issues. -/

def mods : VMods := ⟨0, false, 0, 0, 0, ⟨false, .rne⟩⟩
def full : VMods := ⟨63, true, 15, 14, 0, ⟨false, .rne⟩⟩

/-- The hypotheses of VReady for an instruction that uses no stream port, in a state where flag 14 is set. -/
def issuing : State := withC slC fun c => { c with f := c.f.set 14 15 }
def ready (i : Instr) (m : VMods) (vd : Option VDst) (g : Nat) (srcs : List VSrc) (items : List Item) : Bool :=
  i.wf && PlainIssue issuing &&
  Declared issuing (items ++ srcs.flatMap vsrcItems ++ vdstItems g vd ++ [.p m.pm] ++ flagItems m.sf m.af) &&
  !(srcs.contains .stream || vd == some .stream) && (m.af == 0 || issuing.ctx.c.f[m.af] != 0) && vqBlock issuing vd srcs == none &&
  (m.sf == 0 || decide (issuing.ctx.c.f[m.sf].val + dueFlag issuing.ctx.c m.sf < 15))

theorem issuing_det : issuing.ctx.det = false := rfl

theorem ready_issues (i : Instr) (m : VMods) (lat : Nat) (vd : Option VDst) (g : Nat) (srcs : List VSrc) (items : List Item) (d : Bool)
    (h : ready i m vd g srcs items = true) : VReady i issuing m lat vd g srcs items d false issuing none := by
  simp only [ready, Bool.and_eq_true, Bool.or_eq_true, Bool.not_eq_true', beq_iff_eq, bne_iff_ne, decide_eq_true_eq] at h
  obtain ⟨⟨⟨⟨⟨⟨h1, h2⟩, h3⟩, h4⟩, h5⟩, h6⟩, h7⟩ := h
  unfold VReady; simp only [h4]
  refine ⟨h1, h2, by simpa using h3, fun h => h5.resolve_left h, by simp, fun _ => rfl, h6, fun h => h7.resolve_left h, by simp, ?_⟩
  unfold checkC; simp [issuing_det]

theorem wit_VectorArithmetic :
    (∀ i ∈ [Instr.vadd (.v 47) (.v 0) (.o 7) .bf16 full, .vsub (.sq 1) (.v 0) (.v 1) .i4 full, .vmul (.v 1) (.v 2) (.v 1) .f32 full,
        .vmulz (.v 1) (.v 2) (.v 1) .f32 full, .vmulh (.v 1) (.v 2) (.v 1) .i16 full, .vmulhn (.v 1) (.v 2) (.v 1) .i32 full, .vmin (.v 1) (.v 2) (.v 1) .bf16 full,
        .vmax (.v 1) (.v 2) (.v 1) .i8 full, .vminn (.v 1) (.v 2) (.v 1) .i8 full, .vmaxn (.v 1) (.v 2) (.v 1) .i8 full, .vabs (.v 1) (.v 2) .f32 full,
        .vneg (.v 1) (.v 2) .i8 full, .vfma (.v 1) (.v 2) (.v 1) (.v 3) .f32 full, .vfms (.v 1) (.v 2) (.v 1) (.v 3) .f32 full, .vfnma (.v 1) (.v 2) (.v 1) (.v 3) .bf16 full],
      ready i full (some (.v 47)) 1 [.v 0, .o 7, .v 3] [] = true) ∧
    ready (.vsub (.sq 1) (.v 0) (.v 1) .i4 full) full (some (.sq 1)) 1 [.v 0, .v 1] [] = true := by decide +kernel

theorem wit_VectorLogicAndShifts :
    (∀ i ∈ [Instr.vand (.v 1) (.v 2) (.v 1) .i8 full, .vor (.v 1) (.v 2) (.v 1) .i8 full, .vxor (.v 1) (.v 2) (.v 1) .i8 full, .vandn (.v 1) (.v 2) (.v 1) .i8 full,
        .vnot (.v 1) (.v 2) .i4 full, .vshl (.v 1) (.v 2) (.v 1) .i8 full, .vshr (.v 1) (.v 2) (.v 1) .i8 full, .vsra (.v 1) (.v 2) (.v 1) .i8 full,
        .vshli (.v 1) (.v 2) 31 .i32 full, .vshri (.v 1) (.v 2) 0 .i8 full, .vsrai (.v 1) (.v 2) 7 .i8 full, .vfshl (.v 1) (.v 2) (.v 1) (.v 3) .i16 full,
        .vfshr (.v 1) (.v 2) (.v 1) (.v 3) .i32 full, .vpopc (.v 1) (.v 2) .i8 full, .vclz (.v 1) (.v 2) .i8 full, .vctz (.v 1) (.v 2) .i8 full],
      ready i full (some (.v 1)) 1 [.v 2, .v 1, .v 3] [] = true) := by decide +kernel

theorem wit_VectorCompares :
    (∀ i ∈ [Instr.vceq 63 (.v 2) (.v 1) .f32 full, .vcne 63 (.v 2) (.v 1) .i4 full, .vclt 63 (.v 2) (.v 1) .bf16 full, .vcle 63 (.v 2) (.v 1) .i8 full,
        .vcltn 63 (.v 2) (.v 1) .i8 full, .vclen 63 (.v 2) (.v 1) .i32 full, .vcun 63 (.v 2) (.v 1) .f32 full],
      ready i full none 1 [.v 2, .v 1] [.p 63] = true) := by decide +kernel

theorem wit_PredicateOperations :
    (∀ i ∈ [Instr.pand 63 1 2 full, .por 63 1 2 full, .pxor 63 1 2 full, .pandn 63 1 2 full, .pnot 63 1 full, .pset 63 full, .pclr 63 full,
        .plt 63 5 .i4 full, .pge 63 5 .f32 full],
      ready i full none 1 [] [.p 63, .p 1, .p 2, .g 5] = true) ∧
    PlainIssue slC = true ∧ Declared slC ([.p 63, .p full.pm] ++ flagItems full.sf full.af) = true ∧ full.af ≠ 0 ∧ slC.ctx.c.f[full.af] = 0 := by decide +kernel

theorem wit_VectorConversions :
    (∀ x ∈ [(Instr.vcvt (.v 4) (.v 2) .f32 .bf16 full, 1), (.vqnt (.v 4) (.v 2) (.v 1) .i8 full, 1), (.vdqnt (.v 4) (.v 2) (.v 1) .i8 full, 4),
        (.vdqnt (.v 4) (.v 2) (.v 1) .i16 full, 2), (.vdqnt (.v 4) (.v 2) (.v 1) .i32 full, 1), (.vpack4 (.v 4) (.v 2) (.v 1) .i8 full, 1), (.vunpk4 (.v 4) (.v 2) .i4 full, 2),
        (.vwid2 (.v 4) (.v 2) .bf16 full, 2), (.vwid4 (.v 4) (.v 2) .i8 full, 4), (.vwmul2 (.v 4) (.v 2) (.v 1) .i16 full, 2)],
      ready x.1 full (some (.v 4)) x.2 [.v 2, .v 1] [] = true) := by decide +kernel

theorem wit_VectorPermutesAndMoves :
    (∀ i ∈ [Instr.vperm (.v 1) (.v 2) (.v 1) .i8 full, .vperm2 (.v 1) (.v 2) (.v 1) (.v 3) .i8 full, .vexpd (.v 1) (.v 2) .i8 full,
        .vslup (.v 1) (.v 2) 5 (.v 3) .i4 full, .vsldn (.v 1) (.v 2) 5 (.v 3) .f32 full, .vbcast (.v 1) (.v 2) 5 .i8 full, .vsplat (.v 1) 5 .bf16 full,
        .vidx (.v 1) 5 .i32 full, .vmov (.v 1) (.v 2) full],
      ready i full (some (.v 1)) 1 [.v 2, .v 1, .v 3] [.g 5] = true) ∧
    ready (.vcomp (.sq 0) (.v 2) .i8 { full with z := false }) { full with z := false } (some (.sq 0)) 1 [.v 2] [] = true ∧
    ready (.vins (.v 1) 5 6 .i8 mods) mods (some (.v 1)) 1 [] [.g 5, .g 6] = true ∧ ready (.vext 31 (.v 2) 6 .bf16 mods) mods none 1 [.v 2] [.g 31, .g 6] = true := by
  decide +kernel

theorem wit_VectorReductions :
    (∀ i ∈ [Instr.vrsum (.v 1) (.v 2) .f32 { full with z := false }, .vrmax (.v 1) (.v 2) .i4 { full with z := false }, .vrmin (.v 1) (.v 2) .bf16 { full with z := false }],
      ready i { full with z := false } (some (.v 1)) 1 [.v 2] [] = true) ∧
    (∀ i ∈ [Instr.vgmax (.v 1) (.v 2) 1 .i4 full, .vgmax (.v 1) (.v 2) 7 .f32 full, .vscan (.v 1) (.v 2) .f32 full],
      ready i full (some (.v 1)) 1 [.v 2] [] = true) := by decide +kernel

theorem wit_VectorFunctions :
    (∀ i ∈ [Instr.vrcpe (.v 1) (.v 2) .f32 full, .vrsqe (.v 1) (.v 2) .f32 full, .vrcps (.v 1) (.v 2) (.v 3) .f32 full, .vrsqs (.v 1) (.v 2) (.v 3) .f32 full,
        .vexp2F (.v 1) (.v 2) .f32 full, .vlog2F (.v 1) (.v 2) .f32 full, .vtanhF (.v 1) (.v 2) .f32 full, .vexp2X (.v 1) (.v 2) .f32 full,
        .vlog2X (.v 1) (.v 2) .f32 full, .vtanhX (.v 1) (.v 2) .f32 full, .vrng (.v 1) 5 6 full, .vrngD (.v 1) 5 6 full, .vspill 255 (.v 2) full, .vfill (.v 1) 255 full],
      ready i full (some (.v 1)) 1 [.v 2, .v 3] [.g 5, .g 6, .k 255] = true) ∧
    isNan32 0xFF812345 = true ∧ isNan32 0x3F800000 = false ∧ zeroOrInf32 0xFF800000 = true ∧
    PlainIssue (det slC) = true ∧ (det slC).ctx.det = true ∧ mods.af = 0 ∧ VSrc.v 2 ≠ .stream ∧ VDst.v 1 ≠ .stream ∧
    Declared (det slC) ((vsrcItems (.v 2) ++ vdstItems 1 (some (.v 1)) ++ [.p mods.pm]) ++ flagItems mods.sf mods.af) = true := by decide +kernel

/-- A walk of one vector through a stream port: an armed snapshot of 512 bytes of stream 3. -/
def armed (n : Fin 16) (d : Desc) (s : State) : State :=
  withM s fun m => { m with streams := m.streams.set n { Stream.zero with shadow := d, live := d, installed := true } }
def block512 : Desc := { oneBlock with blen := 512 }
theorem armed_det : (armed 3 block512 slC).ctx.det = false := rfl

theorem wit_streamPort : ∃ t p, VReady (.vadd (.v 1) .stream (.v 2) .f32 { mods with port := 3 }) (armed 3 block512 slC) { mods with port := 3 } 4 (some (.v 1)) 1
    [.stream, .v 2] [] false false t p := by
  have h : (portTake (armed 3 block512 slC) 3).isSome = true := by decide +kernel
  obtain ⟨⟨t, d, pos, n⟩, hr⟩ := Option.isSome_iff_exists.mp h
  refine ⟨t, some ⟨d, pos, n⟩, by decide +kernel, by decide +kernel, by decide +kernel, by simp [mods], by intro _ _; decide +kernel, by simp,
    by decide +kernel, by simp [mods], ?_, ?_⟩
  · exact if_pos rfl |>.mpr ⟨⟨d, pos, n⟩, rfl, hr, by simp⟩
  · unfold checkC; simp [armed_det]

/-- A stream of MX elements of 8 bits for vdqnt (R190, R209). -/
def mxBlock : Desc := { oneBlock with blen := 512, etype := 6, mxw := 3, bpr := 16 }
theorem wit_mxPort : (portTake (armed 3 mxBlock slC) 3).any (fun r => r.2.1.etype == 6 && r.2.1.mxw == 3) = true ∧
    (Instr.vdqnt (.v 4) .stream (.v 2) .mx { mods with port := 3 }).wf = true := by decide +kernel

def ereadyB (s : State) (i : Instr) (fm : FMods) (items : List Item) : Bool :=
  i.wf && PlainIssue s && Declared s (items ++ flagItems fm.sf fm.af) && (fm.af == 0 || s.ctx.c.f[fm.af] != 0) && !startWaits s.ctx.c &&
    (fm.sf == 0 || decide (s.ctx.c.f[fm.sf].val + dueFlag s.ctx.c fm.sf < 15))
def fm : FMods := ⟨15, 14⟩

theorem wit_MatrixMovesAndFlags :
    (let s := setC (setC issuing 5 (8 * 2 ^ 20)) 6 (32 * 2 ^ 20)
     ereadyB s (.wbsel 3 5 6 fm) fm [.g 5, .g 6] = true ∧ windowOk (gRead s 5) (gRead s 6) = true ∧ windowOk (gRead s 0) (gRead s 6) = false) ∧
    ereadyB issuing (.mzero 7 fm) fm [] = true ∧ MoveReady issuing [7] [7] = true ∧ ereadyB issuing (.mmov 7 0 fm) fm [] = true ∧
    MoveReady issuing [7, 0] [7] = true ∧ ereadyB issuing (.mswap 7 0 fm) fm [] = true ∧ MoveReady issuing [7, 0] [7, 0] = true ∧
    ereadyB issuing (.mstat 5 7 fm) fm [.g 5] = true ∧ issuing.ctx.c.accLand[(7 : Fin 8)] ≤ issuing.ctx.c.cc ∧
    (let s := withC issuing fun c => { c with accLand := c.accLand.set 7 1 }
     PlainIssue s = true ∧ Declared s (flagItems fm.sf fm.af) = true ∧ s.ctx.c.cc < s.ctx.c.accLand[(7 : Fin 8)]) ∧
    Declared issuing [.flag 15] = true ∧
    (∀ x ∈ [((15 : Fin 16), (15 : Fin 16)), (14, 1)], let v := issuing.ctx.c.f[x.1].val + x.2.val + dueFlag issuing.ctx.c x.1
      (x.1 = 15 → v ≤ 15) ∧ (x.1 = 14 → 15 < v)) ∧
    (15 : Fin 16).val ≤ (issuing.ctx.c.f[(14 : Fin 16)]).val ∧ (issuing.ctx.c.f[(15 : Fin 16)]).val < (1 : Fin 16).val := by decide +kernel

/-- A product of BF16 operands: a walk of 32 rows of 32 terms, and a window of 128 columns of 32 rows. -/
def bfWalk : Desc := { Desc.zero with etype := 4, blen := 64, loops := (Vector.replicate 6 ⟨1, 0⟩).set 0 ⟨32, 64⟩ }
def mmaState : State :=
  withC (armed 4 bfWalk (withC issuing fun c => { c with long := [] })) fun c =>
    { c with w := c.w.set 1 ⟨BitVec.ofNat 128 (32 * 2 ^ 84 + 2 * 2 ^ 100 + 8192 * 2 ^ 20), 0⟩ }
def mma1 : Instr := .mma 4 4 1 .s1x4 .bf16bf16 8 fm
def prod1 : Product := productOf 4 4 1 .s1x4 .bf16bf16 8
/-- Its window with an image of 8 bytes: the command consumes more (WB_OVERRUN). -/
def shortWindow : State := withC mmaState fun c =>
  { c with w := c.w.set 1 ⟨BitVec.ofNat 128 (32 * 2 ^ 84 + 2 * 2 ^ 100 + 8 * 2 ^ 20), 0⟩ }

theorem wit_MatrixProducts :
    ereadyB mmaState mma1 fm (prod1.streams.map Item.strm) = true ∧ unitFree mmaState.ctx.c .array = true ∧
    (∀ q : Fin 4, mmaState.ctx.c.accMove[bankAt 4 q] ≤ mmaState.ctx.c.cc ∧ mmaState.ctx.c.accDrain[bankAt 4 q] ≤ mmaState.ctx.c.cc) ∧
    prod1.windowsOk mmaState = true ∧ ((startAll mmaState prod1.streams).any fun r => r.2.all prod1.walkOk) = true ∧
    (prod1.wins.mapM fun n => windowBands mmaState.ctx.m.wb mmaState.ctx.c.w[n] (pairFmt .bf16bf16).2.1 (mmaState.ctx.c.w[n].cursor / 32) (prod1.kr / 32)).isSome = true ∧
    (ereadyB shortWindow mma1 fm (prod1.streams.map Item.strm) && prod1.windowsOk shortWindow) = true ∧
    (prod1.wins.mapM fun n => windowBands shortWindow.ctx.m.wb shortWindow.ctx.c.w[n] (pairFmt .bf16bf16).2.1 (shortWindow.ctx.c.w[n].cursor / 32) (prod1.kr / 32)) = none ∧
    prod1.windowsOk issuing = false ∧ startAll slC prod1.streams = none ∧
    ((startAll (armed 4 oneBlock mmaState) prod1.streams).any fun r => r.2.all prod1.walkOk) = false := by decide +kernel

def drain1 : DrainMods := ⟨true, false, false, .clamp, .i8, true, ⟨false, .rne⟩⟩
def drainIn : Desc := { Desc.zero with etype := 5, blen := 264, loops := Vector.replicate 6 ⟨1, 0⟩ }
def drainOut : Desc := { Desc.zero with etype := 1, blen := 512, loops := (Vector.replicate 6 ⟨1, 0⟩).set 0 ⟨2, 512⟩ }

theorem wit_MatrixDrain :
    ereadyB issuing (.mdrain 7 1 2 drain1 fm) fm [.strm 1, .strm 2] = true ∧ unitFree issuing.ctx.c .drain = true ∧
    issuing.ctx.c.accLand[(7 : Fin 8)] ≤ issuing.ctx.c.cc ∧ startAll issuing [1, 2] = none ∧ epiCount drain1 = 66 ∧
    (∀ x ∈ [(drainOut, true), (oneBlock, false)], let s := armed 1 x.1 (armed 2 drainIn issuing)
      ((startAll s [1, 2]).any fun r => let d := r.2.getD 0 Desc.zero
        let dx := r.2.getD 1 Desc.zero
        decide (d.etype.toNat = drainCode drain1.ot ∧ 128 * (drainFmt drain1.ot).width ≤ d.length ∧ (epiCount drain1 > 0 → dx.etype = 5 ∧ 4 * epiCount drain1 ≤ dx.length))) = x.2) := by
  decide +kernel

def row1 : RowOps := ⟨5, 6, 64, 9, 0, .bf16, .bf16, fm, ⟨false, .rne⟩⟩
def rowIn : Desc := { Desc.zero with etype := 4, blen := 128, loops := Vector.replicate 6 ⟨1, 0⟩ }

theorem wit_RowCommands :
    ereadyB issuing (.rsoftmax row1) fm [.strm 5, .strm 6, .g 9] = true ∧ ereadyB issuing (.rnorm row1) fm [.strm 5, .strm 6, .g 9] = true ∧
    ereadyB issuing (.rexps { row1 with sm := 7 }) fm [.strm 5, .strm 6, .strm 7, .g 9] = true ∧
    ereadyB issuing (.rscal { row1 with sm := 7, ck := 0 }) fm [.strm 5, .strm 6, .strm 7] = true ∧
    ereadyB issuing (.rsmax { row1 with ot := .f32, ck := 0 }) fm [.strm 5, .strm 6] = true ∧
    unitFree issuing.ctx.c .row = true ∧ startAll issuing [5, 6] = none ∧
    (∀ x ∈ [(rowIn, true), (oneBlock, false)], let s := armed 5 x.1 (armed 6 rowIn issuing)
      ((startAll s [5, 6]).any fun r => let di := r.2.getD 0 Desc.zero
        let dout := r.2.getD 1 Desc.zero
        decide (di.etype.toNat = rowInCode row1.it ∧ di.length % 128 = 0 ∧ di.length / 128 ≤ 4096 ∧ dout.etype.toNat = rowOutCode row1.ot ∧
          di.length / 128 * 64 * 2 ≤ dout.length)) = x.2) := by decide +kernel

theorem wit_ResultsLand :
    (let s := withC slC fun c => { c with pend := [⟨0, 0, [.cReg 3 9], 2, 0⟩, ⟨4, 1, [], 0, 0⟩] }
     ∃ p l, s.ctx.c.pend = p :: l ∧ p.due ≤ s.ctx.c.cc ∧ p.sf ≠ 0) ∧
    (∀ p ∈ (withC slC fun c => { c with pend := [⟨1, 0, [], 0, 0⟩] }).ctx.c.pend, slC.ctx.c.cc < p.due) := by
  refine ⟨⟨_, _, rfl, ?_⟩, ?_⟩ <;> decide +kernel

theorem wit_HandlerReturns :
    (sup slA).ctx.sup = true ∧ (sup slA).ctx.a.stopped = false ∧ (sup slA).ctx.c.stopped = false ∧ EarlierIssued (sup slA) = true ∧
    (sup slA).ctx.c.eret = false ∧ (sup slC).ctx.a.eret = false ∧
    (let s := withC { sup busy with parked := [busy.ctx] } fun c => { c with eret := true }
     s.slice = .a ∧ s.ctx.c.eret = true ∧ s.ctx.q.toC = [] ∧ s.ctx.q.sq = #v[[], []] ∧ s.ctx.q.yq = [] ∧ NoCopies s = true ∧
     s.context? s.ctx.uid = some busy.ctx) := by decide +kernel

/-! Events: a state that meets the hypothesis of each claim. -/

def onA (s : State) (f : ASide → ASide) : State := { s with ctx := { s.ctx with a := f s.ctx.a } }
def otherTask (uid : Nat) (st : TState) : Task := { task1 with uid := uid, state := st, core := none }
def withTasks (s : State) (l : List Task) : State := { s with tasks := l, nextUid := 10 }
def vdBe (s : State) (f : Vd → Vd) : State := { s with vds := s.vds.map f }
def partBe (s : State) (f : Partition → Partition) : State := { s with parts := s.parts.map f }

/-- A code object at 0x700000: sections of 16 bytes for the slices, no regions (R110, R111). -/
def codeObject (m : Memory) : Memory :=
  let m := memSetN m 0x700000 (leBytes 4 0x3638594E ++ leBytes 4 (128 * 65536 + 1) ++ leBytes 4 128 ++ leBytes 4 16 ++ leBytes 4 256 ++ leBytes 4 16 ++
    leBytes 4 512 ++ leBytes 4 8)
  memSetN m 0x700020 (leBytes 4 (1 + 256 + 2 ^ 24) ++ leBytes 4 0 ++ leBytes 4 256)

/-- A task that waits for a core with that code, whose VD has a save area of one slot of 4,096 pages. -/
def fresh3 : Task := { otherTask 3 .ready with desc := task1.desc.set 0 0x700000 }
def idleCores : State :=
  vdBe { world with mem := codeObject world.mem, live := false, tasks := [fresh3], nextUid := 10 } fun v => { v with vsave := 0x800000, nslot := 1, slotpg := 4096 }
def withGang (s : State) (g : Gang) : State := { s with gangs := [g] }

/-- A queue of VD 0, its ring at 0x600000, and a packet in its journal. -/
def queue0 (st : QState) : Queue :=
  { vd := 0, qidx := 0, qcb := 0x500000, base := 0x600000, supq := true, lsize := 12, prio := 0, state := st, head := 0, tail := 0, progress := 0
    age := 0, kpend := false, pseq := 0, dseq := 0, reca := 0, shadow := Vector.replicate 32 0, journal := [], since := 0, held := false, back := false }
def packetE (ty : Nat) (args : List (BitVec 32)) : JEntry :=
  { pseq := 0, ptype := ty, image := Vector.replicate 32 0, args := args, start := 0, stop := 8, begun := false, complete := false, guard := false, moved := 0
    task := 0, asked := false, answers := [] }
def withQueue (s : State) (q : Queue) : State := { s with queues := [q] }
def withPacket (s : State) (e : JEntry) : State := withQueue s { queue0 .mapped with journal := [e], head := 8, tail := 8 }
def lo32 (n : Nat) : BitVec 32 := BitVec.ofNat 32 n
def args64 (l : List Nat) : List (BitVec 32) := l.flatMap fun n => [lo32 n, lo32 (n / 2 ^ 32)]

/-- A durable pool whose first block is free, at 6 GiB + 1 MiB. -/
def poolMem (m : Memory) : Memory := memSetN m (2 ^ 42 + 2 ^ 20 + 4096 + 0x90) (leBytes 4 0xFE000)

/-- Ports 0 to a peer and 1 to hosts, a peer 3, a host, and a frame from each. -/
def linked : State :=
  { vdBe world (fun v => { v with hosts := v.hosts.set 0 (2 ^ 63 + 77), nq := 1 }) with
    ports := ((Vector.replicate 20 Port.reset).set 0 ⟨.peer, true, 0⟩).set 1 ⟨.host, true, 0⟩
    peers := [⟨3, 0, 0, 1, 0, 0, false, []⟩], paths := [⟨3, 0, true, false, 800, false⟩], hosts := [77], queues := [queue0 .mapped] }
def peerFrame (ty : Nat) (payload : List Byte) : Frame := ⟨1, ty, 3, 0, 0, 0, false, 0, 0, 0, false, 0, payload, 0, 0, false, true, 0, 0⟩
def hostFrame (ty addr : Nat) (payload : List Byte) : Frame := ⟨1, ty, 2047, 0, 0, 0, false, 0, 0, 0, false, addr, payload, 1, 77, false, true, 0, 0⟩
def flow3 : Flow := ⟨3, 0, 0, 0, [peerFrame 7 [1]], 1, some 0, true, [], false⟩
/-- A patch of sequencer 7: version 1, the one entry 7 at address 8191. -/
def patchImage : List Byte := leBytes 8 (0x80 * 2 ^ 32 + 0x48544150) ++ leBytes 8 1 ++ leBytes 8 1 ++ List.replicate 40 0 ++ leBytes 8 (8191 * 2 ^ 32 + 7)
def arrives (f : Frame) : State := inp linked (.frame f)
def mirrorVd (s : State) : State := vdBe s fun v => { v with mirror := true, det := true, mpeer := 3 }

theorem wit_ContextEvents_decoupleDeadlock : (fun (s : State) => s.live && decoupleStuck s.ctx && !s.ctx.sup && isAlive s s.ctx.uid) (withC (onA busy fun a => { a with block := some .popYq }) fun c => { c with stopped := true }) = true := by decide +kernel

theorem wit_ContextEvents_flagDeadlock : (fun (s : State) => flagStuck s && !s.ctx.sup && isAlive s s.ctx.uid) ({ busy with mem := memSetN busy.mem 0x202000 (leBytes 4 0xE8510000) }) = true := by decide +kernel

theorem wit_ContextEvents_silentErr : (fun (s : State) => taskIs s (uidPick s) (fun k => k.state == .running && !descDval k.desc)) (busy) = true := by decide +kernel

theorem wit_ContextEvents_handlerEntry : (fun (s : State) => s.live && s.ctx.phase == .stopped && !s.ctx.record.preempt && !s.ctx.sup && uidPick s == s.ctx.uid &&
      !(s.core? s.ctx.core).any (fun c => c.switchTo.isSome) &&
      match loaderCheck s s.ctx.uid s.ctx.vd s.ctx.vec.toNat true s.ctx.det with
      | .ok _ c => [c.aoff, c.coff].all fun o => match translate s s.ctx.vd (s.ctx.vec.toNat + o) .fetch true with
        | .ok p => p.pin
        | .error _ => false
      | _ => false) ({ busy with mem := memSetN (codeObject busy.mem) 0x104000 (leBytes 8 (1 + 32 + 512 + 1024 + 2 ^ 60)), ctx := { busy.ctx with phase := .stopped, vec := 0x700000 } }) = true := by decide +kernel

theorem wit_CoreEvents_residencyTimeout : (fun (s : State) => (corePick s fun c => blockedTile s c && shadowOk s c).isSome) (onA busy fun a => { a with block := some (.tileAcquire 5) }) = true := by decide +kernel

theorem wit_CoreEvents_switchComplete : (fun (s : State) => (corePick s fun c => c.switchTo.isSome || comesBack s c || pairSwitch s c).any fun c =>
      !c.again && !(c.active.bind (bankCtx? s)).any fun x => c.switchTo.isSome && x.phase == .cut) (coreBe busy fun c => { c with switchTo := some none }) = true := by decide +kernel

theorem wit_CoreEvents_spillComplete : (fun (s : State) => (spillPick s).any fun c => (c.leaving.or c.shadow).any fun u =>
      !bound s u && (bankCtx? s u).any (fun x => x.phase == .shadowed && !loadsWait x) && (s.task? u).isSome) (coreBe (withTasks { busy with parked := [{ busy.ctx with uid := 2, bank := true, phase := .shadowed }] } [task1, otherTask 2 .shadowed]) fun c => { c with shadow := some 2 }) = true := by decide +kernel

theorem wit_CoreEvents_taskReady : (fun (s : State) => match s.input with
      | .task uid => taskIs s uid fun k => k.state == .waiting && !descDval k.desc && !operandGone s k && selfReady s k && (s.part? k.part).isSome &&
          !s.cores.any fun c => c.deque.contains uid || c.spill.any fun e => e.2 == uid
      | _ => false) (inp (withTasks busy [task1, otherTask 3 .waiting]) (.task 3)) = true := by decide +kernel

theorem wit_CoreEvents_taskDispatch : (fun (s : State) => (corePick s fun c => activeFree s c && (ownEntry s c).isSome).any fun c => (corePart s c).any fun p =>
      (ownEntry s c).any (fun k => loadsFresh s k && (rereadEntry s c.num k).isNone) && (!s.cores.any fun c => (corePart s c).isSome && refillDue s c) &&
      !s.gangs.any fun g => g.part == p.num && g.state == .reserving) (coreBe idleCores fun c => { c with deque := [3] }) = true := by decide +kernel

theorem wit_CoreEvents_taskSteal : (fun (s : State) => (corePick s fun c => activeFree s c && !hasReady s c && (stealFrom s c).isSome).any fun c =>
      (stealFrom s c).any fun e => loadsFresh s e.2.2 && (rereadEntry s e.2.1.num e.2.2).isNone) ({ idleCores with cores := idleCores.cores.map fun c => if c.num = 1 then { c with deque := [3] } else c }) = true := by decide +kernel

theorem wit_CoreEvents_priorityPreemption : (fun (s : State) => (corePick s (outranked s)).any fun c => c.shadow.all fun u =>
      (bankCtx? s u).any (fun x => x.phase == .shadowed && !loadsWait x) && (s.task? u).isSome) (coreBe (withTasks (vdBe busy fun v => { v with nslot := 1 }) [task1, { otherTask 3 .ready with prio := 9 }]) fun c => { c with deque := [3], quantum := true }) = true := by decide +kernel

theorem wit_CoreEvents_spawnOverflowResume : (fun (s : State) => match s.input with
      | .task uid => ctxIs s uid (fun x => x.m.spawnHeld && match s.task? uid with
          | some k => (match spillHead s x.core k with
            | .fault _ => false
            | _ => true) && k.state == .suspended && k.saved && !descDval k.desc
          | none => false)
      | _ => false) (inp (withTasks (withM busy fun m => { m with spawnHeld := true }) [{ task1 with state := .suspended, saved := true }]) (.task 1)) = true := by decide +kernel

theorem wit_CoreEvents_ageingStep : (fun (s : State) => match s.input with
      | .part n => partIs s n fun p => p.num == n
      | _ => false) (inp (withTasks (withGang (withQueue busy (queue0 .pending)) gang1) [task1, otherTask 3 .ready]) (.part 0)) = true := by decide +kernel

theorem wit_GangEvents_gangReserving : (fun (s : State) => match s.input with
      | .part n => (s.part? n).isSome && !(s.gangs.any fun g => g.part == n && g.state == .reserving) &&
          s.gangs.any fun g => g.part == n && g.state == .queued && vdRuns s g.vd
      | _ => false) (inp (withGang busy { gang1 with state := .queued }) (.part 0)) = true := by decide +kernel

theorem wit_GangEvents_gangRunning : (fun (s : State) => (gangAt s fun g => g.state == .reserving).any fun g =>
      reserved g && gangLoadable s g && s.gangs.find? (sameGang g) == some g &&
        (g.level != 3 || g.others.isEmpty || g.reported.contains s.pkg.num) && (gangPkgs g).all fun p => g.reported.contains p) (withGang (vdBe busy fun v => { v with nslot := 1 }) { gang1 with state := .reserving }) = true := by decide +kernel

theorem wit_GangEvents_gangReserveTimeout : (fun (s : State) => (gangAt s fun g => g.state == .reserving).isSome) (withGang busy { gang1 with state := .reserving }) = true := by decide +kernel

theorem wit_GangEvents_gangFormTimeout : (fun (s : State) => (gangAt s fun g => g.state == .forming && (s.part? g.part).any fun p => p.form ≠ 0).any fun g =>
      g.members.all fun m => isAlive s m.uid) (withGang (partBe busy fun p => { p with form := 5 }) { gang1 with state := .forming }) = true := by decide +kernel

theorem wit_GangEvents_gangPreemption : (fun (s : State) => (gangAt s (gangYields s)).any fun g =>
      g.members.all fun m => (bankCtx? s m.uid).all fun x => (stopCause x).isNone) (coreBe (withTasks (withGang (vdBe busy fun v => { v with nslot := 1 }) { gang1 with quantum := true }) [task1, { otherTask 3 .ready with prio := 9 }]) fun c => { c with deque := [3] }) = true := by decide +kernel

theorem wit_QueueEvents_vdKick : (fun (s : State) => match s.input with
      | .word vd w => w.toNat / 2 ^ 60 == 0 && queueIs s vd (w.toNat / 2 ^ 48 % 4096) fun x =>
          let d := (w.toNat % 2 ^ 48 + 2 ^ 48 - x.tail % 2 ^ 48) % 2 ^ 48
          x.state != .disabled && d < 2 ^ 47 && x.tail + d - x.head ≤ 2 ^ x.lsize
      | _ => false) (inp (withQueue busy (queue0 .idle)) (.word 0 4096)) = true := by decide +kernel

theorem wit_QueueEvents_vdKick_2 : (fun (s : State) => match s.input with
      | .word vd w => w.toNat / 2 ^ 60 != 0 && (s.vd? vd).isSome
      | _ => false) (inp busy (.word 0 (2 ^ 63))) = true := by decide +kernel

theorem wit_QueueEvents_queueEnable : (fun (s : State) => (queueFor s fun x => x.state == .disabled).any fun x => x.state == .disabled &&
      (readQcb s x).head ≤ (readQcb s x).tail && (readQcb s x).tail - (readQcb s x).head ≤ 2 ^ (readQcb s x).lsize) (withQueue busy (queue0 .disabled)) = true := by decide +kernel

theorem wit_QueueEvents_queueDisable : (fun (s : State) => (queueFor s fun x => x.state == .idle || x.state == .fetchFault || x.state == .frozen).any fun x =>
      x.state == .idle || x.state == .fetchFault || x.state == .frozen) (withQueue busy (queue0 .idle)) = true := by decide +kernel

theorem wit_QueueEvents_queueReset : (fun (s : State) => (queueFor s fun x => x.state == .fetchFault || x.state == .frozen).any fun x =>
      x.state == .fetchFault || x.state == .frozen) (withQueue busy (queue0 .frozen)) = true := by decide +kernel

theorem wit_QueueEvents_slotGrant : (fun (s : State) => match s.input with
      | .part n => (s.part? n).any (slotFree s) && (nextPending s n).any fun x => (s.queue? x.vd x.qidx).isSome
      | _ => false) (inp (withQueue busy { queue0 .pending with tail := 8 }) (.part 0)) = true := by decide +kernel

theorem wit_QueueEvents_queueDisplacement : (fun (s : State) => match s.input with
      | .part n => (s.part? n).any (fun p => !slotFree s p) && (pendingBeyond s n).isSome &&
          ((partQueues s n).find? fun y => holding y && !splits s y).isSome
      | _ => false) (inp { partBe busy fun p => { p with fence := { p.fence with slots := 1 } } with queues := [{ queue0 .mapped with journal := [{ packetE 2 [] with begun := true }] }, { queue0 .pending with qidx := 1 }] } (.part 0)) = true := by decide +kernel

theorem wit_QueueEvents_queueDisplacement_2 : (fun (s : State) => match s.input with
      | .part n => (s.part? n).any (fun p => p.num == n && !slotFree s p) && ((partQueues s n).all fun y => !(holding y && !splits s y)) &&
          (pendingBeyond s n).any fun x => (victim s n).any fun y => !splits s y && (effPrio x > y.prio || (effPrio x == 15 && y.held))
      | _ => false) (inp { partBe busy fun p => { p with fence := { p.fence with slots := 1 } } with queues := [queue0 .mapped, { queue0 .pending with qidx := 1, prio := 9 }] } (.part 0)) = true := by decide +kernel

theorem wit_QueueEvents_idleUnmap : (fun (s : State) => (queueFor s idleQueue).any fun x =>
      x.state == .mapped && x.head == x.tail && x.journal.all fun e => e.begun || e.complete) (withQueue busy (queue0 .mapped)) = true := by decide +kernel

theorem wit_QueueEvents_unmappingComplete : (fun (s : State) => (queueFor s fun x => x.state == .unmapping).any fun x => x.state == .unmapping) (withQueue busy { queue0 .unmapping with back := true }) = true := by decide +kernel

theorem wit_QueueEvents_packetFetch : (fun (s : State) => (fetchPick s).any fun x => s.queue? x.vd x.qidx == some x && fetches s x && (nextPacket s x).any fun p =>
        p.good && argCount p.ty == some p.argw && !argsBad s x p.ty (p.words.drop (onesIn 32 p.mask))) (withQueue busy { queue0 .mapped with tail := 8 }) = true := by decide +kernel

theorem wit_PacketEvents_nopPacket : (fun (s : State) => packetAnd s 0 fun _ _ => true) (withPacket busy (packetE 0 [])) = true := by decide +kernel

theorem wit_PacketEvents_reheatPacket : (fun (s : State) => packetAnd s 9 fun _ _ => true) (withPacket busy (packetE 9 [])) = true := by decide +kernel

theorem wit_PacketEvents_retry : (fun (s : State) => packetAnd s 10 fun _ _ => true) (withPacket busy (packetE 10 [0, 0])) = true := by decide +kernel

theorem wit_PacketEvents_launch : (fun (s : State) => packetAnd s 1 fun x e => vdIs s x.vd fun v => !e.begun && !descInvalid s x.vd v.part (imageDesc e.image) &&
      !descDval (imageDesc e.image) && match crucAccess s x.vd .load (descParam (imageDesc e.image)) (8 * descNparam (imageDesc e.image)) with
        | .ok _ => true
        | _ => false) (withPacket busy (packetE 1 [])) = true := by decide +kernel

theorem wit_PacketEvents_waitv : (fun (s : State) => packetAnd s 2 fun x e => (syncWord s x e false).isSome) (withPacket busy (packetE 2 (args64 [sync, 5]))) = true := by decide +kernel

theorem wit_PacketEvents_signal : (fun (s : State) => packetAnd s 3 fun x e => (syncWord s x e true).isSome) (withPacket busy (packetE 3 (args64 [sync, 5] ++ [1]))) = true := by decide +kernel

theorem wit_PacketEvents_copyPacket : (fun (s : State) => packetAnd s 4 fun x e =>
      !heldIn s x.vd 1 [(arg64 e.args 2 + e.moved, copyLen e), (arg64 e.args 0 + e.moved, copyLen e)] && (match crucAccess s x.vd .load (arg64 e.args 2 + e.moved) (copyLen e) with
        | .ok _ => true
        | _ => false) && match crucAccess s x.vd .store (arg64 e.args 0 + e.moved) (copyLen e) with
        | .ok [_] => true
        | _ => false) (withPacket busy (packetE 4 (args64 [priv, priv + 4096, 300]))) = true := by decide +kernel

theorem wit_PacketEvents_tileput : (fun (s : State) => packetAnd s 5 fun x e => let name := BitVec.ofNat 64 (arg64 e.args 0)
      (s.vd? x.vd).any fun v => v.num == x.vd && tileVd name == x.vd && tileSizeOk (arg32 e.args 4) && (awayHome s name).isNone && (s.tile? x.vd name).isNone &&
        (s.rec? name).isNone && e.moved == 0 && !heldIn s x.vd 1 [(arg64 e.args 2, arg32 e.args 4)] && (match crucAccess s x.vd .load (arg64 e.args 2) (arg32 e.args 4) with
          | .ok _ => true
          | _ => false) && (placeTile s v name (arg32 e.args 4)).2.isSome) (withPacket { busy with mem := poolMem busy.mem } (packetE 5 (args64 [2 ^ 43 + 6, priv] ++ [512]))) = true := by decide +kernel

theorem wit_PacketEvents_map : (fun (s : State) => packetAnd s 6 fun x e => (x.supq || !mapPrivileged s x.vd e.args) &&
      !heldIn s x.vd 1 [(arg64 e.args 0, 1)] && (mapTarget s x.vd (arg64 e.args 0) (arg32 e.args 4)).toOption.isSome && !mapEntryBad (arg32 e.args 4) (arg64 e.args 2)) (withPacket busy (packetE 6 (args64 [7 * 2 ^ 30, 0] ++ [2]))) = true := by decide +kernel

theorem wit_PacketEvents_fencePacket : (fun (s : State) => packetAnd s 7 fun _ _ => true) (withPacket busy (packetE 7 [4])) = true := by decide +kernel

theorem wit_PacketEvents_dormantPacket : (fun (s : State) => packetAnd s 8 fun x e => vdIs s x.vd fun v => !e.begun && (earlier x e).all (·.complete) && v.dorm == .active) (withPacket busy (packetE 8 [])) = true := by decide +kernel

theorem wit_PacketEvents_dormantPacket_2 : (fun (s : State) => packetAnd s 8 fun x e => vdIs s x.vd fun v => e.begun && v.dorm != .collapsing) (withPacket busy { packetE 8 [] with begun := true }) = true := by decide +kernel

theorem wit_PacketEvents_progressAdvance : (fun (s : State) => match s.input with
      | .queue vd q => queueIs s vd q fun x => x.state != .frozen && x.state != .disabled &&
          x.journal.all fun e => !(e.ptype == 1 && e.begun && !e.complete && treeDone s vd q e.pseq)
      | _ => false) (inp (withPacket busy { packetE 0 [] with begun := true, complete := true }) (.queue 0 0)) = true := by decide +kernel

theorem wit_PacketEvents_journalReplay : (fun (s : State) => match s.input with
      | .queue vd q => (s.queue? vd q).isSome
      | _ => false) (inp (withPacket busy { packetE 0 [] with begun := true }) (.queue 0 0)) = true := by decide +kernel

theorem wit_CommitEvents_taskRetirement : (fun (s : State) => bothDone s && s.ctx.m.xlpf == 0 && !inFlight s.ctx && !couplingEmpty s.ctx.q && isAlive s s.ctx.uid) (withQ (withC (onA busy fun a => { a with stopped := true }) fun c => { c with stopped := true }) { Couple.reset with yq := [⟨1, 0, 1⟩] }) = true := by decide +kernel

theorem wit_CommitEvents_taskRetirement_2 : (fun (s : State) => bothDone s && s.ctx.m.xlpf == 0 && !inFlight s.ctx && couplingEmpty s.ctx.q &&
      s.ctx.m.handles.toList.any (fun h => h.state == .allocated) && isAlive s s.ctx.uid) (handleBe (withC (onA busy fun a => { a with stopped := true }) fun c => { c with stopped := true }) 15 h6) = true := by decide +kernel

theorem wit_CommitEvents_taskRetirement_3 : (fun (s : State) => nothingLeft s && (s.task? s.ctx.uid).any fun k =>
      (!mirrored s k.vd || k.rebuild || descDval k.desc || k.agreed) && commitsHere s k) (withC (onA busy fun a => { a with stopped := true }) fun c => { c with stopped := true }) = true := by decide +kernel

theorem wit_CommitEvents_dbarCommit : (fun (s : State) => (gangPick s fun g => g.allAtBar && (!mirrored s g.vd || g.begun)).any fun i =>
      s.gangs[i]?.any fun g => (commitGo (g.size + 1) s i).2) (withGang busy { gang1 with members := [⟨0, 1, 1, true, false, false, [], some (0, false)⟩] }) = true := by decide +kernel

theorem wit_CommitEvents_finalCommit : (fun (s : State) => (gangPick s fun g => g.atEnd && (!mirrored s g.vd || g.begun)).any fun i =>
      s.gangs[i]?.any fun g => (commitGo (g.size + 1) s i).2) (withGang busy { gang1 with state := .ended, members := [⟨0, 1, 0, false, true, false, [], none⟩] }) = true := by decide +kernel

theorem wit_CommitEvents_commitDigestExchange : (fun (s : State) => match s.input with
      | .commit vd _ _ uid other => s.live && uid != 0 && uid == s.ctx.uid && mirrored s vd && (s.task? uid).any fun k =>
          k.uid == uid && k.vd == vd && k.acks == 0 && stagedTask s k &&
          (taskDigest k s.ctx != other || commitsHere (s.modTask uid fun k => { k with agreed := true }) k)
      | _ => false) (inp (withTasks (mirrorVd (withC (onA busy fun a => { a with stopped := true }) fun c => { c with stopped := true })) [{ task1 with rerun := true }]) (.commit 0 0 0 1 99)) = true := by decide +kernel

theorem wit_DurableEvents_writeAccepted : (fun (s : State) => s.input == .none && (nextAccept s (fun _ => true) [] s.durPend).isSome) ({ busy with durPend := [⟨1, 0, [(2 ^ 42 + 2 ^ 20, 5)]⟩] }) = true := by decide +kernel

theorem wit_DurableEvents_unitProgrammed : (fun (s : State) => match s.input with
      | .unit pa => (siteNo pa).isSome
      | _ => false) (inp busy (.unit (2 ^ 42 + 2 ^ 20))) = true := by decide +kernel

theorem wit_DurableEvents_powerLoss : (fun (s : State) => s.pkg.powered) (busy) = true := by decide +kernel

theorem wit_DurableEvents_siteDrainComplete : (fun (s : State) => !s.pkg.powered && match s.input with
      | .site n _ _ => n < 4
      | _ => false) (inp (pkgBe busy fun p => { p with powered := false }) (.site 3 [] true)) = true := by decide +kernel

theorem wit_DurableEvents_durablePoolScan : (fun (s : State) => s.pkg.phase == .reduced && !s.pkg.scanned) (pkgBe busy fun p => { p with phase := .reduced }) = true := by decide +kernel

theorem wit_DurableEvents_durablePoolScan_2 : (fun (s : State) => s.pkg.phase == .reduced && !s.pkg.scanned && (firstSealed s).isSome) ({ pkgBe busy fun p => { p with phase := .reduced } with
      mem := memSetN (memSetN busy.mem (2 ^ 42 + 2 ^ 20 + 4096 + 0x80) (leBytes 8 durName.toNat)) (2 ^ 42 + 2 ^ 20 + 4096 + 0x90) (leBytes 4 512 ++ leBytes 4 0 ++ [2])
      sites := busy.sites.set 0 { busy.sites[0] with clean := true, descs := [(5, 2 ^ 42 + 2 ^ 20, 0, 256)] } }) = true := by decide +kernel

theorem wit_DurableEvents_stgEnable : (fun (s : State) => match s.input with
      | .word vd w => w.toNat / 2 ^ 16 % 2 == 1 && (s.vd? vd).isSome
      | _ => false) (inp busy (.word 0 (4 + 2 ^ 16 + 2 ^ 18))) = true := by decide +kernel

theorem wit_DurableEvents_stgDisable : (fun (s : State) => match s.input with
      | .word vd w => w.toNat / 2 ^ 16 % 2 == 0 && (s.vd? vd).isSome
      | _ => false) (inp busy (.word 0 4)) = true := by decide +kernel

theorem wit_DurableEvents_stagingReadComplete : (fun (s : State) => match s.input with
      | .vd n => !stagingHeld s n && vdIs s n (fun v => v.num == n && stages v && (windowTiles s v).toOption.isSome) &&
          let u := advance (syncWindow s n) n
          (u.vd? n).any fun v => stages v && (nextStaged u v).any fun x => !x.resident && !x.useRepl && (u.rec? x.name).isNone && (u.tile? n x.name).isNone &&
            (match crucAccess u n .load x.src x.size with
              | .ok _ => true
              | _ => false) && (placeTile u v x.name x.size).2.isSome
      | _ => false) (inp (vdBe { busy with mem := memSetN (memSetN (poolMem busy.mem) 0x900000 (leBytes 8 0x901000 ++ leBytes 8 (2 ^ 32))) 0x901000 (leBytes 8 (2 ^ 43 + 6) ++ leBytes 8 priv ++ leBytes 8 0 ++ leBytes 8 512) } fun v => { v with stgEn := true, win := 1, nlayer := 1, stgTbl := 0x900000 }) (.vd 0)) = true := by decide +kernel

theorem wit_VdEvents_vdmCreate : (fun (s : State) => match s.input with
      | .pa part _ => partIs s part fun p => p.num == part && p.vdmOps.isEmpty
      | _ => false) (inp busy (.pa 0 0x300000)) = true := by decide +kernel

theorem wit_VdEvents_vdmDestroy : (fun (s : State) => match s.input with
      | .pa part _ => (s.part? part).isSome && !vdmBusy s part
      | _ => false) (inp busy (.pa 0 511)) = true := by decide +kernel

theorem wit_VdEvents_implicitCollapse : (fun (s : State) => s.input == .none && s.vds.any fun v => v.didle != 0 && v.dorm == .active && quiescent s v && s.vd? v.num == some v) ({ vdBe { busy with tasks := [] } fun v => { v with didle := 1 } with live := false }) = true := by decide +kernel

theorem wit_VdEvents_collapseComplete : (fun (s : State) => match s.input with
      | .vd n => vdIs s n fun v => v.num == n && v.dorm == .collapsing && (s.part? v.part).isSome &&
          (bankCtxs s n).all (fun x => x.phase == .shadowed || x.phase == .stopped) &&
          s.durPend.all fun d => !s.tasks.any fun k => k.uid == d.uid && k.vd == n
      | _ => false) (inp (vdBe { world with live := false } fun v => { v with dorm := .collapsing }) (.vd 0)) = true := by decide +kernel

theorem wit_VdEvents_vdReheat : (fun (s : State) => match s.input with
      | .vd n => (s.vd? n).isSome
      | _ => false) (inp busy (.vd 0)) = true := by decide +kernel

theorem wit_VdEvents_reheatComplete : (fun (s : State) => match s.input with
      | .vd n => vdIs s n fun v => v.num == n && v.dorm == .reheating
      | _ => false) (inp (withQueue (vdBe busy fun v => { v with dorm := .reheating }) { queue0 .idle with tail := 8 }) (.vd 0)) = true := by decide +kernel

theorem wit_VdEvents_vdErrAck : (fun (s : State) => match s.input with
      | .word vd w => w.toNat / 2 ^ 32 % 2 == 1 && vdIs s vd fun v => !v.errs.isEmpty
      | _ => false) (inp (vdBe busy fun v => { v with errs := [⟨0, false, some 0⟩], used := [0] }) (.word 0 (2 ^ 32))) = true := by decide +kernel

theorem wit_VdEvents_vdCmpl : (fun (s : State) => match s.input with
      | .word vd _ => (s.vd? vd).isSome
      | _ => false) (inp busy (.word 0 (2 ^ 63 + 5))) = true := by decide +kernel

theorem wit_CopyAndDeviceEvents_chunkLanding : (fun (s : State) => (landing s).any fun i => let c := s.ctx.m.slots[i]
      (c.kind == 0 || c.kind == 5) && match checkAccess s .load (BitVec.ofNat 64 (chunkVa c)) 1 (pieces (chunkVa c) (chunkLen c)) with
        | .ok ps => (lostPlace s ps).isNone
        | _ => false) (inp (slotBe busy 47 { Slot.free with state := .active, kind := 0, ga := BitVec.ofNat 64 shrd, gb := 300, b := 7 }) (.pick 47)) = true := by decide +kernel

theorem wit_CopyAndDeviceEvents_chunkLanding_2 : (fun (s : State) => (landing s).any fun i => let c := s.ctx.m.slots[i]
      c.kind == 1 && c.asked.isEmpty && match checkAccess s .store (BitVec.ofNat 64 (chunkVa c)) 1 (pieces (chunkVa c) (chunkLen c)) with
        | .ok [p] => p.1.mt == .priv && p.2 == chunkLen c && p.1.pa + p.2 ≤ 2 ^ 48
        | _ => false) (inp (slotBe busy 0 { Slot.free with state := .active, kind := 1, gd := BitVec.ofNat 64 priv, gb := 64 }) (.pick 0)) = true := by decide +kernel

theorem wit_CopyAndDeviceEvents_chainWaitRelease : (fun (s : State) => match s.input with
      | .pick n => if h : n < 48 then let c := s.ctx.m.slots[(⟨n, h⟩ : Fin 48)]
          slotMoves s ⟨n, h⟩ && slotWaits c && c.waitA.toNat % 8 == 0 &&
            match checkAccess s .load c.waitA 1 (pieces c.waitA.toNat 8) with
            | .ok ps => ps.all (fun p => p.1.mt == .sync) && (lostPlace s ps).isNone
            | _ => false
        else false
      | _ => false) (inp (slotBe busy 47 { Slot.free with state := .active, kind := 6, chain := true, loaded := true, waitA := BitVec.ofNat 64 sync, waitV := 5 }) (.pick 47)) = true := by decide +kernel

theorem wit_CopyAndDeviceEvents_copyFault : (fun (s : State) => s.live && s.ctx.phase == .running && !s.ctx.sup && s.ctx.a.stop.isNone && CutOpen s && s.input == .none &&
      (List.finRange 48).any fun i => s.ctx.m.slots[i].cause.isSome) (slotBe busy 0 { Slot.free with state := .faulted, cause := some .pageFault }) = true := by decide +kernel

theorem wit_CopyAndDeviceEvents_loadDataArrival :
    (let s := withQ busy { Couple.reset with toC := [⟨4, 9, 1, false, true⟩, ⟨0, 9, 2, false, false⟩] }
     s.input = .none ∧ ∃ (l r : List AEntry) (e : AEntry), s.ctx.q.toC = l ++ e :: r ∧ (∀ x ∈ l, x.ready = true ∨ x.poison = true) ∧ e.ready = false ∧
       e.poison = false) ∧
    (let x := { busy.ctx with uid := 2, q := { Couple.reset with toC := [⟨0, 9, 1, false, false⟩] } }
     let s := inp { busy with parked := [x] } (.task 2)
     (s.live && s.ctx.uid == 2) = false ∧ s.parked = [x] ∧ x.uid = 2 ∧ x.phase ≠ .handled ∧
       ∃ (l r : List AEntry) (e : AEntry), x.q.toC = l ++ e :: r ∧ (∀ y ∈ l, y.ready = true ∨ y.poison = true) ∧ e.ready = false ∧ e.poison = false) :=
  ⟨⟨rfl, [⟨4, 9, 1, false, true⟩], [], ⟨0, 9, 2, false, false⟩, rfl, by decide, rfl, rfl⟩,
    by decide +kernel, rfl, rfl, by decide +kernel, [], [], ⟨0, 9, 1, false, false⟩, rfl, by decide, rfl, rfl⟩

theorem wit_CopyAndDeviceEvents_xinv : ∀ x ∈ [(Instr.xinvStage1Page, false, false), (.xinvStage1All, false, true), (.xinvStage2Page, true, false), (.xinvStage2All, true, true)], (fun (s : State) => match s.input with
        | .page part _ page => (s.part? part).isSome && page < 2 ^ 52
        | _ => false) (inp busy (.page 0 511 (2 ^ 52 - 1))) = true := by decide +kernel

theorem wit_CopyAndDeviceEvents_xinvComplete : (fun (s : State) => match s.input with
      | .part n => (s.part? n).isSome
      | _ => false) (inp (partBe busy fun p => { p with xinv := [(5, false, false, 0)] }) (.part 0)) = true := by decide +kernel

theorem wit_CopyAndDeviceEvents_tfree : (fun (s : State) => match s.input with
      | .word vd w => tileVd w == vd && (awayHome s w).isNone && (openRec s w).isSome
      | _ => false) (inp withTile (.word 0 5)) = true := by decide +kernel

theorem wit_CopyAndDeviceEvents_registerWrite : (fun (s : State) => match s.input with
      | .reg part _ off w => off / 4096 == 1 && [0, 8, 0x10, 0x18, 0x38].contains (off % 4096) && w.toNat % 2 ^ 32 != 0 && (s.part? part).isSome
      | _ => false) (inp busy (.reg 0 0 (4096 + 0x38) 5)) = true := by decide +kernel

theorem wit_CopyAndDeviceEvents_registerWrite_2 : (fun (s : State) => match s.input with
      | .reg _ vd off _ => off / 4096 == 4 && [0, 0x40, 0x48, 0xC0, 0x100, 0x108, 0x110, 0x118].contains (off % 4096) && (s.vd? vd).isSome
      | _ => false) (inp busy (.reg 0 0 (4 * 4096 + 0x118) (2 ^ 63 + 5))) = true := by decide +kernel

theorem wit_TransportEvents_answers : ∀ x ∈ [(Instr.regrsp, 2), (.memrsp, 5), (.cmpl, 6)], (fun (s : State) => (nextFrame s x.2).isSome) (arrives (peerFrame x.2 (if x.2 = 2 then List.replicate 8 0 else if x.2 = 5 then [] else List.replicate 32 0))) = true := by decide +kernel

theorem wit_TransportEvents_frameTypeUnallocated : (fun (s : State) => match s.input with
      | .frame _ | .wire _ => (arrived s).any fun f => listens s f.port && (f.ver != 1 || f.ftype ≥ 12)
      | _ => false) (arrives { peerFrame 12 [] with ver := 1 }) = true := by decide +kernel

theorem wit_TransportEvents_ack : (fun (s : State) => (frameOf s 8).any fun f => (ownFlow (heard s f) f).isSome) (inp { linked with flows := [flow3] } (.frame (peerFrame 8 []))) = true := by decide +kernel

theorem wit_TransportEvents_nack : (fun (s : State) => (frameOf s 9).any fun f => (ownFlow (heard s f) f).isSome) (inp { linked with flows := [flow3] } (.frame (peerFrame 9 (leBytes 8 1)))) = true := by decide +kernel

theorem wit_TransportEvents_resendTimeout : (fun (s : State) => s.input == .none && s.flows.any fun w => !w.sent.isEmpty) ({ linked with flows := [flow3] }) = true := by decide +kernel

theorem wit_TransportEvents_heartbeat : (fun (s : State) => (frameOf s 10).isSome) (arrives (peerFrame 10 [])) = true := by decide +kernel

theorem wit_TransportEvents_heartbeatTimer : (fun (s : State) => (pathPick s (Path.sends s)).isSome) (linked) = true := by decide +kernel

theorem wit_TransportEvents_rateIncrease : (fun (s : State) => match s.input with
      | .party _ _ => true
      | _ => false) (inp linked (.party 3 0)) = true := by decide +kernel

theorem wit_TransportEvents_linkDown : (fun (s : State) => match s.input with
      | .pick n => (portOf s n).any Port.up
      | _ => false) (inp linked (.pick 1)) = true := by decide +kernel

theorem wit_TransportEvents_linkRecovery : (fun (s : State) => match s.input with
      | .pick n => (portOf s n).any fun p => !p.up && p.role != .off
      | _ => false) (inp { linked with ports := linked.ports.set 1 ⟨.host, false, 0⟩ } (.pick 1)) = true := by decide +kernel

theorem wit_TransportEvents_serdesLaneRecal : (fun (s : State) => match s.input with
      | .pick lane => (portOf s (lane / 4)).any fun p => p.role != .off
      | _ => false) (inp linked (.pick 0)) = true := by decide +kernel

theorem wit_TransportEvents_pathFailed : (fun (s : State) => match s.input with
      | .party n port => s.paths.any fun p => p.party == n && p.port == port && p.live && (portOf s port).any Port.up
      | _ => false) (inp linked (.party 3 0)) = true := by decide +kernel

theorem wit_TransportEvents_pathLive : (fun (s : State) => (pathPick s fun p => p.proving && Path.sends s p).isSome) ({ linked with paths := [⟨3, 0, false, true, 800, false⟩] }) = true := by decide +kernel

theorem wit_RequestEvents_regwr : (fun (s : State) => (hostReq s 0).any fun r => r.1.addr % 8 == 0 &&
      (pageWrite s r.2 (r.1.addr % 65536) r.1.mac (BitVec.ofNat 64 (littleEndian r.1.payload))).isSome) (arrives (hostFrame 0 0x18 (List.replicate 8 0))) = true := by decide +kernel

theorem wit_RequestEvents_regrd : (fun (s : State) => (hostReq s 1).any fun r => answerable s r.1 && r.1.addr % 8 == 0 && (pageRead s r.2 (r.1.addr % 65536)).isSome) (arrives (hostFrame 1 0x8000 [])) = true := by decide +kernel

theorem wit_RequestEvents_memwr : (fun (s : State) => (hostReq s 3).any fun r => (hostPlace s r.2 true r.1.addr r.1.payload.length).any fun p => p.2 == r.1.payload.length) (arrives (hostFrame 3 priv [1, 2, 3])) = true := by decide +kernel

theorem wit_RequestEvents_memrd : (fun (s : State) => (hostReq s 4).any fun r => let n := littleEndian r.1.payload
      answerable s r.1 && 1 ≤ n && n ≤ 8192 && (hostPlace s r.2 false r.1.addr n).isSome) (arrives (hostFrame 4 priv (leBytes 8 64))) = true := by decide +kernel

theorem wit_RequestEvents_peer : (fun (s : State) => (nextFrame s 7).isSome) (arrives (peerFrame 7 [])) = true := by decide +kernel

theorem wit_RequestEvents_fenceFrame : (fun (s : State) => (nextFrame s 11).any fun f => (s.peers.any fun p => p.num == f.spkg) &&
      s.peers.all fun p => p.num != f.spkg || p.incmin ≤ littleEndian f.payload) (arrives (peerFrame 11 (leBytes 8 5))) = true := by decide +kernel

theorem wit_SignedObjects_signedRejected :
    ∀ x ∈ [(Instr.fenceCommand, (0 : Fin 5)), (.portRoleAssignment, 1), (.peerTable, 2), (.patchApplied, 3), (.firmwareImage, 4)], ∀ y ∈ [(Signed.fence 0 Fence.none, (0 : Fin 5)), (.ports [], 1), (.peers [], 2), (.patch [], 3), (.firmware 0, 4)], y.2 = x.2 →
    (fun (s : State) => match s.input with
        | .signed o key v valid => kindOf o == x.2 && (!valid || v ≤ keyVersion s.pkg key)
        | _ => false) (inp world (.signed y.1 0 0 true)) = true ∧ (fun (s : State) => match s.input with
        | .signed o key v valid => kindOf o == x.2 && (!valid || v ≤ keyVersion s.pkg key)
        | _ => false) (inp world (.signed y.1 0 1 false)) = true := by decide +kernel

theorem wit_SignedObjects_fenceCommand : (fun (s : State) => (signedOf s 0).any fun o => match o.1 with
      | .fence n f => fenceOk s n f
      | _ => false) (inp { world with vds := [], live := false } (.signed (.fence 0 { Fence.none with cores := 15, pch := 65535, slots := 1 }) 0 1 true)) = true := by decide +kernel

theorem wit_SignedObjects_portRoleAssignment : (fun (s : State) => (signedOf s 1).any fun o => match o.1 with
      | .ports rs => rs.length == 20 && (rs.filter (· == .host)).length ≤ 2 && s.ports.toList.all fun p => p.role == .off
      | _ => false) (inp world (.signed (.ports (List.replicate 2 .host ++ List.replicate 18 .peer)) 0 1 true)) = true := by decide +kernel

theorem wit_SignedObjects_peerTable : (fun (s : State) => (signedOf s 2).isSome) (inp linked (.signed (.peers [(3, List.replicate 32 1)]) 0 1 true)) = true := by decide +kernel

theorem wit_SignedObjects_patchApplied : (fun (s : State) => (signedOf s 3).any fun o => match o.1 with
      | .patch image => (readPatch image).any fun i => i.version == o.2.2
      | _ => false) (inp world (.signed (.patch patchImage) 0 1 true)) = true := by decide +kernel

theorem wit_SignedObjects_firmwareImage : (fun (s : State) => (signedOf s 4).isSome) (inp world (.signed (.firmware 5) 0 1 true)) = true := by decide +kernel

theorem wit_SignedObjects_mgmtFirmwareRestart : (fun (_ : State) => true) (world) = true := by decide +kernel

theorem wit_PackageEvents_peerLost : (fun (s : State) => match s.input with
      | .party n _ => s.peers.any fun p => p.num == n && !p.lost
      | _ => false) (inp linked (.party 3 0)) = true := by decide +kernel

theorem wit_PackageEvents_hostLost : (fun (s : State) => match s.input with
      | .party mac _ => s.hosts.contains mac
      | _ => false) (inp linked (.party 77 0)) = true := by decide +kernel

/-- Package 0 has adopted home 3 of VD 0, of which one record stands here. -/
def adopted3 : State :=
  { linked with peers := [⟨3, 0, 0, 1, 0, 0, false, [0]⟩], recs := [{ parseRec (leBytes 8 (3 * 2 ^ 53) ++ List.replicate 120 0) with size := 512 }] }

theorem wit_PackageEvents_homeReturn_sends : (fun (s : State) => match s.input with
      | .party n _ => (s.peers.find? fun p => p.num == n && !p.adopted.isEmpty && !p.lost).any fun p => match p.adopted with
          | [d] => (s.vd? d).isSome && !(homeRecs s n d).isEmpty && !s.hands.any fun x => x.pkg == n && x.vd == d
          | _ => false
      | _ => false) (inp adopted3 (.party 3 0)) = true := by decide +kernel

theorem wit_PackageEvents_homeReturn_ends : (fun (s : State) => match s.input with
      | .party n _ => (s.peers.find? fun p => p.num == n && !p.adopted.isEmpty && !p.lost).any fun p => match p.adopted with
          | [d] => (s.vd? d).isSome && (outFlow s n d).sent.isEmpty &&
              (s.hands.find? fun x => x.pkg == n && x.vd == d) == some ⟨n, d, homeRecs s n d, (homeTiles s n d).map Tile.name⟩
          | _ => false
      | _ => false) (inp { adopted3 with hands := [⟨3, 0, homeRecs adopted3 3 0, []⟩] } (.party 3 0)) = true := by decide +kernel

theorem wit_PackageEvents_coldStart : (fun (s : State) => mayStartCold s && match s.input with
      | .measure _ _ => true
      | _ => false) (inp State.reset (.measure 1349 none)) = true := by decide +kernel

theorem wit_PackageEvents_trainingComplete : (fun (s : State) => s.pkg.phase == .reduced && match s.input with
      | .train isSite n _ => n < if isSite then 4 else 12
      | _ => false) (inp (pkgBe world fun p => { p with phase := .reduced }) (.train false 11 true)) = true := by decide +kernel

theorem wit_PackageEvents_fullServiceEntry : mayEnter ({ pkgBe world (fun p => { p with phase := .reduced, htrain := BitVec.allOnes 12, scanned := true }) with sites := Vector.replicate 4 { Site.reset with trained := true } }) = true := by decide +kernel

theorem wit_PackageEvents_retired : (fun (s : State) => match s.input with
      | .chan st ch n => st < 12 && 1 ≤ n && ch + n ≤ 64
      | _ => false) (inp world (.chan 11 63 1)) = true := by decide +kernel

theorem wit_PackageEvents_recalStart : (fun (s : State) => match s.input with
      | .chan st ch _ => st < 12 && ch < 64
      | _ => false) (inp world (.chan 11 63 0)) = true := by decide +kernel

theorem wit_PackageEvents_recal : (fun (s : State) => match s.input with
      | .chan st ch _ => s.pkg.recal.contains (st, ch)
      | _ => false) (inp (pkgBe world fun p => { p with recal := [(11, 63)] }) (.chan 11 63 0)) = true := by decide +kernel

theorem wit_PackageEvents_thermal : (fun (s : State) => match s.input with
      | .thermal die temp watts => die < 8 && 600 < dieClock s die && (1050 < temp || 2950 < watts)
      | _ => false) (inp (pkgBe world fun p => { p with clocks := Vector.replicate 8 1200 }) (.thermal 7 1051 2950)) = true := by decide +kernel

theorem wit_PackageEvents_thermalRecovery : (fun (s : State) => match s.input with
      | .pick die => die < 8 && dieClock s die < if s.pkg.phase == .full then 1200 else 600
      | _ => false) (inp world (.pick 7)) = true := by decide +kernel

theorem wit_PackageEvents_thermalStop : (fun (s : State) => s.pkg.powered && match s.input with
      | .thermal _ temp _ => 1150 ≤ temp
      | _ => false) (inp world (.thermal 7 1150 0)) = true := by decide +kernel

theorem wit_RecoveryEvents_regatherWalk : (fun (s : State) => match s.input with
      | .tile name => (s.vd? (tileVd name)).any fun v => v.num == tileVd name && walkDue s v.num name && !goneWanted s v.num name &&
          !(v.staged.any fun w => w.name == name) && (s.rec? name).any fun r => r.prim && !r.complete && !r.root && r.acq.isEmpty &&
            (rebuildTask s r.kcopy name).isNone
      | _ => false) (inp { withTasks busy [{ otherTask 3 .waiting with desc := (task1.desc.set 0 (2 ^ 60)).set 4 5 }] with recs := [{ rec5 with lost := true }] } (.tile 5)) = true := by decide +kernel

theorem wit_RecoveryEvents_lehrReplicaComplete : (fun (s : State) => (lehrDue s).any fun r => (r.lstep == 1 || r.lstep == 2) &&
      !rangePending s (tileVd r.name) r.lplace.toNat (r.size + 512)) (inp { withTile with recs := [{ rec5 with anchor := true, apend := true, lstep := 1, lplace := BitVec.ofNat 64 durA }] } (.tile 5)) = true := by decide +kernel

theorem wit_RecoveryEvents_lehrReplicaComplete_2 : (fun (s : State) => (lehrDue s).any fun r => (r.lstep == 1 || r.lstep == 2) &&
      !rangePending s (tileVd r.name) r.lplace.toNat (r.size + 512)) (inp { withTile with recs := [{ rec5 with anchor := true, apend := true, lstep := 2, lplace := BitVec.ofNat 64 durA }] } (.tile 5)) = true := by decide +kernel

theorem wit_RecoveryEvents_lehr : ∀ n ∈ [0, 3], (fun (s : State) => (lehrDue s).any fun r => (r.lstep == 0 || r.lstep == 3) && r.replica == 0)
    (inp { withTile with recs := [{ rec5 with anchor := true, apend := true, lstep := n }] } (.tile 5)) = true := by decide +kernel

theorem wit_RecoveryEvents_tileDigestExchange : (fun (s : State) => match s.input with
      | .digest name _ => vdIs s (tileVd name) (fun v => v.pairs && v.num == tileVd name) &&
          tileIs s (tileVd name) name fun u => u.sealed && u.resident && !u.matched && (s.rec? name).isSome
      | _ => false) (inp (mirrorVd { withTile with tiles := [{ tile5 with matched := false }] }) (.digest 5 0)) = true := by decide +kernel

theorem wit_RecoveryEvents_uncorrectableError : (fun (s : State) => match s.input with
      | .unit pa => match target pa with
        | .hbm _ _ | .dur _ _ => true
        | _ => false
      | _ => false) (inp busy (.unit 0x300000)) = true := by decide +kernel

theorem wit_RecoveryEvents_computeDieLoss : (fun (s : State) => match s.input with
      | .pick die => die < 8 && !s.pkg.diesOut.getLsbD die
      | _ => false) (inp busy (.pick 7)) = true := by decide +kernel

theorem wit_RecoveryEvents_baseDieLoss : (fun (s : State) => match s.input with
      | .pick bd => bd < 4 && !s.pkg.basesOut.getLsbD bd
      | _ => false) (inp busy (.pick 3)) = true := by decide +kernel

/-! Decoding, steps and invariants. -/

/-- A round that has begun, with a task at its A-slice, and at its C-slice with words at its program counter (R19, R43). -/
def turnA : State := State.reset.withFetchWord 32 0x0C810003
def turnC : State := State.reset.withFetchWord 64 0x00030000D010C007

theorem wit_StepRunsDecodedInstruction :
    (let t := { turnA with agenda := [], slice := Slice.a }
     turnA.agenda = .slice .a :: [] ∧ runsA t = true ∧ copyFaulted t.ctx = false ∧ (match fetch t t.ctx.a.pc with
      | .ok w0 w1 _ => w0 == 0x0C810003 && w1 == 0
      | _ => false) = true ∧ (decodeWords 0x0C810003 0).toOption = some (.muli 4 1 ⟨false, 0⟩ 3)) ∧
    (let t := { turnC with agenda := [], slice := Slice.c }
     turnC.agenda = .slice .c :: [] ∧ cutDone t.ctx = false ∧ runsC t = true ∧ (∀ p ∈ t.ctx.c.pend, t.ctx.c.cc < p.due) ∧ frozen t = none ∧
     (match dispatchC t with
      | .queued u => frozen u == none && (nextHead u.ctx.c).any fun e => let x := takeHead u e
          (decodeWords x.ctx.c.cur.w0 x.ctx.c.cur.w1).toOption == some (.vsplat (.v 1) 3 .i32 mods)
      | _ => false) = true) ∧
    (let s := withC turnC fun c => { c with queues := c.queues.set 0 [⟨0x202000, 0xD010C007, 0x00030000, 0⟩], hold := true, seq := 1 }
     let t := { s with agenda := [], slice := Slice.c }
     (match dispatchC t with
      | .idle => (nextHead t.ctx.c).isSome
      | _ => false) = true) ∧
    (let s := State.reset.withFetchWord 32 0xE8C20000
     let t := { s with agenda := [], slice := Slice.c }
     (match dispatchC t with
      | .front _ w0 w1 => (decodeWords w0 w1).toOption == some (.fset 3 2)
      | _ => false) = true) ∧
    Instr.hasEncoding .linkDown = false := by decide +kernel

/-- A well-formed instruction of each group, the words of its encoding, and what they decode to (R78 to R101). -/
theorem test_roundTrip :
    (∀ i ∈ [Instr.bfx 9 3 8 3, .call 31 5, .jmp 5, .callr 1 2, .jr 31, .lds 2 12 3, .sts 2 255 63, .trap 4095, .brk 7, .sysrd 3 0x10, .syswr 9 4,
        .add 31 0 31 ⟨true, 15⟩, .sget 5 3 .base, .ldDExt 4 3 (-16), .cpyGth ⟨4, 5, 6, 7, 47⟩, .bind 1 2 3, .vfma (.v 4) (.v 1) (.o 2) .stream .f32 ⟨5, true, 2, 1, 15, ⟨false, .rtz⟩⟩,
        .vspill 255 (.lq 3) mods, .mmaz 4 4 0 .ind .mx4mx4 2 fm, .mdrain 7 1 2 drain1 fm, .rsoftmax row1, .fwait 15 15],
      i.wf = true ∧ i.hasEncoding = true ∧ ((decode (encodeBytes i)).toOption = some (i, 4 * (encode i).length))) := by decide +kernel

theorem wit_DecodeOfEncode : (Instr.fset 15 15).wf = true ∧ (Instr.fset 15 15).hasEncoding = true := by decide +kernel

theorem wit_FlagEncoding : (0xE8C20000 : BitVec 32).toNat / 2 ^ 26 = 0x3A ∧ (0xEBFFFFFF : BitVec 32).toNat / 2 ^ 26 = 0x3A := by decide +kernel

theorem wit_MemoryStaysCanonical :
    Memory.wf turnA.mem = true ∧ Memory.wf turnA.media = true ∧ (match step turnA with
      | .next _ => true
      | _ => false) = true := by decide +kernel

theorem wit_EventFrames : (match exec .linkDown (inp linked (.pick 1)) with
      | .next _ => true
      | _ => false) = true := by decide +kernel

/-- Words that decode to the instructions the spec prints beside them, and words that it calls unallocated (R83, R102, R121, R201). -/
theorem test_decodedWords :
    (∀ x ∈ [(0x04642817, 0, Instr.add 3 4 5 ⟨true, 7⟩), (0x0C810003, 0, .muli 4 1 ⟨false, 0⟩ 3), (0x40E0C000, 0, .loop 7 0), (0x84E24FFC, 0, .ldW 7 2 (-4)),
        (0x94853200, 7, .cpyIn ⟨4, 5, 6, 2, 7⟩), (0x988531C8, 0, .amoCas 4 5 6 .i64), (0x9C050102, 0, .tacq 2 5), (0x80003010, 0, .sgo 3),
        (0xC0928B03, 0x00050000, .vmulz (.v 9) (.v 10) (.v 11) .f32 mods), (0xD010C007, 0x00030000, .vsplat (.v 1) 3 .i32 mods),
        (0xE0000000, 0x29800000, .wbsel 0 5 6 ⟨0, 0⟩), (0xE8C20000, 0, .fset 3 2), (0, 0, .illegalZeroWord)],
      (decodeWords x.1 x.2.1).toOption = some x.2.2) ∧
    (∀ x ∈ [(0xC0404204, 0x0C552108), (0xD4204000, 0x00050001), (0xE1010006, 0x20000010)], (decodeWords x.1 x.2).toOption = none) := by decide +kernel

/-! Every constructor's decoding, shown by a word written out from the spec's encoding of it. -/

/-- The modifiers of the words below: a negated p5; SF 9 and AF 6, with p37 and Z, with p37, with neither. -/
def q5 : Pq := ⟨true, 5⟩
def vm : VMods := ⟨37, true, 9, 6, 0, ⟨false, .rne⟩⟩
def vm0 : VMods := ⟨37, false, 9, 6, 0, ⟨false, .rne⟩⟩
def v0 : VMods := ⟨0, false, 9, 6, 0, ⟨false, .rne⟩⟩

/-- SYS, and the illegal words (R79, R85). -/
theorem test_wordsSys :
    ∀ x ∈ [(0x00000000, 0, Instr.illegalZeroWord), (0x00001000, 0, .nop), (0x00002123, 0, .trap 0x123), (0x00003FED, 0, .brk 0xFED),
        (0x00004000, 0, .eret), (0x00005000, 0, .done), (0x02206011, 0, .sysrd 17 0x11), (0x00097008, 0, .syswr 8 9),
        (0x00098000, 0, .qpushXq 9), (0x00098001, 0, .qpushYq 9), (0x02209001, 0, .qpopYq 17), (0x02209000, 0, .qpopXq 17),
        (0xFE345678, 0, .definedIllegal 0x2345678), (0xFBABCDEF, 0, .reservedEscape 0x3ABCDEF), (0x3C000005, 0, .unallocatedMajor 0x0F 5 0),
        (0x68000005, 0, .unallocatedMajor 0x1A 5 0), (0xF0000005, 0x89ABCDEF, .unallocatedMajor 0x3C 5 0x89ABCDEF)],
      (decodeWords x.1 x.2.1).toOption = some x.2.2 := by decide +kernel

/-- SRR (R81, R83, R84). -/
theorem test_wordsSrr :
    ∀ x ∈ [(0x0629B015, 0, Instr.add 17 9 22 q5), (0x0629B035, 0, .sub 17 9 22 q5), (0x0629B055, 0, .mul 17 9 22 q5),
        (0x0629B075, 0, .mulh 17 9 22 q5), (0x0629B095, 0, .mulhn 17 9 22 q5), (0x0629B0B5, 0, .div 17 9 22 q5),
        (0x0629B0D5, 0, .divn 17 9 22 q5), (0x0629B0F5, 0, .rem 17 9 22 q5), (0x0629B115, 0, .remn 17 9 22 q5),
        (0x0629B135, 0, .and 17 9 22 q5), (0x0629B155, 0, .or 17 9 22 q5), (0x0629B175, 0, .xor 17 9 22 q5), (0x0629B195, 0, .andn 17 9 22 q5),
        (0x0629B1B5, 0, .orn 17 9 22 q5), (0x0629B1D5, 0, .shl 17 9 22 q5), (0x0629B1F5, 0, .shr 17 9 22 q5), (0x0629B215, 0, .sra 17 9 22 q5),
        (0x0629B235, 0, .rotl 17 9 22 q5), (0x0629B255, 0, .rotr 17 9 22 q5), (0x0629B275, 0, .min 17 9 22 q5),
        (0x0629B295, 0, .max 17 9 22 q5), (0x0629B2B5, 0, .minn 17 9 22 q5), (0x0629B2D5, 0, .maxn 17 9 22 q5),
        (0x0629B2F5, 0, .seq 17 9 22 q5), (0x0629B315, 0, .sne 17 9 22 q5), (0x0629B335, 0, .slt 17 9 22 q5), (0x0629B355, 0, .sltn 17 9 22 q5),
        (0x0629B375, 0, .sle 17 9 22 q5), (0x0629B395, 0, .slen 17 9 22 q5), (0x0629B3B5, 0, .sel 17 9 22 q5), (0x062903D5, 0, .clz 17 9 q5),
        (0x062903F5, 0, .ctz 17 9 q5), (0x06290415, 0, .popc 17 9 q5)],
      (decodeWords x.1 x.2.1).toOption = some x.2.2 := by decide +kernel

/-- SRI, with its immediate in the word and in an extension word (R81, R82, R84). -/
theorem test_wordsSri :
    ∀ x ∈ [(0x0A29AAA5, 0, Instr.addi 17 9 q5 0x2a5), (0x0A29AC00, 0x89ABCDEF, .addiExt 17 9 q5 0x89abcdef), (0x0E29AAA5, 0, .muli 17 9 q5 0x2a5),
        (0x0E29AC00, 0x89ABCDEF, .muliExt 17 9 q5 0x89abcdef), (0x1229AAA5, 0, .andi 17 9 q5 0x2a5),
        (0x1229AC00, 0x89ABCDEF, .andiExt 17 9 q5 0x89abcdef), (0x1629AAA5, 0, .ori 17 9 q5 0x2a5),
        (0x1629AC00, 0x89ABCDEF, .oriExt 17 9 q5 0x89abcdef), (0x1A29AAA5, 0, .xori 17 9 q5 0x2a5),
        (0x1A29AC00, 0x89ABCDEF, .xoriExt 17 9 q5 0x89abcdef), (0x1E29AAA5, 0, .slti 17 9 q5 0x2a5),
        (0x1E29AC00, 0x89ABCDEF, .sltiExt 17 9 q5 0x89abcdef), (0x2229AAA5, 0, .sltni 17 9 q5 0x2a5),
        (0x2229AC00, 0x89ABCDEF, .sltniExt 17 9 q5 0x89abcdef), (0x2629A825, 0, .shli 17 9 q5 37),
        (0x2629AC00, 0x00000025, .shliExt 17 9 q5 37), (0x2A29A825, 0, .shri 17 9 q5 37), (0x2A29AC00, 0x00000025, .shriExt 17 9 q5 37),
        (0x2E29A825, 0, .srai 17 9 q5 37), (0x2E29AC00, 0x00000025, .sraiExt 17 9 q5 37), (0x3220AAA5, 0, .ldi 17 q5 0x2a5),
        (0x3220AC00, 0x89ABCDEF, .ldiExt 17 q5 0x89abcdef), (0x3620AAA5, 0, .ldhi 17 q5 0x2a5),
        (0x3620AC00, 0x89ABCDEF, .ldhiExt 17 q5 0x89abcdef)],
      (decodeWords x.1 x.2.1).toOption = some x.2.2 := by decide +kernel

/-- SBF, SBR, SJL, and the other forms of control and of spill slots (R81, R82, R84). -/
theorem test_wordsControl :
    ∀ x ∈ [(0x3A292130, 0, Instr.bfx 17 9 33 12), (0x3A296130, 0, .bfxs 17 9 33 12), (0x3A29A130, 0, .bfi 17 9 33 12),
        (0x413609A5, 0, .beq 9 22 0x9A5), (0x41361000, 0x89ABCDEF, .beqExt 9 22 0x89ABCDEF), (0x413629A5, 0, .bne 9 22 0x9A5),
        (0x41363000, 0x89ABCDEF, .bneExt 9 22 0x89ABCDEF), (0x413649A5, 0, .blt 9 22 0x9A5), (0x41365000, 0x89ABCDEF, .bltExt 9 22 0x89ABCDEF),
        (0x413669A5, 0, .bge 9 22 0x9A5), (0x41367000, 0x89ABCDEF, .bgeExt 9 22 0x89ABCDEF), (0x413689A5, 0, .bltn 9 22 0x9A5),
        (0x41369000, 0x89ABCDEF, .bltnExt 9 22 0x89ABCDEF), (0x4136A9A5, 0, .bgen 9 22 0x9A5),
        (0x4136B000, 0x89ABCDEF, .bgenExt 9 22 0x89ABCDEF), (0x4120C9A5, 0, .loop 9 0x9A5), (0x4120D000, 0x89ABCDEF, .loopExt 9 0x89ABCDEF),
        (0x4632345E, 0, .call 17 0x12345E), (0x4412345E, 0, .jmp 0x12345E), (0x4A290000, 0, .callr 17 9), (0x48090000, 0, .jr 9),
        (0x4E393680, 0, .lds 17 201 45), (0x4E3936C0, 0, .sts 17 201 45)],
      (decodeWords x.1 x.2.1).toOption = some x.2.2 := by decide +kernel

/-- STRM and AMEM (R86, R87). -/
theorem test_wordsMemory :
    ∀ x ∈ [(0x8009B000, 0, Instr.sset 11 .base 9), (0x8009B100, 0, .sset 11 .etype 9), (0x8009B200, 0, .sset 11 .geom 9),
        (0x8009B300, 0, .sset 11 .sbase 9), (0x8009B400, 0, .sset 11 .sstride 9), (0x8009B800, 0, .sset 11 (.loop 0) 9),
        (0x8009BD00, 0, .sset 11 (.loop 5) 9), (0x8000B010, 0, .sgo 11), (0x8220B020, 0, .sget 17 11 .base),
        (0x8220BD20, 0, .sget 17 11 (.loop 5)), (0x862909A5, 0, .ldB 17 9 0x9A5), (0x86291000, 0x89ABCDEF, .ldBExt 17 9 0x89ABCDEF),
        (0x862929A5, 0, .ldH 17 9 0x9A5), (0x86293000, 0x89ABCDEF, .ldHExt 17 9 0x89ABCDEF), (0x862949A5, 0, .ldW 17 9 0x9A5),
        (0x86295000, 0x89ABCDEF, .ldWExt 17 9 0x89ABCDEF), (0x862969A5, 0, .ldD 17 9 0x9A5), (0x86297000, 0x89ABCDEF, .ldDExt 17 9 0x89ABCDEF),
        (0x862989A5, 0, .ldBn 17 9 0x9A5), (0x86299000, 0x89ABCDEF, .ldBnExt 17 9 0x89ABCDEF), (0x8629A9A5, 0, .ldHn 17 9 0x9A5),
        (0x8629B000, 0x89ABCDEF, .ldHnExt 17 9 0x89ABCDEF), (0x8629C9A5, 0, .ldWn 17 9 0x9A5),
        (0x8629D000, 0x89ABCDEF, .ldWnExt 17 9 0x89ABCDEF), (0x8A2909A5, 0, .stB 17 9 0x9A5), (0x8A291000, 0x89ABCDEF, .stBExt 17 9 0x89ABCDEF),
        (0x8A2929A5, 0, .stH 17 9 0x9A5), (0x8A293000, 0x89ABCDEF, .stHExt 17 9 0x89ABCDEF), (0x8A2949A5, 0, .stW 17 9 0x9A5),
        (0x8A295000, 0x89ABCDEF, .stWExt 17 9 0x89ABCDEF), (0x8A2969A5, 0, .stD 17 9 0x9A5), (0x8A297000, 0x89ABCDEF, .stDExt 17 9 0x89ABCDEF),
        (0x8C0909A5, 0, .vld 0 9 0x9A5), (0x8C091000, 0x89ABCDEF, .vldExt 0 9 0x89ABCDEF), (0x8C0929A5, 0, .vld 1 9 0x9A5),
        (0x8C093000, 0x89ABCDEF, .vldExt 1 9 0x89ABCDEF), (0x8C0949A5, 0, .vld 2 9 0x9A5), (0x8C095000, 0x89ABCDEF, .vldExt 2 9 0x89ABCDEF),
        (0x8C0969A5, 0, .vld 3 9 0x9A5), (0x8C097000, 0x89ABCDEF, .vldExt 3 9 0x89ABCDEF), (0x8C0989A5, 0, .ldx 9 0x9A5),
        (0x8C099000, 0x89ABCDEF, .ldxExt 9 0x89ABCDEF), (0x900909A5, 0, .vst 0 9 0x9A5), (0x90091000, 0x89ABCDEF, .vstExt 0 9 0x89ABCDEF),
        (0x900929A5, 0, .vst 1 9 0x9A5), (0x90093000, 0x89ABCDEF, .vstExt 1 9 0x89ABCDEF), (0x900949A5, 0, .stx 9 0x9A5),
        (0x90095000, 0x89ABCDEF, .stxExt 9 0x89ABCDEF)],
      (decodeWords x.1 x.2.1).toOption = some x.2.2 := by decide +kernel

/-- CPY, AMO and ACTL (R86 to R89). -/
theorem test_wordsAddress :
    ∀ x ∈ [(0x9629B600, 0x00000027, Instr.cpyIn ⟨17, 9, 22, 6, 39⟩), (0x9629B620, 0x00000027, .cpyOut ⟨17, 9, 22, 6, 39⟩),
        (0x9629B640, 0x00000027, .cpy2dIn ⟨17, 9, 22, 6, 39⟩), (0x9629B660, 0x00000027, .cpy2dOut ⟨17, 9, 22, 6, 39⟩),
        (0x9629B680, 0x00000027, .cpyGth ⟨17, 9, 22, 6, 39⟩), (0x9629B6A0, 0x00000027, .cpyWb ⟨17, 9, 22, 6, 39⟩),
        (0x940906C0, 0x00000027, .cpyLink 9 6 39), (0x940000E0, 0x00000027, .cpyKick 39), (0x9A29B020, 0, .amoAdd 17 9 22 .f32),
        (0x9809B408, 0, .damoAdd 9 22 .i64), (0x9A29B060, 0, .amoMin 17 9 22 .f32), (0x9809B458, 0, .damoMin 9 22 .n64),
        (0x9A29B0A0, 0, .amoMax 17 9 22 .f32), (0x9809B498, 0, .damoMax 9 22 .n64), (0x9A29B0C8, 0, .amoOr 17 9 22 .i64),
        (0x9809B4C0, 0, .damoOr 9 22 .i32), (0x9A29B108, 0, .amoAnd 17 9 22 .i64), (0x9A29B148, 0, .amoXor 17 9 22 .i64),
        (0x9A29B188, 0, .amoSwap 17 9 22 .i64), (0x9A29B1C8, 0, .amoCas 17 9 22 .i64), (0x9C000300, 0, .bwait 6), (0x9C090301, 0, .badd 6 9),
        (0x9C090682, 0, .tacq 13 9), (0x9C09B683, 0, .talloc 13 9 22), (0x9C000684, 0, .tseal 13), (0x9C000685, 0, .trel 13),
        (0x9E200686, 0, .taddr 17 13), (0x9C090008, 0, .acq 9), (0x9C090009, 0, .rel 9), (0x9E29B00A, 0, .bind 17 9 22),
        (0x9C00000B, 0, .fenceT), (0x9C00008B, 0, .fenceD), (0x9C00010B, 0, .fenceP), (0x9C00018B, 0, .fenceS), (0x9C00020B, 0, .fenceDur),
        (0x9C00000C, 0, .dbar), (0x9C000010, 0, .pbar), (0x9C09B011, 0, .pflush 9 22), (0x9C000692, 0, .pseal 13), (0x9C090018, 0, .spawn 9),
        (0x9C000019, 0, .yield), (0x9C09B01A, 0, .xlpf 9 22)],
      (decodeWords x.1 x.2.1).toOption = some x.2.2 := by decide +kernel

/-- Majors 0x30 and 0x31 (R90 to R94). -/
theorem test_wordsVector :
    ∀ x ∈ [(0xC08D5800, 0x025C9600, Instr.vadd (.v 8) (.o 5) (.v 24) .bf16 vm), (0xC08D5801, 0x025D9600, .vsub (.v 8) (.o 5) (.v 24) .f32 vm),
        (0xC08D5802, 0x025A9600, .vmul (.v 8) (.o 5) (.v 24) .i16 vm), (0xC08D5803, 0x025D9600, .vmulz (.v 8) (.o 5) (.v 24) .f32 vm),
        (0xC08D5804, 0xFA5D9600, .vfma (.v 8) (.o 5) (.v 24) (.lq 2) .f32 vm),
        (0xC08D5805, 0xFA5C9600, .vfms (.v 8) (.o 5) (.v 24) (.lq 2) .bf16 vm),
        (0xC08D5806, 0xFA5D9600, .vfnma (.v 8) (.o 5) (.v 24) (.lq 2) .f32 vm), (0xC08D5807, 0x02599600, .vmulh (.v 8) (.o 5) (.v 24) .i8 vm),
        (0xC08D5808, 0x025B9600, .vmulhn (.v 8) (.o 5) (.v 24) .i32 vm), (0xC08D5809, 0x025D9600, .vmin (.v 8) (.o 5) (.v 24) .f32 vm),
        (0xC08D580A, 0x025C9600, .vmax (.v 8) (.o 5) (.v 24) .bf16 vm), (0xC08D580B, 0x025A9600, .vminn (.v 8) (.o 5) (.v 24) .i16 vm),
        (0xC08D580C, 0x02589600, .vmaxn (.v 8) (.o 5) (.v 24) .i4 vm), (0xC08D400D, 0x025D9600, .vabs (.v 8) (.o 5) .f32 vm),
        (0xC08D400E, 0x02599600, .vneg (.v 8) (.o 5) .i8 vm), (0xC48D5800, 0x025B9600, .vand (.v 8) (.o 5) (.v 24) .i32 vm),
        (0xC48D5801, 0x02599600, .vor (.v 8) (.o 5) (.v 24) .i8 vm), (0xC48D5802, 0x025A9600, .vxor (.v 8) (.o 5) (.v 24) .i16 vm),
        (0xC48D5803, 0x02589600, .vandn (.v 8) (.o 5) (.v 24) .i4 vm), (0xC48D4004, 0x025B9600, .vnot (.v 8) (.o 5) .i32 vm),
        (0xC48D5805, 0x025A9600, .vshl (.v 8) (.o 5) (.v 24) .i16 vm), (0xC48D5806, 0x025B9600, .vshr (.v 8) (.o 5) (.v 24) .i32 vm),
        (0xC48D5807, 0x02599600, .vsra (.v 8) (.o 5) (.v 24) .i8 vm), (0xC48D5B08, 0x025B9600, .vshli (.v 8) (.o 5) 27 .i32 vm),
        (0xC48D5F09, 0x025B9600, .vshri (.v 8) (.o 5) 31 .i32 vm), (0xC48D4F0A, 0x025A9600, .vsrai (.v 8) (.o 5) 15 .i16 vm),
        (0xC48D580B, 0xFA5A9600, .vfshl (.v 8) (.o 5) (.v 24) (.lq 2) .i16 vm),
        (0xC48D580C, 0xFA599600, .vfshr (.v 8) (.o 5) (.v 24) (.lq 2) .i8 vm), (0xC48D400D, 0x025B9600, .vpopc (.v 8) (.o 5) .i32 vm),
        (0xC48D400E, 0x025A9600, .vclz (.v 8) (.o 5) .i16 vm), (0xC48D400F, 0x02599600, .vctz (.v 8) (.o 5) .i8 vm)],
      (decodeWords x.1 x.2.1).toOption = some x.2.2 := by decide +kernel

/-- Majors 0x32 and 0x33 (R90 to R93, R95, R96). -/
theorem test_wordsCompare :
    ∀ x ∈ [(0xCA9D5800, 0x025D9600, Instr.vceq 41 (.o 5) (.v 24) .f32 vm), (0xCA9D5801, 0x02599600, .vcne 41 (.o 5) (.v 24) .i8 vm),
        (0xCA9D5802, 0x025C9600, .vclt 41 (.o 5) (.v 24) .bf16 vm), (0xCA9D5803, 0x025B9600, .vcle 41 (.o 5) (.v 24) .i32 vm),
        (0xCA9D5804, 0x025A9600, .vcltn 41 (.o 5) (.v 24) .i16 vm), (0xCA9D5805, 0x02599600, .vclen 41 (.o 5) (.v 24) .i8 vm),
        (0xCA9D5806, 0x025D9600, .vcun 41 (.o 5) (.v 24) .f32 vm), (0xCA9D5810, 0x02589600, .pand 41 53 24 vm),
        (0xCA9D5811, 0x02589600, .por 41 53 24 vm), (0xCA9D5812, 0x02589600, .pxor 41 53 24 vm), (0xCA9D5813, 0x02589600, .pandn 41 53 24 vm),
        (0xCA9D4014, 0x02589600, .pnot 41 53 vm), (0xCA900015, 0x02589600, .pset 41 vm), (0xCA900016, 0x02589600, .pclr 41 vm),
        (0xCA94C017, 0x02599600, .plt 41 19 .i8 vm), (0xCA94C018, 0x025D9600, .pge 41 19 .f32 vm),
        (0xCC8D4000, 0x025D9600, .vcvt (.v 8) (.o 5) .i4 .f32 vm), (0xCC8D4001, 0x025D9600, .vcvt (.v 8) (.o 5) .i8 .f32 vm),
        (0xCC8D4002, 0x025D9600, .vcvt (.v 8) (.o 5) .i16 .f32 vm), (0xCC8D4003, 0x025C9600, .vcvt (.v 8) (.o 5) .i32 .bf16 vm),
        (0xCC8D4004, 0x02599600, .vcvt (.v 8) (.o 5) .bf16 .i8 vm), (0xCC8D4005, 0x025A9600, .vcvt (.v 8) (.o 5) .f32 .i16 vm),
        (0xCC8D5808, 0x025A9600, .vqnt (.v 8) (.o 5) (.v 24) .i16 vm), (0xCC8D5809, 0x02599600, .vdqnt (.v 8) (.o 5) (.v 24) .i8 vm),
        (0xCC8D580A, 0x02599600, .vpack4 (.v 8) (.o 5) (.v 24) .i8 vm), (0xCC8D400B, 0x02589600, .vunpk4 (.v 8) (.o 5) .i4 vm),
        (0xCC8D400C, 0x025C9600, .vwid2 (.v 8) (.o 5) .bf16 vm), (0xCC8D400D, 0x02599600, .vwid4 (.v 8) (.o 5) .i8 vm),
        (0xCC8D580E, 0x025A9600, .vwmul2 (.v 8) (.o 5) (.v 24) .i16 vm),
        (0xCC8E9809, 0x025E96E0, .vdqnt (.v 8) .stream (.v 24) .mx ⟨37, true, 9, 6, 14, ⟨false, .rne⟩⟩)],
      (decodeWords x.1 x.2.1).toOption = some x.2.2 := by decide +kernel

/-- Majors 0x34 to 0x37, and rounding (R54, R90 to R93, R97, R98). -/
theorem test_wordsPermute :
    ∀ x ∈ [(0xD08D5800, 0x02599600, Instr.vperm (.v 8) (.o 5) (.v 24) .i8 vm),
        (0xD08D5801, 0xFA5C9600, .vperm2 (.v 8) (.o 5) (.v 24) (.lq 2) .bf16 vm), (0xD08D4002, 0x02529600, .vcomp (.v 8) (.o 5) .i16 vm0),
        (0xD08D4003, 0x025D9600, .vexpd (.v 8) (.o 5) .f32 vm), (0xD08D5804, 0xFA5B9600, .vslup (.v 8) (.o 5) 24 (.lq 2) .i32 vm),
        (0xD08D5805, 0xFA5B9600, .vsldn (.v 8) (.o 5) 24 (.lq 2) .i32 vm), (0xD08D5806, 0x025D9600, .vbcast (.v 8) (.o 5) 24 .f32 vm),
        (0xD084C007, 0x025A9600, .vsplat (.v 8) 19 .i16 vm), (0xD08D4008, 0x02589600, .vmov (.v 8) (.o 5) vm),
        (0xD3DE4008, 0x02589600, .vmov (.sq 1) (.y 1) vm), (0xD3BBC008, 0x025896E0, .vmov .stream (.v 47) ⟨37, true, 9, 6, 14, ⟨false, .rne⟩⟩),
        (0xD084D809, 0x00019600, .vins (.v 8) 19 24 .i8 v0), (0xD11D580A, 0x00059600, .vext 17 (.o 5) 24 .f32 v0),
        (0xD084C00B, 0x025B9600, .vidx (.v 8) 19 .i32 vm), (0xD48D4000, 0x02559600, .vrsum (.v 8) (.o 5) .f32 vm0),
        (0xD48D4001, 0x02519600, .vrmax (.v 8) (.o 5) .i8 vm0), (0xD48D4002, 0x02549600, .vrmin (.v 8) (.o 5) .bf16 vm0),
        (0xD48D4903, 0x02599600, .vgmax (.v 8) (.o 5) 9 .i8 vm), (0xD48D4004, 0x025B9600, .vscan (.v 8) (.o 5) .i32 vm),
        (0xD88D4000, 0x025D9600, .vrcpe (.v 8) (.o 5) .f32 vm), (0xD88D4001, 0x025D9600, .vrsqe (.v 8) (.o 5) .f32 vm),
        (0xD88D5802, 0x025D9600, .vrcps (.v 8) (.o 5) (.v 24) .f32 vm), (0xD88D5803, 0x025D9600, .vrsqs (.v 8) (.o 5) (.v 24) .f32 vm),
        (0xD88D4008, 0x025D9600, .vexp2F (.v 8) (.o 5) .f32 vm), (0xD88D4009, 0x025D9600, .vlog2F (.v 8) (.o 5) .f32 vm),
        (0xD88D400A, 0x025D9600, .vtanhF (.v 8) (.o 5) .f32 vm), (0xD88D400C, 0x025D9600, .vexp2X (.v 8) (.o 5) .f32 vm),
        (0xD88D400D, 0x025D9600, .vlog2X (.v 8) (.o 5) .f32 vm), (0xD88D400E, 0x025D9600, .vtanhX (.v 8) (.o 5) .f32 vm),
        (0xD884D810, 0x025B9600, .vrng (.v 8) 19 24 vm), (0xD884D811, 0x02589600, .vrngD (.v 8) 19 24 vm),
        (0xDC0D5802, 0x02589600, .vspill 152 (.o 5) vm), (0xDC801807, 0x02589600, .vfill (.v 8) 216 vm),
        (0xC08D5801, 0x025D9601, .vsub (.v 8) (.o 5) (.v 24) .f32 ⟨37, true, 9, 6, 0, ⟨false, .rtz⟩⟩),
        (0xC08D5801, 0x025D9602, .vsub (.v 8) (.o 5) (.v 24) .f32 ⟨37, true, 9, 6, 0, ⟨false, .rdn⟩⟩),
        (0xC08D5801, 0x025D9603, .vsub (.v 8) (.o 5) (.v 24) .f32 ⟨37, true, 9, 6, 0, ⟨false, .rup⟩⟩),
        (0xC08D5801, 0x025A9604, .vsub (.v 8) (.o 5) (.v 24) .i16 ⟨37, true, 9, 6, 0, ⟨true, .rne⟩⟩)],
      (decodeWords x.1 x.2.1).toOption = some x.2.2 := by decide +kernel

/-- MAT (R99). -/
theorem test_wordsMatrix :
    ∀ x ∈ [(0xE0000000, 0x9E009620, Instr.wbsel 2 19 24 ⟨9, 6⟩), (0xE0D00000, 0x00009600, .mzero 5 ⟨9, 6⟩),
        (0xE1400AE0, 0xD0009630, .mma 4 13 3 .s1x4 .bf16bf16 0xAE0 ⟨9, 6⟩), (0xE1C09AE0, 0xD0009630, .mmaz 4 13 3 .s4x1 .mx8mx8 0xAE0 ⟨9, 6⟩),
        (0xE1412AE0, 0xD0009630, .mma 4 13 3 .s2x2 .bf16mx8 0xAE0 ⟨9, 6⟩), (0xE1C03AE0, 0xD0009630, .mmaz 4 13 3 .s1x4 .mx6mx6 0xAE0 ⟨9, 6⟩),
        (0xE140CAE0, 0xD0009630, .mma 4 13 3 .s4x1 .mx8mx4 0xAE0 ⟨9, 6⟩), (0xE1C15AE0, 0xD0009630, .mmaz 4 13 3 .s2x2 .mx4mx8 0xAE0 ⟨9, 6⟩),
        (0xE1406AE0, 0xD0009630, .mma 4 13 3 .s1x4 .bf16mx4 0xAE0 ⟨9, 6⟩), (0xE1C0FAE0, 0xD0009630, .mmaz 4 13 3 .s4x1 .mx4mx4 0xAE0 ⟨9, 6⟩),
        (0xE1019008, 0xC0009600, .mma 0 12 0 .ind .mx8mx8 8 ⟨9, 6⟩),
        (0xE2500000, 0xD7809600, .mdrain 5 13 7 ⟨true, false, false, .none, .f32, false, ⟨false, .rne⟩⟩ ⟨9, 6⟩),
        (0xE2500000, 0xD7499681, .mdrain 5 13 7 ⟨false, true, false, .relu, .bf16, true, ⟨false, .rtz⟩⟩ ⟨9, 6⟩),
        (0xE2500000, 0xD7329680, .mdrain 5 13 7 ⟨false, false, true, .clamp, .i8, true, ⟨false, .rne⟩⟩ ⟨9, 6⟩),
        (0xE2500000, 0xD7839680, .mdrain 5 13 7 ⟨true, false, false, .none, .i16, true, ⟨false, .rne⟩⟩ ⟨9, 6⟩),
        (0xE2500000, 0xD74C9680, .mdrain 5 13 7 ⟨false, true, false, .relu, .i32, true, ⟨false, .rne⟩⟩ ⟨9, 6⟩),
        (0xE2500000, 0xD7359680, .mdrain 5 13 7 ⟨false, false, true, .clamp, .i4, true, ⟨false, .rne⟩⟩ ⟨9, 6⟩),
        (0xE2D60000, 0x00009600, .mmov 5 3 ⟨9, 6⟩), (0xE3560000, 0x00009600, .mswap 5 3 ⟨9, 6⟩), (0xE3D00000, 0x88009600, .mstat 17 5 ⟨9, 6⟩)],
      (decodeWords x.1 x.2.1).toOption = some x.2.2 := by decide +kernel

/-- ROW and FLG (R100, R101). -/
theorem test_wordsRow :
    ∀ x ∈ [(0xE40D7ABC, 0x00259600, Instr.rsmax ⟨13, 7, 0xABC, 0, 0, .bf16, .f32, ⟨9, 6⟩, ⟨false, .rne⟩⟩),
        (0xE48D7ABC, 0x9D2C9600, .rexps ⟨13, 7, 0xABC, 19, 10, .f32, .bf16, ⟨9, 6⟩, ⟨false, .rne⟩⟩),
        (0xE50D7ABC, 0x05249600, .rscal ⟨13, 7, 0xABC, 0, 10, .bf16, .bf16, ⟨9, 6⟩, ⟨false, .rne⟩⟩),
        (0xE58D7ABC, 0x98299600, .rsoftmax ⟨13, 7, 0xABC, 19, 0, .f32, .i8, ⟨9, 6⟩, ⟨false, .rne⟩⟩),
        (0xE60D7ABC, 0x982D9600, .rnorm ⟨13, 7, 0xABC, 19, 0, .f32, .f32, ⟨9, 6⟩, ⟨false, .rne⟩⟩), (0xEB470000, 0, .fset 13 7),
        (0xEB570000, 0, .fwait 13 7)],
      (decodeWords x.1 x.2.1).toOption = some x.2.2 := by decide +kernel

/-! WellFormed: a term that each check refuses (R54, R80 to R101). -/

/-- Predicate prefix, fields, counts and shifts (R83, R121, R122, R124, R125). -/
theorem test_illFormedScalar :
    ∀ i ∈ [Instr.add 1 2 3 ⟨true, 0⟩, .clz 1 2 ⟨true, 0⟩, .ldi 1 ⟨true, 0⟩ 5, .shli 1 2 ⟨false, 0⟩ 64, .sraiExt 1 2 ⟨false, 0⟩ (-1), .bfx 1 2 63 1, .bfi 1 2 1 63,
        .loop 0 4, .call 0 4, .callr 0 4], i.wf = false := by decide +kernel

/-- Types of atomics (R88). -/
theorem test_illFormedAtomics :
    ∀ i ∈ [Instr.amoAdd 1 2 3 .n32, .amoOr 1 2 3 .f32, .amoCas 1 2 3 .n64, .damoAdd 2 3 .n64, .damoOr 2 3 .f32], i.wf = false := by decide +kernel

/-- Vector fields, types, rounding controls, register groups and immediates (R92 to R98, R180 to R207). -/
theorem test_illFormedVector :
    ∀ i ∈ [Instr.vadd (.v 1) (.o 1) (.o 2) .f32 mods, .vadd .stream .stream (.v 1) .f32 { mods with port := 1 }, .vadd (.v 1) (.v 2) (.v 3) .f32 { mods with port := 1 },
        .vadd (.v 1) (.v 2) (.v 3) .f32 { mods with rnd := ⟨true, .rne⟩ }, .vadd (.v 1) (.v 2) (.v 3) .i8 { mods with rnd := ⟨false, .rtz⟩ },
        .vmulz (.v 1) (.v 2) (.v 3) .i8 mods, .vmulh (.v 1) (.v 2) (.v 3) .f32 mods, .vmin (.v 1) (.v 2) (.v 3) .mx mods,
        .vshli (.v 1) (.v 2) 8 .i8 mods, .vfshl (.v 1) (.v 2) (.v 3) (.v 4) .i4 mods, .vceq 0 (.v 1) (.v 2) .i8 mods, .vcltn 1 (.v 1) (.v 2) .f32 mods,
        .vcun 1 (.v 1) (.v 2) .i8 mods, .pset 0 mods, .pset 1 { mods with port := 1 }, .plt 1 2 .mx mods, .vcvt (.v 1) (.v 2) .i8 .i8 mods,
        .vqnt (.v 1) (.v 2) (.v 3) .i32 mods, .vdqnt (.v 2) (.v 1) (.v 3) .i8 mods, .vdqnt (.v 4) (.v 1) (.v 3) .mx mods, .vpack4 (.v 1) (.v 2) (.v 3) .i4 mods,
        .vunpk4 (.v 1) (.v 2) .i4 mods, .vwid2 (.v 1) (.v 2) .i8 mods, .vwid4 (.v 2) (.v 1) .i8 mods, .vwmul2 (.v 2) (.v 1) (.v 3) .i32 mods,
        .vcomp (.v 1) (.v 2) .i8 { mods with z := true }, .vins (.v 1) 2 3 .i8 { mods with pm := 1 }, .vidx (.v 1) 2 .f32 mods,
        .vrsum (.v 1) (.v 2) .i8 { mods with z := true }, .vgmax (.v 1) (.v 2) 0 .i8 mods, .vgmax (.v 1) (.v 2) 8 .f32 mods, .vrcpe (.v 1) (.v 2) .bf16 mods,
        .vrcps (.v 1) (.v 2) (.v 3) .bf16 mods, .vrng (.v 1) 2 3 { mods with rnd := ⟨false, .rtz⟩ }, .vspill 1 (.v 2) { mods with port := 1 }], i.wf = false := by decide +kernel

/-- A MEMWR of one byte from host 7, behind UDP and with padding, by the fields of R376; the same header goes out again; the UDP port counts. -/
def wire1 (port : Nat) : Wire :=
  ⟨.udp port true, 3, 7, false, false, leBytes 8 (2 ^ 60 + 3 * 2 ^ 56 + 2047 * 2 ^ 45 + 2 ^ 34 + 4 * 2 ^ 25 + 1) ++ leBytes 8 5 ++
    leBytes 8 (9 * 2 ^ 32 + 2 * 2 ^ 16) ++ leBytes 8 0x1000 ++ [0xAB, 0]⟩
theorem test_frameLayout :
    ((readFrame (wire1 19860)).map fun f => ([f.ver, f.ftype, f.spkg, f.dpkg, f.vd, f.status, f.psn, f.inc, f.flow, f.addr], f.payload)) =
      some ([1, 3, 2047, 1, 4, 0, 5, 9, 2, 0x1000], [0xAB]) ∧
    (readFrame (wire1 19860)).map frameBytes = some ((wire1 0).bytes.take 33) ∧ readFrame (wire1 19861) = none := by decide +kernel

/-- Products, drains, row commands, flags and majors (R99 to R101, R79). -/
theorem test_illFormedEngines :
    ∀ i ∈ [Instr.mma 1 0 0 .s1x4 .bf16bf16 8 ⟨0, 0⟩, .mma 0 0 0 .s1x4 .bf16bf16 0 ⟨0, 0⟩, .mma 0 0 0 .s1x4 .bf16bf16 4 ⟨0, 0⟩, .mmaz 0 1 0 .ind .mx4mx4 2 ⟨0, 0⟩,
        .mmaz 0 0 1 .ind .mx4mx4 2 ⟨0, 0⟩, .mdrain 0 1 1 drain1 ⟨0, 0⟩, .mdrain 0 1 2 { drain1 with ot := .f32 } ⟨0, 0⟩,
        .mdrain 0 1 2 { drain1 with rs := false, act := .none, q := false } ⟨0, 0⟩, .rsmax { row1 with ot := .bf16 }, .rexps { row1 with sm := 5 },
        .rscal { row1 with sm := 7 }, .rsoftmax { row1 with sm := 1 }, .rnorm { row1 with ot := .i8 }, .rsoftmax { row1 with len := 0 }, .rsoftmax { row1 with so := 5 },
        .fset 1 0, .fwait 1 0, .unallocatedMajor 0x10 0 0, .unallocatedMajor 0x0F 0 1], i.wf = false := by decide +kernel
end Sys2Proof.Tests
end

section
/-!
Format FLG: what the words of major 0x3A decode to (R101). The zero fields and op are checked by decodeFlg; that CNT is not zero belongs to
Instr.wf, which enters where the parsed instruction becomes the answer of decodeWords.
-/
namespace Sys2Proof

/-! The answer of decodeWords from what parse finds. -/

theorem decodeWords_of_parse_none {w w1 : Nat} (h : parse w w1 = none) : decodeWords w w1 = .error .unallocated := by
  simp [decodeWords, decodeCode, h, Except.map]

theorem decodeWords_of_parse_instr {w w1 : Nat} {i : Instr} (h : parse w w1 = some (.instr i)) :
    decodeWords w w1 = if i.wf then .ok i else .error .unallocated := by
  cases hwf : i.wf <;> simp [decodeWords, decodeCode, h, Code.wf, Code.toInstr, hwf, Except.map]

/-! The fields of FLG. -/

theorem parse_of_major_flg {w : Nat} (w1 : Nat) (h : w / 2 ^ 26 = 0x3A) : parse w w1 = instrCode (decodeFlg w w1) := by
  have hmaj : fld w 26 6 = 0x3A := congrArg (· % 2 ^ 6) h
  simp [parse, hmaj]

/-- The rules of R101 that decodeFlg checks: the zero fields, and an op that is allocated. -/
abbrev FlgFieldsOk (w w1 : Nat) : Prop := fld w 0 16 = 0 ∧ w1 = 0 ∧ fld w 20 2 < 2

/-- The instruction that FN, op and CNT name, where op is allocated. -/
def flgInstr (w : Nat) : Instr :=
  if fld w 20 2 = 0 then .fset (f4 w 22) (f4 w 16) else .fwait (f4 w 22) (f4 w 16)

/-- fset and fwait have one rule of well-formedness: CNT is not zero. -/
theorem flgInstr_wf (w : Nat) : (flgInstr w).wf = (f4 w 16 != 0) := by
  unfold flgInstr
  split <;> rfl

theorem decodeFlg_of_fieldsOk {w w1 : Nat} (h : FlgFieldsOk w w1) : decodeFlg w w1 = some (flgInstr w) := by
  obtain ⟨hlow, hw1, hop⟩ := h
  have hop : fld w 20 2 = 0 ∨ fld w 20 2 = 1 := by omega
  rcases hop with hop | hop <;> simp [decodeFlg, flgInstr, onlyIf, hlow, hw1, hop]

theorem decodeFlg_of_not_fieldsOk {w w1 : Nat} (h : ¬ FlgFieldsOk w w1) : decodeFlg w w1 = none := by
  by_cases hzero : fld w 0 16 = 0 ∧ w1 = 0
  · have hlt : fld w 20 2 < 4 := Nat.mod_lt _ (by decide)
    have hop : fld w 20 2 = 2 ∨ fld w 20 2 = 3 := by omega
    rcases hop with hop | hop <;> simp [decodeFlg, onlyIf, hop]
  · simp [decodeFlg, onlyIf, hzero]

/-- Major 0x3A (R101): the zero fields, op and CNT decide. -/
theorem decodeWords_of_major_flg {w w1 : Nat} (h : w / 2 ^ 26 = 0x3A) :
    decodeWords w w1 = if FlgFieldsOk w w1 ∧ f4 w 16 ≠ 0 then .ok (flgInstr w) else .error .unallocated := by
  have hparse := parse_of_major_flg w1 h
  by_cases hok : FlgFieldsOk w w1
  · rw [decodeFlg_of_fieldsOk hok] at hparse
    rw [decodeWords_of_parse_instr hparse, flgInstr_wf]
    simp only [and_iff_right hok, bne_iff_ne]
  · rw [decodeFlg_of_not_fieldsOk hok] at hparse
    simp [decodeWords_of_parse_none hparse, hok]

/-- Settles O56: the statement's condition is FlgFieldsOk with CNT not zero, in other words. -/
theorem flagEncoding : Obligations.FlagEncoding := by
  intro w0 w1 hmaj f op cnt
  have hlow : fld w0.toNat 0 16 = w0.toNat % 2 ^ 16 := congrArg (· % 2 ^ 16) (Nat.div_one w0.toNat)
  have hw1 : w1.toNat = 0 ↔ w1 = 0 := (BitVec.toNat_eq (y := 0#32)).symm
  have hcond : FlgFieldsOk w0.toNat w1.toNat ∧ f4 w0.toNat 16 ≠ 0 ↔
      w0.toNat % 2 ^ 16 = 0 ∧ w1 = 0 ∧ cnt ≠ 0 ∧ op < 2 := by
    rw [FlgFieldsOk, hlow, hw1, show fld w0.toNat 20 2 = op from rfl, show f4 w0.toNat 16 = cnt from rfl]
    exact ⟨fun ⟨⟨hzero, hw1, hop⟩, hcnt⟩ => ⟨hzero, hw1, hcnt, hop⟩, fun ⟨hzero, hw1, hcnt, hop⟩ => ⟨⟨hzero, hw1, hop⟩, hcnt⟩⟩
  rw [decodeWords_of_major_flg hmaj]
  exact ite_congr (propext hcond) (fun _ => rfl) (fun _ => rfl)

end Sys2Proof
end

section
/-!
VFLG (R41, R133): a syswr of it clears the flags whose bit is one and changes nothing else; of all that a landing does, only the operation's own
VFLG bits reach it.
-/
namespace Sys2Proof.Machine

/-! The write. -/

theorem exec_syswr (num : BitVec 12) (ga : Reg) (s : State) : exec (.syswr num ga) s = execSyswr num ga s := rfl

/-- Where the register belongs to the slice and its level may write it, syswr writes it and ends (R132). -/
theorem execSyswr_writable {s : State} {num : BitVec 12} {r : SysReg} {ga : Reg} (hd : Declared s [.g ga] = true)
    (hreg : sysReg num = some r) (hslice : sysSlice r = none ∨ sysSlice r = some s.slice) (hlevel : sysWritable s.ctx.sup r = true) :
    execSyswr num ga s = .next (finish (sysWrite s r (gRead s ga)) 4) := by
  rcases hslice with hslice | hslice <;> simp [execSyswr, hreg, hslice, hlevel, checked_declared s _ hd]

theorem plainIssue_iff (s : State) : PlainIssue s = true ↔ s.slice = .c ∧ isControl s.ctx.c.cur.w0 = false := by
  simp [PlainIssue]

/-- A C-slice instruction that is no branch, jump, call or loop leaves the front end where it is (R118). -/
theorem finish_plainIssue {s : State} (h : PlainIssue s = true) (n : Nat) : finish s n = cIdle s := by
  obtain ⟨hslice, hplain⟩ := (plainIssue_iff s).mp h
  simp [finish, hslice, hplain, State.modC, cIdle]

/-- The write keeps the slice and the instruction that issues, so it ends as that instruction ends. -/
theorem sysWrite_vflg_plainIssue (s : State) (v : Word) : PlainIssue (sysWrite s .vflg v) = PlainIssue s := rfl

/-- VFLG belongs to the C-slice, and both levels may write it (R36). -/
theorem exec_syswr_vflg {s : State} {ga : Reg} (hd : Declared s [.g ga] = true) (hp : PlainIssue s = true) :
    exec (.syswr 0x003 ga) s = .next (cIdle (sysWrite s .vflg (gRead s ga))) := by
  have hslice : sysSlice .vflg = some s.slice := congrArg some ((plainIssue_iff s).mp hp).1.symm
  rw [exec_syswr, execSyswr_writable hd (r := .vflg) rfl (.inr hslice) rfl,
    finish_plainIssue ((sysWrite_vflg_plainIssue s _).trans hp)]

theorem sysWrite_vflg_getLsbD (s : State) (v : Word) (i : Fin 5) :
    (sysWrite s .vflg v).ctx.c.vflg.getLsbD i = (s.ctx.c.vflg.getLsbD i && !v.getLsbD i) := by
  simp [sysWrite]

/-! The landing. -/

/-- No effect of an operation writes VFLG. -/
theorem applyEffect_vflg (x : Context) (e : Effect) : (applyEffect x e).c.vflg = x.c.vflg := by
  cases e with
  | cReg r v => simp only [applyEffect, cWrite]; split <;> rfl
  | pred n v => simp only [applyEffect, pWrite]; split <;> rfl
  | vReg | oReg | slot | spad | acc | last => rfl

theorem foldl_applyEffect_vflg (effs : List Effect) (x : Context) : (effs.foldl applyEffect x).c.vflg = x.c.vflg := by
  induction effs generalizing x with
  | nil => rfl
  | cons e effs ih => rw [List.foldl_cons, ih, applyEffect_vflg]

theorem bumpFlag_vflg (c : CSide) (f : Fin 16) : (bumpFlag c f).vflg = c.vflg := by
  unfold bumpFlag
  split <;> rfl

/-- A landing raises the operation's VFLG bits over the flags that stand (R41). -/
theorem land_vflg (x : Context) (p : Pending) : (land x p).c.vflg = x.c.vflg ||| p.vflg := by
  simp only [land, bumpFlag_vflg, foldl_applyEffect_vflg]

/-- Settles O5: by what exec does with the write, and by what a landing adds. -/
theorem vflgWriteClears : Obligations.VflgWriteClears := by
  refine ⟨fun s ga hd hp => ⟨_, exec_syswr_vflg hd hp, ?flags, ?frame⟩, fun x p i => ?landing⟩
  case flags => exact sysWrite_vflg_getLsbD s (gRead s ga)
  case frame => rfl
  case landing => rw [land_vflg, BitVec.getLsbD_or]

end Sys2Proof.Machine
end

section
/-!
Predicate operations (R188, R189): how an instruction without a vector operand issues or waits for its await flag, and which bits of its
predicate the elements of each width write.
-/
namespace Sys2Proof.Machine

/-! Issue without a vector operand. -/

theorem checked_declared_c {s : State} {l : List Item} (hs : s.slice = .c) (h : Declared s l = true) (k : Out) :
    checked s (some .c) l k = k := by
  have hall : l.all (s.ctx.decl.has s.slice) = true := h
  simp [checked, checkItems, hs, hs ▸ hall]

/-- An await flag that is zero holds the instruction back before anything else is looked at (R29, R175). -/
theorem vectorOp_waits {s : State} {m : VMods} {items : List Item} (lat : Nat) (out : VOut)
    (hp : PlainIssue s = true) (hd : Declared s (items ++ .p m.pm :: flagItems m.sf m.af) = true) (haf : m.af ≠ 0)
    (hzero : s.ctx.c.f[m.af] = 0) : vectorOp m lat none 1 [] items false false (fun _ _ _ => out) s = .next (waitC s) := by
  have hawaits : awaits s m.af = true := by simp [awaits, haf, hzero]
  simp [vectorOp, readsPort, vdstItems, hawaits, checked_declared_c ((plainIssue_iff s).mp hp).1 hd]

theorem takeFlag_plainIssue (s : State) (af : Fin 16) : PlainIssue (takeFlag s af) = PlainIssue s := by
  unfold takeFlag
  split <;> rfl

theorem vDeliver_none_plainIssue (s : State) (lat : Nat) (m : VMods) (p : Option PortUse) (out : VOut) :
    PlainIssue (vDeliver s none lat m p out) = PlainIssue s := by
  cases out <;> rfl

/-- An instruction without a vector operand that may issue does so: no queue and no port has a part in it. -/
theorem vectorOp_of_ready {i : Instr} {s t : State} {m : VMods} {lat : Nat} {items : List Item} {p : Option PortUse}
    (out : VOut) (h : VReady i s m lat none 1 [] items false false t p) :
    vectorOp m lat none 1 [] items false false (fun _ _ _ => out) s = .next (vAfter s t m lat none [] p out) := by
  obtain ⟨-, hp, hd, haf, -, -, -, hsf, ⟨rfl, rfl, -⟩, -⟩ := h
  have hd : Declared t (items ++ .p m.pm :: flagItems m.sf m.af) = true := by simpa [vdstItems] using hd
  have hawaits : awaits t m.af = false := by simpa [awaits] using haf
  have hfull : flagFull t m.sf = false := by simpa [flagFull] using hsf
  have hplain : PlainIssue (vDeliver (takeFlag t m.af) none lat m none out) = true := by
    rw [vDeliver_none_plainIssue, takeFlag_plainIssue, hp]
  simp [vectorOp, readsPort, vdstItems, checked_declared_c ((plainIssue_iff t).mp hp).1 hd, hawaits, vqBlock, lqsOf, hfull,
    checkC, addC, finish_plainIssue hplain, vAfter, portAccs]

/-- What an instruction without a vector operand gives is what its body answers. -/
theorem vGives_of_exec {i : Instr} {m : VMods} {lat : Nat} {items : List Item} {P : State → Option PortUse → VOut → Prop}
    {out : State → VOut} (hexec : ∀ s, exec i s = vectorOp m lat none 1 [] items false false (fun _ _ _ => out s) s)
    (hout : ∀ s p, P s p (out s)) : VGives i m lat none 1 [] items false false P :=
  fun s _ p hready => ⟨out s, (hexec s).trans (vectorOp_of_ready (out s) hready), hout s p⟩

/-! Predicate logic (R188). -/

/-- The new bits where the mask is one, elsewhere the old ones or zeros (R177, R188). -/
theorem mergedPred_getLsbD (new mask old : Pred) (z : Bool) {k : Nat} (hk : k < 512) :
    ((new &&& mask) ||| (if z then 0 else old &&& ~~~mask)).getLsbD k =
      if mask.getLsbD k then new.getLsbD k else !z && old.getLsbD k := by
  cases z <;> cases hmask : mask.getLsbD k
  all_goals simp [hmask, hk, -BitVec.getLsbD_eq_getElem]

/-- An instruction that runs as predOp writes the bits of predOp's new value. -/
theorem predOp_gives {i : Instr} {pd : Fin 64} {ps : List (Fin 64)} {m : VMods} {new : State → Pred} {f : State → Nat → Bool}
    (hexec : ∀ s, exec i s = predOp pd ps m (new s) s) (hbits : ∀ s, ∀ k < 512, (new s).getLsbD k = f s k) :
    POpGives i pd ps m f := by
  refine vGives_of_exec hexec fun s _ => ⟨_, rfl, fun k hk => ?_⟩
  rw [mergedPred_getLsbD _ _ _ _ hk, hbits s k hk]
  rfl

/-! The bits of elements (R26, R177). -/

/-- An i4 element has half a byte; every other element has whole bytes, a number of them that divides 512. -/
theorem etWidth_nibble_or_bytes (t : EType) : etWidth t = 4 ∨ ∃ b, 0 < b ∧ b ∣ 512 ∧ etWidth t = 8 * b := by
  cases t
  case i4 => exact .inl rfl
  case i8 | mx => exact .inr ⟨1, by decide⟩
  case i16 | bf16 => exact .inr ⟨2, by decide⟩
  case i32 | f32 => exact .inr ⟨4, by decide⟩

/-- A one-bit lane in front is the lowest bit, and every other bit moves up by one. -/
theorem packLanes_one_cons_testBit_zero (b : Bool) (l : List Nat) :
    (packLanes 1 ((if b then 1 else 0) :: l)).testBit 0 = b := by
  have hlow : packLanes 1 ((if b then 1 else 0) :: l) % 2 = if b then 1 else 0 := by
    rw [packLanes]
    split <;> omega
  rw [Nat.testBit_zero, hlow]
  cases b <;> rfl

theorem packLanes_one_cons_testBit_succ (b : Bool) (l : List Nat) (k : Nat) :
    (packLanes 1 ((if b then 1 else 0) :: l)).testBit (k + 1) = (packLanes 1 l).testBit k := by
  have hhigh : packLanes 1 ((if b then 1 else 0) :: l) / 2 = packLanes 1 l := by
    rw [packLanes]
    split <;> omega
  rw [Nat.testBit_succ, hhigh]

/-- Lane `k` of one-bit lanes is bit `k` (R47). -/
theorem packLanes_one_testBit (bit : Nat → Bool) {n k : Nat} (hk : k < n) :
    (packLanes 1 ((List.range n).map fun j => if bit j then 1 else 0)).testBit k = bit k := by
  induction n generalizing bit k with
  | zero => omega
  | succ n ih =>
    rw [List.range_succ_eq_map, List.map_cons, List.map_map]
    cases k with
    | zero => exact packLanes_one_cons_testBit_zero ..
    | succ k => exact (packLanes_one_cons_testBit_succ ..).trans (ih (bit ∘ Nat.succ) (by omega))

/-- The predicate that a list of 512 bits packs into. -/
theorem packedPred_getLsbD (bit : Nat → Bool) {k : Nat} (hk : k < 512) :
    (BitVec.ofNat 512 (packLanes 1 ((List.range 512).map fun j => if bit j then 1 else 0))).getLsbD k = bit k := by
  rw [BitVec.getLsbD_ofNat, decide_eq_true hk, packLanes_one_testBit bit hk, Bool.true_and]

theorem maskOf_halves_range (bit : Nat → Bool) (n : Nat) :
    maskOf.halves ((List.range (2 * n)).map bit) = (List.range n).map fun k => if bit (2 * k) then 1 else 0 := by
  induction n generalizing bit with
  | zero => rfl
  | succ n ih =>
    simp only [Nat.mul_succ, List.range_succ_eq_map, List.map_cons, List.map_map, maskOf.halves]
    exact congrArg _ (ih (bit ∘ Nat.succ ∘ Nat.succ))

theorem predOut_pairs_range (f : Nat → Nat) (n : Nat) :
    predOut.pairs ((List.range (2 * n)).map f) = (List.range n).map fun k => f (2 * k) == 1 && f (2 * k + 1) == 1 := by
  induction n generalizing f with
  | zero => rfl
  | succ n ih =>
    simp only [Nat.mul_succ, List.range_succ_eq_map, List.map_cons, List.map_map, predOut.pairs]
    exact congrArg _ (ih (f ∘ Nat.succ ∘ Nat.succ))

/-- Each of `n` elements repeated `b` times: place `k` belongs to element `k / b`. -/
theorem flatMap_replicate_range {α : Type} (f : Nat → α) {b : Nat} (hb : 0 < b) (n : Nat) :
    ((List.range n).flatMap fun j => List.replicate b (f j)) = (List.range (n * b)).map fun k => f (k / b) := by
  induction n with
  | zero => simp
  | succ n ih =>
    have hlast : ∀ x ∈ List.range b, f ((n * b + x) / b) = f n := fun x hx => by
      rw [Nat.mul_comm, Nat.mul_add_div hb, Nat.div_eq_of_lt (List.mem_range.mp hx), Nat.add_zero]
    have hblock : ((List.range b).map fun x => f ((n * b + x) / b)) = List.replicate b (f n) := by
      rw [List.map_congr_left hlast, List.map_const', List.length_range]
    rw [List.range_succ, List.flatMap_append, ih, Nat.succ_mul, List.range_add, List.map_append, List.map_map,
      List.flatMap_singleton]
    exact congrArg _ hblock.symm

/-- Elements of `b` bytes, each repeated for its bytes: byte `k` belongs to the element that holds bit `8 * k`. -/
theorem flatMap_bytes_range {α : Type} (f : Nat → α) {b : Nat} (hb : 0 < b) (hdvd : b ∣ 512) :
    ((List.range (4096 / (8 * b))).flatMap fun j => List.replicate (8 * b / 8) (f j)) =
      (List.range 512).map fun k => f (8 * k / (8 * b)) := by
  rw [show 4096 = 8 * 512 from rfl, Nat.mul_div_mul_left 512 b (by decide), Nat.mul_div_cancel_left b (by decide),
    flatMap_replicate_range f hb, Nat.div_mul_cancel hdvd]
  simp only [Nat.mul_div_mul_left _ b (show 0 < 8 by decide)]

/-- The byte mask of elements: bit `k` is that of the element with byte `k`, for i4 of the lower of its two. -/
theorem maskOf_getLsbD (t : EType) (act : Nat → Bool) {k : Nat} (hk : k < 512) :
    (maskOf (etWidth t) ((List.range (4096 / etWidth t)).map act)).getLsbD k = act (8 * k / etWidth t) := by
  have hlist : maskOf (etWidth t) ((List.range (4096 / etWidth t)).map act) =
      BitVec.ofNat 512 (packLanes 1 ((List.range 512).map fun k => if act (8 * k / etWidth t) then 1 else 0)) := by
    obtain hw | ⟨b, hb, hdvd, hw⟩ := etWidth_nibble_or_bytes t
    · have hhalf : ∀ k, 8 * k / 4 = 2 * k := by omega
      simp only [hw, maskOf, if_true, hhalf]
      exact congrArg (fun l => BitVec.ofNat 512 (packLanes 1 l)) (maskOf_halves_range act 512)
    · have hw4 : 8 * b ≠ 4 := by omega
      simp only [hw, maskOf, hw4, if_false, List.flatMap_map]
      rw [flatMap_bytes_range (fun j => if act j then 1 else 0) hb hdvd]
  rw [hlist, packedPred_getLsbD (fun k => act (8 * k / etWidth t)) hk]

/-! Lanes (R177, R179). -/

/-- The lanes of elements: each active one computed, the others kept. -/
theorem mergeLanes_map (act : Nat → Bool) (keep : Nat → Nat) (f : Nat → FRes) (l : List Nat) :
    mergeLanes (l.map act) (l.map keep) (l.map fun j _ => f j) =
      (l.map fun j => if act j then (f j).1 else keep j, l.foldr (fun j fl => if act j then (f j).2 ||| fl else fl) 0#5) := by
  induction l with
  | nil => rfl
  | cons j l ih => cases h : act j <;> simp [mergeLanes, ih, h]

/-- The flags raised are those of the active elements (R179). -/
theorem foldr_flags_getLsbD (act : Nat → Bool) (f : Nat → FRes) (l : List Nat) (i : Fin 5) :
    (l.foldr (fun j fl => if act j then (f j).2 ||| fl else fl) 0#5).getLsbD i = true ↔
      ∃ j ∈ l, act j = true ∧ (f j).2.getLsbD i = true := by
  induction l with
  | nil => simp
  | cons j l ih => cases h : act j <;> simp [h, ih, -BitVec.getLsbD_eq_getElem]

/-! Predicate results of elements (R187, R189). -/

/-- The bits of a predicate from the results of its elements: for i4, two elements share a bit. -/
theorem predOut_bits_range (t : EType) (r : Nat → Nat) :
    (if etWidth t = 4 then predOut.pairs ((List.range (4096 / etWidth t)).map r)
      else ((List.range (4096 / etWidth t)).map r).flatMap fun b => List.replicate (etWidth t / 8) (b == 1)) =
    (List.range 512).map fun k => if etWidth t = 4 then r (2 * k) == 1 && r (2 * k + 1) == 1 else r (8 * k / etWidth t) == 1 := by
  obtain hw | ⟨b, hb, hdvd, hw⟩ := etWidth_nibble_or_bytes t
  · simp only [hw, if_true]
    exact predOut_pairs_range r 512
  · have hw4 : 8 * b ≠ 4 := by omega
    simp only [hw, hw4, if_false, List.flatMap_map]
    exact flatMap_bytes_range (fun j => r j == 1) hb hdvd

/-- A predicate result of as many elements as their width gives: the bits of each active one are its condition. -/
theorem predOut_predIs (t : EType) (m : VMods) (pm : Pred) (pd : Fin 64) (old : Pred) (f : Nat → FRes) :
    PredIs (etWidth t) m pm pd old f
      (predOut (etWidth t) m pm pd old ((List.range (4096 / etWidth t)).map fun j _ => f j)) := by
  have hlanes := mergeLanes_map (fun j => pm.getLsbD (j * etWidth t / 8)) (fun _ => 0) f (List.range (4096 / etWidth t))
  simp only [predOut, List.length_map, List.length_range, List.map_map, Function.comp_def, activeOf, hlanes, predOut_bits_range]
  refine ⟨_, _, rfl, fun k hk => ?bits, fun i => ?flags⟩
  case bits =>
    rw [mergedPred_getLsbD _ _ _ _ hk, maskOf_getLsbD t _ hk, packedPred_getLsbD _ hk]
    refine ite_congr rfl (fun hact => ?_) fun _ => rfl
    by_cases hw : etWidth t = 4
    · have hfirst : 2 * k * 4 / 8 = k := by omega
      have hsecond : (2 * k + 1) * 4 / 8 = k := by omega
      have hact : pm.getLsbD k = true := by rwa [hw, show 8 * k / 4 * 4 / 8 = k by omega] at hact
      simp only [hw, if_true, hfirst, hsecond, hact]
    · simp only [hw, if_false, hact, if_true]
  case flags =>
    simpa using foldr_flags_getLsbD (fun j => pm.getLsbD (j * etWidth t / 8)) f (List.range (4096 / etWidth t)) i

/-- An instruction that runs as predCount compares the numbers of its elements with the count (R189). -/
theorem predCount_gives {i : Instr} {pd : Fin 64} {ca : Reg} {t : EType} {m : VMods} {rel : Nat → Nat → Bool}
    (hexec : ∀ s, exec i s = predCount pd ca t m rel s) :
    VGives i m 2 none 1 [] [.p pd, .g ca] false false (fun s _ out =>
      PredIs (etWidth t) m (pRead s m.pm) pd (pRead s pd) (fun j => truth (rel j (gRead s ca).toNat)) out) :=
  vGives_of_exec hexec fun _ _ => predOut_predIs ..

/-- Settles O29: a logic form is predOp with its own new bits, a count form is predCount with its own relation, and a zero await flag comes
before both. -/
theorem predicateOperations : Obligations.PredicateOperations := by
  refine ⟨fun pd pa pb m => ⟨?and, ?or, ?xor, ?andn, ?not, ?set, ?clr⟩, fun pd ca t m => ⟨?plt, ?pge⟩, fun s pd m hp hd haf hzero => ?await⟩
  case and => exact predOp_gives (fun _ => rfl) fun s k _ => BitVec.getLsbD_and
  case or => exact predOp_gives (fun _ => rfl) fun s k _ => BitVec.getLsbD_or
  case xor => exact predOp_gives (fun _ => rfl) fun s k _ => BitVec.getLsbD_xor
  case andn => exact predOp_gives (fun _ => rfl) fun s k hk => by simp [hk, -BitVec.getLsbD_eq_getElem]
  case not => exact predOp_gives (fun _ => rfl) fun s k hk => by simp [hk, -BitVec.getLsbD_eq_getElem]
  case set => exact predOp_gives (fun _ => rfl) fun s k hk => by rw [Pred.ones, BitVec.getLsbD_allOnes, decide_eq_true hk]
  case clr => exact predOp_gives (fun _ => rfl) fun s k hk => BitVec.getLsbD_zero
  case plt => exact predCount_gives (rel := fun j c => decide (j < c)) fun _ => rfl
  case pge => exact predCount_gives (rel := fun j c => decide (j ≥ c)) fun _ => rfl
  case await => exact ⟨vectorOp_waits 2 _ hp hd haf hzero, vectorOp_waits 2 _ hp hd haf hzero⟩

end Sys2Proof.Machine
end
